-- ==== Sys2Proof/Word.lean ====
section
/-!
DEFINITION. Sys2Proof/Word.lean: the machine's word types (R2, R3).
A byte is 8 bits, a scalar token 64, a vector token 2048, a mask 128.
-/
namespace Sys2Proof

/-- Eight bits, the smallest addressable unit (R3). -/
abbrev Byte := BitVec 8
/-- A scalar token or a 64-bit register (R47, R62). -/
abbrev Word := BitVec 64
/-- A vector of 2048 bits (R47, R64). -/
abbrev Vec := BitVec 2048
/-- A mask token, and the lane validity of a vector: one bit for each 16-bit granule (R47). -/
abbrev Mask := BitVec 128

end Sys2Proof
end

