-- ==== Sys2Proof/Config.lean ====
section
/-!
DEFINITION. Sys2Proof/Config.lean: what one implementation fixes, and the free values of R6. A free value is an opaque constant
applied to a counter of the state (log 5): no proof can see it, so a statement about it holds whatever it is.
-/
namespace Sys2Proof.Config

/-- A choice that the spec leaves open: old or new byte, which of two entries serves, and the like. -/
opaque freeBit : Nat → Bool
/-- A byte whose value the spec calls unspecified. -/
opaque freeByte : Nat → Byte
/-- A word whose value the spec calls unspecified. -/
opaque freeWord : Nat → Word

/-- DCMAP of each die: the disabled site of each region group, from fuses (R346, R353). -/
opaque dcmapFuses : Nat → BitVec 48

/-- The routing tables: ROUTE bytes to an endpoint, given the ports whose links are up (R403, R405, R408). -/
opaque routeWord : BitVec 16 → BitVec 9 → Word
/-- Switches on that path: at most three (R19, R403). -/
opaque routeHops : BitVec 16 → BitVec 9 → BitVec 2

/-- Host endpoints that own the partition at an endpoint, as its firmware configuration names them (R403). -/
opaque isOwner : BitVec 9 → BitVec 9 → Bool

/-- The DK40's family code and unit bits (R346, R352). -/
def fam : BitVec 8 := 0x40
def allUnits : BitVec 12 := 0xFFF

/-- L1: 512 lines of 128 bytes (R107). -/
def l1Lines : Nat := 512
/-- A line is dropped at the latest this many cycles after its fill (R119). -/
def l1Life : Nat := 8192
/-- Cycles of one SC window (R123). -/
def scWindow : Nat := 64
/-- Resends of an unacknowledged packet (R409). -/
def maxResend : Nat := 7

end Sys2Proof.Config
end

