-- ==== Sys2Proof/Fields.lean ====
section
/-!
DEFINITION. Sys2Proof/Fields.lean: the operand fields of the instruction words (R136 to R156): element types, spaces,
scopes, orderings, targets, and the sub-operations of each major.
-/
namespace Sys2Proof

/-- Element types, in the order of their 5-bit codes (R143). -/
inductive Ty where
  | i8 | i16 | i32 | i64 | n8 | n16 | n32 | n64
  | f16 | bf16 | f32 | f64 | e4m3 | e5m2 | t8 | t6
  | e2m3 | e3m2 | e2m1
deriving DecidableEq, Repr

/-- The 5-bit code of a type (R143). -/
def Ty.code : Ty → BitVec 5
  | .i8 => 0 | .i16 => 1 | .i32 => 2 | .i64 => 3 | .n8 => 4 | .n16 => 5 | .n32 => 6 | .n64 => 7
  | .f16 => 8 | .bf16 => 9 | .f32 => 10 | .f64 => 11 | .e4m3 => 12 | .e5m2 => 13 | .t8 => 14 | .t6 => 15
  | .e2m3 => 16 | .e3m2 => 17 | .e2m1 => 18

/-- The type of a 5-bit code; codes 10011 to 11111 are not assigned (R143). -/
def Ty.ofCode (c : BitVec 5) : Option Ty :=
  match c.toNat with
  | 0 => some .i8 | 1 => some .i16 | 2 => some .i32 | 3 => some .i64
  | 4 => some .n8 | 5 => some .n16 | 6 => some .n32 | 7 => some .n64
  | 8 => some .f16 | 9 => some .bf16 | 10 => some .f32 | 11 => some .f64
  | 12 => some .e4m3 | 13 => some .e5m2 | 14 => some .t8 | 15 => some .t6
  | 16 => some .e2m3 | 17 => some .e3m2 | 18 => some .e2m1
  | _ => none

/-- Width of an element in bits (R75, R143). -/
def Ty.width : Ty → Nat
  | .i8 | .n8 | .e4m3 | .e5m2 | .t8 => 8
  | .i16 | .n16 | .f16 | .bf16 => 16
  | .i32 | .n32 | .f32 => 32
  | .i64 | .n64 | .f64 => 64
  | .t6 | .e2m3 | .e3m2 => 6
  | .e2m1 => 4

/-- The eight integer types. -/
def Ty.isInt : Ty → Bool
  | .i8 | .i16 | .i32 | .i64 | .n8 | .n16 | .n32 | .n64 => true
  | _ => false

/-- The signed integer types (.i forms). -/
def Ty.isSigned : Ty → Bool
  | .i8 | .i16 | .i32 | .i64 => true
  | _ => false

/-- FL, the float lanes (R143). -/
def Ty.isFL : Ty → Bool
  | .f16 | .bf16 | .f32 | .f64 => true
  | _ => false

/-- IL, the integer lanes (R143). -/
def Ty.isIL : Ty → Bool
  | .i16 | .i32 | .i64 | .n16 | .n32 | .n64 => true
  | _ => false

/-- LT, the lane types (R143). -/
def Ty.isLT (t : Ty) : Bool := t.isFL || t.isIL

/-- ST, the scalar memory types (R143). -/
def Ty.isST (t : Ty) : Bool := t.isInt || t.isFL

/-- The types a 4-bit TY field can name (R138). -/
def Ty.is4 : Ty → Bool
  | .e2m3 | .e3m2 | .e2m1 => false
  | _ => true

/-- PM (R136): code 11 is no value of this type. -/
inductive Pm where | always | ifTrue | ifFalse
deriving DecidableEq, Repr

/-- Slots of a consumer (R137); at index 127 they are the tests q0 to q3. -/
inductive Slot where | a | b | c | p
deriving DecidableEq, Repr

/-- 0 to 3, the code of a slot (R137). -/
def Slot.num : Slot → Nat | .a => 0 | .b => 1 | .c => 2 | .p => 3

/-- A valid target: consumer index and slot (R137). -/
structure Target where
  idx : BitVec 7
  slot : Slot
deriving DecidableEq, Repr

/-- The fields common to every instruction: PM, LP and the targets (R136). `t1` is none in a one-target format. -/
structure Ctl where
  pm : Pm
  lp : Bool
  t0 : Option Target
  t1 : Option Target
deriving DecidableEq, Repr

/-- Register files that READ and WRITE reach (R62). -/
inductive RegClass where | g | v | m | b | l | fsr
deriving DecidableEq, Repr

/-- Number of registers in each file (R62). -/
def RegClass.count : RegClass → Nat
  | .g => 128 | .v => 64 | .m => 16 | .b => 4 | .l => 4 | .fsr => 1

/-- Spaces (R99). -/
inductive Space where | gl | sp | sw | nb | sb
deriving DecidableEq, Repr

/-- Scopes (R116). -/
inductive Scope where | task | gang | die | pkg | dom
deriving DecidableEq, Repr

/-- Ordering annotations (R140). -/
inductive Ord where | rlx | acq | rel | ar
deriving DecidableEq, Repr

def Ord.isAcq : Ord → Bool | .acq | .ar => true | _ => false
def Ord.isRel : Ord → Bool | .rel | .ar => true | _ => false

/-- W and N of the integer majors (R147). -/
structure IForm where
  /-- 64-bit form -/
  w : Bool
  /-- natural form -/
  n : Bool
deriving DecidableEq, Repr

inductive ConstKind where | i | n | hi
deriving DecidableEq, Repr
inductive ShiftOp where | shl | shr | sra | rol
deriving DecidableEq, Repr
inductive BitfOp where | extz | exts | ins | clz | ctz | popc | brev
deriving DecidableEq, Repr
/-- The forms of BITF that read slot B. -/
def BitfOp.usesB : BitfOp → Bool | .extz | .exts | .ins => true | _ => false
inductive IcmpOp where | eq | ne | lt | le
deriving DecidableEq, Repr
inductive ExtSize where | x8 | x16 | x32
deriving DecidableEq, Repr
def ExtSize.bits : ExtSize → Nat | .x8 => 8 | .x16 => 16 | .x32 => 32
inductive FmaKind where | fma | fms | fnma
deriving DecidableEq, Repr
inductive FMinMax where | min | max | minnum | maxnum
deriving DecidableEq, Repr
inductive FcmpOp where | eq | ne | lt | le | un
deriving DecidableEq, Repr
inductive RintMode where | fsr | rne | rtz | rup | rdn
deriving DecidableEq, Repr
inductive VIOp where | add | sub | mul | mulhi | addsat | subsat | min | max
deriving DecidableEq, Repr
inductive VLogicOp where | and | or | xor | andn | not
deriving DecidableEq, Repr
inductive MaskOp where | mand | mor | mxor | mnot | mpopc | mfirst | mfromi
deriving DecidableEq, Repr
inductive RedOp where | add | min | max | and | or | xor
deriving DecidableEq, Repr
/-- The bitwise reductions, for integer lanes only (R149). -/
def RedOp.isBitwise : RedOp → Bool | .and | .or | .xor => true | _ => false
inductive MxFmt where | e4m3 | e5m2 | e2m3 | e3m2 | e2m1
deriving DecidableEq, Repr
def MxFmt.ty : MxFmt → Ty
  | .e4m3 => .e4m3 | .e5m2 => .e5m2 | .e2m3 => .e2m3 | .e3m2 => .e3m2 | .e2m1 => .e2m1
inductive VqtOp where | toT8 | toT6 | fromT8 | fromT6
deriving DecidableEq, Repr
inductive AmoOp where
  | add | and | or | xor | min | max | minn | maxn | swap | faddF32 | faddBf16x2
deriving DecidableEq, Repr
inductive FenceKind where | rr | rw | wr | ww | all
deriving DecidableEq, Repr
inductive BkOp where | add | max | min | inc | hist | faddF32 | faddBf16x2
deriving DecidableEq, Repr

/-- LSID, SP, SC and OR of format M (R140). -/
structure MemF where
  lsid : BitVec 5
  sp : Space
  sc : Scope
  ord : Ord
deriving DecidableEq, Repr

/-- KN with CNT, and REL, of format A (R142). -/
structure CmdOpt where
  ctr : Option (BitVec 5)
  rel : Bool
deriving DecidableEq, Repr

end Sys2Proof
end

