-- ==== Sys2Proof/Packet.lean ====
section
/-!
DEFINITION. Sys2Proof/Packet.lean: the contents of packets and harbour-controller commands (R404 to R415, R430), and the
plain-data names of tickets and descriptors that events carry.
-/
namespace Sys2Proof

/-- A ticket (R236): ENG 0001 copy, 0010 matrix, 0011 signature, 0100 routing and dispatch, 0101 collective, 0110 launch. -/
structure Ticket where
  eng : BitVec 4
  serial : BitVec 16
deriving DecidableEq, Repr

/-- The operation of a memory request (R406 CLASS 0000). -/
inductive ReqOp where
  | load
  | store
  /-- a store of the bits of a mask of each byte (R223) -/
  | storeBits (mask : List Byte)
  /-- asks whether an atomic of these bytes would be refused; it reads and changes nothing (log 21) -/
  | check
  | amo (op : AmoOp) (w64 : Bool)
  | cas (w64 : Bool)
deriving DecidableEq, Repr

/-- Why a packet is refused (R406 CLASS 1001). -/
inductive RefuseWhy where
  /-- a full queue; the hint H of R356 -/
  | nak (hint : Nat)
  /-- retry later: the task is switched out or its command suspended -/
  | retry
  /-- refused without retry; the field is a DETAIL or a check number (R414) -/
  | reject (reason : Nat)
deriving DecidableEq, Repr

/-- A harbour-controller command with its operands (R414): submitted by a host or through a supervisor ring. -/
inductive HostCmd where
  | createQueue (queue : BitVec 10) (space : BitVec 16)
  | destroyQueue (queue : BitVec 10)
  | resumeSpace (space : BitVec 16)
  /-- 0 AGEI, 1 STARVE, 2 PQUIET, 3 ETO -/
  | setParam (which : BitVec 2) (value : Nat)
  /-- the partition number of each die, and the endpoint number of each partition -/
  | setPartitions (part : List Nat) (endp : List (BitVec 9))
  | writeIngress (ph4 ph5 : Word) (ew : List Word)
  | writeDoorbell (ph4 ph5 : Word) (ew : List Word)
  /-- members are (endpoint, space, queue, WID); `members = []` removes the barrier -/
  | domainBarrier (bar : BitVec 9) (home : BitVec 9) (dbto : Nat)
      (members : List (BitVec 9 × BitVec 16 × BitVec 10 × Word))
  | migratePage (space : BitVec 16) (va : Word) (frame : BitVec 24)
  | preempt (gang : Nat)
  /-- the events of a die's black box from one on, oldest first -/
  | readBlackBox (die : BitVec 2) (first : Nat)
  | freeze
deriving DecidableEq, Repr

/-- Command codes (R414). -/
def HostCmd.code : HostCmd → Nat
  | .createQueue _ _ => 0x01
  | .destroyQueue _ => 0x02
  | .resumeSpace _ => 0x03
  | .setParam _ _ => 0x04
  | .setPartitions _ _ => 0x05
  | .writeIngress _ _ _ => 0x06
  | .writeDoorbell _ _ _ => 0x07
  | .domainBarrier _ _ _ _ => 0x08
  | .migratePage _ _ _ => 0x09
  | .preempt _ => 0x0A
  | .readBlackBox _ _ => 0x0B
  | .freeze => 0x0C

/-- What a packet carries in PH4, PH5 and its payload, by class (R406). -/
inductive Body where
  /-- CLASS 0000 -/
  | memReq (op : ReqOp) (addr : BitVec 40) (size : Nat) (data : List Byte)
  /-- CLASS 0001: the tag answered; `cause` 0 or the fault it reports; `fwd` is the forwarded bit of R388 -/
  | reply (tag : BitVec 32) (cause : BitVec 8) (data : List Byte) (fwd : Bool)
  /-- CLASS 0010 -/
  | launch (queue : BitVec 10) (desc : List Word)
  /-- CLASS 0011 -/
  | doorbell (value : BitVec 32) (number : BitVec 24)
  /-- CLASS 0100: part of a dispatch row to berth row `berth`: weight, carried scores, and the codes from element `off` on with their
  scale bytes; the row has `parts` such packets (R277, R278, R406) -/
  | row (serial : BitVec 32) (i : Nat) (weight : BitVec 32) (berth : Nat) (fmt : Ty) (codes : List Nat) (scales : List Byte)
      (scores : List (BitVec 64 × Ty × Int)) (off parts : Nat) (sender : Nat) (tk : Ticket)
  /-- CLASS 0101: part of a return of row i, from element `off` on (R280, R406) -/
  | ret (serial : BitVec 32) (i : Nat) (vals : List (BitVec 32)) (off parts : Nat) (sender : Nat) (tk : Ticket)
  /-- CLASS 0101: the marker that closes the returns of a pool -/
  | retMarker (serial : BitVec 32) (die : BitVec 2) (sender : Nat) (tk : Ticket)
  /-- CLASS 0110: part of the contribution of a member to a collective, from element `off` on, with the values that every member must
  share (R289): codes with the exponent of their scale, none for the NaN scale (R67). Along an ACC route it also brings what it has combined,
  as the contributions of the members before (R405) -/
  | chunk (cser : BitVec 32) (from_ to_ : Nat) (agree : List Nat) (fmt : Ty) (off : Nat)
      (vals : List (BitVec 64 × Option Int)) (more : List (Nat × List (BitVec 64 × Option Int))) (sender : Nat) (tk : Ticket)
  /-- CLASS 0111: berth request (LOC, count) (R275) -/
  | poolReq (serial : BitVec 32) (die : BitVec 2) (wants : List (Nat × Nat)) (sender : Nat) (tk : Ticket)
  /-- CLASS 0111: the grants (LOC, first row, count) -/
  | poolGrant (serial : BitVec 32) (die : BitVec 2) (grants : List (Nat × Nat × Nat)) (sender : Nat) (tk : Ticket)
  /-- CLASS 0111: closing marker with the number of rows sent (R277) -/
  | marker (serial : BitVec 32) (die : BitVec 2) (rows : Nat) (sender : Nat) (tk : Ticket)
  /-- a domain-barrier arrival of a member (R398) -/
  | arrival (bar : BitVec 9) (member : Nat)
  /-- a proxy absence token, given or withdrawn (R399) -/
  | absence (bar : BitVec 9) (member : Nat) (standing : Bool)
  /-- a barrier's home tells a member that a phase completed (R398) -/
  | phase (bar : BitVec 9) (member : Nat) (phase : Nat)
  /-- a member of a barrier has retired (R398) -/
  | retired (bar home : BitVec 9) (member : Nat)
  /-- a barrier's home tells a member that its timeout has expired (R399) -/
  | expired (bar : BitVec 9) (member : Nat)
  /-- CLASS 1000 -/
  | host (cmd : HostCmd)
  /-- CLASS 1001 -/
  | refusal (tag : BitVec 32) (why : RefuseWhy)
deriving DecidableEq, Repr

/-- PH4 of the classes whose arguments the spec lays out (R406, R430). -/
def Body.ph4 : Body → Word
  | .launch q _ => q.setWidth 64
  | .doorbell v n => BitVec.ofNat 64 (v.toNat * 2 ^ 32 + n.toNat)
  | .host (.writeIngress a _ _) => BitVec.ofNat 64 (0x06 * 2 ^ 56 + a.toNat % 2 ^ 56)
  | .host (.writeDoorbell a _ _) => BitVec.ofNat 64 (0x07 * 2 ^ 56 + a.toNat % 2 ^ 56)
  | .host c => BitVec.ofNat 64 (c.code * 2 ^ 56)
  | _ => 0

/-- PH5 of those classes. -/
def Body.ph5 : Body → Word
  | .host (.writeIngress _ b _) | .host (.writeDoorbell _ b _) => b
  | _ => 0

/-- A packet (R404): its header words as they stand, the number of payload flits received, and what PH4, PH5 and the payload say. -/
structure Packet where
  ph0 : Word
  ph1 : Word
  ph2 : Word
  ph3 : Word
  ph4 : Word
  ph5 : Word
  ph6 : Word
  ph7 : Word
  flits : Nat
  body : Body
  /-- the task that sent it, for a packet between two agents of one endpoint (the model's own) -/
  task : Nat := 0
deriving DecidableEq, Repr

end Sys2Proof
end

