-- ==== Sys2Proof/Syntax.lean ====
section
/-!
DEFINITION. Sys2Proof/Syntax.lean: the ONE inductive of the rows of spec/opcode_table.json. The first part are the
instruction words of R145 to R153 with their fields; the second part are the whole-machine events of
95_what_each_step_holds.md with the contents that come from outside the machine.
-/
namespace Sys2Proof

/-- One constructor for each row of the table. -/
inductive Instr where
  -- block control, 0x01 to 0x0A (R160 to R172)
  | read (c : Ctl) (cls : RegClass) (reg : BitVec 8)
  | write (c : Ctl) (cls : RegClass) (reg : BitVec 8)
  | fan (c : Ctl)
  | null (c : Ctl)
  | nullIsn (c : Ctl)
  | const (c : Ctl) (k : ConstKind) (imm : BitVec 32)
  | ptb (c : Ctl) (b : BitVec 2)
  | widf (c : Ctl) (lvl : Bool) (k : BitVec 3)
  | sread (c : Ctl) (sel : BitVec 8)
  | spawn (c : Ctl) (o : CmdOpt)
  | trap (c : Ctl) (code : BitVec 13)
  -- scalar integer, 0x10 to 0x1F (R173 to R184)
  | add (c : Ctl) (f : IForm) (sat : Bool) (imm : Option (BitVec 13))
  | sub (c : Ctl) (f : IForm) (sat : Bool) (imm : Option (BitVec 13))
  | mul (c : Ctl) (f : IForm) (hi : Bool) (imm : Option (BitVec 13))
  | div (c : Ctl) (f : IForm) (rem : Bool) (imm : Option (BitVec 13))
  | and (c : Ctl) (w : Bool) (imm : Option (BitVec 13))
  | or (c : Ctl) (w : Bool) (imm : Option (BitVec 13))
  | xor (c : Ctl) (w : Bool) (imm : Option (BitVec 13))
  | andn (c : Ctl) (w : Bool) (imm : Option (BitVec 13))
  | shift (c : Ctl) (w : Bool) (op : ShiftOp) (imm : Option (BitVec 13))
  | bitf (c : Ctl) (w : Bool) (op : BitfOp) (imm : Option (BitVec 13))
  | minmax (c : Ctl) (f : IForm) (max : Bool) (imm : Option (BitVec 13))
  | icmp (c : Ctl) (f : IForm) (op : IcmpOp) (imm : Option (BitVec 13))
  | sel (c : Ctl) (imm : Option (BitVec 13))
  | addr (c : Ctl) (sh : BitVec 3) (off : BitVec 13)
  | addi (c : Ctl) (w : Bool) (imm : BitVec 32)
  | ext (c : Ctl) (f : IForm) (sz : ExtSize)
  -- scalar floating point, 0x20 to 0x29 (R185 to R193)
  | fadd (c : Ctl) (t : Ty)
  | fsub (c : Ctl) (t : Ty)
  | fmul (c : Ctl) (t : Ty)
  | ffma (c : Ctl) (t : Ty) (k : FmaKind)
  | fdiv (c : Ctl) (t : Ty)
  | fsqrt (c : Ctl) (t : Ty)
  | fminmax (c : Ctl) (t : Ty) (op : FMinMax)
  | fcmp (c : Ctl) (t : Ty) (op : FcmpOp)
  | fcvt (c : Ctl) (t : Ty) (fromInt : Bool) (ty : Ty)
  | fclass (c : Ctl) (t : Ty)
  | frint (c : Ctl) (t : Ty) (mode : RintMode)
  -- vector, mask and conversion, 0x30 to 0x4E (R194 to R217)
  | vadd (c : Ctl) (t : Ty)
  | vsub (c : Ctl) (t : Ty)
  | vmul (c : Ctl) (t : Ty)
  | vfma (c : Ctl) (t : Ty) (k : FmaKind)
  | vdiv (c : Ctl) (t : Ty)
  | vsqrt (c : Ctl) (t : Ty)
  | vrsq (c : Ctl) (t : Ty)
  | vrcp (c : Ctl) (t : Ty)
  | vexp2 (c : Ctl) (t : Ty)
  | vlog2 (c : Ctl) (t : Ty)
  | vminmax (c : Ctl) (t : Ty) (op : FMinMax)
  | vabs (c : Ctl) (t : Ty)
  | vneg (c : Ctl) (t : Ty)
  | viarith (c : Ctl) (t : Ty) (op : VIOp) (imm : Option (BitVec 13))
  | vlogic (c : Ctl) (t : Ty) (op : VLogicOp) (imm : Option (BitVec 13))
  | vshift (c : Ctl) (t : Ty) (op : ShiftOp) (imm : Option (BitVec 13))
  | vcmp (c : Ctl) (t : Ty) (op : FcmpOp) (imm : Option (BitVec 13))
  | vsel (c : Ctl) (t : Ty)
  | maskop (c : Ctl) (t : Ty) (op : MaskOp)
  | viota (c : Ctl) (t : Ty) (m : Bool)
  | vbcast (c : Ctl) (t : Ty)
  | vextr (c : Ctl) (t : Ty) (imm : Option (BitVec 13))
  | vins (c : Ctl) (t : Ty) (imm : Option (BitVec 13))
  | vperm (c : Ctl) (t : Ty) (two : Bool) (imm : Option (BitVec 13))
  | vslide (c : Ctl) (t : Ty) (down : Bool) (imm : Option (BitVec 13))
  | vred (c : Ctl) (t : Ty) (op : RedOp)
  | vscan (c : Ctl) (t : Ty) (op : RedOp)
  | vdot (c : Ctl) (t : Ty)
  | vcvt (c : Ctl) (t : Ty) (ty : Ty)
  | vqmx (c : Ctl) (t : Ty) (fmt : MxFmt) (scl : Bool)
  | vdqmx (c : Ctl) (t : Ty) (fmt : MxFmt)
  | vqt (c : Ctl) (t : Ty) (op : VqtOp)
  | vpack (c : Ctl) (t : Ty) (sat : Bool)
  | vunpk (c : Ctl) (t : Ty) (hi : Bool)
  -- memory, 0x50 to 0x5B (R218 to R225)
  | ld (c : Ctl) (t : Ty) (m : MemF) (disp : BitVec 20)
  | st (c : Ctl) (t : Ty) (m : MemF) (disp : BitVec 20)
  | vld (c : Ctl) (t : Ty) (m : MemF) (disp : BitVec 20)
  | vst (c : Ctl) (t : Ty) (m : MemF) (disp : BitVec 20)
  | vlds (c : Ctl) (t : Ty) (m : MemF) (disp : BitVec 20)
  | vsts (c : Ctl) (t : Ty) (m : MemF) (disp : BitVec 20)
  | vgath (c : Ctl) (t : Ty) (m : MemF) (disp : BitVec 20)
  | vscat (c : Ctl) (t : Ty) (m : MemF) (disp : BitVec 20)
  | tld (c : Ctl) (t : Ty) (m : MemF) (td : BitVec 6)
  | tst (c : Ctl) (t : Ty) (m : MemF) (td : BitVec 6)
  | pref (c : Ctl) (l2 : Bool) (m : MemF) (disp : BitVec 20)
  | vjoin (c : Ctl) (lsid : BitVec 5)
  -- synchronisation, 0x60 to 0x6C (R226 to R244)
  | amo (c : Ctl) (op : AmoOp) (sc : Bool) (w64 : Bool) (m : MemF) (disp : BitVec 20)
  | cas (c : Ctl) (sc : Bool) (w64 : Bool) (m : MemF) (disp : BitVec 20)
  | fence (c : Ctl) (k : FenceKind) (lsid : BitVec 5) (sc : Scope)
  | barInit (c : Ctl) (lsid : BitVec 5) (b : BitVec 9)
  | barArrive (c : Ctl) (lsid : BitVec 5) (b : BitVec 9)
  | barWait (c : Ctl) (lsid : BitVec 5) (b : BitVec 9)
  | barSync (c : Ctl) (lsid : BitVec 5) (b : BitVec 9)
  | bkop (c : Ctl) (op : BkOp) (t : Ty) (m : MemF) (disp : BitVec 20)
  | ctrInc (c : Ctl) (lsid : BitVec 5) (rel : Bool) (k : BitVec 5)
  | ctrAdd (c : Ctl) (lsid : BitVec 5) (rel gang : Bool) (k : BitVec 5)
  | ctrSet (c : Ctl) (lsid : BitVec 5) (rel : Bool) (k : BitVec 5)
  | ctrReset (c : Ctl) (lsid : BitVec 5) (rel : Bool) (k : BitVec 5)
  | ctrResetKeep (c : Ctl) (lsid : BitVec 5) (rel : Bool) (k : BitVec 5)
  | ctrRead (c : Ctl) (lsid : BitVec 5) (k : BitVec 5)
  | ctrwait (c : Ctl) (lsid : BitVec 5) (sc : Scope) (k : BitVec 5)
  | arm (c : Ctl) (rel : Bool) (k : BitVec 5)
  | chbindOwn (c : Ctl) (h : BitVec 4)
  | chbindProd (c : Ctl) (h : BitVec 4)
  | chbindCons (c : Ctl) (h : BitVec 4)
  | chwait (c : Ctl) (prod : Bool) (h : BitVec 4)
  | chadv (c : Ctl) (prod : Bool) (h : BitVec 4)
  | copy (c : Ctl) (tda tdb : BitVec 6) (o : CmdOpt)
  | copyCh (c : Ctl) (tda tdb : BitVec 6) (h : BitVec 4) (o : CmdOpt)
  | copyw (c : Ctl)
  | copywTest (c : Ctl)
  -- matrix, 0x70 to 0x78 (R245 to R261)
  | tdset (c : Ctl) (td : BitVec 6) (n : BitVec 2)
  | tdget (c : Ctl) (td : BitVec 6) (n : BitVec 2)
  | mzero (c : Ctl) (tile : BitVec 3) (o : CmdOpt)
  | mma (c : Ctl) (tb : Bool) (tda tdb : BitVec 6) (tile : BitVec 3) (o : CmdOpt)
  | mmag (c : Ctl) (tb : Bool) (tda tdb : BitVec 6) (tile : BitVec 3) (o : CmdOpt)
  | gmma (c : Ctl) (tda tdb tdc : BitVec 6) (tile : BitVec 3) (o : CmdOpt)
  | mlda (c : Ctl) (lsid : BitVec 5) (sc : Scope) (acq : Bool) (td : BitVec 6) (tile : BitVec 3)
  | msta (c : Ctl) (lsid : BitVec 5) (sc : Scope) (td : BitVec 6) (tile : BitVec 3)
  | mwait (c : Ctl)
  | mwaitTest (c : Ctl)
  -- routing and collectives, 0x80 to 0x89 (R262 to R289)
  | rgrp (c : Ctl) (tda tdb tdc : BitVec 6) (o : CmdOpt)
  | rtopk (c : Ctl) (tda tdb tdc : BitVec 6) (o : CmdOpt)
  | rbin (c : Ctl) (tda tdb tdc : BitVec 6) (o : CmdOpt)
  | bpermRequest (c : Ctl) (tda tdb tdc : BitVec 6) (o : CmdOpt)
  | bpermOpen (c : Ctl) (tda tdb tdc : BitVec 6) (o : CmdOpt)
  | dspat (c : Ctl) (tda tdb tdc : BitVec 6) (o : CmdOpt)
  | cmbn (c : Ctl) (tda tdb tdc : BitVec 6) (o : CmdOpt)
  | brel (c : Ctl) (tdc : BitVec 6) (o : CmdOpt)
  | expld (c : Ctl) (tda tdb tdc : BitVec 6) (o : CmdOpt)
  | collAr (c : Ctl) (tda tdb tdc : BitVec 6) (o : CmdOpt)
  | collRs (c : Ctl) (tda tdb tdc : BitVec 6) (o : CmdOpt)
  | collAg (c : Ctl) (tda tdb tdc : BitVec 6) (o : CmdOpt)
  | collA2a (c : Ctl) (tda tdb tdc : BitVec 6) (o : CmdOpt)
  | collBc (c : Ctl) (tda tdb tdc : BitVec 6) (o : CmdOpt)
  | collOp (c : Ctl) (tda tdb tdc : BitVec 6) (o : CmdOpt)
  | collw (c : Ctl)
  | collwTest (c : Ctl)
  -- signatures, 0x90 to 0x99 (R290 to R304)
  | sigcfg (c : Ctl) (s : BitVec 2)
  | sigid (c : Ctl) (s : BitVec 2)
  | sigstep (c : Ctl) (s : BitVec 2)
  | sigstrm (c : Ctl) (tda : BitVec 6) (s : BitVec 2) (o : CmdOpt)
  | sigjoin (c : Ctl) (x y z : BitVec 2)
  | siglog (c : Ctl) (x y : BitVec 2)
  | sigexp (c : Ctl) (x y : BitVec 2)
  | siginv (c : Ctl) (x y : BitVec 2)
  | sigscl (c : Ctl) (s : BitVec 2)
  | sigmovCv (c : Ctl) (s : BitVec 2)
  | sigmovVc (c : Ctl) (s : BitVec 2)
  | sigmovSs (c : Ctl) (s : BitVec 2)
  | sigmovSl (c : Ctl) (s : BitVec 2)
  -- system, 0xF0 to 0xF8 (R306 to R317); the rows of PSR.wr by the register written
  | psrRead (c : Ctl) (n : BitVec 13)
  | psrWrite (c : Ctl) (n : BitVec 13)
  | spctlWrite (c : Ctl)
  | spholdWrite (c : Ctl)
  | spptWrite (c : Ctl)
  | qwdWrite (c : Ctl)
  | contextAreaWrite (c : Ctl) (len : Bool)
  | dbgctlWrite (c : Ctl)
  | tresume (c : Ctl)
  | tresumeSame (c : Ctl)
  | tlbinvAll (c : Ctl)
  | tlbinvPage (c : Ctl)
  | tlbinvSpace (c : Ctl)
  | ctxopSave (c : Ctl)
  | ctxopRestore (c : Ctl)
  | ctxopKill (c : Ctl)
  | glaunch (c : Ctl) (o : CmdOpt)
  | budgetSet (c : Ctl)
  | budgetAdd (c : Ctl)
  | halt (c : Ctl)
  | dbgStep (c : Ctl)
  | dbgBrk (c : Ctl)
  | dbgClrbrk (c : Ctl)
  | cacheL1inv (c : Ctl)
  | cacheIcinv (c : Ctl)
  | cacheL2wb (c : Ctl)
  -- events of the current core (R46 to R61, R119, R229 to R261)
  | blockFetch (predicted : Option Word)
  | exitTreeDecide
  | bindingPoint
  | blockCommit
  | blockSquash
  | blockDiscard
  | trapRecordWrite (die : BitVec 2)
  | waitSatisfied (idx : BitVec 7)
  | taskRetire
  | l1LineExpiry (line : Nat)
  | armedCommandFire
  | matrixCommandStart (t : Ticket)
  | matrixCommandComplete (t : Ticket)
  | sigstrmComplete (t : Ticket)
  | copySlotTake (t : Ticket)
  | copyChunkWrite (t : Ticket)
  | copyComplete (t : Ticket)
  | routingCommandComplete (t : Ticket)
  | dspatComplete (t : Ticket)
  | cmbnComplete (t : Ticket)
  | collComplete (t : Ticket)
  | childLaunchEntry (t : Ticket)
  | haltWake
  -- events of the package
  | scWindowEnd
  | leaveGrant (die : BitVec 2)
  | templateFill (space : BitVec 16) (entry : Word)
  | candidateAgeing
  | candidateStarve
  | memoryRequest (p : Packet)
  | reply (p : Packet)
  | refusal (p : Packet)
  | hostLaunch (p : Packet)
  | doorbell (p : Packet)
  | dispatchRow (p : Packet)
  | returnRow (p : Packet)
  | collectiveChunk (p : Packet)
  | poolRequest (p : Packet)
  | poolGrant (p : Packet)
  | closingMarker (p : Packet)
  | domainBarrierArrival (p : Packet)
  | absenceTokenArrival (p : Packet)
  | packetResend (dst : BitVec 9) (tag : BitVec 32)
  | linkDown (port : BitVec 4)
  | linkReplay (port : BitVec 4)
  | createQueue (part : BitVec 2) (queue : BitVec 10) (space : BitVec 16)
  | destroyQueue (part : BitVec 2) (queue : BitVec 10)
  | resumeSpace (part : BitVec 2) (space : BitVec 16)
  | setPartitionParameter (part : BitVec 2) (which : BitVec 2) (value : Nat)
  | setPartitions (part : List Nat) (endp : List (BitVec 9))
  | writeIngressEntry (part : BitVec 2) (ph4 ph5 : Word) (ew : List Word)
  | writeDoorbellEntry (part : BitVec 2) (ph4 ph5 : Word) (ew : List Word)
  | configureDomainBarrier (part : BitVec 2) (bar home : BitVec 9) (dbto : Nat)
      (members : List (BitVec 9 × BitVec 16 × BitVec 10 × Word))
  | migratePage (part : BitVec 2) (space : BitVec 16) (va : Word) (frame : BitVec 24)
  | requestPreemption (gang : Nat)
  | readBlackBox (die : BitVec 2)
  | freeze
  | ringCommandSubmit (die : BitVec 2) (cmd : HostCmd)
  /-- the measured package power, in watts, comes from outside (R423) -/
  | hcFrame (watts : Nat)
  | watchdogPreempt (gang : Nat)
  | watchdogKill (gang : Nat)
  | watchdogFence (gang : Nat)
  | migrationDone (part : BitVec 2) (space : BitVec 16) (va : Word)
  | pquietExpiry (gang : Nat)
  | gangSwitchOut (gang : Nat)
  | dbtoExpiry (bar : BitVec 9)
  | gangMigration (gang : Nat) (cores : List Nat)
  | forwardEntryExpiry (core : Nat)
  | scrubVisit (granule : Nat)
  /-- the supervisor image of the serial flash, the root its header names, and the step that fails, if one does (R420) -/
  | coldReset (image : List Byte) (root : Word) (fails : Option (BitVec 3))
  | warmReset (part : BitVec 2) (image : List Byte) (root : Word)
deriving DecidableEq, Repr

end Sys2Proof
end

