-- ==== Sys2Proof/Machine/State.lean ====
section
/-!
DEFINITION. Sys2Proof/Machine/State.lean: everything the spec gives the machine, as plain data, and the state after reset.
The structures name the rule of spec/ that gives each piece; the fields that are the model's own say so.
-/
namespace Sys2Proof.Machine

/-! ## Building blocks -/

/-- Sparse storage: addresses strictly rising, no entry equal to zero, which an unlisted address reads as. -/
abbrev Cells (w : Nat) := List (Nat × BitVec w)
/-- Every byte of the package: physical addresses, then the scratchpads and the accumulators at keys of their own. -/
abbrev Memory := List Host.Cell

/-- A tensor descriptor, TDW0 to TDW3 (R66). -/
structure Td where
  w0 : Word := 0
  w1 : Word := 0
  w2 : Word := 0
  w3 : Word := 0
deriving DecidableEq, Repr

/-- A launch descriptor, L0 to L7 (R24). -/
structure Desc where
  l0 : Word := 0
  l1 : Word := 0
  l2 : Word := 0
  l3 : Word := 0
  l4 : Word := 0
  l5 : Word := 0
  l6 : Word := 0
  l7 : Word := 0
deriving DecidableEq, Repr

/-- A channel handle, the fields of CHW0 and CHW1 (R69). An absent handle is unbound. -/
structure Chan where
  own : Bool
  pb : BitVec 2
  cb : BitVec 2
  orank : BitVec 6
  och : BitVec 4
  base : BitVec 20
  size : BitVec 12
  slots : BitVec 16
  p : BitVec 32
  c : BitVec 32
deriving DecidableEq, Repr

/-- A token (R47): a scalar, a vector with its validity, a mask, or null. -/
inductive Tok where
  | s (w : Word)
  | v (x : Vec) (ok : Mask)
  | m (x : Mask)
  | null
deriving DecidableEq, Repr

/-- One byte to write: the bits of `mask` take those of `val` (elements narrower than a byte merge, R223). -/
structure ByteW where
  key : Nat
  val : Byte
  mask : Byte := 0xFF
deriving DecidableEq, Repr

/-- Through which view of the scratchpad an access goes (R124); `other` for every access that no view rule covers. -/
inductive View where | linear | swizzled | other
deriving DecidableEq, Repr

/-- Where an atomic is performed: at a byte key of this package, or at an address of another endpoint. -/
inductive Loc where
  | here (key : Nat)
  | remote (endp : BitVec 9) (addr : BitVec 40)
deriving DecidableEq, Repr

inductive AtomOp where
  | amo (op : AmoOp)
  | cas (expected : Word)
deriving DecidableEq, Repr

inductive CtrOp where | inc | add | set | reset | resetKeep
deriving DecidableEq, Repr

inductive BindForm where | own | prod | cons
deriving DecidableEq, Repr

/-- A system effect under R308. -/
inductive SysOp where
  | psr (n : BitVec 13) (v : Word)
  | tresume (core : Nat) (addr : Word)
  | tresumeSame (core : Nat)
  | tlbAll
  | tlbPage (va : Word)
  | tlbSpace (space : Word)
  | save (core : Nat) (image : Word)
  | restore (core : Nat) (image : Word)
  | kill (core : Nat)
  | budgetSet (core : Nat) (v : Word)
  | budgetAdd (core : Nat) (v : Word)
  | halt
  | step (core : Nat)
  | brk (core : Nat) (addr : Word)
  | clrbrk (core : Nat)
  | l1inv (sel : Nat)
  | icinv (sel : Nat)
  | l2wb (a : Word)
deriving DecidableEq, Repr

/-- A pending effect of a fired instruction: nothing of it is state until the block's commit (R58). -/
inductive Effect where
  | write (cls : RegClass) (reg : BitVec 8) (tok : Tok)
  | ptb (b : BitVec 2) (v : Word)
  | tdset (td : BitVec 6) (n : BitVec 2) (v : Word)
  | store (lsid : Nat) (view : View) (ws : List ByteW) (vas : List Nat)
  | remote (lsid : Nat) (endp : BitVec 9) (rel : Bool) (pieces : List (Nat × List (Byte × Byte)))
  | door (lsid : Nat) (endp : BitVec 9) (rel : Bool) (number : BitVec 24) (value : BitVec 32)
  | atomic (lsid : Nat) (loc : Loc) (op : AtomOp) (w64 sc : Bool) (operand : Word) (view : View) (va : Word)
  | bank (lsid : Nat) (op : BkOp) (w64 signed : Bool) (key : Nat) (operand : Word) (va : Word)
  | tile (lsid : Nat) (tile : Nat) (ws : List ByteW)
  | ctr (lsid : Nat) (op : CtrOp) (k : BitVec 5) (v : BitVec 32) (rank : Option Nat)
  | barInit (lsid : Nat) (b : BitVec 9) (count : Nat)
  | barArrive (lsid : Nat) (b : BitVec 9)
  | vjoin (lsid : Nat)
  | fence (lsid : Nat) (k : FenceKind) (sc : Scope)
  | chadv (prod : Bool) (h : BitVec 4) (n : Nat)
  | chbind (f : BindForm) (h : BitVec 4) (a b : Word)
  | sigCfg (s : BitVec 2) (v : BitVec 32)
  | sigSet (s : BitVec 2) (from_ : Nat) (vals : List (BitVec 32))
  | sigPut (s : BitVec 2) (vals : List (Nat × BitVec 32))
  | sigStore (ws : List ByteW)
  | cmd (word : Word) (tk : Ticket) (arg : Word)
  | arm (tk : Ticket) (rel : Bool) (k : BitVec 5) (threshold : BitVec 32)
  | sys (op : SysOp)
deriving DecidableEq, Repr

/-- A fault of an instruction of the frame (R60, R379). -/
structure FaultRec where
  idx : Nat
  lsid : Option Nat
  cause : BitVec 8
  addr : Word
  /-- 0 load, 1 store, 2 atomic, 3 fetch, 4 other -/
  acc : BitVec 3
  mal : Bool := false
  rem : Bool := false
  wue : Bool := false
deriving DecidableEq, Repr

/-- An access of the frame that waits for a reply of another endpoint (R109). -/
structure Remote where
  idx : Nat
  piece : Nat
  dst : BitVec 9
  tag : BitVec 32
  /-- none until the reply arrives; then the cause (0 for none) and the data -/
  answer : Option (BitVec 8 × List Byte)
deriving DecidableEq, Repr

/-- A line as a load that fired before a load of lower LSID showed it: one place above the load's LSID (0 for SIGMOV.sl), its view, the line
and the stores through other views that it did not show (R118). -/
structure Snap where
  pos : Nat
  view : View
  line : Nat
  data : BitVec 1024
  hide : List Nat
deriving DecidableEq, Repr

/-- A load at a place showed, or did not, a piece of a pending store of its block through another view (R100, R118, R124). -/
structure Shown where
  pos : Nat
  view : View
  idx : Nat
  piece : Nat
  yes : Bool
deriving DecidableEq, Repr

/-- What a load saw that is looked at again before its block is bound: `early`, before a store of lower LSID was known (R52, log 15);
`fenced`, behind a FENCE that orders stores of the block before it (R121, log 49). `raw` is what the home or its line gave, `base` that without the
stores that it does not show, `got` what it returned; `far` is the endpoint of a remote piece. -/
structure Watch where
  pos : Nat
  view : View
  early : Bool
  fenced : Bool
  far : Option (BitVec 9)
  key : Nat
  raw : List Byte
  base : List Byte
  got : List Byte
deriving DecidableEq, Repr

/-- The block frame (R42 to R61): the words as the fetch read them and what has fired. -/
structure Frame where
  start : Word
  h0 : Word
  h1 : Word
  h2 : Word
  h3 : Word
  words : List Word
  /-- the instruction that the next firing takes (the model's own: the step sets it) -/
  cur : Nat
  /-- tokens by 4 × index + slot -/
  slots : List (Nat × Tok)
  fired : BitVec 128
  waiting : BitVec 128
  /-- BAR.sync instructions that have arrived (R230) -/
  arrived : BitVec 128
  effs : List (Nat × Effect)
  faults : List FaultRec
  flags : BitVec 7
  leaf : Option Nat
  /-- the deferred checks of CHADVs and system instructions have passed (R53, R308) -/
  checked : Bool
  /-- the SC window in which the block was announced (R123) -/
  announced : Option Nat
  /-- it can no longer be discarded (R53) -/
  bound : Bool
  /-- steps 1 and 2 of the commit are done; commands wait for room (R58) -/
  issuing : Bool
  /-- the memory step is done, with the values of the atomics delivered (R53) -/
  performed : Bool
  /-- tickets of the commands issued at this commit (R402) -/
  issued : List Ticket
  remotes : List Remote
  /-- lines as loads that fired before loads of lower LSID read them (R118) -/
  snaps : List Snap
  /-- choices between pending stores and loads through different views (R124) -/
  picks : List Shown
  /-- loads that are looked at again before the block is bound -/
  watch : List Watch
  /-- the block fires again because an early load saw something else than R52 says: such loads take free values (log 15) -/
  guess : Bool
  /-- a store or atomic of the block has been performed -/
  begun : Bool
  /-- units that the block has used while it was speculative (R352) -/
  units : BitVec 12
  /-- pending effects of the blocks before a speculative one, in order (R59; the model's own: the step sets it) -/
  prior : List (Nat × Effect)
deriving DecidableEq, Repr

/-! ## The core -/

inductive CoreSt where
  /-- holds no task -/
  | free
  | running
  /-- stopped at a block boundary, awaiting its supervisor -/
  | stopped
  /-- stopped for a switch-out or a migration -/
  | quiet
  /-- END committed, or killed: waiting for its commands (R31) -/
  | ended
  /-- retired, held for its gang (R32) -/
  | held
  /-- a supervisor core in HALT (R315) -/
  | halted
  /-- a supervisor core stopped by a fault of its own (R429) -/
  | dead
  /-- fenced out of service (R367) -/
  | fenced
  /-- left over in the last region of a whole-region gang: it takes no other task (R33) -/
  | reserved
deriving DecidableEq, Repr

/-- Identity of the task on a core (R24 to R30). -/
structure Ident where
  launch : Nat
  gang : Nat
  space : BitVec 16
  queue : BitVec 10
  part : Nat
  desc : Desc
  wid : Word
  gidx : Nat
  rank : Nat
  gsize : Nat
  cores : List Nat
deriving DecidableEq, Repr

/-- The register files (R62). -/
structure Regs where
  g : Cells 64
  v : Cells 2048
  m : Cells 128
  b : Cells 64
  l : Cells 32
  fsr : Word
  /-- word n of TDk at 4 × k + n -/
  td : Cells 64
  ch : List (Nat × Chan)
  k : Cells 32
  /-- configurations of S0 to S3 (R291) -/
  sig : Cells 32
  bgt : BitVec 32
deriving DecidableEq, Repr

inductive Leave where | no | asked | granted
deriving DecidableEq, Repr

/-- A read, or an atomic, of a command at another endpoint: the request's tag, and the answer once it has come (R109). -/
structure Ask where
  dst : BitVec 9
  addr : Nat
  size : Nat
  op : ReqOp
  tag : BitVec 32
  answer : Option (BitVec 8 × List Byte)
deriving DecidableEq, Repr

/-- Part of a return or of a member's contribution, from an element on: codes with the exponent of their scale, none for the NaN scale
(R67, R287, R406). -/
structure Share where
  src : Nat
  off : Nat
  items : List (BitVec 64 × Option Int)
deriving DecidableEq, Repr

/-- An issued command and its progress (R125, R236 to R289). -/
structure Cmd where
  word : Word
  tk : Ticket
  svr : Bool
  arg : Word := 0
  tda : Td := {}
  tdb : Td := {}
  tdc : Td := {}
  /-- tiles that the command names (R246) -/
  tiles : BitVec 8 := 0
  started : Bool := false
  leave : Leave := .no
  /-- n of the n-th MMAG (R257) -/
  nth : Nat := 0
  /-- signature configuration read at issue (R298) -/
  scfg : BitVec 32 := 0
  /-- GMMA: the counts read at issue; COLL: the member table; BPERM: endpoint, die and LOC of each expert; RBIN: the rows placed -/
  counts : List Nat := []
  /-- DSPAT: the tags of its packets, and the rows sent to each pool (R277, R284) -/
  tags : List (BitVec 32) := []
  tally : List ((Nat × Nat) × Nat) := []
  /-- chunks, rows or increments done -/
  done : Nat := 0
  /-- COPY.ch: the byte offset of the slot taken; DSPAT, CMBN: the next row to look at; COLL: TDA and TDB overlap (R287) -/
  slot : Option Nat := none
  /-- control record words (R267, R286) -/
  rcw : List Word := []
  /-- descriptors that the record names: TDX, TDY, TDZ, TDOUT, TDSCR, or TDMEM, TDFLG -/
  rtd : List Td := []
  /-- what has arrived: grants by expert, returns by row -/
  got : List (Nat × List Nat) := []
  /-- parts of returns by row, and of contributions by member -/
  parts : List Share := []
  /-- rows that a DSPAT sent (R277); experts that an RBIN has used for its token (R273); chunks that a COLL has flagged (R134) -/
  sent : List Nat := []
  /-- output rows that a DSPAT has written (R283); chunks that a COLL has written (R289) -/
  outs : List Nat := []
  /-- pools (endpoint, die) whose grant or return marker has not arrived -/
  pend : List (Nat × Nat) := []
  flags : BitVec 7 := 0
  /-- a fault that the command ends with, as a DETAIL -/
  detail : BitVec 8 := 0
  /-- reads of other endpoints since the last part of the command was done -/
  asks : List Ask := []
  /-- its issue waits for such reads; the descriptor registers as the issue found them -/
  pre : Option (Cells 64) := none
  /-- it has ended, and waits until what it wrote is performed (R127): status, DETAIL, DONEN -/
  fin : Option (Nat × BitVec 8 × Nat) := none
deriving DecidableEq, Repr

/-- An entry of the armed-command table (R70, R234). -/
structure Armed where
  k : BitVec 5
  th : BitVec 32
  cmd : Cmd
  /-- number of the first packet after the ARM's block: a .REL waits for the earlier ones of the task (R131) -/
  upto : Nat
deriving DecidableEq, Repr

structure TicketSt where
  tk : Ticket
  /-- the status word of R237 -/
  st : Word
  /-- MMT of the command's control record (R264) -/
  mmt : Bool := false
  /-- the command's scope is wider than the task: observing its completion drops the L1 (R107, R126, R127) -/
  wide : Bool := false
deriving DecidableEq, Repr

/-- The engine side of a task. -/
structure Eng where
  /-- next serial of each class (R236) -/
  serial : Cells 16
  tickets : List TicketSt
  cmds : List Cmd
  armed : List Armed
  /-- fired entries waiting for room (R235) -/
  fired : List Armed
  /-- MMAGs issued -/
  mmags : Nat
  /-- the n-th MMAG as issued, and whether it ended FAULT when it issued (R257) -/
  panels : List (Nat × Bool × Cmd)
  /-- handles on which a COPY.ch has ended FAULT (R240) -/
  chFault : BitVec 16
  /-- serials of COLLs that an arriving packet has ended FAULT, with the DETAIL: later packets are refused alike (R265, R289) -/
  collFail : List (BitVec 32 × BitVec 8)
  /-- requests and DSPATs that a packet of another SVR has ended, with their serials: later packets are refused alike (R265) -/
  svrFail : List (Ticket × BitVec 32)
deriving DecidableEq, Repr

/-- A line of the L1 (R107): its physical line number, its bytes and the cycle of its fill. -/
structure L1Line where
  line : Nat
  data : BitVec 1024
  fill : Nat
deriving DecidableEq, Repr

/-- A byte stored through one view since the last VJOIN, what it held before, and the store that it is part of (R100, R124). -/
structure ViewByte where
  view : View
  key : Nat
  old : Byte
  sid : Nat
deriving DecidableEq, Repr

/-- A named barrier (R229). -/
structure Bar where
  count : Nat
  arrivals : Nat
  phase : BitVec 32
deriving DecidableEq, Repr

structure Core where
  /-- logical core in package 0..1023; the supervisor core of die d is 1024 + d -/
  id : Nat
  st : CoreSt
  task : Option Ident
  r : Regs
  e : Eng
  /-- address of the next block (R55) -/
  pc : Word
  frame : Option Frame
  /-- predicted successors: their starts, and their frames once they have been read (R59) -/
  spec : List (Word × Option Frame)
  /-- the block at `pc` has been arrived at: the next fetch is an iteration, no arrival (R56, R316) -/
  inRepeat : Bool
  committed : BitVec 64
  leaveWaits : BitVec 64
  svrRej : BitVec 64
  /-- phase last recorded for each barrier (R229) -/
  barRec : List (Nat × BitVec 32)
  /-- barriers 0..447 of the gang, at rank 0 (R229) -/
  bars : List (Nat × Bar)
  brk : List Word
  stepPend : Bool
  /-- a Step Stop that another cause preceded, tested again at the resume: ticket and number of commands (R401, R402) -/
  stepDue : Option (Nat × Nat)
  /-- the code of a TRAP leaf that another cause preceded (R401) -/
  trapDue : Option Nat
  skipBrk : Bool
  lastQp : Bool
  /-- a pre-emption request, with its cycle (R390) -/
  preempt : Option Nat
  /-- the task stops at its next boundary for that request: the stop had to wait, and is light in any case where the request found the last
  committed block with QP = 1 (R308, R390) -/
  stopNow : Option Bool
  /-- the stop by pre-emption was light -/
  light : Bool
  /-- trap record TR0 to TR6 of the stop (R379) -/
  stop : Option (List Word)
  /-- a BREL or the like may name what the task holds: killed, retire when drained -/
  killed : Bool
  l1 : List L1Line
  /-- words of its task's first block, which the launch template has brought, by address ÷ 8 (R358) -/
  entry : List (Nat × Word)
  /-- instruction-cache words by address ÷ 8 (R155) -/
  icache : List (Nat × Word)
  /-- the template entry that the core's last task started from (R358) -/
  tmpl : Option Nat
  view : List ViewByte
  units : BitVec 12
  /-- a message or host command has arrived since the last HALT (R315) -/
  wake : Bool
deriving DecidableEq, Repr

/-! ## Dies, partitions, queues -/

/-- A request for leave in the die's queue (R422). -/
structure LeaveReq where
  core : Nat
  tk : Ticket
  units : Nat
  cycle : Nat
deriving DecidableEq, Repr

inductive PoolSt where | opened | granted | complete | failed
deriving DecidableEq, Repr

/-- A pool of berths (R274 to R284). -/
structure Pool where
  space : BitVec 16
  serial : BitVec 32
  core : Nat
  tk : Ticket
  svr : Bool
  area : Td
  header : Td
  e : Nat
  k : Nat
  kx : Nat
  nsrc : Nat
  sel : Bool
  policy : Td
  grantTd : Td
  st : PoolSt
  /-- the DETAIL with which the pool failed -/
  why : BitVec 8
  /-- DSPATs that have sent to the pool: endpoint, core, ticket and the tag of their last packet (R284) -/
  bound : List (BitVec 9 × Nat × Ticket × BitVec 32)
  /-- requests by source endpoint: wants, sending core and ticket -/
  reqs : List (Nat × List (Nat × Nat) × Nat × Ticket)
  /-- grants fixed: (source endpoint, LOC, first row, count) -/
  grants : List (Nat × Nat × Nat × Nat)
  markers : List (Nat × Nat)
  /-- rows written: (source endpoint, row i) -/
  rows : List (Nat × Nat)
  /-- parts of rows written: (source endpoint, row i, first element) -/
  some_ : List (Nat × Nat × Nat)
deriving DecidableEq, Repr

/-- A black-box event, BB0 to BB3 (R426). -/
structure Event where
  bb0 : Word
  bb1 : Word
  bb2 : Word
  bb3 : Word
deriving DecidableEq, Repr

/-- A reservation of a starving candidate (R364): the candidate's key and the reserved regions. -/
structure Reserve where
  cand : Nat
  regions : List Nat
  /-- PLC 01 with no free core yet: the first region in which a core is freed -/
  waiting : Bool
deriving DecidableEq, Repr

/-- What the harbour controller reports to owners and supervisors (R392, R399, R411, R418, R429). -/
structure Report where
  part : Nat
  code : BitVec 8
  space : BitVec 16
  addr : Word
  detail : BitVec 32
deriving DecidableEq, Repr

structure Die where
  spsel : BitVec 16
  qsel : BitVec 10
  dupcnt : BitVec 32
  miscnt : BitVec 32
  dbgctl : BitVec 2
  /-- SPHOLD of each space (R346) -/
  sphold : List (BitVec 16 × Word)
  dlim : Nat
  leaveQ : List LeaveReq
  pools : List Pool
  /-- the last 16 serials released in each space, newest first (R281) -/
  released : List (BitVec 16 × List (BitVec 32))
  /-- aborted pools, with the sources whose DSPATs have not been told (R284) -/
  aborted : List (BitVec 16 × BitVec 32 × List Nat)
  /-- trap records that wait to be written, oldest first: the core and TR0 to TR6 (R378) -/
  trapq : List (Nat × List Word)
  reserve : Option Reserve
  bbox : List Event
  lost : BitVec 32
  /-- commands submitted through the supervisor's ring, not yet performed (R415) -/
  ring : List HostCmd
  /-- commands 0x09 and 0x0A of the ring that have been accepted and not yet answered, by the number of their entry (R414) -/
  pending : List (Word × HostCmd)
  /-- what the harbour controller has put into the supervisor's ring (R411, R418; layout log 17) -/
  told : List Report
deriving DecidableEq, Repr

/-- An entry of the ingress table (R412, R430). -/
structure Ingress where
  sep : BitVec 9
  ssp : BitVec 16
  lsp : BitVec 16
  frame : Nat
  count : Nat
  r : Bool
  w : Bool
deriving DecidableEq, Repr

/-- An entry of the doorbell table (R413, R430). -/
structure DoorEnt where
  sep : BitVec 9
  ssp : BitVec 16
  lsp : BitVec 16
  wid : Word
  k : BitVec 5
deriving DecidableEq, Repr

structure Part where
  /-- PART.PDIES (R346) -/
  dies : BitVec 4
  endp : BitVec 9
  /-- valid spaces (SPCTL.V) -/
  spaces : List (BitVec 16)
  /-- halted spaces (SPCTL.HLT) -/
  hlt : List (BitVec 16)
  sppt : List (BitVec 16 × Word)
  ctxa : Word
  ctxl : Word
  agei : Nat
  starve : Nat
  pquiet : Nat
  eto : Nat
  ingress : List (Nat × Ingress)
  doors : List (Nat × DoorEnt)
  /-- host request queue (R415): tag, source and command -/
  hostq : List (BitVec 9 × BitVec 32 × HostCmd)
  /-- commands 0x09 and 0x0A that have been accepted and not yet answered (R414) -/
  pending : List (BitVec 9 × BitVec 32 × HostCmd)
  /-- the die of each DSPAT that its tasks have issued, by space and serial, newest first (R281) -/
  sources : List (BitVec 16 × BitVec 32 × Nat)
  /-- malformed packets dropped (R407) -/
  drops : Nat
  /-- COLLs, DSPATs and BPERM requests that a kill has ended, by space, operation, serial and rank: what arrives for one is refused (R419) -/
  killed : List (BitVec 16 × BitVec 8 × BitVec 32 × Nat)
deriving DecidableEq, Repr

inductive EntrySt where | held | waiting | placing | running
deriving DecidableEq, Repr

/-- An entry of a hardware queue: one launch (R355). -/
structure Entry where
  id : Nat
  desc : Desc
  st : EntrySt
  /-- gangs placed so far -/
  placed : Nat
  /-- tasks not yet retired, unplaced ones included -/
  live : Nat
  /-- held by DBGCTL.HOLDC of this die (R400) -/
  holdc : Option Nat
  /-- cycle at which its next gang became a candidate, and the effective priority of the last pass (R360) -/
  since : Nat
  ep : Nat
  /-- die of each die-affinity group placed so far (R34) -/
  groups : List (Nat × Nat)
  /-- target die of a starving candidate (R364) -/
  target : Option Nat
  /-- a fill of its template has just failed: the next pass may place it without one (R358) -/
  tried : Bool
deriving DecidableEq, Repr

structure Queue where
  num : BitVec 10
  space : BitVec 16
  entries : List Entry
deriving DecidableEq, Repr

/-- A child launch that waits for its entry (R36): issuing core and ticket, or a GLAUNCH. -/
structure Child where
  /-- the issuing core, 4096 when its task has gone, or the task's number while it is switched out -/
  core : Nat
  tk : Ticket
  /-- the parent's process space; none for a GLAUNCH -/
  space : Option (BitVec 16)
  queue : BitVec 10
  desc : Desc
  /-- made by a SPAWN while HOLDC = 1 (R400) -/
  holdc : Option Nat
deriving DecidableEq, Repr

/-- A launch template (R358): key, a number of its own for each fill, and the words read by address ÷ 8. -/
structure Tmpl where
  part : Nat
  space : BitVec 16
  entry : Word
  fill : Nat
  /-- bytes of the page that ENTRY lay in when it was filled (R311) -/
  page : Nat
  words : List (Nat × Word)
deriving DecidableEq, Repr

/-- A placed gang (R33, R366). -/
structure Gang where
  id : Nat
  launch : Nat
  queue : BitVec 10
  part : Nat
  space : BitVec 16
  desc : Desc
  gidx : Nat
  die : Nat
  /-- the cores of the ranks in order, then those left over in the last region -/
  cores : List Nat
  /-- cycle of the placement, and resident time before it -/
  since : Nat
  time : Nat
  /-- watchdog stages that have acted -/
  stages : BitVec 3
  /-- cycle of a pre-emption request -/
  request : Option Nat
  /-- images reserved in the context area: (base, units) by rank (R392) -/
  area : List (Nat × Nat)
  /-- cores of a requested migration, empty for a switch-out (R368) -/
  target : List Nat
  /-- the stage that the last comparison found due: 1 to 3, or 0 (R354) -/
  due : Nat
deriving DecidableEq, Repr

/-- A gang that is switched out: a resumption candidate (R360, R391). -/
structure Saved where
  gang : Gang
  since : Nat
  ep : Nat
  /-- target die of a starving candidate (R364) -/
  target : Option Nat
  /-- the cores as they were saved: what the image's layout leaves open is taken from here on a restore -/
  cores : List Core
deriving DecidableEq, Repr

/-- A page migration (R386). -/
structure Mig where
  part : Nat
  space : BitVec 16
  va : Word
  /-- key of the leaf entry -/
  leaf : Nat
  old : BitVec 24
  new : BitVec 24
  copied : Nat
  switched : Bool
deriving DecidableEq, Repr

/-- A domain barrier whose home is this package, or of which a task here is a member (R398). -/
structure DBar where
  bar : BitVec 9
  home : BitVec 9
  dbto : Nat
  members : List (BitVec 9 × BitVec 16 × BitVec 10 × Word)
  arrivals : List Nat
  phase : BitVec 32
  absent : List Nat
  retired : List Nat
  /-- cycles counted by DBTO before `since`, and the cycle from which it runs -/
  counted : Nat
  since : Option Nat
  fired : Bool
deriving DecidableEq, Repr

/-- A range of the GUARD table (R133); or the windows of a COLL in COUNT mode, with the bytes that others have stored there since its
issue (R134). -/
structure Guard where
  part : Nat
  space : BitVec 16
  core : Nat
  tk : Ticket
  keys : List (Nat × Nat)
  count : Bool := false
  hit : List Nat := []
deriving DecidableEq, Repr

/-- A packet sent to another endpoint and not yet acknowledged (R409). -/
structure Out where
  src : BitVec 9
  dst : BitVec 9
  tag : BitVec 32
  /-- its place in the order of sending, of which the tag shows 32 bits (R409) -/
  num : Nat
  /-- the command that sent it, none for the task itself (R135) -/
  tk : Option Ticket
  pkt : Packet
  sent : Nat
  resends : Nat
  /-- it waits for earlier packets of its sender: a release for all, a store for those that write its bytes (R118, R120, R410) -/
  held : Bool
  /-- issuing core and space, for reports -/
  core : Nat
  /-- the DONE add of a launch: its queue and its address (R37) -/
  done : Option (BitVec 10 × Word) := none
deriving DecidableEq, Repr

/-- A cached table entry (R376): its place in the tables by level and the base of what it covers, and the valid entry. -/
structure Tlb where
  part : Nat
  space : BitVec 16
  level : Nat
  va : Nat
  entry : Word
deriving DecidableEq, Repr

/-- A forwarding entry (R369). -/
structure Forward where
  core : Nat
  space : BitVec 16
  wid : Word
  to_ : Nat
  gang : Nat
  since : Nat
  /-- number of the first packet sent after the repointing -/
  num : Nat
deriving DecidableEq, Repr

/-- A queue error waiting for the next frame (R418). -/
structure QErr where
  part : Nat
  space : BitVec 16
  queue : BitVec 10
  src : BitVec 9
  addr : Word
  cause : BitVec 8
deriving DecidableEq, Repr

/-- Who moves next: the model's own oracle of interleaving (log 3). -/
inductive Agent where
  /-- that core becomes the current one -/
  | core (id : Nat)
  /-- the event takes place -/
  | event (i : Instr)
  /-- that many cycles pass -/
  | tick (n : Nat)
  /-- the current core's block performs the n-th of its pending stores alone (R115) -/
  | perform (n : Nat)
  /-- the k-th speculative block of the current core fires an instruction (R59) -/
  | ahead (k : Nat)
  /-- a packet with a host command arrives (R406, R415) -/
  | host (p : Packet)
deriving DecidableEq, Repr

/-- The lanes between packets: what has been sent and received end to end (R409, R410). -/
structure Port where
  /-- packets travelling between two agents of one endpoint -/
  net : List Packet
  /-- every packet handed to the fabric, newest first -/
  outbox : List Packet
  unacked : List Out
  nextTag : Nat
  /-- performed tags with the reply, by (destination, source) and tag -/
  performed : List (((BitVec 9 × BitVec 9) × BitVec 32) × Body)
  /-- next release sequence by (source, destination) -/
  rseqOut : List ((BitVec 9 × BitVec 9) × BitVec 32)
  /-- next release sequence expected, by (destination, source) -/
  rseqIn : List ((BitVec 9 × BitVec 9) × BitVec 32)
  /-- releases that arrived early (R410) -/
  early : List Packet
  links : BitVec 16
  /-- malformed packets for an endpoint that is none of the package's, and undeliverable packets counted at their sources (R407, R411) -/
  drops : Nat
  undelivered : Nat
  /-- replays that have failed in a row, by port (R408) -/
  replays : List (Nat × Nat)
deriving DecidableEq, Repr

structure State where
  /-- the current core -/
  core : Core
  /-- every other core that is not in its power-on state, by increasing number -/
  parked : List Core
  mem : Memory
  dies : List Die
  parts : List Part
  queues : List Queue
  qbgt : List (Nat × BitVec 32)
  qwd : List (Nat × BitVec 48)
  childq : List Child
  tmpls : List Tmpl
  gangs : List Gang
  saved : List Saved
  /-- the model's own: what images of CTXOP.save left open, by the task that they name (log 18) -/
  shadows : List (Nat × Core)
  forwards : List Forward
  migs : List Mig
  dbars : List DBar
  guards : List Guard
  tlb : List Tlb
  port : Port
  /-- granules that ECC cannot correct, and granules with a single-bit error (R383, R424) -/
  badGran : List Nat
  softGran : List Nat
  lostStores : Nat
  qerrs : List QErr
  reports : List Report
  frozen : Bool
  /-- the step at which the bring-up failed (R420) -/
  bootFail : Option Nat
  /-- cycles since the cold reset (R73) -/
  cycle : Nat
  /-- cycle of the next harbour-controller frame (R416) -/
  frames : Nat
  /-- an event of this cycle calls for a placement pass at its end (R362) -/
  passDue : Bool
  /-- the model's own: next launch, gang or template number -/
  nextId : Nat
  /-- the model's own: who moves next (log 3) -/
  agenda : List Agent
  /-- the model's own: the current core has had its turn, and gives way at its next block boundary (log 3) -/
  turn : Bool
  /-- the model's own: free values drawn so far (log 5) -/
  free : Nat
deriving DecidableEq, Repr

/-! ## Reasons for a stop -/

/-- Why the machine stops. -/
inductive Fault where
  /-- Every clock of the package has stopped (R427): raised by `step` in a frozen state. Safe: nothing moves until a cold
  reset, which is an event and is not stopped. -/
  | frozen
  /-- An instruction word is executed on a core that holds no block frame: raised by the meanings of instruction words, and
  unreachable by `step`, which fires only words of a frame. Safe. -/
  | noFrame
  /-- A frame holds a word that is no instruction: raised by `step`; a fetched frame never does, because decode raises Block
  Format first (R46). Safe. -/
  | undecoded
deriving DecidableEq, Repr

/-- Why a step has no meaning. -/
inductive Refusal where
  /-- An instruction that the model does not give a meaning to: raised by `exec` for a row that is refused by name. Safe. -/
  | notModelled (mnemonic : String)
deriving DecidableEq, Repr

/-! ## Reset -/

def Regs.zero : Regs :=
  { g := [], v := [], m := [], b := [], l := [], fsr := 0, td := [], ch := [], k := [], sig := [], bgt := 0 }

def Eng.zero : Eng :=
  { serial := [], tickets := [], cmds := [], armed := [], fired := [], mmags := 0, panels := [], chFault := 0,
    collFail := [], svrFail := [] }

/-- A core as the cold reset leaves it (R420): every SRAM zero, no task. -/
def Core.blank (id : Nat) : Core :=
  { id := id, st := .free, task := none, r := Regs.zero, e := Eng.zero, pc := 0, frame := none, spec := [],
    inRepeat := false, committed := 0, leaveWaits := 0, svrRej := 0, barRec := [], bars := [], brk := [], stepPend := false, stepDue := none,
    trapDue := none, skipBrk := false, lastQp := false, preempt := none, stopNow := none, light := false, stop := none, killed := false, l1 := [],
    entry := [], icache := [], tmpl := none, view := [], units := 0, wake := false }

/-- The supervisor core of die d: started at offset 0 of its scratchpad (R420 step 5). -/
def Core.supervisor (d : Nat) : Core := { Core.blank (1024 + d) with st := .running }

def Die.reset : Die :=
  { spsel := 0, qsel := 0, dupcnt := 0, miscnt := 0, dbgctl := 0, sphold := [], dlim := 512, leaveQ := [], pools := [],
    released := [], aborted := [], trapq := [], reserve := none, bbox := [], lost := 0, ring := [], pending := [], told := [] }

/-- The one partition of all four dies that bring-up forms (R420 step 4); space 0 exists (R348). -/
def Part.reset : Part :=
  { dies := 0xF, endp := 0, spaces := [0], hlt := [], sppt := [], ctxa := 0, ctxl := 0, agei := 4096, starve := 1048576,
    pquiet := 16384, eto := 65536, ingress := [], doors := [], hostq := [], pending := [], sources := [], drops := 0, killed := [] }

/-- A partition number that no die belongs to. -/
def Part.absent : Part := { Part.reset with dies := 0, spaces := [] }

def Port.reset : Port :=
  { net := [], outbox := [], unacked := [], nextTag := 0, performed := [], rseqOut := [], rseqIn := [], early := [],
    links := 0xFFFF, drops := 0, undelivered := 0, replays := [] }

/-- The package after a cold reset whose supervisor image is empty (R420; log 2, log 6, log 8). -/
def State.reset : State :=
  { core := Core.supervisor 0, parked := [Core.supervisor 1, Core.supervisor 2, Core.supervisor 3], mem := [],
    dies := [Die.reset, Die.reset, Die.reset, Die.reset],
    parts := [Part.reset, Part.absent, Part.absent, Part.absent],
    queues := [], qbgt := [], qwd := [], childq := [], tmpls := [], gangs := [], saved := [], shadows := [], forwards := [], migs := [],
    dbars := [], guards := [], tlb := [], port := Port.reset, badGran := [], softGran := [], lostStores := 0, qerrs := [],
    reports := [], frozen := false, bootFail := none, cycle := 0, frames := 0, passDue := false, nextId := 1, agenda := [], turn := false, free := 0 }

end Sys2Proof.Machine
end

