-- ==== Sys2Proof/Machine/Bits.lean ====
section
/-!
DEFINITION. Sys2Proof/Machine/Bits.lean: bit fields, extension and byte order (R3, R8, R88).
-/
namespace Sys2Proof.Machine

/-- Bits [hi:lo] of a word as a number. -/
def field (w : Word) (hi lo : Nat) : Nat := (w >>> lo).toNat % 2 ^ (hi + 1 - lo)

/-- The word whose bits [hi:lo] are set. -/
def mask64 (hi lo : Nat) : Word := BitVec.ofNat 64 ((2 ^ (hi + 1 - lo) - 1) * 2 ^ lo)

/-- One bit of a word. -/
def bitAt (w : Word) (i : Nat) : Bool := w.getLsbD i

/-- SignExt(v, n) to 64 bits of the low n bits (R88). -/
def sext (n : Nat) (w : Word) : Word := (w.setWidth n).signExtend 64

/-- ZeroExt(v, n). -/
def zext (n : Nat) (w : Word) : Word := (w.setWidth n).setWidth 64

/-- The signed value of the low n bits of a number. -/
def toSigned (n : Nat) (x : Nat) : Int :=
  let x := x % 2 ^ n
  if 2 * x < 2 ^ n then (x : Int) else (x : Int) - (2 ^ n : Nat)

/-- A signed field [hi:lo] of a word. -/
def sfield (w : Word) (hi lo : Nat) : Int := toSigned (hi + 1 - lo) (field w hi lo)

/-- An integer modulo 2^n as a number. -/
def wrap (n : Nat) (x : Int) : Nat := (x % (2 ^ n : Nat)).toNat

/-- Little-endian bytes of a number (R3). -/
def bytesOf (n : Nat) (x : Nat) : List Byte := (List.range n).map fun i => BitVec.ofNat 8 (x >>> (8 * i))

/-- The number that little-endian bytes form. -/
def ofBytes : List Byte → Nat
  | [] => 0
  | b :: bs => b.toNat + 256 * ofBytes bs

/-- A word from its eight bytes. -/
def wordOf (bs : List Byte) : Word := BitVec.ofNat 64 (ofBytes bs)

def b2w (b : Bool) : Word := if b then 1 else 0

/-- Ceiling of a quotient. -/
def ceilDiv (a b : Nat) : Nat := (a + b - 1) / b

/-- Association lists in place of maps: the value of a key, and its replacement. -/
def lookup {α κ : Type} [DecidableEq κ] (k : κ) : List (κ × α) → Option α
  | [] => none
  | (k', x) :: l => if k' = k then some x else lookup k l

def assign {α κ : Type} [DecidableEq κ] (k : κ) (x : α) : List (κ × α) → List (κ × α)
  | [] => [(k, x)]
  | (k', y) :: l => if k' = k then (k, x) :: l else (k', y) :: assign k x l

def unassign {α κ : Type} [DecidableEq κ] (k : κ) (l : List (κ × α)) : List (κ × α) := l.filter fun p => p.1 != k

/-- Replaces element n of a list. -/
def setAt {α : Type} : List α → Nat → α → List α
  | [], _, _ => []
  | _ :: l, 0, x => x :: l
  | y :: l, n + 1, x => y :: setAt l n x

end Sys2Proof.Machine
end

