-- ==== Sys2Proof/Machine/Cells.lean ====
section
/-!
DEFINITION. Sys2Proof/Machine/Cells.lean: sparse storage in one canonical form: keys strictly rising, no entry equal to zero, which
an unlisted key reads as (log 1).
-/
namespace Sys2Proof.Machine

/-- The value at a key. -/
def cget {w : Nat} : Cells w → Nat → BitVec w
  | [], _ => 0
  | (k', x) :: l, k => if k' = k then x else cget l k

/-- Stores a value at a key; storing zero removes the entry. -/
def cput {w : Nat} : Cells w → Nat → BitVec w → Cells w
  | [], k, v => if v = 0 then [] else [(k, v)]
  | (k', x) :: l, k, v =>
    if k < k' then (if v = 0 then (k', x) :: l else (k, v) :: (k', x) :: l)
    else if k = k' then (if v = 0 then l else (k, v) :: l)
    else (k', x) :: cput l k v

/-- The canonical form: every key is above `lo`, keys rise strictly, and no entry is zero. -/
def cellsFrom {w : Nat} : Nat → Cells w → Bool
  | _, [] => true
  | lo, (k, x) :: l => decide (lo ≤ k) && x != 0 && cellsFrom (k + 1) l

def Cells.wf {w : Nat} (c : Cells w) : Bool := cellsFrom 0 c

/-- The canonical form of memory. -/
def Memory.wf (m : Memory) : Bool := cellsFrom (w := 8) 0 m

/-- Reads n consecutive bytes. -/
def mread (m : Memory) (k n : Nat) : List Byte := (List.range n).map fun i => cget (w := 8) m (k + i)

/-- Writes consecutive bytes. -/
def mwrite (m : Memory) (k : Nat) : List Byte → Memory
  | [] => m
  | b :: bs => mwrite (cput (w := 8) m k b) (k + 1) bs

/-- Writes the bits of `mask` of one byte (R223). -/
def mmerge (m : Memory) (b : ByteW) : Memory :=
  cput (w := 8) m b.key ((b.val &&& b.mask) ||| (cget (w := 8) m b.key &&& ~~~b.mask))

/-- Removes every entry with a key in [lo, lo + n). -/
def mclear (m : Memory) (lo n : Nat) : Memory := m.filter fun c => !(decide (lo ≤ c.1) && decide (c.1 < lo + n))

/-- The bytes from `lo` on take the values of a function. -/
def mfill (m : Memory) (lo n : Nat) (f : Nat → Byte) : Memory :=
  (m.filter fun c => decide (c.1 < lo))
  ++ ((List.range n).filterMap fun i => if f i = 0 then none else some (lo + i, f i))
  ++ m.filter fun c => decide (lo + n ≤ c.1)

/-! ## Keys -/

/-- A scratchpad byte of a core. -/
def spKey (core off : Nat) : Nat := 2 ^ 41 + core * 2 ^ 20 + off
/-- An accumulator byte of a core: tile t at t × 65,536 (R65). -/
def accKey (core off : Nat) : Nat := 2 ^ 42 + core * 2 ^ 19 + off
/-- A byte of the Hold of die d (R370). -/
def holdKey (d off : Nat) : Nat := 0x8000000000 + d * 2 ^ 27 + off
def holdBytes : Nat := 96 * 2 ^ 20
/-- HBM4E bytes of one die (R370). -/
def hbmBytes : Nat := 96 * 10 ^ 9

/-- The die whose HBM4E holds a physical address (R370). -/
def hbmDie (a : Nat) : Option Nat :=
  if a / 2 ^ 37 < 4 ∧ a % 2 ^ 37 < hbmBytes then some (a / 2 ^ 37) else none

/-- The die whose Hold holds a physical address (R370). -/
def holdDie (a : Nat) : Option Nat :=
  if 0x8000000000 ≤ a ∧ (a - 0x8000000000) / 2 ^ 27 < 4 ∧ (a - 0x8000000000) % 2 ^ 27 < holdBytes then
    some ((a - 0x8000000000) / 2 ^ 27)
  else none

end Sys2Proof.Machine
end

