-- ==== Sys2Proof/Machine/Num.lean ====
section
/-!
DEFINITION. Sys2Proof/Machine/Num.lean: the number formats, their values and their rounding (R75 to R89). A value is exact: a
sign, a natural significand and a power of two. Every result is rounded once from its exact value.
-/
namespace Sys2Proof.Machine

/-- What a code stands for (R88 Decode): the value (−1)^neg × m × 2^e, an infinity, or a NaN. The not-a-real code of the
tapered formats reads as a quiet NaN (R80). -/
inductive FVal where
  | fin (neg : Bool) (m : Nat) (e : Int)
  | inf (neg : Bool)
  | nan (signalling : Bool)
deriving DecidableEq, Repr

/-- Rounding modes (R83). -/
inductive Rm where | rne | rtz | rup | rdn
deriving DecidableEq, Repr

/-- FSR.RM (R71). -/
def Rm.ofBits (n : Nat) : Rm := match n with | 0 => .rne | 1 => .rtz | 2 => .rup | _ => .rdn

/-- Sticky flags in the order of FSR[6:0] (R71). -/
abbrev Flags := BitVec 7
def fNV : Flags := 1
def fDZ : Flags := 2
def fOF : Flags := 4
def fUF : Flags := 8
def fNX : Flags := 16
def fQSAT : Flags := 32
def fQINV : Flags := 64

/-- Exponent field, fraction field and bias of the formats with a sign, an exponent and a fraction (R75). -/
structure Layout where
  eb : Nat
  fb : Nat
  bias : Int
deriving DecidableEq, Repr

def layoutOf : Ty → Layout
  | .f64 => ⟨11, 52, 1023⟩
  | .f32 => ⟨8, 23, 127⟩
  | .f16 => ⟨5, 10, 15⟩
  | .bf16 => ⟨8, 7, 127⟩
  | .e4m3 => ⟨4, 3, 7⟩
  | .e5m2 => ⟨5, 2, 15⟩
  | .e2m3 => ⟨2, 3, 1⟩
  | .e3m2 => ⟨3, 2, 3⟩
  | _ => ⟨2, 1, 1⟩

/-- The code without sign of the largest finite value, under the SVR in force (R75, R77). -/
def maxFinite (t : Ty) (svr : Bool) : Nat :=
  match t with
  | .e4m3 => if svr then 0x7F else 0x7E
  | .e5m2 => if svr then 0x7F else 0x7B
  | .e2m3 | .e3m2 => 0x1F
  | .e2m1 => 0x7
  | t => (2 ^ (layoutOf t).eb - 1) * 2 ^ (layoutOf t).fb - 1

/-- Exponent of the last place of the subnormals. -/
def Layout.qmin (l : Layout) : Int := 1 - l.bias - l.fb

/-! ## Decoding -/

/-- Leading bits of a string equal to `b`. -/
def runLen (b : Bool) : List Bool → Nat
  | [] => 0
  | x :: xs => if x == b then runLen b xs + 1 else 0

/-- The magnitude of a positive tapered code of n bits (R80). -/
def taperedMag (n b : Nat) : Nat × Int :=
  let bits := (List.range (n - 1)).map fun i => b.testBit (n - 2 - i)
  let first := bits.headD false
  let run := runLen first bits
  let k : Int := if first then (run : Int) - 1 else -(run : Int)
  let rest := bits.drop (run + 1)
  let e : Int := if rest.headD false then 1 else 0
  let fr := rest.drop 1
  let f := fr.foldl (fun a x => 2 * a + (if x then 1 else 0)) 0
  (2 ^ fr.length + f, 2 * k + e - fr.length)

/-- DecodeTapered(b, n) (R80). -/
def decodeTapered (n b : Nat) : FVal :=
  let b := b % 2 ^ n
  if b = 0 then .fin false 0 0
  else if b = 2 ^ (n - 1) then .nan false
  else
    let s := b.testBit (n - 1)
    let (m, e) := taperedMag n (if s then 2 ^ n - b else b)
    .fin s m e

/-- Decode(b, fmt, svr) of a floating type (R76 to R80). -/
def decodeF (t : Ty) (svr : Bool) (b : Nat) : FVal :=
  match t with
  | .t8 => decodeTapered 8 b
  | .t6 => decodeTapered 6 b
  | t =>
    let l := layoutOf t
    let f := b % 2 ^ l.fb
    let e := (b / 2 ^ l.fb) % 2 ^ l.eb
    let s := b.testBit (l.eb + l.fb)
    let normal : FVal := if e = 0 then .fin s f l.qmin else .fin s (2 ^ l.fb + f) (l.qmin + (e : Int) - 1)
    match t with
    | .f64 | .f32 | .f16 | .bf16 =>
      if e = 2 ^ l.eb - 1 then
        if f = 0 then .inf s else .nan (!f.testBit (l.fb - 1))
      else normal
    | .e4m3 => if !svr && e = 15 && f = 7 then .nan false else normal
    | .e5m2 => if !svr && e = 31 then (if f = 0 then .inf s else .nan false) else normal
    | _ => normal

/-- The value of an integer code. -/
def intVal (t : Ty) (b : Nat) : Int := if t.isSigned then toSigned t.width b else ((b % 2 ^ t.width : Nat) : Int)

/-- An integer as an exact value. -/
def FVal.ofInt (x : Int) : FVal := .fin (decide (x < 0)) x.natAbs 0

/-! ## Rounding to a grid -/

/-- Rounds m × 2^e (a little more when sticky) to a multiple of 2^q: the multiple and whether it is inexact. A sticky value
must be given with e below q − 1. -/
def roundGrid (neg : Bool) (m : Nat) (e : Int) (sticky : Bool) (q : Int) (rm : Rm) : Nat × Bool :=
  if q ≤ e then (m * 2 ^ (e - q).toNat, sticky)
  else
    let sh := (q - e).toNat
    let n := m / 2 ^ sh
    let r := m % 2 ^ sh
    let half := 2 ^ (sh - 1)
    let inexact := r != 0 || sticky
    let up := match rm with
      | .rne => decide (half < r) || (r == half && (sticky || n % 2 == 1))
      | .rtz => false
      | .rup => inexact && !neg
      | .rdn => inexact && neg
    (if up then n + 1 else n, inexact)

/-- The exponent of the last place of m × 2^e at precision p, not below `qmin`. -/
def quantum (m : Nat) (e : Int) (p : Nat) (qmin : Int) : Int := max (e + Nat.log2 m + 1 - p) qmin

/-- Sign bit and code. -/
def signed (t : Ty) (neg : Bool) (code : Nat) : Nat := code + (if neg then 2 ^ (t.width - 1) else 0)

def isIeee : Ty → Bool | .f64 | .f32 | .f16 | .bf16 => true | _ => false

/-- The canonical quiet NaN (R78). -/
def canonNan (t : Ty) : Nat :=
  match t with
  | .e4m3 => 0x7F
  | .e5m2 => 0x7E
  | .t8 => 0x80
  | .t6 => 0x20
  | t => (2 ^ (layoutOf t).eb - 1) * 2 ^ (layoutOf t).fb + 2 ^ ((layoutOf t).fb - 1)

def infCode (t : Ty) : Nat := (2 ^ (layoutOf t).eb - 1) * 2 ^ (layoutOf t).fb

/-- Round of a finite value into a format with an exponent (R83, R84). -/
def roundFin (t : Ty) (svr : Bool) (rm : Rm) (neg : Bool) (m : Nat) (e : Int) (sticky : Bool) : Nat × Flags :=
  if m = 0 then (signed t neg 0, 0)
  else
    let l := layoutOf t
    let p := l.fb + 1
    let q := quantum m e p l.qmin
    let (n, inexact) := roundGrid neg m e sticky q rm
    let code := (q - l.qmin).toNat * 2 ^ l.fb + n
    if maxFinite t svr < code then
      if isIeee t then
        let toMax := match rm with | .rne => false | .rtz => true | .rup => neg | .rdn => !neg
        (signed t neg (if toMax then maxFinite t svr else infCode t), fOF ||| fNX)
      else (signed t neg (maxFinite t svr), fQSAT ||| fNX)
    else
      -- tininess is judged on the value rounded with an unbounded exponent (R82)
      let q' := e + Nat.log2 m + 1 - p
      let n' := (roundGrid neg m e sticky q' rm).1
      let tiny := decide (q' + (Nat.log2 n' : Int) < 1 - l.bias)
      (signed t neg code, (if inexact then fNX else 0) ||| (if inexact && tiny then fUF else 0))

/-- m1 × 2^e1 ≤ m2 × 2^e2. -/
def leMag (m1 : Nat) (e1 : Int) (m2 : Nat) (e2 : Int) : Bool :=
  if e1 ≤ e2 then decide (m1 ≤ m2 * 2 ^ (e2 - e1).toNat) else decide (m1 * 2 ^ (e1 - e2).toNat ≤ m2)

/-- Round into T8 or T6 of a finite value (R85). -/
def roundTapered (n : Nat) (neg : Bool) (m : Nat) (e : Int) (sticky : Bool) : Nat × Flags :=
  if m = 0 then (0, 0)
  else
    let top := 2 ^ (n - 1) - 1
    -- the number of positive codes whose value does not exceed the magnitude
    let c := ((List.range top).filter fun i => let (cm, ce) := taperedMag n (i + 1); leMag cm ce m e).length
    let (code, fl) : Nat × Flags :=
      if c = 0 then (1, fUF ||| fNX)
      else
        let (cm, ce) := taperedMag n c
        let exact := leMag m e cm ce && !sticky
        if exact then (c, 0)
        else if c = top then (top, fQSAT ||| fNX)
        else
          let (hm, he) := taperedMag (n + 1) (2 * c + 1)
          let ge := leMag hm he m e
          let le := leMag m e hm he
          let up := if ge && le && !sticky then c % 2 == 1 else ge
          (if up then c + 1 else c, fNX)
    ((if neg then (2 ^ n - code) % 2 ^ n else code), fl)

/-- Round(x, fmt, rm) (R83 to R85), x a value with a sticky remainder. -/
def roundS (t : Ty) (svr : Bool) (rm : Rm) (x : FVal) (sticky : Bool) : Nat × Flags :=
  match x with
  | .nan sg =>
    let nv : Flags := if sg then fNV else 0
    match t with
    | .t8 | .t6 => (canonNan t, fQINV ||| nv)
    | .e4m3 | .e5m2 => if svr then (0, fQINV ||| nv) else (canonNan t, nv)
    | .e2m3 | .e3m2 | .e2m1 => (0, fQINV ||| nv)
    | t => (canonNan t, nv)
  | .inf neg =>
    match t with
    | .t8 | .t6 => (canonNan t, fQINV)
    | .e5m2 => if svr then (signed t neg (maxFinite t svr), fQINV) else (signed t neg 0x7C, 0)
    | .e4m3 | .e2m3 | .e3m2 | .e2m1 => (signed t neg (maxFinite t svr), fQINV)
    | t => (signed t neg (infCode t), 0)
  | .fin neg m e =>
    match t with
    | .t8 => roundTapered 8 neg m e sticky
    | .t6 => roundTapered 6 neg m e sticky
    | t => roundFin t svr rm neg m e sticky

/-- Round(x, fmt, rm). -/
def roundF (t : Ty) (svr : Bool) (rm : Rm) (x : FVal) : Nat × Flags := roundS t svr rm x false

/-- RoundRNE(x, fmt) into an IEEE format or BF16. -/
def rne (t : Ty) (x : FVal) : Nat × Flags := roundF t false .rne x

/-- Limits of an integer type. -/
def intMin (t : Ty) : Int := if t.isSigned then -((2 ^ (t.width - 1) : Nat) : Int) else 0
def intMax (t : Ty) : Int := if t.isSigned then ((2 ^ (t.width - 1) : Nat) : Int) - 1 else ((2 ^ t.width : Nat) : Int) - 1

/-- SatInt(x, ty) (R88). -/
def satInt (t : Ty) (x : Int) : Nat × Flags :=
  if x < intMin t then (wrap t.width (intMin t), fQSAT)
  else if intMax t < x then (wrap t.width (intMax t), fQSAT)
  else (wrap t.width x, 0)

/-- The integer nearest to a finite value in a mode. -/
def toIntegral (rm : Rm) (neg : Bool) (m : Nat) (e : Int) : Int × Bool :=
  let (n, inexact) := roundGrid neg m e false 0 rm
  (if neg then -(n : Int) else n, inexact)

/-- RoundInt(x, ty, rm) (R87). -/
def roundInt (t : Ty) (rm : Rm) (x : FVal) : Nat × Flags :=
  match x with
  | .nan _ => (0, fNV)
  | .inf neg => (wrap t.width (if neg then intMin t else intMax t), fNV)
  | .fin neg m e =>
    let (n, inexact) := toIntegral rm neg m e
    if n < intMin t then (wrap t.width (intMin t), fNV)
    else if intMax t < n then (wrap t.width (intMax t), fNV)
    else (wrap t.width n, if inexact then fNX else 0)

/-! ## Exact operations on values -/

def FVal.isNan : FVal → Bool | .nan _ => true | _ => false
def FVal.isSnan : FVal → Bool | .nan true => true | _ => false
def FVal.isInf : FVal → Bool | .inf _ => true | _ => false
def FVal.isZero : FVal → Bool | .fin _ 0 _ => true | _ => false
def FVal.sign : FVal → Bool | .fin s _ _ => s | .inf s => s | .nan _ => false

def FVal.negate : FVal → FVal
  | .fin s m e => .fin (!s) m e
  | .inf s => .inf (!s)
  | .nan g => .nan g

def FVal.abs : FVal → FVal
  | .fin _ m e => .fin false m e
  | .inf _ => .inf false
  | .nan g => .nan g

/-- x × 2^k. -/
def FVal.scale (k : Int) : FVal → FVal
  | .fin s m e => .fin s m (e + k)
  | x => x

/-- The signed significand of a finite value at exponent q ≤ e. -/
def atExp (s : Bool) (m : Nat) (e q : Int) : Int :=
  let n := m * 2 ^ (e - q).toNat
  if s then -(n : Int) else n

/-- NV of the signalling NaNs among the operands (R78). -/
def snanFlag (xs : List FVal) : Flags := if xs.any FVal.isSnan then fNV else 0

/-- Exact sum (R86, R186): the mode decides only the sign of an exact zero. -/
def addV (rm : Rm) (a b : FVal) : FVal × Flags :=
  match a, b with
  | .nan _, _ | _, .nan _ => (.nan false, snanFlag [a, b])
  | .inf s, .inf t => if s == t then (.inf s, 0) else (.nan false, fNV)
  | .inf s, _ => (.inf s, 0)
  | _, .inf t => (.inf t, 0)
  | .fin s m e, .fin t n f =>
    if m = 0 && n = 0 then (.fin ((s && t) || (s != t && rm == .rdn)) 0 0, 0)
    else
      let q := min e f
      let x := atExp s m e q + atExp t n f q
      if x = 0 then (.fin (rm == .rdn) 0 0, 0) else (.fin (decide (x < 0)) x.natAbs q, 0)

/-- Exact product (R186). -/
def mulV (a b : FVal) : FVal × Flags :=
  match a, b with
  | .nan _, _ | _, .nan _ => (.nan false, snanFlag [a, b])
  | .inf s, .inf t => (.inf (s != t), 0)
  | .inf s, .fin t n _ => if n = 0 then (.nan false, fNV) else (.inf (s != t), 0)
  | .fin s m _, .inf t => if m = 0 then (.nan false, fNV) else (.inf (s != t), 0)
  | .fin s m e, .fin t n f => (.fin (s != t) (m * n) (e + f), 0)

/-- a × b + c, exact (R187). -/
def fmaV (rm : Rm) (a b c : FVal) : FVal × Flags :=
  let (p, f1) := mulV a b
  let (r, f2) := addV rm p c
  (r, f1 ||| f2)

/-- ChunkSum(terms) (R88). -/
def chunkSum (ts : List FVal) : FVal × Flags :=
  if ts.any FVal.isNan then (.nan false, 0)
  else if ts.contains (.inf false) && ts.contains (.inf true) then (.nan false, fNV)
  else if ts.contains (.inf false) then (.inf false, 0)
  else if ts.contains (.inf true) then (.inf true, 0)
  else
    let q := ts.foldl (fun q x => match x with | .fin _ m e => if m = 0 then q else min q e | _ => q) (4096 : Int)
    let s := ts.foldl (fun a x => match x with | .fin s m e => if m = 0 then a else a + atExp s m e q | _ => a) (0 : Int)
    if s = 0 then (.fin (!ts.isEmpty && ts.all fun x => match x with | .fin sg m _ => sg && m == 0 | _ => false) 0 0, 0)
    else (.fin (decide (s < 0)) s.natAbs q, 0)

/-- −1, 0 or 1 for finite and infinite values, with −0 equal to +0. -/
def cmpV (a b : FVal) : Int :=
  match a, b with
  | .inf s, .inf t => if s == t then 0 else if s then -1 else 1
  | .inf s, _ => if s then -1 else 1
  | _, .inf t => if t then 1 else -1
  | .fin s m e, .fin t n f =>
    let q := min e f
    let x := atExp s m e q
    let y := atExp t n f q
    if x < y then -1 else if x = y then 0 else 1
  | _, _ => 0

/-- Quotient of finite non-zero significands with at least 70 significant bits, and its sticky bit. -/
def divMag (m n : Nat) (e : Int) : Nat × Int × Bool :=
  let k := 70 + Nat.log2 n - Nat.log2 m
  let x := m * 2 ^ k
  (x / n, e - k, x % n != 0)

/-- The integer square root below 2^k, digit by digit. -/
def isqrtAux (n : Nat) : Nat → Nat → Nat
  | 0, r => r
  | k + 1, r => let r' := r + 2 ^ k; isqrtAux n k (if r' * r' ≤ n then r' else r)
def isqrt (n : Nat) : Nat := isqrtAux n (Nat.log2 n / 2 + 1) 0

/-- √(m × 2^e) with at least 70 significant bits. -/
def sqrtMag (m : Nat) (e : Int) : Nat × Int × Bool :=
  let k := 144 - Nat.log2 m
  let k := if (e - (k : Int)) % 2 = 0 then k else k + 1
  let x := m * 2 ^ k
  let r := isqrt x
  (r, (e - k) / 2, r * r != x)

/-- 1 ÷ √(m × 2^e) with at least 70 significant bits. -/
def rsqrtMag (m : Nat) (e : Int) : Nat × Int × Bool :=
  -- make the exponent even, then take √(2^(2t) ÷ m)
  let (m, e) := if e % 2 = 0 then (m, e) else (2 * m, e - 1)
  let t := 80 + Nat.log2 m
  let r := isqrt (2 ^ (2 * t) / m)
  (r, -(e / 2) - t, r * r * m != 2 ^ (2 * t))

/-- a ÷ b (R188): the value with a sticky bit, and flags. -/
def divV (a b : FVal) : FVal × Bool × Flags :=
  match a, b with
  | .nan _, _ | _, .nan _ => (.nan false, false, snanFlag [a, b])
  | .inf _, .inf _ => (.nan false, false, fNV)
  | .inf s, .fin t _ _ => (.inf (s != t), false, 0)
  | .fin s _ _, .inf t => (.fin (s != t) 0 0, false, 0)
  | .fin s m e, .fin t n f =>
    if n = 0 then
      if m = 0 then (.nan false, false, fNV) else (.inf (s != t), false, fDZ)
    else if m = 0 then (.fin (s != t) 0 0, false, 0)
    else
      let (x, g, st) := divMag m n (e - f)
      (.fin (s != t) x g, st, 0)

/-- √a (R188). -/
def sqrtV (a : FVal) : FVal × Bool × Flags :=
  match a with
  | .nan _ => (.nan false, false, snanFlag [a])
  | .inf s => if s then (.nan false, false, fNV) else (.inf false, false, 0)
  | .fin s m e =>
    if m = 0 then (.fin s 0 0, false, 0)
    else if s then (.nan false, false, fNV)
    else let (x, g, st) := sqrtMag m e; (.fin false x g, st, 0)

/-- 1 ÷ √a (R198). -/
def rsqrtV (a : FVal) : FVal × Bool × Flags :=
  match a with
  | .nan _ => (.nan false, false, snanFlag [a])
  | .inf s => if s then (.nan false, false, fNV) else (.fin false 0 0, false, 0)
  | .fin s m e =>
    if m = 0 then (.inf s, false, fDZ)
    else if s then (.nan false, false, fNV)
    else let (x, g, st) := rsqrtMag m e; (.fin false x g, st, 0)

/-! ## MX blocks (R89) -/

/-- emax of R89. -/
def emaxOf (f : MxFmt) (svr : Bool) : Int :=
  match f with
  | .e4m3 => 8
  | .e5m2 => if svr then 16 else 15
  | .e3m2 => 4
  | .e2m3 | .e2m1 => 2

/-- floor(log2 |x|) of a finite non-zero value. -/
def floorLog2 (m : Nat) (e : Int) : Int := e + Nat.log2 m

/-- MXScale(blk, fmt) (R89). -/
def mxScale (f : MxFmt) (svr : Bool) (blk : List FVal) : Nat × Flags :=
  let nv := snanFlag blk
  if blk.any fun x => x.isNan || x.isInf then (0xFF, fQINV ||| nv)
  else
    let tops := blk.filterMap fun x => match x with | .fin _ m e => if m = 0 then none else some (floorLog2 m e) | _ => none
    match tops with
    | [] => (0x7F, nv)
    | t :: ts =>
      let be := ts.foldl max t - emaxOf f svr
      if be < -127 then (0, nv)
      else if 127 < be then (0xFE, nv ||| fQSAT)
      else ((be + 127).toNat, nv)

/-- One element of MXQuant under scale c ≠ 0xFF: no QSAT, and a zero gives +0 (R89). -/
def mxElem (f : MxFmt) (svr : Bool) (c : Nat) (x : FVal) : Nat × Flags :=
  match x with
  | .fin _ 0 _ => (0, 0)
  | _ =>
    let (b, fl) := roundF f.ty svr .rne (x.scale (127 - (c : Int)))
    (b, fl &&& ~~~fQSAT)

end Sys2Proof.Machine
end

