-- ==== Sys2Proof/Machine/Ops.lean ====
section
/-!
DEFINITION. Sys2Proof/Machine/Ops.lean: the named operations over the state: cores, dies and partitions, registers, memory and its
ECC, free values, and stopping a task with its trap record.
-/
namespace Sys2Proof.Machine

/-! ## Fields of descriptors -/

namespace Desc_
/-- L0 (R24). -/
def nf (d : Desc) : Nat := field d.l0 57 55
def gl (d : Desc) : Nat := field d.l0 54 52
def dl (d : Desc) : Nat := field d.l0 51 49
def plc (d : Desc) : Nat := field d.l0 48 47
def prio (d : Desc) : Nat := field d.l0 46 39
def svr (d : Desc) : Bool := bitAt d.l0 34
def bar (d : Desc) : Bool := bitAt d.l0 33
def ml (d : Desc) : Bool := bitAt d.l0 32
def rm (d : Desc) : Nat := field d.l0 31 30
def dmask (d : Desc) : Nat := field d.l0 29 26
def queue (d : Desc) : Nat := field d.l0 25 16
def swzkey (d : Desc) : Nat := field d.l0 15 0
/-- width of field k -/
def width (d : Desc) (k : Nat) : Nat := if k < 6 then field d.l1 (7 * k + 6) (7 * k) else 0
def acc (d : Desc) : Nat := field d.l5 12 9
def spk (d : Desc) : Nat := field d.l5 8 0
/-- Ok := W0 + … + W(k−1) (R26); Ok for k > NF reads as O(NF) (R168). -/
def off (d : Desc) (k : Nat) : Nat := ((List.range (min k (nf d))).map (width d)).foldl (· + ·) 0
/-- Field(wid, k) (R26). -/
def fieldOf (d : Desc) (wid : Word) (k : Nat) : Nat :=
  if k < nf d then (wid.toNat / 2 ^ off d k) % 2 ^ width d k else 0
/-- Level(wid, k) (R26). -/
def level (d : Desc) (wid : Word) (k : Nat) : Nat := wid.toNat / 2 ^ off d k
/-- The extent Ek (R26). -/
def ext (d : Desc) (k : Nat) : Nat := fieldOf d d.l2 k + 1
/-- Product of the extents of fields lo..hi − 1. -/
def prod (d : Desc) (lo hi : Nat) : Nat := ((List.range (hi - lo)).map fun i => ext d (lo + i)).foldl (· * ·) 1
def gangSize (d : Desc) : Nat := prod d 0 (gl d)
def tasks (d : Desc) : Nat := prod d 0 (nf d)
def gangs (d : Desc) : Nat := prod d (gl d) (nf d)
/-- The mixed-radix number of the fields lo..hi − 1 of a WID (R28). -/
def radix (d : Desc) (wid : Word) (lo hi : Nat) : Nat :=
  ((List.range (hi - lo)).map fun i => fieldOf d wid (lo + i) * prod d lo (lo + i)).foldl (· + ·) 0
def gangRank (d : Desc) (wid : Word) : Nat := radix d wid 0 (gl d)
def gangIndex (d : Desc) (wid : Word) : Nat := radix d wid (gl d) (nf d)
/-- The die-affinity group of a WID, none with DL = 7 (R28). -/
def group (d : Desc) (wid : Word) : Option Nat := if dl d = 7 then none else some (radix d wid (dl d) (nf d))
/-- The WID with the given mixed-radix digits of gang index and rank. -/
def widDigits (d : Desc) : Nat → Nat → Nat → Nat
  | 0, _, _ => 0
  | n + 1, k, x => (x % ext d k) * 2 ^ off d k + widDigits d n (k + 1) (x / ext d k)
def widOf (d : Desc) (gidx rank : Nat) : Word :=
  BitVec.ofNat 64 (widDigits d (gl d) 0 rank + widDigits d (nf d - gl d) (gl d) gidx)
end Desc_

def Desc.words (d : Desc) : List Word := [d.l0, d.l1, d.l2, d.l3, d.l4, d.l5, d.l6, d.l7]
def Desc.ofWords (l : List Word) : Desc :=
  { l0 := l.getD 0 0, l1 := l.getD 1 0, l2 := l.getD 2 0, l3 := l.getD 3 0, l4 := l.getD 4 0, l5 := l.getD 5 0,
    l6 := l.getD 6 0, l7 := l.getD 7 0 }

def Td.words (t : Td) : List Word := [t.w0, t.w1, t.w2, t.w3]

/-! ## Cores, dies, partitions -/

/-- The die of a logical core (R15); 1024 + d is the supervisor core of die d. -/
def dieOfCore (id : Nat) : Nat := if id < 1024 then id / 256 else id - 1024

def isSup (id : Nat) : Bool := decide (1024 ≤ id)

/-- Inserts or replaces a core in the list of the others, kept by increasing number. -/
def putParked (c : Core) : List Core → List Core
  | [] => [c]
  | x :: l => if c.id < x.id then c :: x :: l else if c.id = x.id then c :: l else x :: putParked c l

def findParked (id : Nat) : List Core → Option Core
  | [] => none
  | x :: l => if x.id = id then some x else findParked id l

/-- Core `id`, in its power-on state when nothing has changed it. -/
def State.coreAt (s : State) (id : Nat) : Core :=
  if s.core.id = id then s.core else (findParked id s.parked).getD (Core.blank id)

def State.putCore (s : State) (c : Core) : State :=
  if s.core.id = c.id then { s with core := c } else { s with parked := putParked c s.parked }

def State.onCore (s : State) (id : Nat) (f : Core → Core) : State := s.putCore (f (s.coreAt id))

/-- Makes core `id` the current one. -/
def State.switchTo (s : State) (id : Nat) : State :=
  if s.core.id = id then s
  else { s with core := s.coreAt id, parked := putParked s.core (s.parked.filter fun c => c.id != id) }

/-- Every core that is not in its power-on state, the current one included. -/
def State.allCores (s : State) : List Core := putParked s.core s.parked

def State.die (s : State) (d : Nat) : Die := s.dies.getD d Die.reset
def State.onDie (s : State) (d : Nat) (f : Die → Die) : State := { s with dies := setAt s.dies d (f (s.die d)) }

/-- The partition that holds a die (R351). -/
def State.partOfDie (s : State) (d : Nat) : Nat := (s.parts.findIdx? fun p => p.dies.getLsbD d).getD 0
def State.part (s : State) (p : Nat) : Part := s.parts.getD p Part.absent
def State.onPart (s : State) (p : Nat) (f : Part → Part) : State := { s with parts := setAt s.parts p (f (s.part p)) }
def State.partOfCore (s : State) (id : Nat) : Nat := s.partOfDie (dieOfCore id)
/-- The partition that owns a queue number (R355). -/
def State.partOfQueue (s : State) (q : BitVec 10) : Nat := s.partOfDie (q.toNat / 256)
/-- The partition whose endpoint number is `e`. -/
def State.partOfEndp (s : State) (e : BitVec 9) : Option Nat := s.parts.findIdx? fun p => p.endp == e && p.dies != 0

/-- The number under which a task is known in packets, and in pools and ranges while it is switched out (the model's own). -/
def savedId (gang rank : Nat) : Nat := 65536 + 64 * gang + rank
def Core.key (c : Core) : Nat := match c.task with | some t => savedId t.gang t.rank | none => c.id
/-- The core of the task with a number, while it is placed. -/
def State.taskAt (s : State) (key : Nat) : Option Nat := (s.allCores.find? fun c => c.task.isSome && c.key == key).map Core.id

/-- Process space of the task of a core; a supervisor core uses space 0 (R344). -/
def Core.space (c : Core) : BitVec 16 := match c.task with | some t => t.space | none => 0
def Core.rank (c : Core) : Nat := match c.task with | some t => t.rank | none => 0
/-- Gang size; 1 on a supervisor core (R428). -/
def Core.gsize (c : Core) : Nat := match c.task with | some t => t.gsize | none => 1
/-- Scratchpad footprint in bytes (R29, R428). -/
def Core.footprint (c : Core) : Nat :=
  match c.task with | some t => Desc_.spk t.desc * 4096 | none => if isSup c.id then 1048576 else 0
/-- Accumulator footprint in tiles (R29). -/
def Core.acc (c : Core) : Nat := match c.task with | some t => Desc_.acc t.desc | none => 0
def Core.swzkey (c : Core) : Nat := match c.task with | some t => Desc_.swzkey t.desc | none => 0
/-- The core that a gang rank names (R33). -/
def Core.member (c : Core) (rank : Nat) : Nat := match c.task with | some t => t.cores.getD rank c.id | none => c.id
/-- Holds a task in the sense of R307. -/
def Core.hasTask (c : Core) : Bool :=
  c.task.isSome && (match c.st with | .held | .free | .fenced | .reserved => false | _ => true)

/-! ## Registers (R62, R63) -/

def getG (r : Regs) (i : Nat) : Word := if i = 0 then 0 else cget r.g i
/-- G0 discards writes (R51). -/
def putG (r : Regs) (i : Nat) (w : Word) : Regs := if i = 0 then r else { r with g := cput r.g i w }
def getV (r : Regs) (i : Nat) : Vec := cget r.v i
def getTd (r : Regs) (i : Nat) : Td :=
  { w0 := cget r.td (4 * i), w1 := cget r.td (4 * i + 1), w2 := cget r.td (4 * i + 2), w3 := cget r.td (4 * i + 3) }
/-- The defined bits of FSR (R71). -/
def fsrMask : Word := 0xE7F7F
def fsrRm (r : Regs) : Rm := Rm.ofBits (field r.fsr 19 18)
def fsrSvr (r : Regs) : Bool := bitAt r.fsr 17
def fsrEnables (r : Regs) : Flags := BitVec.ofNat 7 (field r.fsr 14 8)

/-- The register a READ returns (R160). -/
def readReg (r : Regs) (cls : RegClass) (reg : BitVec 8) : Tok :=
  match cls with
  | .g => .s (getG r reg.toNat)
  | .v => .v (getV r reg.toNat) (BitVec.allOnes 128)
  | .m => .m (cget r.m reg.toNat)
  | .b => .s (cget r.b reg.toNat)
  | .l => .s ((cget r.l reg.toNat).setWidth 64)
  | .fsr => .s r.fsr

/-- The bits of a vector that its valid granules cover. -/
def granBits (ok : Mask) : Vec :=
  (List.range 128).foldl (fun a i => if ok.getLsbD i then a ||| ((0xFFFF : Vec) <<< (16 * i)) else a) 0

/-- The effect of a WRITE at commit (R161). -/
def writeReg (r : Regs) (cls : RegClass) (reg : BitVec 8) (t : Tok) : Regs :=
  match t, cls with
  | .s w, .g => putG r reg.toNat w
  | .s w, .b => { r with b := cput r.b reg.toNat w }
  | .s w, .l => { r with l := cput r.l reg.toNat (w.setWidth 32) }
  | .s w, .fsr => { r with fsr := w &&& fsrMask }
  | .v x ok, .v =>
    let m := granBits ok
    { r with v := cput r.v reg.toNat ((x &&& m) ||| (getV r reg.toNat &&& ~~~m)) }
  | .m x, .m => { r with m := cput r.m reg.toNat x }
  | _, _ => r

/-! ## Free values (R6, log 5) -/

def State.drawBit (s : State) : Bool × State := (Config.freeBit s.free, { s with free := s.free + 1 })
def State.drawWord (s : State) : Word × State := (Config.freeWord s.free, { s with free := s.free + 1 })
/-- One of several outcomes, by free choice. -/
def State.choose {α : Type} : α → List α → State → State × α
  | x, [], s => (s, x)
  | x, y :: l, s => let (b, s) := s.drawBit; if b then (s, x) else State.choose y l s
def State.drawBytes (s : State) (n : Nat) : List Byte × State :=
  ((List.range n).map fun i => Config.freeByte (s.free + i), { s with free := s.free + n })

/-! ## The black box (R426) -/

def satSucc (n : BitVec 32) : BitVec 32 := if n = BitVec.allOnes 32 then n else n + 1

/-- Writes an event to the black box of die d; the oldest of 4,096 is overwritten. -/
def State.blackBox (s : State) (d : Nat) (code : Nat) (space : BitVec 16) (core : Nat) (addr : Word) (detail : Nat) : State :=
  s.onDie d fun di =>
    let full := decide (4096 ≤ di.bbox.length)
    let lost := if full then satSucc di.lost else di.lost
    let e : Event :=
      { bb0 := BitVec.ofNat 64 s.cycle, bb1 := BitVec.ofNat 64 (code * 2 ^ 48 + space.toNat * 2 ^ 32 + core % 256),
        bb2 := addr, bb3 := BitVec.ofNat 64 (lost.toNat * 2 ^ 32 + detail % 2 ^ 32) }
    { di with bbox := (if full then di.bbox.drop 1 else di.bbox) ++ [e], lost := lost }

/-- Logical core on die as the black box and the task handle name it (R307, R426). -/
def coreOnDie (id : Nat) : Nat := if id < 1024 then id % 256 else 0xFF

/-- Core id, in space sp, consumed uncorrectable data at address a: the event of every such error (R383). -/
def State.uncorr (s : State) (id : Nat) (sp : BitVec 16) (cause : BitVec 8) (a : Word) : State :=
  if cause = 0x08 then s.blackBox (dieOfCore id) 0x02 sp (coreOnDie id) a 0 else s

def State.report (s : State) (r : Report) : State := { s with reports := s.reports ++ [r] }

/-- What the harbour controller tells the supervisor of a die through its ring, which ends a HALT (R315, R411, R418, log 17). -/
def State.tellSup (s : State) (d : Nat) (r : Report) : State :=
  (s.onDie d fun x => { x with told := x.told ++ [r] }).onCore (1024 + d) fun c => { c with wake := true }

/-! ## Memory and its check bits -/

/-- Some byte of [k, k + n) lies in an uncorrectable granule (R383). -/
def State.bad (s : State) (k n : Nat) : Bool := s.badGran.any fun g => decide (g * 32 < k + n ∧ k < g * 32 + 32)

/-- The die at which a byte key has its home. -/
def dieOfKey (k : Nat) : Nat :=
  match hbmDie k, holdDie k with
  | some d, _ => d
  | none, some d => d
  | none, none => dieOfCore (if k < 2 ^ 42 then (k - 2 ^ 41) / 2 ^ 20 else (k - 2 ^ 42) / 2 ^ 19)

/-- A read of [k, k + n) delivers corrected bytes where a single bit had flipped, and says so in the black box (R424). -/
def State.corrected (s : State) (k n : Nat) : State :=
  (s.softGran.filter fun g => decide (g * 32 < k + n ∧ k < g * 32 + 32)).foldl
    (fun s g => s.blackBox (dieOfKey k) 0x01 0 0xFF (BitVec.ofNat 64 (g * 32)) 0) s

/-- A read of [k, k + n) whose data no instruction or command consumes: what ECC corrects there, or cannot correct, is recorded (R383, R424). -/
def State.noted (s : State) (k n : Nat) (space : BitVec 16 := 0) (who : Nat := 0xFF) : State :=
  (s.badGran.filter fun g => decide (g * 32 < k + n ∧ k < g * 32 + 32)).foldl
    (fun s g => s.blackBox (dieOfKey k) 0x02 space who (BitVec.ofNat 64 (g * 32)) 0) (s.corrected k n)

/-- Granules that a list of byte writes covers whole. -/
def coversGran (ws : List ByteW) (g : Nat) : Bool :=
  (List.range 32).all fun i => ws.any fun b => b.key == g * 32 + i && b.mask == 0xFF

/-- A store into the buffers of a COLL in COUNT mode is noted (R134). -/
def Guard.note (g : Guard) (ws : List ByteW) : Guard :=
  if g.count then
    { g with hit := g.hit ++ (ws.map ByteW.key).filter fun k => g.keys.any fun r => decide (r.1 ≤ k ∧ k < r.1 + r.2) }
  else g

/-- Writes bytes at their home. A write that covers a whole uncorrectable granule makes it good; one that covers part of it
is lost (R384). -/
def State.writeBytes (s : State) (ws : List ByteW) : State :=
  let s : State := { s with softGran := s.softGran.filter fun g => !coversGran ws g, guards := s.guards.map fun g => g.note ws }
  if s.badGran.isEmpty then { s with mem := ws.foldl mmerge s.mem }
  else
    let hit := s.badGran.filter fun g => ws.any fun b => b.key / 32 == g
    let whole := hit.filter (coversGran ws)
    let ws' := ws.filter fun b => !(hit.contains (b.key / 32) && !whole.contains (b.key / 32))
    { s with mem := ws'.foldl mmerge s.mem, badGran := s.badGran.filter fun g => !whole.contains g,
             lostStores := s.lostStores + (hit.filter fun g => !whole.contains g).length }

/-- Consecutive bytes as byte writes. -/
def byteWs (k : Nat) (bs : List Byte) : List ByteW := (bs.zipIdx).map fun (b, i) => { key := k + i, val := b }

def State.readNat (s : State) (k n : Nat) : Nat := ofBytes (mread s.mem k n)
def State.readWord (s : State) (k : Nat) : Word := wordOf (mread s.mem k 8)
def State.writeNat (s : State) (k n x : Nat) : State := s.writeBytes (byteWs k (bytesOf n x))

/-! ## Stopping a task (R61, R379, R380) -/

/-- TR0 and TR4 packed from their fields (R379). -/
def tr0 (space : BitVec 16) (core : Nat) (wue rem mal : Bool) (cause : BitVec 8) : Word :=
  BitVec.ofNat 64 (space.toNat * 2 ^ 32 + coreOnDie core * 2 ^ 16 + (if wue then 1024 else 0) + (if rem then 512 else 0)
    + (if mal then 256 else 0) + cause.toNat)

def tr4 (ticket detail : Nat) (acc : Nat) (lsid : Option Nat) (fidx : Nat) : Word :=
  BitVec.ofNat 64 (ticket % 2 ^ 24 * 2 ^ 32 + detail % 256 * 2 ^ 24 + acc * 2 ^ 16
    + (match lsid with | some l => l % 32 * 2 ^ 8 + 128 | none => 0) + fidx)

/-- A stop: what its trap record will say. -/
structure Stop where
  cause : BitVec 8
  resume : Word
  addr : Word := 0
  acc : Nat := 4
  lsid : Option Nat := none
  fidx : Nat := 127
  mask : BitVec 128 := 0
  ticket : Nat := 0
  detail : Nat := 0
  mal : Bool := false
  rem : Bool := false
  wue : Bool := false

def wid (c : Core) : Word := match c.task with | some t => t.wid | none => 0

/-- TR0 to TR6 of a stop; TR7, the serial, is set when the record enters the ring (R379). -/
def Stop.words (p : Stop) (c : Core) : List Word :=
  [tr0 c.space c.id p.wue p.rem p.mal p.cause, wid c, p.resume, p.addr, tr4 p.ticket p.detail p.acc p.lsid p.fidx,
   p.mask.setWidth 64, (p.mask >>> 64).setWidth 64]

/-- TAKING AN EXCEPTION, the one operation: the task stops at a block boundary with its trap record formed, its uncommitted
blocks discarded and the record queued for its die's ring (R60, R61, R378). A supervisor core has no supervisor: it stops
fetching for good, and the black box records it (R429). -/
def State.stopCore (s : State) (id : Nat) (p : Stop) : State :=
  let c := s.coreAt id
  let d := dieOfCore id
  if isSup id then
    let det := p.cause.toNat + p.fidx * 256 + (match p.lsid with | some l => l % 32 * 2 ^ 16 + 2 ^ 21 | none => 0)
    ((s.onCore id fun c => { c with st := .dead, frame := none, spec := [] }).blackBox d 0x0C 0 (coreOnDie id) p.resume det).report
      { part := s.partOfDie d, code := 0x0C, space := 0, addr := p.resume, detail := BitVec.ofNat 32 det }
  else
    (s.onCore id fun _ => { c with st := .stopped, frame := none, spec := [], stop := some (p.words c), pc := p.resume,
                                   inRepeat := false }).onDie d
      fun di => { di with trapq := di.trapq ++ [(id, p.words c)] }

/-- RETURNING FROM AN EXCEPTION: the task of a stopped core fetches again at `addr`; the trap record of its stop is consumed
(R310), and no other record of the core (R378). -/
def State.resumeCore (s : State) (id : Nat) (addr : Word) : State :=
  let mine := ((s.coreAt id).stop.getD []).take 7
  (s.onCore id fun c =>
    { c with st := .running, pc := addr, stop := none, inRepeat := false,
             skipBrk := (match c.stop with | some (w :: _) => field w 7 0 == 0x11 | _ => false) }).onDie (dieOfCore id)
    fun di => { di with trapq := di.trapq.erase (id, mine) }

end Sys2Proof.Machine
end

