-- ==== Sys2Proof/Machine/Translate.lean ====
section
/-!
DEFINITION. Sys2Proof/Machine/Translate.lean: page walks, cached translations, rights and the five spaces (R97 to R105, R133,
R370 to R376, R386).
-/
namespace Sys2Proof.Machine

/-- Why an access cannot be performed: cause, recorded address, and the bits of TR0 (R379). -/
structure XErr where
  cause : BitVec 8
  addr : Word
  mal : Bool := false
  rem : Bool := false
  wue : Bool := false
deriving DecidableEq, Repr

def cBlock : BitVec 8 := 0x01
def cIllegal : BitVec 8 := 0x02
def cPriv : BitVec 8 := 0x03
def cNotPresent : BitVec 8 := 0x04
def cRights : BitVec 8 := 0x05
def cAlign : BitVec 8 := 0x06
def cBounds : BitVec 8 := 0x07
def cUncorr : BitVec 8 := 0x08
def cGuard : BitVec 8 := 0x09
def cFormat : BitVec 8 := 0x0A
def cQuant : BitVec 8 := 0x0B
def cFpTrap : BitVec 8 := 0x0C
def cBudget : BitVec 8 := 0x0D
def cUser : BitVec 8 := 0x0E
def cEngine : BitVec 8 := 0x0F
def cStep : BitVec 8 := 0x10
def cBreak : BitVec 8 := 0x11
def cChannel : BitVec 8 := 0x12
def cDesc : BitVec 8 := 0x13
def cCap : BitVec 8 := 0x14

/-- What an access does (R375). -/
inductive AccKind where | load | store | atom | fetch
deriving DecidableEq, Repr

/-- Where an address leads. -/
inductive Phys where
  | here (key : Nat)
  | remote (endp : BitVec 9) (addr : Nat)
  | door (endp : BitVec 9) (number : BitVec 24)
deriving DecidableEq, Repr

/-! ## The walk (R371 to R374) -/

/-- An address that R370 maps, on a die of a partition: another partition is reached only as another endpoint (R351, log 88). -/
def mapped (dies : BitVec 4) (a : Nat) : Bool :=
  (match hbmDie a with | some d => dies.getLsbD d | none => false) || (match holdDie a with | some d => dies.getLsbD d | none => false)

/-- Bytes that a leaf at a level maps (R371). -/
def pageSize (level : Nat) : Nat := 2 ^ (match level with | 0 => 16 | 1 => 21 | _ => 30)

/-- A pointer is malformed at its level (R372, R374). -/
def badPointer (dies : BitVec 4) (level : Nat) (e : Word) : Bool :=
  let next := field e 39 8 * 256
  field e 63 40 != 0 || field e 7 2 != 0 || level == 0 || !mapped dies next || (level != 1 && next % 4096 != 0)

/-- A leaf is malformed at its level (R373, R374). -/
def badLeaf (dies : BitVec 4) (own : BitVec 9) (level : Nat) (e : Word) : Bool :=
  let ty := field e 7 6
  let mig := field e 12 11
  let cmp := field e 10 8
  let endp := field e 56 48
  let base := field e 39 16 * 65536
  field e 63 57 != 0 || field e 47 40 != 0 || field e 15 13 != 0 || bitAt e 5
  || decide (3 ≤ level) || ty == 3 || mig == 3 || decide (4 ≤ cmp)
  || (ty == 0 && endp != 0)
  || (level == 2 && field e 29 16 != 0) || (level == 1 && field e 20 16 != 0)
  || (ty == 0 && !(mapped dies base && mapped dies (base + pageSize level - 1)))
  || (ty == 0 && (holdDie base).isSome && (cmp != 0 || mig != 0 || level != 0))
  || (ty == 1 && (endp == own.toNat || mig != 0))

/-- Index bits of a virtual address at a level (R371). -/
def vaIndex (level va : Nat) : Nat :=
  match level with
  | 0 => va / 2 ^ 16 % 32
  | l => va / 2 ^ (12 + 9 * l) % 512

/-- The byte that a frame address names while its page may be moving (R386). -/
def migKey (migs : List Mig) (key : Nat) : Nat :=
  match migs.find? fun m => m.old.toNat == key / 65536 with
  | some m => if m.switched || decide (key % 65536 / 128 < m.copied) then m.new.toNat * 65536 + key % 65536 else key
  | none => key

/-- What a walk makes of the entry read at a level: it ends, or goes on in the table at an address (R374). -/
inductive Entered where
  | leaf (e : Word)
  | bad (e : XErr)
  | table (a : Nat)

def enter (dies : BitVec 4) (own : BitVec 9) (addr : Word) (level : Nat) (e : Word) : Entered :=
  if !bitAt e 0 then .bad { cause := cNotPresent, addr := addr }
  else if bitAt e 1 then
    if badLeaf dies own level e then .bad { cause := cNotPresent, addr := addr, mal := true } else .leaf e
  else if badPointer dies level e then .bad { cause := cNotPresent, addr := addr, mal := true }
  else .table (field e 39 8 * 256)

/-- Key of the entry of a table at a level. -/
def State.entryKey (s : State) (level va table : Nat) : Nat := migKey s.migs (table + 8 * vaIndex level va)

/-- The walk by the tables as they stand, from a level down: the leaf, its level and the entry's key. -/
def walkFrom (s : State) (dies : BitVec 4) (own : BitVec 9) (va : Nat) (addr : Word) : Nat → Nat → Except XErr (Word × Nat × Nat)
  | table, n =>
    let k := s.entryKey n va table
    if s.bad k 8 then .error { cause := cUncorr, addr := addr, wue := true }
    else
      match enter dies own addr n (s.readWord k), n with
      | .leaf e, _ => .ok (e, n, k)
      | .bad e, _ => .error e
      | .table t, n' + 1 => walkFrom s dies own va addr t n'
      | .table _, 0 => .error { cause := cNotPresent, addr := addr, mal := true }

/-- SPPT.ROOT of a space (R346). -/
def Part.root (p : Part) (space : BitVec 16) : Word := (lookup space p.sppt).getD 0

/-- The root table of a partition's space lies on one of its dies (R351). -/
def Part.rootOk (p : Part) (space : BitVec 16) : Bool :=
  field (p.root space) 63 40 == 0 && mapped p.dies (field (p.root space) 39 12 * 4096)

/-- The walk of a space's tables: the leaf, its level and the entry's key. -/
def walk (s : State) (p : Nat) (space : BitVec 16) (va : Nat) (addr : Word) : Except XErr (Word × Nat × Nat) :=
  let root := (s.part p).root space
  if !(s.part p).rootOk space then .error { cause := cNotPresent, addr := addr, mal := true }
  else walkFrom s (s.part p).dies (s.part p).endp va addr (field root 39 12 * 4096) 4

/-! ## Cached entries (R376) -/

/-- Bytes that an entry of a level covers (R371). -/
def covers (level : Nat) : Nat := match level with | 0 => 2 ^ 16 | l => 2 ^ (12 + 9 * l)

/-- A cached entry stands at a place of the tables of a space. -/
def Tlb.at_ (t : Tlb) (p : Nat) (space : BitVec 16) (level va : Nat) : Bool :=
  t.part == p && t.space == space && t.level == level && t.va == va / covers level * covers level

/-- A way to an end of the walk: the valid entries it went through, and the leaf with its level, or the fault. -/
structure Way where
  through : List (Nat × Word)
  fin : (Word × Nat) ⊕ XErr
deriving DecidableEq, Repr

/-- Entries that may serve at a place: the table's own, and cached ones that differ from it. -/
def State.served (s : State) (p : Nat) (space : BitVec 16) (level va k : Nat) : List Word :=
  (s.tlb.filter fun t => t.at_ p space level va).foldl (fun l t => if l.contains t.entry then l else l ++ [t.entry]) [s.readWord k]

/-- Every way from a level down: at each place the table's entry or a cached one may serve. -/
def State.ways (s : State) (p : Nat) (space : BitVec 16) (va : Nat) (addr : Word) : Nat → Nat → List Way
  | table, n =>
    let k := s.entryKey n va table
    let part := s.part p
    let go (e : Word) : List Way :=
      match enter part.dies part.endp addr n e, n with
      | .leaf e, _ => [{ through := [(n, e)], fin := .inl (e, n) }]
      | .bad x, _ => [{ through := [], fin := .inr x }]
      | .table t, n' + 1 => (State.ways s p space va addr t n').map fun w => { w with through := (n, e) :: w.through }
      | .table _, 0 => [{ through := [], fin := .inr { cause := cNotPresent, addr := addr, mal := true } }]
    if s.bad k 8 then
      { through := [], fin := .inr { cause := cUncorr, addr := addr, wue := true } } :: ((s.served p space n va k).drop 1).flatMap go
    else (s.served p space n va k).flatMap go

/-- Ways that end alike are one. -/
def distinctEnds : List Way → List Way
  | [] => []
  | w :: l => w :: (distinctEnds l).filter fun x => x.fin != w.fin

/-- Keys of the entries that a walk reads in the tables: those that no cached entry gives (R376). The harbour controller, as partition 4, has
no cache. -/
def walkReads (s : State) (q p : Nat) (space : BitVec 16) (va : Nat) (addr : Word) : Nat → Nat → List Nat
  | table, n =>
    let k := s.entryKey n va table
    let e := s.readWord k
    let here := if s.tlb.any fun t => t.at_ q space n va && t.entry == e then [] else [k]
    match enter (s.part p).dies (s.part p).endp addr n e, n with
    | .table t, n' + 1 => here ++ walkReads s q p space va addr t n'
    | _, _ => here

/-- What ECC corrects in the entries that a walk reads is recorded (R424, log 80). -/
def State.walkCorrected (s : State) (q p : Nat) (space : BitVec 16) (va : Nat) (addr : Word) (table : Nat) : State :=
  if s.softGran.isEmpty then s else (walkReads s q p space va addr table 4).foldl (fun s k => s.corrected k 8) s

/-- The leaf that serves an access, with the size of its page: cached leaves, and walks through the tables and cached entries, may
differ, and any of them may serve (R376); the valid entries on the way are cached, also where the walk ends in a fault. -/
def leafFor (s : State) (p : Nat) (space : BitVec 16) (va : Nat) (addr : Word) : State × Except XErr (Word × Nat) :=
  let root := (s.part p).root space
  let cached : List Way := (s.tlb.filter fun t =>
      t.part == p && t.space == space && bitAt t.entry 1 && t.va == va / covers t.level * covers t.level).map
    fun t => { through := [], fin := .inl (t.entry, t.level) }
  let walked : List Way :=
    if !(s.part p).rootOk space then [{ through := [], fin := .inr { cause := cNotPresent, addr := addr, mal := true } }]
    else s.ways p space va addr (field root 39 12 * 4096) 4
  let ends := distinctEnds (walked ++ cached)
  let s := if !(s.part p).rootOk space then s else s.walkCorrected p p space va addr (field root 39 12 * 4096)
  match ends with
  | [] => (s, .error { cause := cNotPresent, addr := addr })
  | w :: l =>
    let (s, w) := State.choose w l s
    let add (l : List Tlb) (x : Nat × Word) : List Tlb :=
      let t : Tlb := { part := p, space := space, level := x.1, va := va / covers x.1 * covers x.1, entry := x.2 }
      if l.contains t then l else t :: l
    let s : State := { s with tlb := w.through.foldl add s.tlb }
    match w.fin with
    | .inr e => (s, .error e)
    | .inl (leaf, level) => (s, .ok (leaf, pageSize level))

/-- Rights of a leaf (R375). `st32` marks a 4-byte ST.n32 or ST.i32. -/
def rightsOk (leaf : Word) (k : AccKind) (st32 : Bool) : Bool :=
  let r := bitAt leaf 2
  let w := bitAt leaf 3
  let x := bitAt leaf 4
  match field leaf 7 6 with
  | 2 => st32 && k == .store && w
  | ty =>
    match k with
    | .load => r
    | .store => w
    | .atom => r && w
    | .fetch => x && ty == 0 && (holdDie (field leaf 39 16 * 65536)).isNone

/-- Pages translated so far by one access: base, size, and the leaf or the fault (R377). -/
abbrev Memo := List (Nat × Nat × Except XErr Word)

/-- The leaf of an address, translated once for each page of an access (R377). -/
def leafOnce (s : State) (memo : Memo) (p : Nat) (space : BitVec 16) (va : Nat) (addr : Word) :
    State × Memo × Except XErr (Word × Nat) :=
  match memo.find? fun x => decide (x.1 ≤ va ∧ va < x.1 + x.2.1) with
  | some (_, size, .ok leaf) => (s, memo, .ok (leaf, size))
  | some (_, _, .error e) => (s, memo, .error { e with addr := addr })
  | none =>
    match leafFor s p space va addr with
    | (s, .ok (leaf, size)) => (s, (va / size * size, size, .ok leaf) :: memo, .ok (leaf, size))
    | (s, .error e) => (s, (va / 65536 * 65536, 65536, .error e) :: memo, .error e)

/-- A global address (R97, R98, R374, R375), with whether its page is compressed. -/
def translateIn (s : State) (memo : Memo) (p : Nat) (space : BitVec 16) (va size : Nat) (k : AccKind) (st32 : Bool) :
    State × Memo × Except XErr (Phys × Bool) :=
  let addr := BitVec.ofNat 64 va
  if 2 ^ 57 < va + size then (s, memo, .error { cause := cNotPresent, addr := addr })
  else
    match leafOnce s memo p space va addr with
    | (s, memo, .error e) => (s, memo, .error e)
    | (s, memo, .ok (leaf, psize)) =>
      let rem := field leaf 7 6 == 1
      if !rightsOk leaf k st32 then (s, memo, .error { cause := cRights, addr := addr, rem := rem })
      else
        let pa := field leaf 39 16 * 65536 + va % psize
        let ph : Phys := match field leaf 7 6 with
          | 1 => .remote (BitVec.ofNat 9 (field leaf 56 48)) pa
          | 2 => .door (BitVec.ofNat 9 (field leaf 56 48)) (BitVec.ofNat 24 (field leaf 39 16))
          | _ => .here (migKey s.migs pa)
        (s, memo, .ok (ph, field leaf 10 8 != 0))

/-- One global address on its own. -/
def translate (s : State) (p : Nat) (space : BitVec 16) (va size : Nat) (k : AccKind) (st32 : Bool) : State × Except XErr Phys :=
  match translateIn s [] p space va size k st32 with
  | (s, _, .ok (ph, _)) => (s, .ok ph)
  | (s, _, .error e) => (s, .error e)

/-! ## The on-chip spaces (R99 to R105) -/

/-- Swz(x, key) (R102). -/
def swz (x key : Nat) : Nat :=
  let row := x / 2 ^ 11 % 512
  let a := 2 * (key / 2 ^ 12 % 16) + 1
  let h := (a * (row % 32 ^^^ key / 2 ^ 5 % 32) + 9 * (row / 32 % 16 ^^^ key / 2 ^ 8 % 16) + key % 32) % 32
  row * 2 ^ 11 + (x / 2 ^ 6 % 32 ^^^ h) * 2 ^ 6 + x % 2 ^ 6

/-- SPHOLD of a space on a die: base and length in bytes (R346). -/
def Die.window (d : Die) (space : BitVec 16) : Nat × Nat :=
  let w := (lookup space d.sphold).getD 0
  (field w 5 0 * 2 ^ 21, field w 13 8 * 2 ^ 21)

/-- Where a byte of a moving page stood before the move. -/
def migBack (migs : List Mig) (key : Nat) : Nat :=
  match migs.find? fun m => m.new.toNat == key / 65536 with
  | some m => m.old.toNat * 65536 + key % 65536
  | none => key

/-- A byte key lies in a range of the GUARD table of the space (R133). -/
def State.guarded (s : State) (space : BitVec 16) (key size : Nat) : Bool :=
  let old := migBack s.migs key
  s.guards.any fun g => g.space == space && !g.count && g.keys.any fun r =>
    decide (r.1 < key + size ∧ key < r.1 + r.2) || decide (r.1 < old + size ∧ old < r.1 + r.2)

/-- The task of a core has used a unit (R352, R395). -/
def State.usesUnit (s : State) (id : Nat) (u : BitVec 12) : State := s.onCore id fun c => { c with units := c.units ||| u }

/-- An address of a space of the task on core `c`: where it leads and through which view (R99 to R105). Alignment is
checked first (log 10); then the range (of .nb, the high bits before the rank: log 10), the translation and the rights; then the
GUARD ranges. `memo` holds the pages that the same access has translated. -/
def resolveIn (s : State) (memo : Memo) (c : Core) (spc : Space) (addr : Nat) (size align : Nat) (k : AccKind) (st32 : Bool) :
    State × Memo × Except XErr (Phys × View) :=
  let a := BitVec.ofNat 64 addr
  let guard (key : Nat) (v : View) : Except XErr (Phys × View) :=
    if s.guarded c.space key size then .error { cause := cGuard, addr := a } else .ok (.here key, v)
  if addr % align ≠ 0 then (s, memo, .error { cause := cAlign, addr := a })
  else
    match spc with
    | .gl =>
      match translateIn s memo (s.partOfCore c.id) c.space addr size k st32 with
      | (s, memo, .error e) => (s, memo, .error e)
      | (s, memo, .ok (ph, cmp)) =>
        let s := if cmp then s.usesUnit c.id 0x800 else s
        match ph with
        | .here key =>
          if s.guarded c.space key size then (s, memo, .error { cause := cGuard, addr := a }) else (s, memo, .ok (.here key, .other))
        | ph => (s, memo, .ok (ph, .other))
    | .sp =>
      if addr + size ≤ c.footprint then (s, memo, guard (spKey c.id addr) .linear) else (s, memo, .error { cause := cBounds, addr := a })
    | .sw =>
      if addr + size ≤ c.footprint then (s, memo, guard (spKey c.id (swz addr c.swzkey)) .swizzled)
      else (s, memo, .error { cause := cBounds, addr := a })
    | .nb =>
      let rank := addr / 2 ^ 20 % 64
      let off := addr % 2 ^ 20
      if isSup c.id then (s, memo, .error { cause := cIllegal, addr := a })
      else if addr / 2 ^ 26 ≠ 0 then (s, memo, .error { cause := cBounds, addr := a })
      else if c.gsize ≤ rank then (s, memo, .error { cause := cIllegal, addr := a })
      else if c.footprint < off + size then (s, memo, .error { cause := cBounds, addr := a })
      else (s, memo, guard (spKey (c.member rank) off) (if rank = c.rank then .linear else .other))
    | .sb =>
      let d := dieOfCore c.id
      let (base, len) := (s.die d).window c.space
      if addr + size ≤ len then (s, memo, guard (holdKey d (base + addr)) .other) else (s, memo, .error { cause := cBounds, addr := a })

/-- One address on its own. -/
def resolve (s : State) (c : Core) (spc : Space) (addr : Nat) (size align : Nat) (k : AccKind) (st32 : Bool := false) :
    State × Except XErr (Phys × View) :=
  match resolveIn s [] c spc addr size align k st32 with
  | (s, _, r) => (s, r)

end Sys2Proof.Machine
end

