-- ==== Sys2Proof/Machine/Flags.lean ====
section
/-!
DEFINITION. Sys2Proof/Machine/Flags.lean: what raised flags do: the trap of an enabled flag (R88, R381), and FSR at a commit (R72).
-/
namespace Sys2Proof.Machine

/-- The cause of an enabled flag: Quantise Invalid when QINV is among the enabled flags raised, FP Trap otherwise (R72, R381). -/
def trapCause (enables raised : Flags) : Option (BitVec 8) :=
  let t := enables &&& raised
  if t = 0 then none else if t &&& fQINV = 0 then some cFpTrap else some cQuant

/-- FSR with flags ORed into its sticky bits [6:0] (R72). -/
def orFlags (fsr : Word) (fl : Flags) : Word := fsr ||| fl.setWidth 64

/-- Flags of several results, ORed. -/
def orAll (l : List Flags) : Flags := l.foldl (· ||| ·) 0

/-- A result rounded once under a mode, with the flags of its operation (R185). -/
def roundWith (t : Ty) (rm : Rm) (x : FVal × Flags) : Nat × Flags :=
  let (b, fl) := roundF t false rm x.1
  (b, fl ||| x.2)

/-- As roundWith for a value with a sticky remainder. -/
def roundWithS (t : Ty) (rm : Rm) (x : FVal × Bool × Flags) : Nat × Flags :=
  let (b, fl) := roundS t false rm x.1 x.2.1
  (b, fl ||| x.2.2)

/-- A truth result with the flags of a comparison (R190). -/
def truthWith (b : Bool) (fl : Flags) : Word × Flags := (b2w b, fl)

end Sys2Proof.Machine
end

