-- ==== Sys2Proof/WellFormed.lean ====
section
/-!
DEFINITION. Sys2Proof/WellFormed.lean: which terms of Instr are instructions that R136 to R154 can encode. Each check refuses
a term that no word stands for; the events of the table have no word and no check.
-/
namespace Sys2Proof

/-- LP = 1 is legal only where R154 allows it, and only with PM = 00 (R136). -/
def Ctl.lpOk (c : Ctl) (allowed : Bool) : Bool := !c.lp || (allowed && c.pm == .always)

/-- Formats I and M have one target (R139, R140). -/
def Ctl.oneTarget (c : Ctl) : Bool := c.t1.isNone

/-- An instruction whose result is none has no valid target (R144). -/
def Ctl.noTarget (c : Ctl) : Bool := c.t0.isNone && c.t1.isNone

/-- Two targets, LP not allowed. -/
def Ctl.plain (c : Ctl) : Bool := c.lpOk false

/-- The register number lies in its file (R63). -/
def regOk (cls : RegClass) (reg : BitVec 8) : Bool := decide (reg.toNat < cls.count)

/-- WIDF.fld k = 0..5, WIDF.lvl k = 0..6 (R168). -/
def widfOk (lvl : Bool) (k : BitVec 3) : Bool := decide (k.toNat < if lvl then 7 else 6)

/-- MUL.lo takes N = 0 only (R175). -/
def mulOk (f : IForm) (hi : Bool) : Bool := hi || !f.n

/-- eq and ne take N = 0 only (R182). -/
def icmpOk (f : IForm) (op : IcmpOp) : Bool :=
  match op with
  | .eq | .ne => !f.n
  | .lt | .le => true

/-- x32 requires W = 1 (R184). -/
def extOk (f : IForm) (sz : ExtSize) : Bool := sz != .x32 || f.w

/-- FCVT: a float source converts to any 4-bit type but itself, an integer source to a float (R191). -/
def fcvtOk (t : Ty) (fromInt : Bool) (ty : Ty) : Bool :=
  t.isFL && if fromInt then ty.isInt else ty.is4 && ty != t

/-- Types of VQMX, VDQMX and VQT (R214). -/
def Ty.isQ : Ty → Bool | .f16 | .bf16 | .f32 => true | _ => false

/-- OR of a load-class access: 00 or 01; of a store: 00 or 10 (R150). -/
def loadOrd (m : MemF) : Bool := !m.ord.isRel
def storeOrd (m : MemF) : Bool := !m.ord.isAcq

/-- Operation and type of AMO (R226): `w64` only with an integer operation. -/
def amoOk (op : AmoOp) (sc w64 : Bool) (m : MemF) : Bool :=
  (match op with | .faddF32 | .faddBf16x2 => !w64 | _ => true) && (!sc || (m.ord == .ar && m.sc != .dom))

/-- Operation and type of BKOP; SP is .sb and OR is 00 or 10 (R231). -/
def bkopOk (op : BkOp) (t : Ty) (m : MemF) : Bool :=
  (match op with
   | .add | .max | .min | .inc => t == .i32 || t == .i64 || t == .n32 || t == .n64
   | .hist => t == .n32
   | .faddF32 => t == .f32
   | .faddBf16x2 => t == .bf16) && m.sp == .sb && storeOrd m

/-- IB = 1 on a vector instruction needs an integer lane type where slot B is a vector (R195). -/
def immIL (t : Ty) (imm : Option (BitVec 13)) : Bool := imm.isNone || t.isIL

/-- The PSR.wr rows of their own are the words whose number is theirs (R345). -/
def psrWriteOk (n : BitVec 13) : Bool :=
  !(n == 0x013#13 || n == 0x012#13 || n == 0x011#13 || n == 0x022#13 || n == 0x050#13 || n == 0x051#13 || n == 0x040#13)

/-- A term is well formed when its word exists. -/
def Instr.wellFormed : Instr → Bool
  | .read c cls reg => c.plain && regOk cls reg
  | .write c cls reg => c.lpOk (cls == .v) && c.noTarget && regOk cls reg
  | .fan c => c.lpOk true
  | .null c | .nullIsn c => c.plain
  | .const c _ _ => c.plain && c.oneTarget
  | .ptb c _ => c.plain && c.noTarget
  | .widf c lvl k => c.plain && widfOk lvl k
  | .sread c _ => c.plain
  | .spawn c _ => c.plain
  | .trap c _ => c.plain && c.noTarget
  | .add c _ _ _ | .sub c _ _ _ => c.plain
  | .mul c f hi _ => c.plain && mulOk f hi
  | .div c _ _ _ => c.plain
  | .and c _ _ | .or c _ _ | .xor c _ _ | .andn c _ _ => c.plain
  | .shift c _ _ _ => c.plain
  | .bitf c _ op imm => c.plain && (op.usesB || imm.isNone)
  | .minmax c _ _ _ => c.plain
  | .icmp c f op _ => c.plain && icmpOk f op
  | .sel c _ => c.lpOk true
  | .addr c _ _ => c.plain
  | .addi c _ _ => c.plain && c.oneTarget
  | .ext c f sz => c.plain && extOk f sz
  | .fadd c t | .fsub c t | .fmul c t | .fdiv c t | .fsqrt c t | .fclass c t => c.plain && t.isFL
  | .ffma c t _ => c.plain && t.isFL
  | .fminmax c t _ => c.plain && t.isFL
  | .fcmp c t _ => c.plain && t.isFL
  | .fcvt c t fi ty => c.plain && fcvtOk t fi ty
  | .frint c t _ => c.plain && t.isFL
  | .vadd c t | .vsub c t | .vmul c t | .vdiv c t | .vsqrt c t | .vrsq c t | .vrcp c t | .vexp2 c t | .vlog2 c t
  | .vdot c t => c.lpOk true && t.isFL
  | .vfma c t _ => c.lpOk true && t.isFL
  | .vminmax c t _ => c.lpOk true && t.isFL
  | .vabs c t | .vneg c t | .vsel c t | .vbcast c t => c.lpOk true && t.isLT
  | .viarith c t _ _ => c.lpOk true && t.isIL
  | .vlogic c t op imm => c.lpOk true && t.isIL && (op != .not || imm.isNone)
  | .vshift c t _ _ => c.lpOk true && t.isIL
  | .vcmp c t op imm => c.lpOk true && t.isLT && (op != .un || t.isFL) && immIL t imm
  | .maskop c t _ => c.plain && t.isLT
  | .viota c t _ => c.lpOk true && t.isIL
  | .vextr c t _ | .vins c t _ => c.lpOk true && t.isLT
  | .vperm c t two imm => c.lpOk true && t.isLT && immIL t imm && (!two || imm.isNone)
  | .vslide c t _ _ => c.lpOk true && t.isLT
  | .vred c t op | .vscan c t op => c.lpOk true && t.isLT && (!op.isBitwise || t.isIL)
  | .vcvt c t ty => c.lpOk true && t.isLT && ty.isLT && ty != t
  | .vqmx c t _ _ => c.lpOk true && t.isQ
  | .vdqmx c t _ => c.lpOk true && t.isQ
  | .vqt c t _ => c.lpOk true && t.isQ
  | .vpack c t _ => c.lpOk true && t.isIL && t.width != 16
  | .vunpk c t _ => c.lpOk true && t.isIL && t.width != 64
  | .ld c t m _ => c.plain && c.oneTarget && t.isST && loadOrd m
  | .st c t m _ => c.plain && c.noTarget && t.isST && storeOrd m
  | .vld c t m _ | .vlds c t m _ | .vgath c t m _ => c.lpOk true && c.oneTarget && t.isLT && loadOrd m
  | .vst c t m _ | .vsts c t m _ | .vscat c t m _ => c.lpOk true && c.noTarget && t.isLT && storeOrd m
  | .tld c t m _ => c.lpOk true && c.oneTarget && t.isLT && loadOrd m && m.sp == .gl
  | .tst c t m _ => c.lpOk true && c.noTarget && t.isLT && storeOrd m && m.sp == .gl
  | .pref c _ m _ => c.plain && c.noTarget && m.ord == .rlx
  | .vjoin c _ => c.plain && c.noTarget
  | .amo c op sc w64 m _ => c.plain && c.oneTarget && amoOk op sc w64 m
  | .cas c sc _ m _ => c.plain && c.oneTarget && (!sc || (m.ord == .ar && m.sc != .dom))
  | .fence c _ _ _ => c.plain && c.noTarget
  | .barInit c _ _ | .barArrive c _ _ | .barWait c _ _ | .barSync c _ _ => c.plain && c.oneTarget
  | .bkop c op t m _ => c.plain && c.noTarget && bkopOk op t m
  | .ctrInc c _ _ _ | .ctrSet c _ _ _ | .ctrReset c _ _ _ | .ctrResetKeep c _ _ _ => c.plain && c.noTarget
  | .ctrAdd c _ _ _ _ => c.plain && c.noTarget
  | .ctrRead c _ _ => c.plain && c.oneTarget
  | .ctrwait c _ _ _ => c.plain && c.oneTarget
  | .arm c _ _ => c.plain
  | .chbindOwn c _ | .chbindProd c _ | .chbindCons c _ => c.plain && c.noTarget
  | .chwait c _ _ => c.plain
  | .chadv c _ _ => c.plain && c.noTarget
  | .copy c _ _ _ => c.plain
  | .copyCh c _ _ _ _ => c.plain
  | .copyw c | .copywTest c | .mwait c | .mwaitTest c | .collw c | .collwTest c => c.plain
  | .tdset c _ _ => c.plain && c.noTarget
  | .tdget c _ _ => c.plain
  | .mzero c _ _ => c.plain
  | .mma c _ _ _ _ _ | .mmag c _ _ _ _ _ => c.plain
  | .gmma c _ _ _ _ _ => c.plain
  | .mlda c _ _ _ _ _ => c.plain && c.noTarget
  | .msta c _ _ _ _ => c.plain && c.noTarget
  | .rgrp c _ _ _ _ | .rtopk c _ _ _ _ | .rbin c _ _ _ _ | .bpermRequest c _ _ _ _ | .bpermOpen c _ _ _ _
  | .dspat c _ _ _ _ | .cmbn c _ _ _ _ | .expld c _ _ _ _ | .collAr c _ _ _ _ | .collRs c _ _ _ _ | .collAg c _ _ _ _
  | .collA2a c _ _ _ _ | .collBc c _ _ _ _ | .collOp c _ _ _ _ => c.plain
  | .brel c _ _ => c.plain
  | .sigcfg c _ | .sigid c _ | .sigscl c _ | .sigmovSs c _ | .sigmovSl c _ => c.plain && c.noTarget
  | .sigstep c _ | .sigmovVc c _ => c.lpOk true && c.noTarget
  | .sigmovCv c _ => c.lpOk true
  | .sigstrm c _ _ _ => c.plain
  | .sigjoin c _ _ _ => c.plain && c.noTarget
  | .siglog c _ _ | .sigexp c _ _ | .siginv c _ _ => c.plain && c.noTarget
  | .psrRead c _ => c.plain
  | .psrWrite c n => c.plain && c.noTarget && psrWriteOk n
  | .spctlWrite c | .spholdWrite c | .spptWrite c | .qwdWrite c | .dbgctlWrite c => c.plain && c.noTarget
  | .contextAreaWrite c _ => c.plain && c.noTarget
  | .tresume c | .tresumeSame c | .tlbinvAll c | .tlbinvPage c | .tlbinvSpace c | .ctxopSave c | .ctxopRestore c
  | .ctxopKill c | .budgetSet c | .budgetAdd c | .halt c | .dbgStep c | .dbgBrk c | .dbgClrbrk c | .cacheL1inv c
  | .cacheIcinv c | .cacheL2wb c => c.plain && c.noTarget
  | .glaunch c _ => c.plain
  | .blockFetch _ | .exitTreeDecide | .bindingPoint | .blockCommit | .blockSquash | .blockDiscard | .trapRecordWrite _
  | .waitSatisfied _ | .taskRetire | .l1LineExpiry _ | .armedCommandFire | .matrixCommandStart _ | .matrixCommandComplete _
  | .sigstrmComplete _ | .copySlotTake _ | .copyChunkWrite _ | .copyComplete _ | .routingCommandComplete _
  | .dspatComplete _ | .cmbnComplete _ | .collComplete _ | .childLaunchEntry _ | .haltWake | .scWindowEnd | .leaveGrant _
  | .templateFill _ _ | .candidateAgeing | .candidateStarve | .memoryRequest _ | .reply _ | .refusal _ | .hostLaunch _
  | .doorbell _ | .dispatchRow _ | .returnRow _ | .collectiveChunk _ | .poolRequest _ | .poolGrant _ | .closingMarker _
  | .domainBarrierArrival _ | .absenceTokenArrival _ | .packetResend _ _ | .linkDown _ | .linkReplay _
  | .createQueue _ _ _ | .destroyQueue _ _ | .resumeSpace _ _ | .setPartitionParameter _ _ _ | .setPartitions _ _
  | .writeIngressEntry _ _ _ _ | .writeDoorbellEntry _ _ _ _ | .configureDomainBarrier _ _ _ _ _ | .migratePage _ _ _ _
  | .requestPreemption _ | .readBlackBox _ | .freeze | .ringCommandSubmit _ _ | .hcFrame _ | .watchdogPreempt _
  | .watchdogKill _ | .watchdogFence _ | .migrationDone _ _ _ | .pquietExpiry _ | .gangSwitchOut _ | .dbtoExpiry _
  | .gangMigration _ _ | .forwardEntryExpiry _ | .scrubVisit _ | .coldReset _ _ _ | .warmReset _ _ _ => true

end Sys2Proof
end

