-- ==== Sys2Proof/Decode.lean ====
section
/-!
DEFINITION. Sys2Proof/Decode.lean: from the 64 bits of an instruction word to an instruction or a named rejection, and back
(R136 to R154). A word is split once into the fields of its format; no later definition sees raw bits.
-/
namespace Sys2Proof

/-- Why a word is no instruction: each is a Block Format fault at decode (R154). -/
inductive Reject where
  | opcode | fn | sub | ty | pm | lp | target | field | imm | space | scope | order | reg | event
deriving DecidableEq, Repr

/-- The common fields and the 38 low bits (R136). -/
structure Head where
  op : BitVec 8
  fn : BitVec 5
  pm : BitVec 2
  lp : BitVec 1
  t0 : BitVec 10
  lo : BitVec 38
deriving DecidableEq, Repr

def Head.join (h : Head) : BitVec 64 := h.op ++ h.fn ++ h.pm ++ h.lp ++ h.t0 ++ h.lo
def Head.split (w : BitVec 64) : Head :=
  { op := w.extractLsb' 56 8, fn := w.extractLsb' 51 5, pm := w.extractLsb' 49 2, lp := w.extractLsb' 48 1,
    t0 := w.extractLsb' 38 10, lo := w.extractLsb' 0 38 }

/-- Format G (R138). -/
structure GLo where
  t1 : BitVec 10
  ty : BitVec 4
  imm : BitVec 13
  ib : BitVec 1
  z : BitVec 10
deriving DecidableEq, Repr
def GLo.join (l : GLo) : BitVec 38 := l.t1 ++ l.ty ++ l.imm ++ l.ib ++ l.z
def GLo.split (w : BitVec 38) : GLo :=
  { t1 := w.extractLsb' 28 10, ty := w.extractLsb' 24 4, imm := w.extractLsb' 11 13, ib := w.extractLsb' 10 1,
    z := w.extractLsb' 0 10 }

/-- Format I (R139). -/
structure ILo where
  sub : BitVec 6
  imm : BitVec 32
deriving DecidableEq, Repr
def ILo.join (l : ILo) : BitVec 38 := l.sub ++ l.imm
def ILo.split (w : BitVec 38) : ILo := { sub := w.extractLsb' 32 6, imm := w.extractLsb' 0 32 }

/-- Format M (R140). -/
structure MLo where
  lsid : BitVec 5
  sp : BitVec 3
  sc : BitVec 3
  ord : BitVec 2
  disp : BitVec 20
  ty : BitVec 5
deriving DecidableEq, Repr
def MLo.join (l : MLo) : BitVec 38 := l.lsid ++ l.sp ++ l.sc ++ l.ord ++ l.disp ++ l.ty
def MLo.split (w : BitVec 38) : MLo :=
  { lsid := w.extractLsb' 33 5, sp := w.extractLsb' 30 3, sc := w.extractLsb' 27 3, ord := w.extractLsb' 25 2,
    disp := w.extractLsb' 5 20, ty := w.extractLsb' 0 5 }

/-- Format R (R141). -/
structure RLo where
  t1 : BitVec 10
  cls : BitVec 4
  reg : BitVec 8
  z : BitVec 16
deriving DecidableEq, Repr
def RLo.join (l : RLo) : BitVec 38 := l.t1 ++ l.cls ++ l.reg ++ l.z
def RLo.split (w : BitVec 38) : RLo :=
  { t1 := w.extractLsb' 28 10, cls := w.extractLsb' 24 4, reg := w.extractLsb' 16 8, z := w.extractLsb' 0 16 }

/-- Format A (R142). -/
structure ALo where
  t1 : BitVec 10
  tda : BitVec 6
  tdb : BitVec 6
  tdc : BitVec 6
  xf : BitVec 3
  kn : BitVec 5
  cnt : BitVec 1
  rel : BitVec 1
deriving DecidableEq, Repr
def ALo.join (l : ALo) : BitVec 38 := l.t1 ++ l.tda ++ l.tdb ++ l.tdc ++ l.xf ++ l.kn ++ l.cnt ++ l.rel
def ALo.split (w : BitVec 38) : ALo :=
  { t1 := w.extractLsb' 28 10, tda := w.extractLsb' 22 6, tdb := w.extractLsb' 16 6, tdc := w.extractLsb' 10 6,
    xf := w.extractLsb' 7 3, kn := w.extractLsb' 2 5, cnt := w.extractLsb' 1 1, rel := w.extractLsb' 0 1 }

/-! ## Codes of the small fields -/

def bit (b : Bool) : BitVec 1 := if b then 1 else 0

/-- Answers `e` unless the condition holds. -/
def need (b : Bool) (e : Reject) : Except Reject Unit := if b then .ok () else .error e

def encPm : Pm → BitVec 2 | .always => 0 | .ifTrue => 1 | .ifFalse => 2
def decPm (b : BitVec 2) : Except Reject Pm :=
  match b.toNat with | 0 => .ok .always | 1 => .ok .ifTrue | 2 => .ok .ifFalse | _ => .error .pm

def encSlot : Slot → BitVec 2 | .a => 0 | .b => 1 | .c => 2 | .p => 3
def decSlot (b : BitVec 2) : Slot := match b.toNat with | 0 => .a | 1 => .b | 2 => .c | _ => .p

/-- A target field is all zero when its valid bit is clear (R137). -/
def encTarget : Option Target → BitVec 10
  | none => 0
  | some t => 1#1 ++ t.idx ++ encSlot t.slot
def decTarget (b : BitVec 10) : Except Reject (Option Target) :=
  if b = 0 then .ok none
  else if b.extractLsb' 9 1 = 1 then .ok (some ⟨b.extractLsb' 2 7, decSlot (b.extractLsb' 0 2)⟩)
  else .error .target

/-- PM, LP and the targets; LP = 1 only where allowed and with PM = 00 (R136, R154). -/
def decCtl (h : Head) (lpAllowed : Bool) (t1 : BitVec 10) : Except Reject Ctl := do
  let pm ← decPm h.pm
  need (h.lp == 0 || (lpAllowed && pm == .always)) .lp
  let t0 ← decTarget h.t0
  let t1 ← decTarget t1
  pure { pm := pm, lp := h.lp == 1, t0 := t0, t1 := t1 }

/-- As decCtl for an instruction whose result is none (R144). -/
def decCtl0 (h : Head) (lpAllowed : Bool) (t1 : BitVec 10) : Except Reject Ctl := do
  let c ← decCtl h lpAllowed t1
  need c.noTarget .target
  pure c

def encSpace : Space → BitVec 3 | .gl => 0 | .sp => 1 | .sw => 2 | .nb => 3 | .sb => 4
def decSpace (b : BitVec 3) : Except Reject Space :=
  match b.toNat with | 0 => .ok .gl | 1 => .ok .sp | 2 => .ok .sw | 3 => .ok .nb | 4 => .ok .sb | _ => .error .space
def encScope : Scope → BitVec 3 | .task => 0 | .gang => 1 | .die => 2 | .pkg => 3 | .dom => 4
def decScope (b : BitVec 3) : Except Reject Scope :=
  match b.toNat with | 0 => .ok .task | 1 => .ok .gang | 2 => .ok .die | 3 => .ok .pkg | 4 => .ok .dom | _ => .error .scope
def encOrd : Ord → BitVec 2 | .rlx => 0 | .acq => 1 | .rel => 2 | .ar => 3
def decOrd (b : BitVec 2) : Ord := match b.toNat with | 0 => .rlx | 1 => .acq | 2 => .rel | _ => .ar
def encClass : RegClass → BitVec 4 | .g => 0 | .v => 1 | .m => 2 | .b => 3 | .l => 4 | .fsr => 5
def decClass (b : BitVec 4) : Except Reject RegClass :=
  match b.toNat with
  | 0 => .ok .g | 1 => .ok .v | 2 => .ok .m | 3 => .ok .b | 4 => .ok .l | 5 => .ok .fsr | _ => .error .reg
def decTy (b : BitVec 5) : Except Reject Ty := match Ty.ofCode b with | some t => .ok t | none => .error .ty
def decTy4 (b : BitVec 4) : Except Reject Ty := decTy (b.setWidth 5)
def encTy4 (t : Ty) : BitVec 4 := t.code.setWidth 4
/-- FN[4:3] of the scalar floating majors: the low two bits of the type's code (R148). -/
def encFmt (t : Ty) : BitVec 2 := t.code.setWidth 2
def decFmt (b : BitVec 2) : Ty := match b.toNat with | 0 => .f16 | 1 => .bf16 | 2 => .f32 | _ => .f64

def encShift : ShiftOp → BitVec 3 | .shl => 0 | .shr => 1 | .sra => 2 | .rol => 3
def decShift (b : BitVec 3) : Except Reject ShiftOp :=
  match b.toNat with | 0 => .ok .shl | 1 => .ok .shr | 2 => .ok .sra | 3 => .ok .rol | _ => .error .fn
def encBitf : BitfOp → BitVec 3
  | .extz => 0 | .exts => 1 | .ins => 2 | .clz => 3 | .ctz => 4 | .popc => 5 | .brev => 6
def decBitf (b : BitVec 3) : Except Reject BitfOp :=
  match b.toNat with
  | 0 => .ok .extz | 1 => .ok .exts | 2 => .ok .ins | 3 => .ok .clz | 4 => .ok .ctz | 5 => .ok .popc | 6 => .ok .brev
  | _ => .error .fn
def encIcmp : IcmpOp → BitVec 3 | .eq => 0 | .ne => 1 | .lt => 2 | .le => 3
def decIcmp (b : BitVec 3) : Except Reject IcmpOp :=
  match b.toNat with | 0 => .ok .eq | 1 => .ok .ne | 2 => .ok .lt | 3 => .ok .le | _ => .error .fn
def encExt : ExtSize → BitVec 3 | .x8 => 0 | .x16 => 1 | .x32 => 2
def decExt (b : BitVec 3) : Except Reject ExtSize :=
  match b.toNat with | 0 => .ok .x8 | 1 => .ok .x16 | 2 => .ok .x32 | _ => .error .fn
def encFma : FmaKind → BitVec 3 | .fma => 0 | .fms => 1 | .fnma => 2
def decFma (b : BitVec 3) : Except Reject FmaKind :=
  match b.toNat with | 0 => .ok .fma | 1 => .ok .fms | 2 => .ok .fnma | _ => .error .fn
def encFMinMax : FMinMax → BitVec 3 | .min => 0 | .max => 1 | .minnum => 2 | .maxnum => 3
def decFMinMax (b : BitVec 3) : Except Reject FMinMax :=
  match b.toNat with | 0 => .ok .min | 1 => .ok .max | 2 => .ok .minnum | 3 => .ok .maxnum | _ => .error .fn
def encFcmp : FcmpOp → BitVec 3 | .eq => 0 | .ne => 1 | .lt => 2 | .le => 3 | .un => 4
def decFcmp (b : BitVec 3) : Except Reject FcmpOp :=
  match b.toNat with | 0 => .ok .eq | 1 => .ok .ne | 2 => .ok .lt | 3 => .ok .le | 4 => .ok .un | _ => .error .fn
def encRint : RintMode → BitVec 3 | .fsr => 0 | .rne => 1 | .rtz => 2 | .rup => 3 | .rdn => 4
def decRint (b : BitVec 3) : Except Reject RintMode :=
  match b.toNat with
  | 0 => .ok .fsr | 1 => .ok .rne | 2 => .ok .rtz | 3 => .ok .rup | 4 => .ok .rdn | _ => .error .fn
def encVI : VIOp → BitVec 5
  | .add => 0 | .sub => 1 | .mul => 2 | .mulhi => 3 | .addsat => 4 | .subsat => 5 | .min => 6 | .max => 7
def decVI (b : BitVec 5) : Except Reject VIOp :=
  match b.toNat with
  | 0 => .ok .add | 1 => .ok .sub | 2 => .ok .mul | 3 => .ok .mulhi | 4 => .ok .addsat | 5 => .ok .subsat
  | 6 => .ok .min | 7 => .ok .max | _ => .error .fn
def encVLogic : VLogicOp → BitVec 5 | .and => 0 | .or => 1 | .xor => 2 | .andn => 3 | .not => 4
def decVLogic (b : BitVec 5) : Except Reject VLogicOp :=
  match b.toNat with | 0 => .ok .and | 1 => .ok .or | 2 => .ok .xor | 3 => .ok .andn | 4 => .ok .not | _ => .error .fn
def encMask : MaskOp → BitVec 5
  | .mand => 0 | .mor => 1 | .mxor => 2 | .mnot => 3 | .mpopc => 4 | .mfirst => 5 | .mfromi => 6
def decMask (b : BitVec 5) : Except Reject MaskOp :=
  match b.toNat with
  | 0 => .ok .mand | 1 => .ok .mor | 2 => .ok .mxor | 3 => .ok .mnot | 4 => .ok .mpopc | 5 => .ok .mfirst
  | 6 => .ok .mfromi | _ => .error .fn
def encRed : RedOp → BitVec 5 | .add => 0 | .min => 1 | .max => 2 | .and => 3 | .or => 4 | .xor => 5
def decRed (b : BitVec 5) : Except Reject RedOp :=
  match b.toNat with
  | 0 => .ok .add | 1 => .ok .min | 2 => .ok .max | 3 => .ok .and | 4 => .ok .or | 5 => .ok .xor | _ => .error .fn
def encMx : MxFmt → BitVec 3 | .e4m3 => 0 | .e5m2 => 1 | .e2m3 => 2 | .e3m2 => 3 | .e2m1 => 4
def decMx (b : BitVec 3) : Except Reject MxFmt :=
  match b.toNat with
  | 0 => .ok .e4m3 | 1 => .ok .e5m2 | 2 => .ok .e2m3 | 3 => .ok .e3m2 | 4 => .ok .e2m1 | _ => .error .fn
def encVqt : VqtOp → BitVec 5 | .toT8 => 0 | .toT6 => 1 | .fromT8 => 2 | .fromT6 => 3
def decVqt (b : BitVec 5) : Except Reject VqtOp :=
  match b.toNat with | 0 => .ok .toT8 | 1 => .ok .toT6 | 2 => .ok .fromT8 | 3 => .ok .fromT6 | _ => .error .fn
def encAmo : AmoOp → BitVec 4
  | .add => 0 | .and => 1 | .or => 2 | .xor => 3 | .min => 4 | .max => 5 | .minn => 6 | .maxn => 7 | .swap => 8
  | .faddF32 => 9 | .faddBf16x2 => 10
def decAmo (b : BitVec 4) : Except Reject AmoOp :=
  match b.toNat with
  | 0 => .ok .add | 1 => .ok .and | 2 => .ok .or | 3 => .ok .xor | 4 => .ok .min | 5 => .ok .max | 6 => .ok .minn
  | 7 => .ok .maxn | 8 => .ok .swap | 9 => .ok .faddF32 | 10 => .ok .faddBf16x2 | _ => .error .fn
def encFence : FenceKind → BitVec 5 | .rr => 0 | .rw => 1 | .wr => 2 | .ww => 3 | .all => 4
def decFence (b : BitVec 5) : Except Reject FenceKind :=
  match b.toNat with | 0 => .ok .rr | 1 => .ok .rw | 2 => .ok .wr | 3 => .ok .ww | 4 => .ok .all | _ => .error .fn
def encBk : BkOp → BitVec 5
  | .add => 0 | .max => 1 | .min => 2 | .inc => 3 | .hist => 4 | .faddF32 => 5 | .faddBf16x2 => 6
def decBk (b : BitVec 5) : Except Reject BkOp :=
  match b.toNat with
  | 0 => .ok .add | 1 => .ok .max | 2 => .ok .min | 3 => .ok .inc | 4 => .ok .hist | 5 => .ok .faddF32
  | 6 => .ok .faddBf16x2 | _ => .error .fn

/-! ## The formats with their zero fields checked -/

/-- Format G without immediate and without fields in IMM13. -/
def gPlain (h : Head) : Except Reject GLo := do
  let l := GLo.split h.lo
  need (l.z == 0) .field
  need (l.ib == 0 && l.imm == 0) .imm
  pure l

/-- Format G where slot B may take an immediate: IB = 1 gives IMM13, IB = 0 requires IMM13 = 0 (R138, R195). -/
def gImm (h : Head) (allowed : Bool) : Except Reject (GLo × Option (BitVec 13)) := do
  let l := GLo.split h.lo
  need (l.z == 0) .field
  if l.ib == 1 then
    need allowed .imm
    pure (l, some l.imm)
  else
    need (l.imm == 0) .imm
    pure (l, none)

/-- Format G whose IMM13 holds fields: IB is 0 (R138). -/
def gField (h : Head) : Except Reject GLo := do
  let l := GLo.split h.lo
  need (l.z == 0) .field
  need (l.ib == 0) .imm
  pure l

/-- SP, SC, OR and LSID of format M. -/
def memF (l : MLo) : Except Reject MemF := do
  let spc ← decSpace l.sp
  let sc ← decScope l.sc
  pure { lsid := l.lsid, sp := spc, sc := sc, ord := decOrd l.ord }

/-- KN is zero when CNT = 0 (R142). -/
def cmdOpt (l : ALo) : Except Reject CmdOpt := do
  need (l.cnt == 1 || l.kn == 0) .field
  pure { ctr := if l.cnt == 1 then some l.kn else none, rel := l.rel == 1 }

def iform (fn : BitVec 5) : IForm := { w := fn.extractLsb' 4 1 == 1, n := fn.extractLsb' 3 1 == 1 }
def sub3 (fn : BitVec 5) : BitVec 3 := fn.extractLsb' 0 3

/-! ## Decoders by family -/

def decBlock (h : Head) : Except Reject Instr :=
  match h.op.toNat with
  | 0x01 => do
    need (h.fn == 0) .fn
    let l := RLo.split h.lo
    let cls ← decClass l.cls
    need (regOk cls l.reg) .reg
    need (l.z == 0) .field
    let c ← decCtl h false l.t1
    pure (.read c cls l.reg)
  | 0x02 => do
    need (h.fn == 0) .fn
    let l := RLo.split h.lo
    let cls ← decClass l.cls
    need (regOk cls l.reg) .reg
    need (l.z == 0) .field
    let c ← decCtl0 h (cls == .v) l.t1
    pure (.write c cls l.reg)
  | 0x03 => do
    need (h.fn == 0) .fn
    let l ← gPlain h
    need (l.ty == 0) .ty
    let c ← decCtl h true l.t1
    pure (.fan c)
  | 0x04 => do
    let l ← gPlain h
    need (l.ty == 0) .ty
    let c ← decCtl h false l.t1
    if h.fn == 0 then pure (.null c) else do
      need (h.fn == 1) .fn
      pure (.nullIsn c)
  | 0x05 => do
    need (h.fn == 0) .fn
    let l := ILo.split h.lo
    let c ← decCtl h false 0
    match l.sub.toNat with
    | 0 => pure (.const c .i l.imm)
    | 1 => pure (.const c .n l.imm)
    | 2 => pure (.const c .hi l.imm)
    | _ => .error .sub
  | 0x06 => do
    need (h.fn == 0) .fn
    let l := RLo.split h.lo
    need (l.cls == 3) .reg
    need (decide (l.reg.toNat < 4)) .reg
    need (l.z == 0) .field
    let c ← decCtl0 h false l.t1
    pure (.ptb c (l.reg.setWidth 2))
  | 0x07 => do
    let l ← gPlain h
    need (l.ty == 0) .ty
    let c ← decCtl h false l.t1
    need (h.fn.extractLsb' 4 1 == 0) .fn
    need (widfOk (h.fn.extractLsb' 3 1 == 1) (sub3 h.fn)) .fn
    pure (.widf c (h.fn.extractLsb' 3 1 == 1) (sub3 h.fn))
  | 0x08 => do
    need (h.fn == 0) .fn
    let l ← gField h
    need (l.ty == 0) .ty
    need (l.imm.extractLsb' 8 5 == 0) .field
    let c ← decCtl h false l.t1
    pure (.sread c (l.imm.setWidth 8))
  | 0x09 => do
    need (h.fn == 0) .fn
    let l := ALo.split h.lo
    need (l.tda == 0 && l.tdb == 0 && l.tdc == 0 && l.xf == 0) .field
    let o ← cmdOpt l
    let c ← decCtl h false l.t1
    pure (.spawn c o)
  | 0x0A => do
    need (h.fn == 0) .fn
    let l ← gField h
    need (l.ty == 0) .ty
    let c ← decCtl0 h false l.t1
    pure (.trap c l.imm)
  | _ => .error .opcode

def decInt (h : Head) : Except Reject Instr :=
  match h.op.toNat with
  | 0x10 => do
    let (l, imm) ← gImm h true
    need (l.ty == 0) .ty
    need (h.fn.extractLsb' 1 2 == 0) .fn
    let c ← decCtl h false l.t1
    pure (.add c (iform h.fn) (h.fn.extractLsb' 0 1 == 1) imm)
  | 0x11 => do
    let (l, imm) ← gImm h true
    need (l.ty == 0) .ty
    need (h.fn.extractLsb' 1 2 == 0) .fn
    let c ← decCtl h false l.t1
    pure (.sub c (iform h.fn) (h.fn.extractLsb' 0 1 == 1) imm)
  | 0x12 => do
    let (l, imm) ← gImm h true
    need (l.ty == 0) .ty
    need (h.fn.extractLsb' 1 2 == 0) .fn
    need (mulOk (iform h.fn) (h.fn.extractLsb' 0 1 == 1)) .fn
    let c ← decCtl h false l.t1
    pure (.mul c (iform h.fn) (h.fn.extractLsb' 0 1 == 1) imm)
  | 0x13 => do
    let (l, imm) ← gImm h true
    need (l.ty == 0) .ty
    need (h.fn.extractLsb' 1 2 == 0) .fn
    let c ← decCtl h false l.t1
    pure (.div c (iform h.fn) (h.fn.extractLsb' 0 1 == 1) imm)
  | 0x14 => do
    let (l, imm) ← gImm h true
    need (l.ty == 0) .ty
    need (h.fn.extractLsb' 0 4 == 0) .fn
    let c ← decCtl h false l.t1
    pure (.and c (h.fn.extractLsb' 4 1 == 1) imm)
  | 0x15 => do
    let (l, imm) ← gImm h true
    need (l.ty == 0) .ty
    need (h.fn.extractLsb' 0 4 == 0) .fn
    let c ← decCtl h false l.t1
    pure (.or c (h.fn.extractLsb' 4 1 == 1) imm)
  | 0x16 => do
    let (l, imm) ← gImm h true
    need (l.ty == 0) .ty
    need (h.fn.extractLsb' 0 4 == 0) .fn
    let c ← decCtl h false l.t1
    pure (.xor c (h.fn.extractLsb' 4 1 == 1) imm)
  | 0x17 => do
    let (l, imm) ← gImm h true
    need (l.ty == 0) .ty
    need (h.fn.extractLsb' 0 4 == 0) .fn
    let c ← decCtl h false l.t1
    pure (.andn c (h.fn.extractLsb' 4 1 == 1) imm)
  | 0x18 => do
    let (l, imm) ← gImm h true
    need (l.ty == 0) .ty
    need (h.fn.extractLsb' 3 1 == 0) .fn
    let op ← decShift (sub3 h.fn)
    let c ← decCtl h false l.t1
    pure (.shift c (h.fn.extractLsb' 4 1 == 1) op imm)
  | 0x19 => do
    need (h.fn.extractLsb' 3 1 == 0) .fn
    let op ← decBitf (sub3 h.fn)
    let (l, imm) ← gImm h op.usesB
    need (l.ty == 0) .ty
    let c ← decCtl h false l.t1
    pure (.bitf c (h.fn.extractLsb' 4 1 == 1) op imm)
  | 0x1A => do
    let (l, imm) ← gImm h true
    need (l.ty == 0) .ty
    need (h.fn.extractLsb' 1 2 == 0) .fn
    let c ← decCtl h false l.t1
    pure (.minmax c (iform h.fn) (h.fn.extractLsb' 0 1 == 1) imm)
  | 0x1B => do
    let (l, imm) ← gImm h true
    need (l.ty == 0) .ty
    let op ← decIcmp (sub3 h.fn)
    need (icmpOk (iform h.fn) op) .fn
    let c ← decCtl h false l.t1
    pure (.icmp c (iform h.fn) op imm)
  | 0x1C => do
    let (l, imm) ← gImm h true
    need (l.ty == 0) .ty
    need (h.fn == 16) .fn
    let c ← decCtl h true l.t1
    pure (.sel c imm)
  | 0x1D => do
    let l ← gField h
    need (l.ty == 0) .ty
    need (h.fn.extractLsb' 3 2 == 2) .fn
    let c ← decCtl h false l.t1
    pure (.addr c (sub3 h.fn) l.imm)
  | 0x1E => do
    let l := ILo.split h.lo
    need (l.sub == 0) .sub
    need (h.fn.extractLsb' 0 4 == 0) .fn
    let c ← decCtl h false 0
    pure (.addi c (h.fn.extractLsb' 4 1 == 1) l.imm)
  | 0x1F => do
    let l ← gPlain h
    need (l.ty == 0) .ty
    let sz ← decExt (sub3 h.fn)
    need (extOk (iform h.fn) sz) .fn
    let c ← decCtl h false l.t1
    pure (.ext c (iform h.fn) sz)
  | _ => .error .opcode

/-- FN[4:3] (R148). -/
def fnFmt (fn : BitVec 5) : Ty := decFmt (fn.extractLsb' 3 2)

def decFp (h : Head) : Except Reject Instr := do
  let l ← gPlain h
  let c ← decCtl h false l.t1
  match h.op.toNat with
  | 0x20 => do
    need (l.ty == 0) .ty
    match (sub3 h.fn).toNat with
    | 0 => pure (.fadd c (fnFmt h.fn))
    | 1 => pure (.fsub c (fnFmt h.fn))
    | _ => .error .fn
  | 0x21 => do
    need (l.ty == 0) .ty
    need (sub3 h.fn == 0) .fn
    pure (.fmul c (fnFmt h.fn))
  | 0x22 => do
    need (l.ty == 0) .ty
    let k ← decFma (sub3 h.fn)
    pure (.ffma c (fnFmt h.fn) k)
  | 0x23 => do
    need (l.ty == 0) .ty
    need (sub3 h.fn == 0) .fn
    pure (.fdiv c (fnFmt h.fn))
  | 0x24 => do
    need (l.ty == 0) .ty
    need (sub3 h.fn == 0) .fn
    pure (.fsqrt c (fnFmt h.fn))
  | 0x25 => do
    need (l.ty == 0) .ty
    let op ← decFMinMax (sub3 h.fn)
    pure (.fminmax c (fnFmt h.fn) op)
  | 0x26 => do
    need (l.ty == 0) .ty
    let op ← decFcmp (sub3 h.fn)
    pure (.fcmp c (fnFmt h.fn) op)
  | 0x27 => do
    let ty ← decTy4 l.ty
    need (h.fn.extractLsb' 1 2 == 0) .fn
    need (fcvtOk (fnFmt h.fn) (h.fn.extractLsb' 0 1 == 1) ty) .ty
    pure (.fcvt c (fnFmt h.fn) (h.fn.extractLsb' 0 1 == 1) ty)
  | 0x28 => do
    need (l.ty == 0) .ty
    need (sub3 h.fn == 0) .fn
    pure (.fclass c (fnFmt h.fn))
  | 0x29 => do
    need (l.ty == 0) .ty
    let m ← decRint (sub3 h.fn)
    pure (.frint c (fnFmt h.fn) m)
  | _ => .error .opcode

/-- A vector instruction without immediate: its control fields and lane type. -/
def vPlain (h : Head) (lp : Bool) : Except Reject (Ctl × Ty) := do
  let l ← gPlain h
  let t ← decTy4 l.ty
  let c ← decCtl h lp l.t1
  pure (c, t)

/-- A vector instruction whose slot B may be an immediate; `il` restricts it to integer lanes (R195). -/
def vImm (h : Head) (il : Bool) : Except Reject (Ctl × Ty × Option (BitVec 13)) := do
  let (l, imm) ← gImm h true
  let t ← decTy4 l.ty
  need (imm.isNone || !il || t.isIL) .imm
  let c ← decCtl h true l.t1
  pure (c, t, imm)

def decVec (h : Head) : Except Reject Instr :=
  match h.op.toNat with
  | 0x30 => do
    let (c, t) ← vPlain h true
    need t.isFL .ty
    match h.fn.toNat with
    | 0 => pure (.vadd c t)
    | 1 => pure (.vsub c t)
    | _ => .error .fn
  | 0x31 => do
    let (c, t) ← vPlain h true
    need t.isFL .ty
    need (h.fn == 0) .fn
    pure (.vmul c t)
  | 0x32 => do
    let (c, t) ← vPlain h true
    need t.isFL .ty
    need (h.fn.extractLsb' 3 2 == 0) .fn
    let k ← decFma (sub3 h.fn)
    pure (.vfma c t k)
  | 0x33 => do
    let (c, t) ← vPlain h true
    need t.isFL .ty
    need (h.fn == 0) .fn
    pure (.vdiv c t)
  | 0x34 => do
    let (c, t) ← vPlain h true
    need t.isFL .ty
    need (h.fn == 0) .fn
    pure (.vsqrt c t)
  | 0x35 => do
    let (c, t) ← vPlain h true
    need t.isFL .ty
    need (h.fn == 0) .fn
    pure (.vrsq c t)
  | 0x36 => do
    let (c, t) ← vPlain h true
    need t.isFL .ty
    need (h.fn == 0) .fn
    pure (.vrcp c t)
  | 0x37 => do
    let (c, t) ← vPlain h true
    need t.isFL .ty
    need (h.fn == 0) .fn
    pure (.vexp2 c t)
  | 0x38 => do
    let (c, t) ← vPlain h true
    need t.isFL .ty
    need (h.fn == 0) .fn
    pure (.vlog2 c t)
  | 0x39 => do
    let (c, t) ← vPlain h true
    need t.isFL .ty
    need (h.fn.extractLsb' 3 2 == 0) .fn
    let op ← decFMinMax (sub3 h.fn)
    pure (.vminmax c t op)
  | 0x3A => do
    let (c, t) ← vPlain h true
    need t.isLT .ty
    match h.fn.toNat with
    | 0 => pure (.vabs c t)
    | 1 => pure (.vneg c t)
    | _ => .error .fn
  | 0x3B => do
    let op ← decVI h.fn
    let (c, t, imm) ← vImm h false
    need t.isIL .ty
    pure (.viarith c t op imm)
  | 0x3C => do
    let op ← decVLogic h.fn
    let (c, t, imm) ← vImm h false
    need t.isIL .ty
    need (op != .not || imm.isNone) .imm
    pure (.vlogic c t op imm)
  | 0x3D => do
    need (h.fn.extractLsb' 3 2 == 0) .fn
    let op ← decShift (sub3 h.fn)
    let (c, t, imm) ← vImm h false
    need t.isIL .ty
    pure (.vshift c t op imm)
  | 0x3E => do
    need (h.fn.extractLsb' 3 2 == 0) .fn
    let op ← decFcmp (sub3 h.fn)
    let (c, t, imm) ← vImm h true
    need t.isLT .ty
    need (op != .un || t.isFL) .ty
    pure (.vcmp c t op imm)
  | 0x3F => do
    let (c, t) ← vPlain h true
    need t.isLT .ty
    need (h.fn == 0) .fn
    pure (.vsel c t)
  | 0x40 => do
    let (c, t) ← vPlain h true
    need t.isLT .ty
    need (h.fn == 0) .fn
    pure (.vbcast c t)
  | 0x41 => do
    let (c, t, imm) ← vImm h false
    need t.isLT .ty
    need (h.fn == 0) .fn
    pure (.vextr c t imm)
  | 0x42 => do
    let (c, t, imm) ← vImm h false
    need t.isLT .ty
    need (h.fn == 0) .fn
    pure (.vins c t imm)
  | 0x43 => do
    let (c, t, imm) ← vImm h true
    need t.isLT .ty
    match h.fn.toNat with
    | 0 => pure (.vperm c t false imm)
    | 1 => do
      need imm.isNone .imm
      pure (.vperm c t true imm)
    | _ => .error .fn
  | 0x44 => do
    let (c, t, imm) ← vImm h false
    need t.isLT .ty
    match h.fn.toNat with
    | 0 => pure (.vslide c t false imm)
    | 1 => pure (.vslide c t true imm)
    | _ => .error .fn
  | 0x45 => do
    let op ← decRed h.fn
    let (c, t) ← vPlain h true
    need t.isLT .ty
    need (!op.isBitwise || t.isIL) .ty
    pure (.vred c t op)
  | 0x46 => do
    let op ← decRed h.fn
    let (c, t) ← vPlain h true
    need t.isLT .ty
    need (!op.isBitwise || t.isIL) .ty
    pure (.vscan c t op)
  | 0x47 => do
    let (c, t) ← vPlain h true
    need t.isFL .ty
    need (h.fn == 0) .fn
    pure (.vdot c t)
  | 0x48 => do
    let (c, t) ← vPlain h true
    need t.isIL .ty
    match h.fn.toNat with
    | 0 => pure (.viota c t false)
    | 1 => pure (.viota c t true)
    | _ => .error .fn
  | 0x49 => do
    let op ← decMask h.fn
    let (c, t) ← vPlain h false
    need t.isLT .ty
    pure (.maskop c t op)
  | 0x4A => do
    let (c, t) ← vPlain h true
    let ty ← decTy h.fn
    need (t.isLT && ty.isLT && ty != t) .ty
    pure (.vcvt c t ty)
  | 0x4B => do
    let (c, t) ← vPlain h true
    need t.isQ .ty
    need (h.fn.extractLsb' 4 1 == 0) .fn
    let f ← decMx (sub3 h.fn)
    pure (.vqmx c t f (h.fn.extractLsb' 3 1 == 1))
  | 0x4C => do
    let (c, t) ← vPlain h true
    need t.isQ .ty
    need (h.fn.extractLsb' 3 2 == 0) .fn
    let f ← decMx (sub3 h.fn)
    pure (.vdqmx c t f)
  | 0x4D => do
    let op ← decVqt h.fn
    let (c, t) ← vPlain h true
    need t.isQ .ty
    pure (.vqt c t op)
  | 0x4E => do
    let (c, t) ← vPlain h true
    need t.isIL .ty
    match h.fn.toNat with
    | 0 => do need (t.width != 16) .ty; pure (.vpack c t false)
    | 1 => do need (t.width != 16) .ty; pure (.vpack c t true)
    | 2 => do need (t.width != 64) .ty; pure (.vunpk c t false)
    | 3 => do need (t.width != 64) .ty; pure (.vunpk c t true)
    | _ => .error .fn
  | _ => .error .opcode

/-- A memory access with an address: FN 0, its type and order checked. -/
def mAcc (h : Head) (lp none : Bool) (tyOk : Ty → Bool) (ordOk : MemF → Bool) : Except Reject (Ctl × Ty × MemF × BitVec 20) := do
  need (h.fn == 0) .fn
  let l := MLo.split h.lo
  let t ← decTy l.ty
  need (tyOk t) .ty
  let m ← memF l
  need (ordOk m) .order
  let c ← if none then decCtl0 h lp 0 else decCtl h lp 0
  pure (c, t, m, l.disp)

/-- TLD and TST: DISP[24:19] of the word names the descriptor, the rest is zero and SP is zero (R223). -/
def mTd (h : Head) (none : Bool) (ordOk : MemF → Bool) : Except Reject (Ctl × Ty × MemF × BitVec 6) := do
  let (c, t, m, d) ← mAcc h true none Ty.isLT ordOk
  need (m.sp == .gl) .space
  need (d.extractLsb' 0 14 == 0) .field
  pure (c, t, m, d.extractLsb' 14 6)

def decMem (h : Head) : Except Reject Instr :=
  match h.op.toNat with
  | 0x50 => do let (c, t, m, d) ← mAcc h false false Ty.isST loadOrd; pure (.ld c t m d)
  | 0x51 => do let (c, t, m, d) ← mAcc h false true Ty.isST storeOrd; pure (.st c t m d)
  | 0x52 => do let (c, t, m, d) ← mAcc h true false Ty.isLT loadOrd; pure (.vld c t m d)
  | 0x53 => do let (c, t, m, d) ← mAcc h true true Ty.isLT storeOrd; pure (.vst c t m d)
  | 0x54 => do let (c, t, m, d) ← mAcc h true false Ty.isLT loadOrd; pure (.vlds c t m d)
  | 0x55 => do let (c, t, m, d) ← mAcc h true true Ty.isLT storeOrd; pure (.vsts c t m d)
  | 0x56 => do let (c, t, m, d) ← mAcc h true false Ty.isLT loadOrd; pure (.vgath c t m d)
  | 0x57 => do let (c, t, m, d) ← mAcc h true true Ty.isLT storeOrd; pure (.vscat c t m d)
  | 0x58 => do let (c, t, m, td) ← mTd h false loadOrd; pure (.tld c t m td)
  | 0x59 => do let (c, t, m, td) ← mTd h true storeOrd; pure (.tst c t m td)
  | 0x5A => do
    need (h.fn.extractLsb' 1 4 == 0) .fn
    let l := MLo.split h.lo
    need (l.ty == 0) .ty
    let m ← memF l
    need (m.ord == .rlx) .order
    let c ← decCtl0 h false 0
    pure (.pref c (h.fn.extractLsb' 0 1 == 1) m l.disp)
  | 0x5B => do
    need (h.fn == 0) .fn
    let l := MLo.split h.lo
    need (l.ty == 0) .ty
    need (l.sp == 0) .space
    need (l.sc == 0) .scope
    need (l.ord == 0) .order
    need (l.disp == 0) .field
    let c ← decCtl0 h false 0
    pure (.vjoin c l.lsid)
  | _ => .error .opcode

/-- BAR: only LSID and DISP[13:5] of the word (R230). -/
def mBar (h : Head) : Except Reject (Ctl × BitVec 5 × BitVec 9) := do
  let l := MLo.split h.lo
  need (l.ty == 0) .ty
  need (l.sp == 0) .space
  need (l.sc == 0) .scope
  need (l.ord == 0) .order
  need (l.disp.extractLsb' 9 11 == 0) .field
  let c ← decCtl h false 0
  pure (c, l.lsid, l.disp.setWidth 9)

/-- CTR: LSID, SC, OR and DISP[9:5] of the word (R232). `none` marks the forms with no result. -/
def mCtr (h : Head) (none : Bool) : Except Reject (Ctl × MLo) := do
  let l := MLo.split h.lo
  need (l.ty == 0) .ty
  need (l.sp == 0) .space
  need (l.disp.extractLsb' 5 15 == 0) .field
  let c ← if none then decCtl0 h false 0 else decCtl h false 0
  pure (c, l)

def decSync (h : Head) : Except Reject Instr :=
  match h.op.toNat with
  | 0x60 => do
    let l := MLo.split h.lo
    let op ← decAmo (h.fn.extractLsb' 0 4)
    let m ← memF l
    let t ← decTy l.ty
    need (match op with | .faddF32 => t == .f32 | .faddBf16x2 => t == .bf16 | _ => t == .i32 || t == .i64) .ty
    let sc := h.fn.extractLsb' 4 1 == 1
    need (!sc || m.ord == .ar) .order
    need (!sc || m.sc != .dom) .scope
    let c ← decCtl h false 0
    pure (.amo c op sc (t == .i64) m l.disp)
  | 0x61 => do
    let l := MLo.split h.lo
    need (h.fn.extractLsb' 0 4 == 0) .fn
    let m ← memF l
    let t ← decTy l.ty
    need (t == .i32 || t == .i64) .ty
    let sc := h.fn.extractLsb' 4 1 == 1
    need (!sc || m.ord == .ar) .order
    need (!sc || m.sc != .dom) .scope
    let c ← decCtl h false 0
    pure (.cas c sc (t == .i64) m l.disp)
  | 0x62 => do
    let k ← decFence h.fn
    let l := MLo.split h.lo
    need (l.ty == 0) .ty
    need (l.sp == 0) .space
    need (l.ord == 0) .order
    need (l.disp == 0) .field
    let sc ← decScope l.sc
    let c ← decCtl0 h false 0
    pure (.fence c k l.lsid sc)
  | 0x63 => do
    let (c, lsid, b) ← mBar h
    match h.fn.toNat with
    | 0 => pure (.barInit c lsid b)
    | 1 => pure (.barArrive c lsid b)
    | 2 => pure (.barWait c lsid b)
    | 3 => pure (.barSync c lsid b)
    | _ => .error .fn
  | 0x64 => do
    let op ← decBk h.fn
    let l := MLo.split h.lo
    let t ← decTy l.ty
    let m ← memF l
    need (bkopOk op t m) .field
    let c ← decCtl0 h false 0
    pure (.bkop c op t m l.disp)
  | 0x65 => do
    let (c, l) ← mCtr h (h.fn != 5)
    let k := l.disp.setWidth 5
    need (l.ord == 0 || l.ord == 2) .order
    need (l.sc == 0 || (h.fn == 1 && l.sc == 1)) .scope
    let rel := l.ord == 2
    match h.fn.toNat with
    | 0 => pure (.ctrInc c l.lsid rel k)
    | 1 => pure (.ctrAdd c l.lsid rel (l.sc == 1) k)
    | 2 => pure (.ctrSet c l.lsid rel k)
    | 3 => pure (.ctrReset c l.lsid rel k)
    | 4 => pure (.ctrResetKeep c l.lsid rel k)
    | 5 => do need (!rel) .order; pure (.ctrRead c l.lsid k)
    | _ => .error .fn
  | 0x66 => do
    need (h.fn == 0) .fn
    let (c, l) ← mCtr h false
    need (l.ord == 1) .order
    let sc ← decScope l.sc
    pure (.ctrwait c l.lsid sc (l.disp.setWidth 5))
  | 0x67 => do
    need (h.fn == 0) .fn
    let l := ALo.split h.lo
    need (l.tda.extractLsb' 5 1 == 0 && l.tdb == 0 && l.tdc == 0 && l.xf == 0 && l.kn == 0 && l.cnt == 0) .field
    let c ← decCtl h false l.t1
    pure (.arm c (l.rel == 1) (l.tda.setWidth 5))
  | 0x68 => do
    let l ← gField h
    need (l.ty == 0) .ty
    need (l.imm.extractLsb' 4 9 == 0) .field
    let c ← decCtl0 h false l.t1
    match h.fn.toNat with
    | 0 => pure (.chbindOwn c (l.imm.setWidth 4))
    | 1 => pure (.chbindProd c (l.imm.setWidth 4))
    | 2 => pure (.chbindCons c (l.imm.setWidth 4))
    | _ => .error .fn
  | 0x69 => do
    let l ← gField h
    need (l.ty == 0) .ty
    need (l.imm.extractLsb' 4 9 == 0) .field
    need (h.fn.extractLsb' 1 4 == 0) .fn
    let c ← decCtl h false l.t1
    pure (.chwait c (h.fn.extractLsb' 0 1 == 1) (l.imm.setWidth 4))
  | 0x6A => do
    let l ← gField h
    need (l.ty == 0) .ty
    need (l.imm.extractLsb' 4 9 == 0) .field
    need (h.fn.extractLsb' 1 4 == 0) .fn
    let c ← decCtl0 h false l.t1
    pure (.chadv c (h.fn.extractLsb' 0 1 == 1) (l.imm.setWidth 4))
  | 0x6B => do
    let l := ALo.split h.lo
    need (l.xf == 0) .field
    let o ← cmdOpt l
    let c ← decCtl h false l.t1
    match h.fn.toNat with
    | 0 => do need (l.tdc == 0) .field; pure (.copy c l.tda l.tdb o)
    | 1 => do need (l.tdc.extractLsb' 4 2 == 0) .field; pure (.copyCh c l.tda l.tdb (l.tdc.setWidth 4) o)
    | _ => .error .fn
  | 0x6C => do
    let l ← gPlain h
    need (l.ty == 0) .ty
    let c ← decCtl h false l.t1
    match h.fn.toNat with
    | 0 => pure (.copyw c)
    | 1 => pure (.copywTest c)
    | _ => .error .fn
  | _ => .error .opcode

/-- Format A: options, targets and the fields that must be zero. -/
def aCmd (h : Head) (zero : ALo → Bool) : Except Reject (Ctl × ALo × CmdOpt) := do
  let l := ALo.split h.lo
  need (zero l) .field
  let o ← cmdOpt l
  let c ← decCtl h false l.t1
  pure (c, l, o)

def decMatrix (h : Head) : Except Reject Instr :=
  match h.op.toNat with
  | 0x70 => do
    let l ← gField h
    need (l.ty == 0) .ty
    need (l.imm.extractLsb' 6 7 == 0) .field
    need (h.fn.extractLsb' 2 3 == 0) .fn
    let c ← decCtl0 h false l.t1
    pure (.tdset c (l.imm.setWidth 6) (h.fn.setWidth 2))
  | 0x71 => do
    let l ← gField h
    need (l.ty == 0) .ty
    need (l.imm.extractLsb' 6 7 == 0) .field
    need (h.fn.extractLsb' 2 3 == 0) .fn
    let c ← decCtl h false l.t1
    pure (.tdget c (l.imm.setWidth 6) (h.fn.setWidth 2))
  | 0x72 => do
    need (h.fn == 0) .fn
    let (c, l, o) ← aCmd h (fun l => l.tda == 0 && l.tdb == 0 && l.tdc == 0)
    pure (.mzero c l.xf o)
  | 0x73 => do
    need (h.fn.extractLsb' 1 4 == 0) .fn
    let (c, l, o) ← aCmd h (fun l => l.tdc == 0)
    pure (.mma c (h.fn.extractLsb' 0 1 == 1) l.tda l.tdb l.xf o)
  | 0x74 => do
    need (h.fn.extractLsb' 1 4 == 0) .fn
    let (c, l, o) ← aCmd h (fun l => l.tdc == 0)
    pure (.mmag c (h.fn.extractLsb' 0 1 == 1) l.tda l.tdb l.xf o)
  | 0x75 => do
    need (h.fn == 0) .fn
    let (c, l, o) ← aCmd h (fun _ => true)
    pure (.gmma c l.tda l.tdb l.tdc l.xf o)
  | 0x76 => do
    need (h.fn == 0) .fn
    let l := MLo.split h.lo
    need (l.ty == 0) .ty
    need (l.sp == 0) .space
    need (l.ord == 0 || l.ord == 1) .order
    need (l.disp.extractLsb' 0 11 == 0) .field
    let sc ← decScope l.sc
    let c ← decCtl0 h false 0
    pure (.mlda c l.lsid sc (l.ord == 1) (l.disp.extractLsb' 14 6) (l.disp.extractLsb' 11 3))
  | 0x77 => do
    need (h.fn == 0) .fn
    let l := MLo.split h.lo
    need (l.ty == 0) .ty
    need (l.sp == 0) .space
    need (l.ord == 0) .order
    need (l.disp.extractLsb' 0 11 == 0) .field
    let sc ← decScope l.sc
    let c ← decCtl0 h false 0
    pure (.msta c l.lsid sc (l.disp.extractLsb' 14 6) (l.disp.extractLsb' 11 3))
  | 0x78 => do
    let l ← gPlain h
    need (l.ty == 0) .ty
    let c ← decCtl h false l.t1
    match h.fn.toNat with
    | 0 => pure (.mwait c)
    | 1 => pure (.mwaitTest c)
    | _ => .error .fn
  | _ => .error .opcode

/-- BPERM has one word for its two rows: the ROLE bit of the record that the command reads at issue tells them apart
(R275, R276), so the decoder answers `bpermRequest` for it. -/
def decRoute (h : Head) : Except Reject Instr :=
  match h.op.toNat with
  | 0x80 => do
    need (h.fn == 0) .fn
    let (c, l, o) ← aCmd h (fun l => l.xf == 0)
    pure (.rgrp c l.tda l.tdb l.tdc o)
  | 0x81 => do
    need (h.fn == 0) .fn
    let (c, l, o) ← aCmd h (fun l => l.xf == 0)
    pure (.rtopk c l.tda l.tdb l.tdc o)
  | 0x82 => do
    need (h.fn == 0) .fn
    let (c, l, o) ← aCmd h (fun l => l.xf == 0)
    pure (.rbin c l.tda l.tdb l.tdc o)
  | 0x83 => do
    need (h.fn == 0) .fn
    let (c, l, o) ← aCmd h (fun l => l.xf == 0)
    pure (.bpermRequest c l.tda l.tdb l.tdc o)
  | 0x84 => do
    need (h.fn == 0) .fn
    let (c, l, o) ← aCmd h (fun l => l.xf == 0)
    pure (.dspat c l.tda l.tdb l.tdc o)
  | 0x85 => do
    need (h.fn == 0) .fn
    let (c, l, o) ← aCmd h (fun l => l.xf == 0)
    pure (.cmbn c l.tda l.tdb l.tdc o)
  | 0x86 => do
    need (h.fn == 0) .fn
    let (c, l, o) ← aCmd h (fun l => l.xf == 0 && l.tda == 0 && l.tdb == 0)
    pure (.brel c l.tdc o)
  | 0x87 => do
    let (c, l, o) ← aCmd h (fun l => l.xf == 0)
    match h.fn.toNat with
    | 0 => pure (.collAr c l.tda l.tdb l.tdc o)
    | 1 => pure (.collRs c l.tda l.tdb l.tdc o)
    | 2 => pure (.collAg c l.tda l.tdb l.tdc o)
    | 3 => pure (.collA2a c l.tda l.tdb l.tdc o)
    | 4 => pure (.collBc c l.tda l.tdb l.tdc o)
    | 5 => pure (.collOp c l.tda l.tdb l.tdc o)
    | _ => .error .fn
  | 0x88 => do
    let l ← gPlain h
    need (l.ty == 0) .ty
    let c ← decCtl h false l.t1
    match h.fn.toNat with
    | 0 => pure (.collw c)
    | 1 => pure (.collwTest c)
    | _ => .error .fn
  | 0x89 => do
    need (h.fn == 0) .fn
    let (c, l, o) ← aCmd h (fun l => l.xf == 0)
    pure (.expld c l.tda l.tdb l.tdc o)
  | _ => .error .opcode

/-- A signature instruction of format G: TY, the zero bits of IMM13 above `n`, and its control fields (R293). -/
def sigG (h : Head) (lp none : Bool) (ty : BitVec 4) (n : Nat) : Except Reject (Ctl × BitVec 13) := do
  let l ← gField h
  need (l.ty == ty) .ty
  need (decide (l.imm.toNat < 2 ^ n)) .field
  let c ← if none then decCtl0 h lp l.t1 else decCtl h lp l.t1
  pure (c, l.imm)

def decSig (h : Head) : Except Reject Instr :=
  match h.op.toNat with
  | 0x90 => do need (h.fn == 0) .fn; let (c, i) ← sigG h false true 0 2; pure (.sigcfg c (i.setWidth 2))
  | 0x91 => do need (h.fn == 0) .fn; let (c, i) ← sigG h false true 0 2; pure (.sigid c (i.setWidth 2))
  | 0x92 => do need (h.fn == 0) .fn; let (c, i) ← sigG h true true 10 2; pure (.sigstep c (i.setWidth 2))
  | 0x93 => do
    need (h.fn == 0) .fn
    let (c, l, o) ← aCmd h (fun l => l.tdb == 0 && l.tdc == 0 && l.xf.extractLsb' 2 1 == 0)
    pure (.sigstrm c l.tda (l.xf.setWidth 2) o)
  | 0x94 => do
    need (h.fn == 0) .fn
    let (c, i) ← sigG h false true 0 6
    pure (.sigjoin c (i.extractLsb' 4 2) (i.extractLsb' 2 2) (i.extractLsb' 0 2))
  | 0x95 => do
    need (h.fn == 0) .fn
    let (c, i) ← sigG h false true 0 4
    pure (.siglog c (i.extractLsb' 2 2) (i.extractLsb' 0 2))
  | 0x96 => do
    need (h.fn == 0) .fn
    let (c, i) ← sigG h false true 0 4
    pure (.sigexp c (i.extractLsb' 2 2) (i.extractLsb' 0 2))
  | 0x97 => do
    need (h.fn == 0) .fn
    let (c, i) ← sigG h false true 0 4
    pure (.siginv c (i.extractLsb' 2 2) (i.extractLsb' 0 2))
  | 0x98 => do need (h.fn == 0) .fn; let (c, i) ← sigG h false true 0 2; pure (.sigscl c (i.setWidth 2))
  | 0x99 =>
    match h.fn.toNat with
    | 0 => do let (c, i) ← sigG h true false 0 2; pure (.sigmovCv c (i.setWidth 2))
    | 1 => do let (c, i) ← sigG h true true 0 2; pure (.sigmovVc c (i.setWidth 2))
    | 2 => do let (c, i) ← sigG h false true 0 2; pure (.sigmovSs c (i.setWidth 2))
    | 3 => do let (c, i) ← sigG h false true 0 2; pure (.sigmovSl c (i.setWidth 2))
    | _ => .error .fn
  | _ => .error .opcode

/-- A system instruction of format G without fields: TY, IMM13 and IB are zero, LP is illegal (R306). -/
def sysG (h : Head) : Except Reject Ctl := do
  let l ← gPlain h
  need (l.ty == 0) .ty
  decCtl0 h false l.t1

/-- The instruction of a PSR.wr word: the rows of their own are told by the register number (R345). -/
def psrWr (c : Ctl) (n : BitVec 13) : Instr :=
  if n = 0x013#13 then .spctlWrite c
  else if n = 0x012#13 then .spholdWrite c
  else if n = 0x011#13 then .spptWrite c
  else if n = 0x022#13 then .qwdWrite c
  else if n = 0x050#13 then .contextAreaWrite c false
  else if n = 0x051#13 then .contextAreaWrite c true
  else if n = 0x040#13 then .dbgctlWrite c
  else .psrWrite c n

def decSys (h : Head) : Except Reject Instr :=
  match h.op.toNat with
  | 0xF0 => do
    let l ← gField h
    need (l.ty == 0) .ty
    match h.fn.toNat with
    | 0 => do let c ← decCtl h false l.t1; pure (.psrRead c l.imm)
    | 1 => do let c ← decCtl0 h false l.t1; pure (psrWr c l.imm)
    | _ => .error .fn
  | 0xF1 => do
    let c ← sysG h
    match h.fn.toNat with
    | 0 => pure (.tresume c)
    | 1 => pure (.tresumeSame c)
    | _ => .error .fn
  | 0xF2 => do
    let c ← sysG h
    match h.fn.toNat with
    | 0 => pure (.tlbinvAll c)
    | 1 => pure (.tlbinvPage c)
    | 2 => pure (.tlbinvSpace c)
    | _ => .error .fn
  | 0xF3 => do
    let c ← sysG h
    match h.fn.toNat with
    | 0 => pure (.ctxopSave c)
    | 1 => pure (.ctxopRestore c)
    | 2 => pure (.ctxopKill c)
    | _ => .error .fn
  | 0xF4 => do
    need (h.fn == 0) .fn
    let (c, _, o) ← aCmd h (fun l => l.tda == 0 && l.tdb == 0 && l.tdc == 0 && l.xf == 0)
    pure (.glaunch c o)
  | 0xF5 => do
    let c ← sysG h
    match h.fn.toNat with
    | 0 => pure (.budgetSet c)
    | 1 => pure (.budgetAdd c)
    | _ => .error .fn
  | 0xF6 => do
    need (h.fn == 0) .fn
    let c ← sysG h
    pure (.halt c)
  | 0xF7 => do
    let c ← sysG h
    match h.fn.toNat with
    | 0 => pure (.dbgStep c)
    | 1 => pure (.dbgBrk c)
    | 2 => pure (.dbgClrbrk c)
    | _ => .error .fn
  | 0xF8 => do
    let c ← sysG h
    match h.fn.toNat with
    | 0 => pure (.cacheL1inv c)
    | 1 => pure (.cacheIcinv c)
    | 2 => pure (.cacheL2wb c)
    | _ => .error .fn
  | _ => .error .opcode

/-- The grid of R145: the family of a major is its high nibble. -/
def decodeHead (h : Head) : Except Reject Instr :=
  match (h.op.extractLsb' 4 4).toNat with
  | 0x0 => decBlock h
  | 0x1 => decInt h
  | 0x2 => decFp h
  | 0x3 | 0x4 => decVec h
  | 0x5 => decMem h
  | 0x6 => decSync h
  | 0x7 => decMatrix h
  | 0x8 => decRoute h
  | 0x9 => decSig h
  | 0xF => decSys h
  | _ => .error .opcode

/-- An instruction word, or the reason why it is none (R154). -/
def decode (w : BitVec 64) : Except Reject Instr := decodeHead (Head.split w)

/-- The instruction that the decoder reads from the first `nbits` bits of a word whose other bits are zero. The DK40 stores
a word little-endian (R3), so the table's numbering of its bits is the word's own. -/
def decodeTableWord (_nbits w : Nat) : Option Instr :=
  match decode (BitVec.ofNat 64 w) with
  | .ok i => some i
  | .error _ => none

/-! ## The encoder -/

def headOf (op : BitVec 8) (fn : BitVec 5) (c : Ctl) (lo : BitVec 38) : Head :=
  { op := op, fn := fn, pm := encPm c.pm, lp := bit c.lp, t0 := encTarget c.t0, lo := lo }

/-- A word of format G with a type and IMM13 as fields. -/
def encG (op : BitVec 8) (fn : BitVec 5) (c : Ctl) (ty : BitVec 4) (imm : BitVec 13) : BitVec 64 :=
  (headOf op fn c (GLo.join { t1 := encTarget c.t1, ty := ty, imm := imm, ib := 0, z := 0 })).join

/-- A word of format G whose slot B may be an immediate. -/
def encGI (op : BitVec 8) (fn : BitVec 5) (c : Ctl) (ty : BitVec 4) (imm : Option (BitVec 13)) : BitVec 64 :=
  (headOf op fn c (GLo.join { t1 := encTarget c.t1, ty := ty, imm := imm.getD 0, ib := bit imm.isSome, z := 0 })).join

def encI (op : BitVec 8) (fn : BitVec 5) (c : Ctl) (sub : BitVec 6) (imm : BitVec 32) : BitVec 64 :=
  (headOf op fn c (ILo.join { sub := sub, imm := imm })).join

def encM (op : BitVec 8) (fn : BitVec 5) (c : Ctl) (m : MemF) (disp : BitVec 20) (ty : BitVec 5) : BitVec 64 :=
  (headOf op fn c
    (MLo.join { lsid := m.lsid, sp := encSpace m.sp, sc := encScope m.sc, ord := encOrd m.ord, disp := disp, ty := ty })).join

def encR (op : BitVec 8) (c : Ctl) (cls : RegClass) (reg : BitVec 8) : BitVec 64 :=
  (headOf op 0 c (RLo.join { t1 := encTarget c.t1, cls := encClass cls, reg := reg, z := 0 })).join

def encA (op : BitVec 8) (fn : BitVec 5) (c : Ctl) (tda tdb tdc : BitVec 6) (xf : BitVec 3) (o : CmdOpt) : BitVec 64 :=
  (headOf op fn c
    (ALo.join { t1 := encTarget c.t1, tda := tda, tdb := tdb, tdc := tdc, xf := xf, kn := o.ctr.getD 0, cnt := bit o.ctr.isSome, rel := bit o.rel })).join

/-- FN of the integer majors: W, N and the sub-operation (R147). -/
def fnInt (w n : Bool) (sub : BitVec 3) : BitVec 5 := bit w ++ bit n ++ sub
/-- FN of the scalar floating majors (R148). -/
def fnFp (t : Ty) (sub : BitVec 3) : BitVec 5 := encFmt t ++ sub
def sub1 (b : Bool) : BitVec 3 := 0#2 ++ bit b
def fn1 (b : Bool) : BitVec 5 := 0#4 ++ bit b
/-- LSID with everything else of format M zero. -/
def lsidF (l : BitVec 5) (sc : Scope := .task) (o : Ord := .rlx) : MemF := { lsid := l, sp := .gl, sc := sc, ord := o }
def relOrd (r : Bool) : Ord := if r then .rel else .rlx

/-- The word of a well-formed instruction; an event has none. -/
def encode : Instr → Option (BitVec 64)
  | .read c cls reg => some (encR 0x01 c cls reg)
  | .write c cls reg => some (encR 0x02 c cls reg)
  | .fan c => some (encG 0x03 0 c 0 0)
  | .null c => some (encG 0x04 0 c 0 0)
  | .nullIsn c => some (encG 0x04 1 c 0 0)
  | .const c k imm => some (encI 0x05 0 c (match k with | .i => 0 | .n => 1 | .hi => 2) imm)
  | .ptb c b => some (encR 0x06 c .b (b.setWidth 8))
  | .widf c lvl k => some (encG 0x07 (0#1 ++ bit lvl ++ k) c 0 0)
  | .sread c sel => some (encG 0x08 0 c 0 (sel.setWidth 13))
  | .spawn c o => some (encA 0x09 0 c 0 0 0 0 o)
  | .trap c code => some (encG 0x0A 0 c 0 code)
  | .add c f sat imm => some (encGI 0x10 (fnInt f.w f.n (sub1 sat)) c 0 imm)
  | .sub c f sat imm => some (encGI 0x11 (fnInt f.w f.n (sub1 sat)) c 0 imm)
  | .mul c f hi imm => some (encGI 0x12 (fnInt f.w f.n (sub1 hi)) c 0 imm)
  | .div c f rem imm => some (encGI 0x13 (fnInt f.w f.n (sub1 rem)) c 0 imm)
  | .and c w imm => some (encGI 0x14 (fnInt w false 0) c 0 imm)
  | .or c w imm => some (encGI 0x15 (fnInt w false 0) c 0 imm)
  | .xor c w imm => some (encGI 0x16 (fnInt w false 0) c 0 imm)
  | .andn c w imm => some (encGI 0x17 (fnInt w false 0) c 0 imm)
  | .shift c w op imm => some (encGI 0x18 (fnInt w false (encShift op)) c 0 imm)
  | .bitf c w op imm => some (encGI 0x19 (fnInt w false (encBitf op)) c 0 imm)
  | .minmax c f mx imm => some (encGI 0x1A (fnInt f.w f.n (sub1 mx)) c 0 imm)
  | .icmp c f op imm => some (encGI 0x1B (fnInt f.w f.n (encIcmp op)) c 0 imm)
  | .sel c imm => some (encGI 0x1C 16 c 0 imm)
  | .addr c sh off => some (encG 0x1D (2#2 ++ sh) c 0 off)
  | .addi c w imm => some (encI 0x1E (fnInt w false 0) c 0 imm)
  | .ext c f sz => some (encG 0x1F (fnInt f.w f.n (encExt sz)) c 0 0)
  | .fadd c t => some (encG 0x20 (fnFp t 0) c 0 0)
  | .fsub c t => some (encG 0x20 (fnFp t 1) c 0 0)
  | .fmul c t => some (encG 0x21 (fnFp t 0) c 0 0)
  | .ffma c t k => some (encG 0x22 (fnFp t (encFma k)) c 0 0)
  | .fdiv c t => some (encG 0x23 (fnFp t 0) c 0 0)
  | .fsqrt c t => some (encG 0x24 (fnFp t 0) c 0 0)
  | .fminmax c t op => some (encG 0x25 (fnFp t (encFMinMax op)) c 0 0)
  | .fcmp c t op => some (encG 0x26 (fnFp t (encFcmp op)) c 0 0)
  | .fcvt c t fi ty => some (encG 0x27 (fnFp t (sub1 fi)) c (encTy4 ty) 0)
  | .fclass c t => some (encG 0x28 (fnFp t 0) c 0 0)
  | .frint c t m => some (encG 0x29 (fnFp t (encRint m)) c 0 0)
  | .vadd c t => some (encG 0x30 0 c (encTy4 t) 0)
  | .vsub c t => some (encG 0x30 1 c (encTy4 t) 0)
  | .vmul c t => some (encG 0x31 0 c (encTy4 t) 0)
  | .vfma c t k => some (encG 0x32 (0#2 ++ encFma k) c (encTy4 t) 0)
  | .vdiv c t => some (encG 0x33 0 c (encTy4 t) 0)
  | .vsqrt c t => some (encG 0x34 0 c (encTy4 t) 0)
  | .vrsq c t => some (encG 0x35 0 c (encTy4 t) 0)
  | .vrcp c t => some (encG 0x36 0 c (encTy4 t) 0)
  | .vexp2 c t => some (encG 0x37 0 c (encTy4 t) 0)
  | .vlog2 c t => some (encG 0x38 0 c (encTy4 t) 0)
  | .vminmax c t op => some (encG 0x39 (0#2 ++ encFMinMax op) c (encTy4 t) 0)
  | .vabs c t => some (encG 0x3A 0 c (encTy4 t) 0)
  | .vneg c t => some (encG 0x3A 1 c (encTy4 t) 0)
  | .viarith c t op imm => some (encGI 0x3B (encVI op) c (encTy4 t) imm)
  | .vlogic c t op imm => some (encGI 0x3C (encVLogic op) c (encTy4 t) imm)
  | .vshift c t op imm => some (encGI 0x3D (0#2 ++ encShift op) c (encTy4 t) imm)
  | .vcmp c t op imm => some (encGI 0x3E (0#2 ++ encFcmp op) c (encTy4 t) imm)
  | .vsel c t => some (encG 0x3F 0 c (encTy4 t) 0)
  | .vbcast c t => some (encG 0x40 0 c (encTy4 t) 0)
  | .vextr c t imm => some (encGI 0x41 0 c (encTy4 t) imm)
  | .vins c t imm => some (encGI 0x42 0 c (encTy4 t) imm)
  | .vperm c t two imm => some (encGI 0x43 (fn1 two) c (encTy4 t) imm)
  | .vslide c t down imm => some (encGI 0x44 (fn1 down) c (encTy4 t) imm)
  | .vred c t op => some (encG 0x45 (encRed op) c (encTy4 t) 0)
  | .vscan c t op => some (encG 0x46 (encRed op) c (encTy4 t) 0)
  | .vdot c t => some (encG 0x47 0 c (encTy4 t) 0)
  | .viota c t m => some (encG 0x48 (fn1 m) c (encTy4 t) 0)
  | .maskop c t op => some (encG 0x49 (encMask op) c (encTy4 t) 0)
  | .vcvt c t ty => some (encG 0x4A ty.code c (encTy4 t) 0)
  | .vqmx c t f scl => some (encG 0x4B (0#1 ++ bit scl ++ encMx f) c (encTy4 t) 0)
  | .vdqmx c t f => some (encG 0x4C (0#2 ++ encMx f) c (encTy4 t) 0)
  | .vqt c t op => some (encG 0x4D (encVqt op) c (encTy4 t) 0)
  | .vpack c t sat => some (encG 0x4E (fn1 sat) c (encTy4 t) 0)
  | .vunpk c t hi => some (encG 0x4E (0#3 ++ 1#1 ++ bit hi) c (encTy4 t) 0)
  | .ld c t m d => some (encM 0x50 0 c m d t.code)
  | .st c t m d => some (encM 0x51 0 c m d t.code)
  | .vld c t m d => some (encM 0x52 0 c m d t.code)
  | .vst c t m d => some (encM 0x53 0 c m d t.code)
  | .vlds c t m d => some (encM 0x54 0 c m d t.code)
  | .vsts c t m d => some (encM 0x55 0 c m d t.code)
  | .vgath c t m d => some (encM 0x56 0 c m d t.code)
  | .vscat c t m d => some (encM 0x57 0 c m d t.code)
  | .tld c t m td => some (encM 0x58 0 c m (td ++ 0#14) t.code)
  | .tst c t m td => some (encM 0x59 0 c m (td ++ 0#14) t.code)
  | .pref c l2 m d => some (encM 0x5A (fn1 l2) c m d 0)
  | .vjoin c l => some (encM 0x5B 0 c (lsidF l) 0 0)
  | .amo c op sc w64 m d => some (encM 0x60 (bit sc ++ encAmo op) c m d
      (match op with
       | .faddF32 => Ty.f32.code
       | .faddBf16x2 => Ty.bf16.code
       | _ => if w64 then Ty.i64.code else Ty.i32.code))
  | .cas c sc w64 m d => some (encM 0x61 (bit sc ++ 0#4) c m d (if w64 then Ty.i64.code else Ty.i32.code))
  | .fence c k l sc => some (encM 0x62 (encFence k) c (lsidF l sc) 0 0)
  | .barInit c l b => some (encM 0x63 0 c (lsidF l) (b.setWidth 20) 0)
  | .barArrive c l b => some (encM 0x63 1 c (lsidF l) (b.setWidth 20) 0)
  | .barWait c l b => some (encM 0x63 2 c (lsidF l) (b.setWidth 20) 0)
  | .barSync c l b => some (encM 0x63 3 c (lsidF l) (b.setWidth 20) 0)
  | .bkop c op t m d => some (encM 0x64 (encBk op) c m d t.code)
  | .ctrInc c l rel k => some (encM 0x65 0 c (lsidF l .task (relOrd rel)) (k.setWidth 20) 0)
  | .ctrAdd c l rel gang k => some (encM 0x65 1 c (lsidF l (if gang then .gang else .task) (relOrd rel)) (k.setWidth 20) 0)
  | .ctrSet c l rel k => some (encM 0x65 2 c (lsidF l .task (relOrd rel)) (k.setWidth 20) 0)
  | .ctrReset c l rel k => some (encM 0x65 3 c (lsidF l .task (relOrd rel)) (k.setWidth 20) 0)
  | .ctrResetKeep c l rel k => some (encM 0x65 4 c (lsidF l .task (relOrd rel)) (k.setWidth 20) 0)
  | .ctrRead c l k => some (encM 0x65 5 c (lsidF l) (k.setWidth 20) 0)
  | .ctrwait c l sc k => some (encM 0x66 0 c (lsidF l sc .acq) (k.setWidth 20) 0)
  | .arm c rel k => some (encA 0x67 0 c (k.setWidth 6) 0 0 0 { ctr := none, rel := rel })
  | .chbindOwn c h => some (encG 0x68 0 c 0 (h.setWidth 13))
  | .chbindProd c h => some (encG 0x68 1 c 0 (h.setWidth 13))
  | .chbindCons c h => some (encG 0x68 2 c 0 (h.setWidth 13))
  | .chwait c p h => some (encG 0x69 (fn1 p) c 0 (h.setWidth 13))
  | .chadv c p h => some (encG 0x6A (fn1 p) c 0 (h.setWidth 13))
  | .copy c a b o => some (encA 0x6B 0 c a b 0 0 o)
  | .copyCh c a b h o => some (encA 0x6B 1 c a b (h.setWidth 6) 0 o)
  | .copyw c => some (encG 0x6C 0 c 0 0)
  | .copywTest c => some (encG 0x6C 1 c 0 0)
  | .tdset c td n => some (encG 0x70 (n.setWidth 5) c 0 (td.setWidth 13))
  | .tdget c td n => some (encG 0x71 (n.setWidth 5) c 0 (td.setWidth 13))
  | .mzero c x o => some (encA 0x72 0 c 0 0 0 x o)
  | .mma c tb a b x o => some (encA 0x73 (fn1 tb) c a b 0 x o)
  | .mmag c tb a b x o => some (encA 0x74 (fn1 tb) c a b 0 x o)
  | .gmma c a b k x o => some (encA 0x75 0 c a b k x o)
  | .mlda c l sc acq td x => some (encM 0x76 0 c (lsidF l sc (if acq then .acq else .rlx)) (td ++ x ++ 0#11) 0)
  | .msta c l sc td x => some (encM 0x77 0 c (lsidF l sc) (td ++ x ++ 0#11) 0)
  | .mwait c => some (encG 0x78 0 c 0 0)
  | .mwaitTest c => some (encG 0x78 1 c 0 0)
  | .rgrp c a b k o => some (encA 0x80 0 c a b k 0 o)
  | .rtopk c a b k o => some (encA 0x81 0 c a b k 0 o)
  | .rbin c a b k o => some (encA 0x82 0 c a b k 0 o)
  | .bpermRequest c a b k o => some (encA 0x83 0 c a b k 0 o)
  | .bpermOpen c a b k o => some (encA 0x83 0 c a b k 0 o)
  | .dspat c a b k o => some (encA 0x84 0 c a b k 0 o)
  | .cmbn c a b k o => some (encA 0x85 0 c a b k 0 o)
  | .brel c k o => some (encA 0x86 0 c 0 0 k 0 o)
  | .expld c a b k o => some (encA 0x89 0 c a b k 0 o)
  | .collAr c a b k o => some (encA 0x87 0 c a b k 0 o)
  | .collRs c a b k o => some (encA 0x87 1 c a b k 0 o)
  | .collAg c a b k o => some (encA 0x87 2 c a b k 0 o)
  | .collA2a c a b k o => some (encA 0x87 3 c a b k 0 o)
  | .collBc c a b k o => some (encA 0x87 4 c a b k 0 o)
  | .collOp c a b k o => some (encA 0x87 5 c a b k 0 o)
  | .collw c => some (encG 0x88 0 c 0 0)
  | .collwTest c => some (encG 0x88 1 c 0 0)
  | .sigcfg c s => some (encG 0x90 0 c 0 (s.setWidth 13))
  | .sigid c s => some (encG 0x91 0 c 0 (s.setWidth 13))
  | .sigstep c s => some (encG 0x92 0 c 10 (s.setWidth 13))
  | .sigstrm c a s o => some (encA 0x93 0 c a 0 0 (s.setWidth 3) o)
  | .sigjoin c x y z => some (encG 0x94 0 c 0 (0#7 ++ x ++ y ++ z))
  | .siglog c x y => some (encG 0x95 0 c 0 (0#9 ++ x ++ y))
  | .sigexp c x y => some (encG 0x96 0 c 0 (0#9 ++ x ++ y))
  | .siginv c x y => some (encG 0x97 0 c 0 (0#9 ++ x ++ y))
  | .sigscl c s => some (encG 0x98 0 c 0 (s.setWidth 13))
  | .sigmovCv c s => some (encG 0x99 0 c 0 (s.setWidth 13))
  | .sigmovVc c s => some (encG 0x99 1 c 0 (s.setWidth 13))
  | .sigmovSs c s => some (encG 0x99 2 c 0 (s.setWidth 13))
  | .sigmovSl c s => some (encG 0x99 3 c 0 (s.setWidth 13))
  | .psrRead c n => some (encG 0xF0 0 c 0 n)
  | .psrWrite c n => some (encG 0xF0 1 c 0 n)
  | .spctlWrite c => some (encG 0xF0 1 c 0 0x013)
  | .spholdWrite c => some (encG 0xF0 1 c 0 0x012)
  | .spptWrite c => some (encG 0xF0 1 c 0 0x011)
  | .qwdWrite c => some (encG 0xF0 1 c 0 0x022)
  | .contextAreaWrite c len => some (encG 0xF0 1 c 0 (if len then 0x051 else 0x050))
  | .dbgctlWrite c => some (encG 0xF0 1 c 0 0x040)
  | .tresume c => some (encG 0xF1 0 c 0 0)
  | .tresumeSame c => some (encG 0xF1 1 c 0 0)
  | .tlbinvAll c => some (encG 0xF2 0 c 0 0)
  | .tlbinvPage c => some (encG 0xF2 1 c 0 0)
  | .tlbinvSpace c => some (encG 0xF2 2 c 0 0)
  | .ctxopSave c => some (encG 0xF3 0 c 0 0)
  | .ctxopRestore c => some (encG 0xF3 1 c 0 0)
  | .ctxopKill c => some (encG 0xF3 2 c 0 0)
  | .glaunch c o => some (encA 0xF4 0 c 0 0 0 0 o)
  | .budgetSet c => some (encG 0xF5 0 c 0 0)
  | .budgetAdd c => some (encG 0xF5 1 c 0 0)
  | .halt c => some (encG 0xF6 0 c 0 0)
  | .dbgStep c => some (encG 0xF7 0 c 0 0)
  | .dbgBrk c => some (encG 0xF7 1 c 0 0)
  | .dbgClrbrk c => some (encG 0xF7 2 c 0 0)
  | .cacheL1inv c => some (encG 0xF8 0 c 0 0)
  | .cacheIcinv c => some (encG 0xF8 1 c 0 0)
  | .cacheL2wb c => some (encG 0xF8 2 c 0 0)
  | .blockFetch _ | .exitTreeDecide | .bindingPoint | .blockCommit | .blockSquash | .blockDiscard | .trapRecordWrite _
  | .waitSatisfied _ | .taskRetire | .l1LineExpiry _ | .armedCommandFire | .matrixCommandStart _ | .matrixCommandComplete _
  | .sigstrmComplete _ | .copySlotTake _ | .copyChunkWrite _ | .copyComplete _ | .routingCommandComplete _
  | .dspatComplete _ | .cmbnComplete _ | .collComplete _ | .childLaunchEntry _ | .haltWake | .scWindowEnd | .leaveGrant _
  | .templateFill _ _ | .candidateAgeing | .candidateStarve | .memoryRequest _ | .reply _ | .refusal _ | .hostLaunch _
  | .doorbell _ | .dispatchRow _ | .returnRow _ | .collectiveChunk _ | .poolRequest _ | .poolGrant _ | .closingMarker _
  | .domainBarrierArrival _ | .absenceTokenArrival _ | .packetResend _ _ | .linkDown _ | .linkReplay _
  | .createQueue _ _ _ | .destroyQueue _ _ | .resumeSpace _ _ | .setPartitionParameter _ _ _ | .setPartitions _ _
  | .writeIngressEntry _ _ _ _ | .writeDoorbellEntry _ _ _ _ | .configureDomainBarrier _ _ _ _ _ | .migratePage _ _ _ _
  | .requestPreemption _ | .readBlackBox _ | .freeze | .ringCommandSubmit _ _ | .hcFrame _ | .watchdogPreempt _
  | .watchdogKill _ | .watchdogFence _ | .migrationDone _ _ _ | .pquietExpiry _ | .gangSwitchOut _ | .dbtoExpiry _
  | .gangMigration _ _ | .forwardEntryExpiry _ | .scrubVisit _ | .coldReset _ _ _ | .warmReset _ _ _ => none

end Sys2Proof
end

