-- ==== Sys2Proof/Machine/Operands.lean ====
section
/-!
DEFINITION. Sys2Proof/Machine/Operands.lean: which slots an instruction uses and what kind its result has (R144 to R153), the
classes of instructions that rules name, and what a token gives to a slot (R47, R157).
-/
namespace Sys2Proof.Machine

/-- Kinds of slots and results (R144). -/
inductive Kind where | s | v | m
deriving DecidableEq, Repr

/-- What a data slot takes: nothing, any kind, one kind, or the kind of slot B. -/
inductive Need where | no | any | k (k : Kind) | likeB
deriving DecidableEq, Repr

/-- What a result is. -/
inductive Res where | none | k (k : Kind) | likeA | likeB
deriving DecidableEq, Repr

/-- Slots A, B and C, and the result. -/
structure Shape where
  a : Need := .no
  b : Need := .no
  c : Need := .no
  res : Res := .none
deriving DecidableEq, Repr

def nS : Need := .k .s
def nV : Need := .k .v
def nM : Need := .k .m
def rS : Res := .k .s
def rV : Res := .k .v
def rM : Res := .k .m

/-- Slot B is unused when an immediate stands for it (R138). -/
def orImm (imm : Option (BitVec 13)) (n : Need) : Need := if imm.isSome then .no else n

def kindOf : RegClass → Kind
  | .v => .v
  | .m => .m
  | _ => .s

/-- The PM, LP and targets of an instruction word; an event has none. -/
def ctlOf : Instr → Option Ctl
  | .read c _ _ | .write c _ _ | .fan c | .null c | .nullIsn c | .const c _ _ | .ptb c _ | .widf c _ _ | .sread c _
  | .spawn c _ | .trap c _ | .add c _ _ _ | .sub c _ _ _ | .mul c _ _ _ | .div c _ _ _ | .and c _ _ | .or c _ _ | .xor c _ _
  | .andn c _ _ | .shift c _ _ _ | .bitf c _ _ _ | .minmax c _ _ _ | .icmp c _ _ _ | .sel c _ | .addr c _ _ | .addi c _ _
  | .ext c _ _ | .fadd c _ | .fsub c _ | .fmul c _ | .ffma c _ _ | .fdiv c _ | .fsqrt c _ | .fminmax c _ _ | .fcmp c _ _
  | .fcvt c _ _ _ | .fclass c _ | .frint c _ _ | .vadd c _ | .vsub c _ | .vmul c _ | .vfma c _ _ | .vdiv c _ | .vsqrt c _
  | .vrsq c _ | .vrcp c _ | .vexp2 c _ | .vlog2 c _ | .vminmax c _ _ | .vabs c _ | .vneg c _ | .viarith c _ _ _
  | .vlogic c _ _ _ | .vshift c _ _ _ | .vcmp c _ _ _ | .vsel c _ | .maskop c _ _ | .viota c _ _ | .vbcast c _ | .vextr c _ _
  | .vins c _ _ | .vperm c _ _ _ | .vslide c _ _ _ | .vred c _ _ | .vscan c _ _ | .vdot c _ | .vcvt c _ _ | .vqmx c _ _ _
  | .vdqmx c _ _ | .vqt c _ _ | .vpack c _ _ | .vunpk c _ _ | .ld c _ _ _ | .st c _ _ _ | .vld c _ _ _ | .vst c _ _ _
  | .vlds c _ _ _ | .vsts c _ _ _ | .vgath c _ _ _ | .vscat c _ _ _ | .tld c _ _ _ | .tst c _ _ _ | .pref c _ _ _
  | .vjoin c _ | .amo c _ _ _ _ _ | .cas c _ _ _ _ | .fence c _ _ _ | .barInit c _ _ | .barArrive c _ _ | .barWait c _ _
  | .barSync c _ _ | .bkop c _ _ _ _ | .ctrInc c _ _ _ | .ctrAdd c _ _ _ _ | .ctrSet c _ _ _ | .ctrReset c _ _ _
  | .ctrResetKeep c _ _ _ | .ctrRead c _ _ | .ctrwait c _ _ _ | .arm c _ _ | .chbindOwn c _ | .chbindProd c _
  | .chbindCons c _ | .chwait c _ _ | .chadv c _ _ | .copy c _ _ _ | .copyCh c _ _ _ _ | .copyw c | .copywTest c
  | .tdset c _ _ | .tdget c _ _ | .mzero c _ _ | .mma c _ _ _ _ _ | .mmag c _ _ _ _ _ | .gmma c _ _ _ _ _ | .mlda c _ _ _ _ _
  | .msta c _ _ _ _ | .mwait c | .mwaitTest c | .rgrp c _ _ _ _ | .rtopk c _ _ _ _ | .rbin c _ _ _ _ | .bpermRequest c _ _ _ _
  | .bpermOpen c _ _ _ _ | .dspat c _ _ _ _ | .cmbn c _ _ _ _ | .brel c _ _ | .expld c _ _ _ _ | .collAr c _ _ _ _
  | .collRs c _ _ _ _ | .collAg c _ _ _ _ | .collA2a c _ _ _ _ | .collBc c _ _ _ _ | .collOp c _ _ _ _ | .collw c
  | .collwTest c | .sigcfg c _ | .sigid c _ | .sigstep c _ | .sigstrm c _ _ _ | .sigjoin c _ _ _ | .siglog c _ _
  | .sigexp c _ _ | .siginv c _ _ | .sigscl c _ | .sigmovCv c _ | .sigmovVc c _ | .sigmovSs c _ | .sigmovSl c _
  | .psrRead c _ | .psrWrite c _ | .spctlWrite c | .spholdWrite c | .spptWrite c | .qwdWrite c | .contextAreaWrite c _
  | .dbgctlWrite c | .tresume c | .tresumeSame c | .tlbinvAll c | .tlbinvPage c | .tlbinvSpace c | .ctxopSave c
  | .ctxopRestore c | .ctxopKill c | .glaunch c _ | .budgetSet c | .budgetAdd c | .halt c | .dbgStep c | .dbgBrk c
  | .dbgClrbrk c | .cacheL1inv c | .cacheIcinv c | .cacheL2wb c => some c
  | _ => none

/-- The slot and result columns of R146 to R153. -/
def shapeOf : Instr → Shape
  | .read _ cls _ => { res := .k (kindOf cls) }
  | .write _ cls _ => { a := .k (kindOf cls) }
  | .fan _ | .null _ => { a := .any, res := .likeA }
  | .nullIsn _ => { a := .any, res := rS }
  | .const _ _ _ | .widf _ _ _ | .sread _ _ => { res := rS }
  | .ptb _ _ => { a := nS }
  | .spawn _ _ => { a := nS, res := rS }
  | .trap _ _ => {}
  | .add _ _ _ imm | .sub _ _ _ imm | .mul _ _ _ imm | .div _ _ _ imm | .shift _ _ _ imm | .minmax _ _ _ imm
  | .icmp _ _ _ imm => { a := nS, b := orImm imm nS, res := rS }
  | .and _ _ imm | .or _ _ imm | .xor _ _ imm | .andn _ _ imm => { a := nS, b := orImm imm nS, res := rS }
  | .bitf _ _ op imm =>
    match op with
    | .extz | .exts => { a := nS, b := orImm imm nS, res := rS }
    | .ins => { a := nS, b := orImm imm nS, c := nS, res := rS }
    | _ => { a := nS, res := rS }
  | .sel _ imm => if imm.isSome then { a := nS, c := nS, res := rS } else { a := nS, b := .any, c := .likeB, res := .likeB }
  | .addr _ _ _ => { a := nS, b := nS, res := rS }
  | .addi _ _ _ | .ext _ _ _ => { a := nS, res := rS }
  | .fadd _ _ | .fsub _ _ | .fmul _ _ | .fdiv _ _ | .fminmax _ _ _ | .fcmp _ _ _ => { a := nS, b := nS, res := rS }
  | .ffma _ _ _ => { a := nS, b := nS, c := nS, res := rS }
  | .fsqrt _ _ | .fcvt _ _ _ _ | .fclass _ _ | .frint _ _ _ => { a := nS, res := rS }
  | .vadd _ _ | .vsub _ _ | .vmul _ _ | .vdiv _ _ | .vminmax _ _ _ => { a := nV, b := nV, res := rV }
  | .vfma _ _ _ => { a := nV, b := nV, c := nV, res := rV }
  | .vsqrt _ _ | .vrsq _ _ | .vrcp _ _ | .vexp2 _ _ | .vlog2 _ _ | .vabs _ _ | .vneg _ _ | .vcvt _ _ _ | .vqmx _ _ _ _
  | .vqt _ _ _ | .vunpk _ _ _ | .vscan _ _ _ => { a := nV, res := rV }
  | .viarith _ _ _ imm | .vshift _ _ _ imm => { a := nV, b := orImm imm nV, res := rV }
  | .vlogic _ _ op imm => { a := nV, b := if op = .not then .no else orImm imm nV, res := rV }
  | .vcmp _ _ _ imm => { a := nV, b := orImm imm nV, res := rM }
  | .vsel _ _ => { a := nM, b := nV, c := nV, res := rV }
  | .maskop _ _ op =>
    match op with
    | .mand | .mor | .mxor => { a := nM, b := nM, res := rM }
    | .mnot => { a := nM, res := rM }
    | .mpopc | .mfirst => { a := nM, res := rS }
    | .mfromi => { a := nS, res := rM }
  | .viota _ _ m => { a := if m then nM else .no, res := rV }
  | .vbcast _ _ => { a := nS, res := rV }
  | .vextr _ _ imm => { a := nV, b := orImm imm nS, res := rS }
  | .vins _ _ imm => { a := nV, b := orImm imm nS, c := nS, res := rV }
  | .vperm _ _ two imm => { a := nV, b := orImm imm nV, c := if two then nV else .no, res := rV }
  | .vslide _ _ _ imm => { a := nV, b := orImm imm nS, res := rV }
  | .vred _ _ _ => { a := nV, res := rS }
  | .vdot _ _ => { a := nV, b := nV, res := rS }
  | .vdqmx _ _ _ | .vpack _ _ _ => { a := nV, b := nV, res := rV }
  | .ld _ _ _ _ => { a := nS, res := rS }
  | .st _ _ _ _ => { a := nS, b := nS }
  | .vld _ _ _ _ => { a := nS, res := rV }
  | .vst _ _ _ _ => { a := nS, b := nV }
  | .vlds _ _ _ _ => { a := nS, b := nS, res := rV }
  | .vsts _ _ _ _ => { a := nS, b := nS, c := nV }
  | .vgath _ _ _ _ => { a := nS, b := nV, res := rV }
  | .vscat _ _ _ _ => { a := nS, b := nV, c := nV }
  | .tld _ _ _ _ => { a := nS, b := nS, res := rV }
  | .tst _ _ _ _ => { a := nS, b := nS, c := nV }
  | .pref _ _ _ _ => { a := nS }
  | .vjoin _ _ => {}
  | .amo _ _ _ _ _ _ => { a := nS, b := nS, res := rS }
  | .cas _ _ _ _ _ => { a := nS, b := nS, c := nS, res := rS }
  | .fence _ _ _ _ => {}
  | .barInit _ _ _ => { a := nS, res := rS }
  | .barArrive _ _ _ | .barWait _ _ _ | .barSync _ _ _ => { res := rS }
  | .bkop _ op _ _ _ => { a := nS, b := if op = .inc then .no else nS }
  | .ctrInc _ _ _ _ | .ctrReset _ _ _ _ | .ctrResetKeep _ _ _ _ => {}
  | .ctrAdd _ _ _ _ _ | .ctrSet _ _ _ _ => { a := nS }
  | .ctrRead _ _ _ => { res := rS }
  | .ctrwait _ _ _ _ => { a := nS, res := rS }
  | .arm _ _ _ => { a := nS, b := nS, res := rS }
  | .chbindOwn _ _ | .chbindProd _ _ | .chbindCons _ _ => { a := nS, b := nS }
  | .chwait _ _ _ => { a := nS, res := rS }
  | .chadv _ _ _ => { a := nS }
  | .copy _ _ _ _ | .copyCh _ _ _ _ _ => { res := rS }
  | .copyw _ | .copywTest _ | .mwait _ | .mwaitTest _ | .collw _ | .collwTest _ => { a := nS, res := rS }
  | .tdset _ _ _ => { a := nS }
  | .tdget _ _ _ => { res := rS }
  | .mzero _ _ _ | .mma _ _ _ _ _ _ | .mmag _ _ _ _ _ _ | .gmma _ _ _ _ _ _ => { res := rS }
  | .mlda _ _ _ _ _ _ | .msta _ _ _ _ _ => { a := nS }
  | .rgrp _ _ _ _ _ | .rtopk _ _ _ _ _ | .rbin _ _ _ _ _ | .bpermRequest _ _ _ _ _ | .bpermOpen _ _ _ _ _
  | .dspat _ _ _ _ _ | .cmbn _ _ _ _ _ | .brel _ _ _ | .expld _ _ _ _ _ | .collAr _ _ _ _ _ | .collRs _ _ _ _ _
  | .collAg _ _ _ _ _ | .collA2a _ _ _ _ _ | .collBc _ _ _ _ _ | .collOp _ _ _ _ _ | .sigstrm _ _ _ _ => { res := rS }
  | .sigcfg _ _ => { a := nS, b := nS }
  | .sigid _ _ | .sigjoin _ _ _ _ | .siglog _ _ _ | .sigexp _ _ _ | .siginv _ _ _ => {}
  | .sigstep _ _ => { a := nV }
  | .sigscl _ _ => { a := nS }
  | .sigmovCv _ _ => { a := nS, res := rV }
  | .sigmovVc _ _ => { a := nS, b := nV }
  | .sigmovSs _ _ | .sigmovSl _ _ => { a := nS }
  | .psrRead _ _ => { res := rS }
  | .psrWrite _ _ | .spctlWrite _ | .spholdWrite _ | .spptWrite _ | .qwdWrite _ | .contextAreaWrite _ _ | .dbgctlWrite _ =>
    { a := nS }
  | .tresume _ => { a := nS, b := nS }
  | .tresumeSame _ => { a := nS }
  | .tlbinvAll _ => {}
  | .tlbinvPage _ | .tlbinvSpace _ => { a := nS }
  | .ctxopSave _ | .ctxopRestore _ => { a := nS, b := nS }
  | .ctxopKill _ => { a := nS }
  | .glaunch _ _ => { a := nS, res := rS }
  | .budgetSet _ | .budgetAdd _ => { a := nS, b := nS }
  | .halt _ => {}
  | .dbgStep _ => { a := nS }
  | .dbgBrk _ => { a := nS, b := nS }
  | .dbgClrbrk _ => { a := nS }
  | .cacheL1inv _ | .cacheIcinv _ | .cacheL2wb _ => { a := nS }
  | _ => {}

/-- The LSID of an instruction that has one (R52). -/
def lsidOf : Instr → Option Nat
  | .ld _ _ m _ | .st _ _ m _ | .vld _ _ m _ | .vst _ _ m _ | .vlds _ _ m _ | .vsts _ _ m _ | .vgath _ _ m _ | .vscat _ _ m _
  | .tld _ _ m _ | .tst _ _ m _ | .pref _ _ m _ | .amo _ _ _ _ m _ | .cas _ _ _ m _ | .bkop _ _ _ m _ => some m.lsid.toNat
  | .vjoin _ l | .fence _ _ l _ | .barInit _ l _ | .barArrive _ l _ | .barWait _ l _ | .barSync _ l _ | .ctrInc _ l _ _
  | .ctrAdd _ l _ _ _ | .ctrSet _ l _ _ | .ctrReset _ l _ _ | .ctrResetKeep _ l _ _ | .ctrRead _ l _ | .ctrwait _ l _ _
  | .mlda _ l _ _ _ _ | .msta _ l _ _ _ => some l.toNat
  | _ => none

/-- The store-class instructions (R52). -/
def isStore : Instr → Bool
  | .st _ _ _ _ | .vst _ _ _ _ | .vsts _ _ _ _ | .vscat _ _ _ _ | .tst _ _ _ _ | .amo _ _ _ _ _ _ | .cas _ _ _ _ _
  | .bkop _ _ _ _ _ => true
  | _ => false

def isAtomic : Instr → Bool
  | .amo _ _ _ _ _ _ | .cas _ _ _ _ _ => true
  | _ => false

/-- The SC variants (R123). -/
def isSc : Instr → Bool
  | .amo _ _ sc _ _ _ | .cas _ sc _ _ _ => sc
  | _ => false

/-- The instructions that read memory when they fire (R53). -/
def isLoad : Instr → Bool
  | .ld _ _ _ _ | .vld _ _ _ _ | .vlds _ _ _ _ | .vgath _ _ _ _ | .tld _ _ _ _ | .mlda _ _ _ _ _ _ => true
  | _ => false

/-- What an atomic's token may reach besides the exit tree (R53). -/
def atomicConsumer : Instr → Bool
  | .fan _ | .sel _ _ | .null _ | .nullIsn _ | .write _ _ _ | .add _ _ _ _ | .sub _ _ _ _ | .mul _ _ _ _ | .div _ _ _ _
  | .and _ _ _ | .or _ _ _ | .xor _ _ _ | .andn _ _ _ | .shift _ _ _ _ | .bitf _ _ _ _ | .minmax _ _ _ _ | .icmp _ _ _ _
  | .addr _ _ _ | .addi _ _ _ | .ext _ _ _ => true
  | _ => false

/-- The system majors 0xF0 to 0xF8 (R306). -/
def isSystem : Instr → Bool
  | .psrRead _ _ | .psrWrite _ _ | .spctlWrite _ | .spholdWrite _ | .spptWrite _ | .qwdWrite _ | .contextAreaWrite _ _
  | .dbgctlWrite _ | .tresume _ | .tresumeSame _ | .tlbinvAll _ | .tlbinvPage _ | .tlbinvSpace _ | .ctxopSave _
  | .ctxopRestore _ | .ctxopKill _ | .glaunch _ _ | .budgetSet _ | .budgetAdd _ | .halt _ | .dbgStep _ | .dbgBrk _
  | .dbgClrbrk _ | .cacheL1inv _ | .cacheIcinv _ | .cacheL2wb _ => true
  | _ => false

/-- Majors 0x72 to 0x78, 0x80 to 0x89, 0x90 to 0x99, BAR and SPAWN: Illegal Operand on a supervisor core (R16, R170). -/
def notOnSupervisor : Instr → Bool
  | .spawn _ _ | .barInit _ _ _ | .barArrive _ _ _ | .barWait _ _ _ | .barSync _ _ _
  | .mzero _ _ _ | .mma _ _ _ _ _ _ | .mmag _ _ _ _ _ _ | .gmma _ _ _ _ _ _ | .mlda _ _ _ _ _ _ | .msta _ _ _ _ _ | .mwait _
  | .mwaitTest _ | .rgrp _ _ _ _ _ | .rtopk _ _ _ _ _ | .rbin _ _ _ _ _ | .bpermRequest _ _ _ _ _ | .bpermOpen _ _ _ _ _
  | .dspat _ _ _ _ _ | .cmbn _ _ _ _ _ | .brel _ _ _ | .expld _ _ _ _ _ | .collAr _ _ _ _ _ | .collRs _ _ _ _ _
  | .collAg _ _ _ _ _ | .collA2a _ _ _ _ _ | .collBc _ _ _ _ _ | .collOp _ _ _ _ _ | .collw _ | .collwTest _ | .sigcfg _ _
  | .sigid _ _ | .sigstep _ _ | .sigstrm _ _ _ _ | .sigjoin _ _ _ _ | .siglog _ _ _ | .sigexp _ _ _ | .siginv _ _ _
  | .sigscl _ _ | .sigmovCv _ _ | .sigmovVc _ _ | .sigmovSs _ _ | .sigmovSl _ _ => true
  | _ => false

/-- The asynchronous engine commands, whose ticket an ARM may take (R234, R236). -/
def isCommand : Instr → Bool
  | .spawn _ _ | .copy _ _ _ _ | .copyCh _ _ _ _ _ | .mzero _ _ _ | .mma _ _ _ _ _ _ | .mmag _ _ _ _ _ _ | .gmma _ _ _ _ _ _
  | .rgrp _ _ _ _ _ | .rtopk _ _ _ _ _ | .rbin _ _ _ _ _ | .bpermRequest _ _ _ _ _ | .bpermOpen _ _ _ _ _ | .dspat _ _ _ _ _
  | .cmbn _ _ _ _ _ | .brel _ _ _ | .expld _ _ _ _ _ | .collAr _ _ _ _ _ | .collRs _ _ _ _ _ | .collAg _ _ _ _ _
  | .collA2a _ _ _ _ _ | .collBc _ _ _ _ _ | .collOp _ _ _ _ _ | .sigstrm _ _ _ _ | .glaunch _ _ => true
  | _ => false

def isArm : Instr → Bool | .arm _ _ _ => true | _ => false
def isWrite : Instr → Bool | .write _ _ _ => true | _ => false
def isRead : Instr → Bool | .read _ _ _ => true | _ => false

/-- The signature slot that a synchronous instruction writes (R293). -/
def sigWrites : Instr → Option (BitVec 2)
  | .sigcfg _ s | .sigid _ s | .sigstep _ s | .sigscl _ s | .sigmovVc _ s | .sigmovSl _ s => some s
  | .sigjoin _ x _ _ | .siglog _ x _ | .sigexp _ x _ | .siginv _ x _ => some x
  | _ => none

/-- The register that a PSR.wr names (R345). -/
def psrWritten : Instr → Option Nat
  | .psrWrite _ n => some n.toNat
  | .spctlWrite _ => some 0x013
  | .spholdWrite _ => some 0x012
  | .spptWrite _ => some 0x011
  | .qwdWrite _ => some 0x022
  | .contextAreaWrite _ len => some (if len then 0x051 else 0x050)
  | .dbgctlWrite _ => some 0x040
  | _ => none

/-- A predicate or a lane mask makes slot P required (R48, R144). -/
def needP (c : Ctl) : Need := if c.pm ≠ .always then nS else if c.lp then nM else .no

/-- The need of each of the four slots. -/
def needOf (i : Instr) (s : Slot) : Need :=
  match s with
  | .a => (shapeOf i).a
  | .b => (shapeOf i).b
  | .c => (shapeOf i).c
  | .p => match ctlOf i with | some c => needP c | none => .no

def allSlots : List Slot := [.a, .b, .c, .p]

def targetsOf (i : Instr) : List Target :=
  match ctlOf i with
  | some c => c.t0.toList ++ c.t1.toList
  | none => []

/-! ## Tokens -/

def tokWord : Tok → Word | .s w => w | _ => 0
def tokVec : Tok → Vec | .v x _ => x | _ => 0
def tokValid : Tok → Mask | .v _ ok => ok | _ => 0
def tokMask : Tok → Mask | .m x => x | _ => 0
/-- Truth value of a token: a null reads as false (R47, R54). -/
def tokTruth : Tok → Bool | .s w => w != 0 | _ => false

/-- Key of a slot in a frame. -/
def slotKey (idx : Nat) (s : Slot) : Nat := 4 * idx + s.num

/-- The immediate as SignExt(IMM13, 13) (R158). -/
def imm64 (imm : BitVec 13) : Word := imm.signExtend 64

/-- Slot B as a scalar, or the immediate. -/
def bWord (imm : Option (BitVec 13)) (b : Tok) : Word := match imm with | some i => imm64 i | none => tokWord b

end Sys2Proof.Machine
end

