-- ==== Sys2Proof/Machine/Header.lean ====
section
/-!
DEFINITION. Sys2Proof/Machine/Header.lean: the fields of a block header (R42 to R45) and the check that decode makes of a block
(R46, R53, R164, R234, R248, R293, R309).
-/
namespace Sys2Proof.Machine

/-! ## Fields (R43 to R45) -/

def hNi (h0 : Word) : Nat := field h0 57 51
def hNt (h0 : Word) : Nat := field h0 50 48
def hQp (h0 : Word) : Bool := bitAt h0 47
def hRp (h0 : Word) : Bool := bitAt h0 46
def hLr (h0 : Word) : Nat := field h0 45 44
def hNw (h0 : Word) : Nat := field h0 43 38
def hSmask (h0 : Word) : Nat := field h0 31 0
/-- NODEn: test, false child, true child. -/
def hNode (h1 : Word) (n : Nat) : Nat := field h1 (63 - 10 * n) (54 - 10 * n)
def nodeTest (n : Nat) : Nat := n / 256
def nodeFalse (n : Nat) : Nat := n / 16 % 16
def nodeTrue (n : Nat) : Nat := n % 16
/-- Kind of leaf k: 0 BR, 1 BRB, 2 CALL, 3 END, 4 TRAP, 5 SEQ. -/
def hKind (h1 : Word) (k : Nat) : Nat := field h1 (23 - 3 * k) (21 - 3 * k)
def hZl (h1 : Word) : Nat := field h1 8 6
/-- Target of leaf k (R45). -/
def hTarget (h2 h3 : Word) (k : Nat) : Nat := (h3.toNat * 2 ^ 64 + h2.toNat) / 2 ^ (24 * k) % 2 ^ 24

/-- NextSeq(start) (R42). -/
def nextSeq (start : Word) (ni : Nat) : Word := start + BitVec.ofNat 64 (32 * ((32 + 8 * ni + 31) / 32))

/-- start + SignExt(target, 24) × 32 (R45). -/
def branchTo (start : Word) (target : Nat) : Word := start + (sext 24 (BitVec.ofNat 64 target) <<< 5)

/-! ## The header's own rules (R46, 1 to 4) -/

/-- Nodes reachable from the root, in increasing number. -/
def reachNodes (h1 : Word) : List Nat :=
  (List.range 4).foldl (fun r n =>
    if r.contains n then
      let x := hNode h1 n
      r ++ ([nodeFalse x, nodeTrue x].filter fun c => decide (c < 4) && decide (n < c) && !r.contains c)
    else r) [0]

def childOk (n c : Nat) : Bool := if c < 4 then decide (n < c) else decide (8 ≤ c ∧ c ≤ 12)

def nodesOk (h1 : Word) (nt : Nat) : Bool :=
  if nt = 0 then (List.range 4).all fun n => hNode h1 n == 0
  else
    let r := reachNodes h1
    (List.range 4).all fun n =>
      let x := hNode h1 n
      if r.contains n then decide (nodeTest x < nt) && childOk n (nodeFalse x) && childOk n (nodeTrue x) else x == 0

def leafOk (h1 h2 h3 : Word) (k : Nat) : Bool :=
  let t := hTarget h2 h3 k
  match hKind h1 k with
  | 0 | 2 => true
  | 1 => decide (t < 4)
  | 3 | 5 => t == 0
  | 4 => decide (t < 65536)
  | _ => false

def headerOk (h0 h1 h2 h3 : Word) : Bool :=
  field h0 63 60 == 0xD && field h0 59 58 == 1 && hNi h0 != 0 && decide (hNt h0 ≤ 4) && decide (hNw h0 ≤ 32)
  && field h0 37 32 == 0 && field h1 5 0 == 0 && field h3 63 56 == 0
  && nodesOk h1 (hNt h0)
  && ((List.range 5).all fun k => leafOk h1 h2 h3 k)
  && (if hRp h0 then decide (1 ≤ hZl h1 ∧ hZl h1 ≤ 4) && hKind h1 0 == 0 && hTarget h2 h3 0 == 0
      else hZl h1 == 0 && hLr h0 == 0)

/-! ## The graph (R46, 5 to 7) -/

/-- Slots named so far: key, kind of the token, index of the producer. -/
abbrev Named := List (Nat × (Kind × Nat))

/-- A slot's token fits what the consumer needs. -/
def slotFits (named : Named) (idx : Nat) (i : Instr) (s : Slot) : Bool :=
  match needOf i s, lookup (slotKey idx s) named with
  | .no, none => true
  | .any, some _ => true
  | .k k, some (k', _) => k == k'
  | .likeB, some (k', _) => (match lookup (slotKey idx .b) named with | some (kb, _) => kb == k' | none => false)
  | _, _ => false

/-- Kind of the result. -/
def resultKind (named : Named) (idx : Nat) (i : Instr) : Option Kind :=
  match (shapeOf i).res with
  | .none => none
  | .k k => some k
  | .likeA => (lookup (slotKey idx .a) named).map Prod.fst
  | .likeB => (lookup (slotKey idx .b) named).map Prod.fst

/-- LP = 1 on FAN and SEL only when they pass a vector (R158). -/
def lpFits (named : Named) (idx : Nat) (i : Instr) : Bool :=
  match i with
  | .fan c => !c.lp || resultKind named idx i == some .v
  | .sel c _ => !c.lp || resultKind named idx i == some .v
  | _ => true

/-- Adds the targets of instruction `idx`; none when one is illegal or names a slot twice. -/
def addTargets (ni nt idx : Nat) (k : Option Kind) : List Target → Named → Option Named
  | [], named => some named
  | t :: ts, named =>
    let j := t.idx.toNat
    let key := slotKey j t.slot
    match k with
    | none => none
    | some k =>
      if (lookup key named).isSome then none
      else if j = 127 then
        if t.slot.num < nt ∧ k = .s then addTargets ni nt idx (some k) ts ((key, (k, idx)) :: named) else none
      else if idx < j ∧ j < ni then addTargets ni nt idx (some k) ts ((key, (k, idx)) :: named)
      else none

/-- Walks the instructions in index order. -/
def graphFrom (ni nt : Nat) (all : List Instr) : Nat → List Instr → Named → Option Named
  | _, [], named => some named
  | idx, i :: is, named =>
    let armOk :=
      match i with
      | .arm _ _ _ =>
        (match lookup (slotKey idx .a) named with
         | some (_, p) => (match all[p]? with | some x => isCommand x | none => false)
         | none => false)
      | _ => true
    if allSlots.all (slotFits named idx i) && lpFits named idx i && armOk then
      match addTargets ni nt idx (resultKind named idx i) (targetsOf i) named with
      | none => none
      | some named => graphFrom ni nt all (idx + 1) is named
    else none

/-- Every test that a reachable node names is targeted. -/
def testsNamed (h0 h1 : Word) (named : Named) : Bool :=
  hNt h0 == 0 || (reachNodes h1).all fun n => (lookup (4 * 127 + nodeTest (hNode h1 n)) named).isSome

/-- Indices that an atomic's token reaches, transitively (R53). -/
def atomicReach : Nat → List Instr → List Nat → List Nat
  | _, [], r => r
  | idx, i :: is, r =>
    atomicReach (idx + 1) is (if isAtomic i || r.contains idx then r ++ (targetsOf i).map (fun t => t.idx.toNat) else r)

/-! ## Counts (R46, 8) and the rules of single instructions -/

def noDup {α : Type} [DecidableEq α] : List α → Bool
  | [] => true
  | x :: xs => !xs.contains x && noDup xs

/-- Registers that WRITEs and PTBs name. -/
def writtenReg : Instr → Option (RegClass × Nat)
  | .write _ cls reg => some (cls, reg.toNat)
  | .ptb _ b => some (.b, b.toNat)
  | _ => none

def tdsetWord : Instr → Option (Nat × Nat)
  | .tdset _ td n => some (td.toNat, n.toNat)
  | _ => none

def countsOk (h0 : Word) (is : List Instr) : Bool :=
  let regs := is.filterMap writtenReg
  let lsids := is.filterMap lsidOf
  let stores := (is.filter isStore).filterMap lsidOf
  let mask := stores.foldl (fun m l => m + 2 ^ l) 0
  (is.filter isWrite).length == hNw h0 && noDup regs && noDup lsids && mask == hSmask h0
  && decide ((is.filter isRead).length ≤ 64)
  && !(hRp h0 && regs.contains (.l, hLr h0))
  && noDup (is.filterMap tdsetWord) && noDup (is.filterMap psrWritten) && noDup (is.filterMap sigWrites)

/-- The consumers of atomics, and no load above an atomic (R53). -/
def atomicsOk (is : List Instr) : Bool :=
  let r := atomicReach 0 is []
  ((is.zipIdx).all fun (i, idx) => !r.contains idx || atomicConsumer i)
  && ((is.filter isAtomic).filterMap lsidOf).all fun a => ((is.filter isLoad).filterMap lsidOf).all fun l => decide (l ≤ a)

def decodeAll : List Word → Option (List Instr)
  | [] => some []
  | w :: ws =>
    match decode w with
    | .error _ => none
    | .ok i => (decodeAll ws).map fun is => i :: is

/-- The check of R46: a block that fails it raises Block Format, and no instruction of it fires. -/
def blockOk (h0 h1 h2 h3 : Word) (words : List Word) : Bool :=
  headerOk h0 h1 h2 h3 && words.length == hNi h0 &&
  match decodeAll words with
  | none => false
  | some is =>
    countsOk h0 is && atomicsOk is &&
    match graphFrom (hNi h0) (hNt h0) is 0 is [] with
    | none => false
    | some named => testsNamed h0 h1 named

end Sys2Proof.Machine
end

