-- ==== Sys2Proof/Machine/Fire.lean ====
section
/-!
DEFINITION. Sys2Proof/Machine/Fire.lean: the firing of one instruction of a frame, the one operation under every instruction word
(R47 to R50, R60, R88, R306): when it may fire, what a predicate or a null makes of it, and where its token goes.
-/
namespace Sys2Proof.Machine

/-- The tokens an instruction fires with; `lm` is the lane mask, all ones without LP. -/
structure In where
  a : Tok := .null
  b : Tok := .null
  c : Tok := .null
  lm : Mask := BitVec.allOnes 128
deriving DecidableEq, Repr

/-- What a firing gives. -/
inductive Fired where
  /-- the result, the flags raised, and the effects pending for the commit -/
  | done (tok : Tok) (flags : Flags) (effs : List Effect)
  /-- an atomic: its result comes at the binding point (R53) -/
  | pend (effs : List Effect)
  | fault (e : XErr)
  /-- it waits, and fires again when its wait may be satisfied (R57) -/
  | hold
deriving DecidableEq, Repr

def setBit (b : BitVec 128) (i : Nat) : BitVec 128 := b ||| ((1 : BitVec 128) <<< i)
def clearBit (b : BitVec 128) (i : Nat) : BitVec 128 := b &&& ~~~((1 : BitVec 128) <<< i)

/-- A frame in which nothing has fired. -/
def Frame.fresh (start h0 h1 h2 h3 : Word) (words : List Word) : Frame :=
  { start := start, h0 := h0, h1 := h1, h2 := h2, h3 := h3, words := words, cur := 0, slots := [], fired := 0, waiting := 0,
    arrived := 0, effs := [], faults := [], flags := 0, leaf := none, checked := false, announced := none, bound := false,
    issuing := false, performed := false, issued := [], remotes := [], snaps := [], picks := [], watch := [], guess := false, begun := false,
    units := 0, prior := [] }

/-- The core fires a block again from its start: nothing of it has been performed but the arrivals of its BAR.syncs (R230, R311). -/
def Frame.replay (fr : Frame) : Frame :=
  if fr.bound || fr.performed || fr.issuing then fr
  else { Frame.fresh fr.start fr.h0 fr.h1 fr.h2 fr.h3 fr.words with arrived := fr.arrived }

/-- Changes the frame of the current core. -/
def State.onFrame (s : State) (g : Frame → Frame) : State :=
  { s with core := { s.core with frame := s.core.frame.map g } }

/-- The token of a slot of the frame. -/
def Frame.slot (fr : Frame) (idx : Nat) (sl : Slot) : Option Tok := lookup (slotKey idx sl) fr.slots

/-- Sends a token to each target. -/
def deliver (tok : Tok) : List Target → List (Nat × Tok) → List (Nat × Tok)
  | [], l => l
  | t :: ts, l => deliver tok ts ((slotKey t.idx.toNat t.slot, tok) :: l)

/-- The instruction has fired and completed: its token goes to its targets, its flags and effects await the commit. -/
def Frame.complete (fr : Frame) (idx : Nat) (ts : List Target) (tok : Tok) (fl : Flags) (effs : List Effect) : Frame :=
  { fr with slots := deliver tok ts fr.slots, fired := setBit fr.fired idx, waiting := clearBit fr.waiting idx,
            flags := fr.flags ||| fl, effs := fr.effs ++ effs.map (fun e => (idx, e)) }

/-- The access that a fault record names (R379). -/
def accOf (i : Instr) : BitVec 3 :=
  if isLoad i then 0
  else if isAtomic i then 2
  else if isStore i then 1
  else match i with | .msta _ _ _ _ _ => 1 | _ => 4

/-- The instruction has faulted: it emits no token (R60). -/
def Frame.recordFault (fr : Frame) (i : Instr) (e : XErr) : Frame :=
  { fr with fired := setBit fr.fired fr.cur, waiting := clearBit fr.waiting fr.cur,
            faults := fr.faults ++ [{ idx := fr.cur, lsid := lsidOf i, cause := e.cause, addr := e.addr, acc := accOf i,
                                      mal := e.mal, rem := e.rem, wue := e.wue }] }

/-- What slot P makes of an instruction (R48, R50). -/
inductive Sel where
  /-- P has not arrived -/
  | wait
  /-- predicated off -/
  | off
  | on (lm : Mask)
  /-- LP = 1 with a null mask: the whole result is null -/
  | nullMask
deriving DecidableEq, Repr

def selectP (c : Ctl) (p : Option Tok) : Sel :=
  match c.pm with
  | .always =>
    if c.lp then
      match p with
      | none => .wait
      | some (.m x) => .on x
      | some _ => .nullMask
    else .on (BitVec.allOnes 128)
  | .ifTrue => match p with | none => .wait | some (.s w) => if w ≠ 0 then .on (BitVec.allOnes 128) else .off | some _ => .off
  | .ifFalse => match p with | none => .wait | some (.s w) => if w = 0 then .on (BitVec.allOnes 128) else .off | some _ => .off

/-- A required data slot holds a token. -/
def slotReady (fr : Frame) (idx : Nat) (n : Need) (sl : Slot) : Bool := n == .no || (fr.slot idx sl).isSome

def dataReady (fr : Frame) (idx : Nat) (i : Instr) : Bool :=
  slotReady fr idx (shapeOf i).a .a && slotReady fr idx (shapeOf i).b .b && slotReady fr idx (shapeOf i).c .c

/-- The data tokens of an instruction. -/
def inputs (fr : Frame) (idx : Nat) (lm : Mask) : In :=
  { a := (fr.slot idx .a).getD .null, b := (fr.slot idx .b).getD .null, c := (fr.slot idx .c).getD .null, lm := lm }

/-- SEL, NULL and NULL.isn look at nulls themselves (R49). -/
def seesNulls : Instr → Bool
  | .sel _ _ | .null _ | .nullIsn _ => true
  | _ => false

/-- Some data slot holds a null. -/
def hasNull (i : Instr) (x : In) : Bool :=
  !seesNulls i &&
  (((shapeOf i).a != .no && x.a == .null) || ((shapeOf i).b != .no && x.b == .null) || ((shapeOf i).c != .no && x.c == .null))

/-- The checks that precede every meaning: privilege (R154, R306) and the units a supervisor core lacks (R16). -/
def refusedHere (c : Core) (i : Instr) : Option (BitVec 8) :=
  if isSystem i && !isSup c.id then some cPriv
  else if notOnSupervisor i && isSup c.id then some cIllegal
  else none

/-- What a firing does to the state. An enabled flag of a bound block, which can no longer fault, is only set (R53, log 97). -/
def State.settle (s : State) (i : Instr) (idx : Nat) (r : Fired) : State :=
  match r with
  | .done tok fl effs =>
    let bound := match s.core.frame with | some fr => fr.bound | none => false
    match trapCause (fsrEnables s.core.r) fl with
    | some cause =>
      if bound then s.onFrame fun fr => fr.complete idx (targetsOf i) tok fl effs
      else s.onFrame fun fr => fr.recordFault i { cause := cause, addr := 0 }
    | none => s.onFrame fun fr => fr.complete idx (targetsOf i) tok fl effs
  | .pend effs => s.onFrame fun fr => fr.complete idx [] .null 0 effs
  | .fault e => (s.uncorr s.core.id s.core.space e.cause e.addr).onFrame fun fr => fr.recordFault i e
  | .hold => s.onFrame fun fr => { fr with waiting := setBit fr.waiting idx }

/-- Units of a format (R249, R352). -/
def fmtUnits : Ty → BitVec 12
  | .f64 => 0x001
  | .e4m3 | .e5m2 => 0x002
  | .t8 => 0x00A
  | .e2m3 | .e3m2 | .e2m1 => 0x004
  | .t6 => 0x00C
  | _ => 0

/-- Tapered formats as a unit (R352). -/
def taperedUnit : Ty → BitVec 12
  | .t8 | .t6 => 0x008
  | _ => 0

/-- FMT of a descriptor register (R66). -/
def tdTy (r : Regs) (td : BitVec 6) : Ty := (Ty.ofCode (BitVec.ofNat 5 (field (cget r.td (4 * td.toNat)) 62 58))).getD .i8

/-- The units that an instruction is of (R352, R395; log 28). -/
def unitBits (r : Regs) : Instr → BitVec 12
  | .sigcfg _ _ | .sigid _ _ | .sigstep _ _ | .sigstrm _ _ _ _ | .sigjoin _ _ _ _ | .siglog _ _ _ | .sigexp _ _ _
  | .siginv _ _ _ | .sigscl _ _ | .sigmovCv _ _ | .sigmovVc _ _ | .sigmovSs _ _ | .sigmovSl _ _ => 0x010
  | .gmma _ _ _ _ _ _ => 0x020
  | .mmag _ _ _ _ _ _ => 0x400
  | .rgrp _ _ _ _ _ | .rtopk _ _ _ _ _ | .rbin _ _ _ _ _ | .expld _ _ _ _ _ => 0x040
  | .bpermRequest _ _ _ _ _ | .bpermOpen _ _ _ _ _ | .dspat _ _ _ _ _ | .cmbn _ _ _ _ _ | .brel _ _ _ => 0x080
  | .collAr _ _ _ _ _ | .collRs _ _ _ _ _ | .collAg _ _ _ _ _ | .collA2a _ _ _ _ _ | .collBc _ _ _ _ _ => 0x080
  | .collOp _ _ _ _ _ => 0x180
  | .bkop _ _ _ _ _ => 0x200
  | .vcvt _ t u => taperedUnit t ||| taperedUnit u
  | .vqt _ t _ => taperedUnit t ||| 0x008
  | .mlda _ _ _ _ td _ | .msta _ _ _ td _ => fmtUnits (tdTy r td)
  | .tld _ t _ td | .tst _ t _ td => taperedUnit t ||| taperedUnit (tdTy r td)
  | _ => 0

/-- The core remembers the units its task has used (R395). -/
def State.markUnits (s : State) (u : BitVec 12) : State := { s with core := { s.core with units := s.core.units ||| u } }

/-- FIRING: instruction `i` stands at index `cur` of the frame; `f` is its own meaning on non-null tokens. An instruction that
has fired, or whose slots are not all filled, leaves the state as it is. -/
def fireWith (i : Instr) (s : State) (f : State → In → State × Fired) : Host.Outcome State Fault Refusal :=
  match s.core.frame, ctlOf i with
  | none, _ => .fault .noFrame
  | some _, none => .next s
  | some fr, some c =>
    let idx := fr.cur
    if fr.fired.getLsbD idx then .next s
    else
      match selectP c (fr.slot idx .p) with
      | .wait => .next s
      | .off => .next (s.settle i idx (.done .null 0 []))
      | .nullMask => .next (if dataReady fr idx i then s.settle i idx (.done .null 0 []) else s)
      | .on lm =>
        if !dataReady fr idx i then .next s
        else
          let x := inputs fr idx lm
          if hasNull i x then .next (s.settle i idx (.done .null 0 []))
          else
            match refusedHere s.core i with
            | some cause => .next (s.settle i idx (.fault { cause := cause, addr := 0 }))
            | none =>
              let (s', r) := f s x
              .next ((s'.markUnits (unitBits s.core.r i)).settle i idx r)

/-- An instruction whose result is a function of its tokens and the committed registers. -/
def firePure (i : Instr) (s : State) (g : Regs → In → Tok × Flags) : Host.Outcome State Fault Refusal :=
  fireWith i s fun s x => let (tok, fl) := g s.core.r x; (s, .done tok fl [])

/-- An instruction with a scalar result. -/
def fireScalar (i : Instr) (s : State) (g : Regs → In → Word × Flags) : Host.Outcome State Fault Refusal :=
  firePure i s fun r x => let (w, fl) := g r x; (.s w, fl)

/-- An instruction that only leaves effects for the commit. -/
def fireEffect (i : Instr) (s : State) (g : Core → In → Except XErr (List Effect)) : Host.Outcome State Fault Refusal :=
  fireWith i s fun s x =>
    match g s.core x with
    | .ok effs => (s, .done .null 0 effs)
    | .error e => (s, .fault e)

/-- May the instruction at `idx` fire, as far as its slots go (R48)? -/
def slotsReady (fr : Frame) (idx : Nat) (i : Instr) : Bool :=
  !fr.fired.getLsbD idx &&
  match ctlOf i with
  | none => false
  | some c =>
    match selectP c (fr.slot idx .p) with
    | .wait => false
    | .off => true
    | _ => dataReady fr idx i

end Sys2Proof.Machine
end

