-- ==== Sys2Proof/Machine/Tickets.lean ====
section
/-!
DEFINITION. Sys2Proof/Machine/Tickets.lean: tickets and their status words (R236, R237), and the tiles that issued commands keep
busy (R65, R246).
-/
namespace Sys2Proof.Machine

/-- Ticket classes (R236). -/
def engCopy : BitVec 4 := 1
def engMatrix : BitVec 4 := 2
def engSig : BitVec 4 := 3
def engRoute : BitVec 4 := 4
def engColl : BitVec 4 := 5
def engLaunch : BitVec 4 := 6

/-- The class of an asynchronous command word. -/
def engOf : Instr → Option (BitVec 4)
  | .copy _ _ _ _ | .copyCh _ _ _ _ _ => some engCopy
  | .mzero _ _ _ | .mma _ _ _ _ _ _ | .mmag _ _ _ _ _ _ | .gmma _ _ _ _ _ _ => some engMatrix
  | .sigstrm _ _ _ _ => some engSig
  | .rgrp _ _ _ _ _ | .rtopk _ _ _ _ _ | .rbin _ _ _ _ _ | .bpermRequest _ _ _ _ _ | .bpermOpen _ _ _ _ _
  | .dspat _ _ _ _ _ | .cmbn _ _ _ _ _ | .brel _ _ _ | .expld _ _ _ _ _ => some engRoute
  | .collAr _ _ _ _ _ | .collRs _ _ _ _ _ | .collAg _ _ _ _ _ | .collA2a _ _ _ _ _ | .collBc _ _ _ _ _
  | .collOp _ _ _ _ _ => some engColl
  | .spawn _ _ | .glaunch _ _ => some engLaunch
  | _ => none

/-- The class of an instruction word. -/
def wordEng (w : Word) : Option (BitVec 4) :=
  match decode w with
  | .ok i => engOf i
  | .error _ => none

/-- Command words of class `e` among the words. -/
def countEng (e : BitVec 4) (ws : List Word) : Nat := (ws.filter fun w => wordEng w == some e).length

/-- The ticket of the command word at `idx` of the frame (R236). -/
def ticketAt (c : Core) (fr : Frame) (idx : Nat) (e : BitVec 4) : Ticket :=
  { eng := e, serial := cget c.e.serial e.toNat + BitVec.ofNat 16 (countEng e (fr.words.take idx)) }

/-- A ticket as a token (R236). -/
def ticketWord (t : Ticket) : Word := BitVec.ofNat 64 (t.eng.toNat * 2 ^ 20 + t.serial.toNat)

/-- The ticket of a token, none when reserved bits are set. -/
def ticketOf (w : Word) : Option Ticket :=
  let t : Ticket := { eng := BitVec.ofNat 4 (field w 23 20), serial := BitVec.ofNat 16 (field w 15 0) }
  if ticketWord t = w then some t else none

/-- Status codes ST (R237). -/
def stPending : Nat := 0
def stDone : Nat := 1
def stFault : Nat := 2
def stCancelled : Nat := 3

/-- A status word (R237). -/
def statusWord (st : Nat) (detail : BitVec 8) (fl : Flags) (donen : Nat) : Word :=
  BitVec.ofNat 64 (st * 2 ^ 62 + detail.toNat * 2 ^ 48 + fl.toNat * 2 ^ 32 + donen % 2 ^ 32)

def statusSt (w : Word) : Nat := field w 63 62
def statusFlags (w : Word) : Flags := BitVec.ofNat 7 (field w 38 32)

/-- The status of a ticket that is still testable. -/
def Eng.status (e : Eng) (t : Ticket) : Option Word := (e.tickets.find? fun x => x.tk == t).map TicketSt.st

/-- Observing the command's completion is an acquire of gang scope or wider (R126, R127). -/
def Eng.wide (e : Eng) (t : Ticket) : Bool := e.tickets.any fun x => x.tk == t && x.wide

def Eng.setStatus (e : Eng) (t : Ticket) (st : Word) : Eng :=
  { e with tickets := e.tickets.map fun x => if x.tk = t then { x with st := st } else x }

/-- A new ticket reads PENDING (R237). -/
def Eng.newTicket (e : Eng) (t : Ticket) : Eng := { e with tickets := e.tickets ++ [{ tk := t, st := 0 }] }

/-- Tickets stay testable while their SERIAL is one of the 256 that their class took last (R236, R395). -/
def Eng.forgetOld (e : Eng) : Eng :=
  { e with tickets := e.tickets.filter fun x => decide ((cget e.serial x.tk.eng.toNat - 1 - x.tk.serial).toNat < 256) }

/-- Tiles of commands issued and not complete (R65, R246). -/
def Eng.busyTiles (e : Eng) : BitVec 8 := e.cmds.foldl (fun b c => b ||| c.tiles) 0

/-- The command's ticket becomes final and the command leaves its engine. -/
def Eng.finish (e : Eng) (t : Ticket) (st : Word) (wide : Bool) : Eng :=
  { e with tickets := e.tickets.map fun x => if x.tk = t then { x with st := st, wide := wide } else x,
           cmds := e.cmds.filter fun c => c.tk != t }

/-- Firing of an asynchronous command word: its token is its ticket, its effect the issue at commit (R58, R236). -/
def fireCommand (i : Instr) (s : State) (check : State → In → Except XErr Word) : Host.Outcome State Fault Refusal :=
  fireWith i s fun s x =>
    match check s x, s.core.frame with
    | .error e, _ => (s, .fault e)
    | .ok _, none => (s, .hold)
    | .ok arg, some fr =>
      let tk := ticketAt s.core fr fr.cur ((engOf i).getD 0)
      (s, .done (.s (ticketWord tk)) 0 [.cmd (fr.words.getD fr.cur 0) tk arg])

end Sys2Proof.Machine
end

