-- ==== Sys2Proof/Machine/BlockCtl.lean ====
section
/-!
DEFINITION. Sys2Proof/Machine/BlockCtl.lean: READ, WRITE, FAN, NULL, CONST, PTB, WIDF, SREAD, SPAWN, TRAP and SEL
(R160 to R172, R73, R428).
-/
namespace Sys2Proof.Machine

/-- A vector token under a mask read granule by granule (R50). -/
def maskTok (t : Tok) (lm : Mask) : Tok :=
  match t with
  | .v x ok => .v x (ok &&& lm)
  | t => t

/-- READ (R160). -/
def execRead (c : Ctl) (cls : RegClass) (reg : BitVec 8) (s : State) : Host.Outcome State Fault Refusal :=
  firePure (.read c cls reg) s fun r _ => (readReg r cls reg, 0)

/-- WRITE (R161): the register takes the token at commit. -/
def execWrite (c : Ctl) (cls : RegClass) (reg : BitVec 8) (s : State) : Host.Outcome State Fault Refusal :=
  fireEffect (.write c cls reg) s fun _ x => .ok [.write cls reg (maskTok x.a x.lm)]

/-- FAN (R162). -/
def execFan (c : Ctl) (s : State) : Host.Outcome State Fault Refusal :=
  firePure (.fan c) s fun _ x => (maskTok x.a x.lm, 0)

/-- NULL (R163). -/
def execNull (c : Ctl) (s : State) : Host.Outcome State Fault Refusal := firePure (.null c) s fun _ _ => (.null, 0)

/-- NULL.isn (R163). -/
def execNullIsn (c : Ctl) (s : State) : Host.Outcome State Fault Refusal :=
  firePure (.nullIsn c) s fun _ x => (.s (b2w (x.a == .null)), 0)

/-- SEL (R164). -/
def selTok (a b c : Tok) : Tok :=
  match a with
  | .null => .null
  | a => if tokTruth a then b else c

def execSel (c : Ctl) (imm : Option (BitVec 13)) (s : State) : Host.Outcome State Fault Refusal :=
  firePure (.sel c imm) s fun _ x =>
    (maskTok (selTok x.a (match imm with | some i => .s (imm64 i) | none => x.b) x.c) x.lm, 0)

/-- CONST (R165). -/
def constWord (k : ConstKind) (imm : BitVec 32) : Word :=
  match k with
  | .i => imm.signExtend 64
  | .n => imm.setWidth 64
  | .hi => imm.setWidth 64 <<< 32

def execConst (c : Ctl) (k : ConstKind) (imm : BitVec 32) (s : State) : Host.Outcome State Fault Refusal :=
  fireScalar (.const c k imm) s fun _ _ => (constWord k imm, 0)

/-- PTB (R167). -/
def execPtb (c : Ctl) (b : BitVec 2) (s : State) : Host.Outcome State Fault Refusal :=
  fireEffect (.ptb c b) s fun _ x => .ok [.ptb b (tokWord x.a)]

/-- WIDF (R168); zero on a supervisor core, whose WID reads as zero (R428, log 25). -/
def widfWord (c : Core) (lvl : Bool) (k : Nat) : Word :=
  match c.task with
  | none => 0
  | some t => BitVec.ofNat 64 (if lvl then Desc_.level t.desc t.wid k else Desc_.fieldOf t.desc t.wid k)

def execWidf (c : Ctl) (lvl : Bool) (k : BitVec 3) (s : State) : Host.Outcome State Fault Refusal :=
  fireWith (.widf c lvl k) s fun s _ => (s, .done (.s (widfWord s.core lvl k.toNat)) 0 [])

/-- The special state of a task (R73) or of a supervisor core (R428). -/
def specialWord (s : State) (c : Core) (sel : Nat) : Option Word :=
  let n (x : Nat) : Option Word := some (BitVec.ofNat 64 x)
  let sup := isSup c.id
  match sel with
  | 0x00 => some (wid c)
  | 0x01 => n c.rank
  | 0x02 => n c.gsize
  | 0x03 => n (match c.task with | some t => t.gidx | none => 0)
  | 0x04 => n c.id
  | 0x05 => n (dieOfCore c.id)
  | 0x06 => if sup then some (BitVec.allOnes 64) else n (c.id % 256 / 8)
  | 0x07 => if sup then some (BitVec.allOnes 64) else n (c.id % 8)
  | 0x08 => if sup then n 0xFFFFFFFF else n c.r.bgt.toNat
  | 0x09 => n c.swzkey
  | 0x0A => some (match c.task with | some t => t.desc.l4 | none => 0)
  | 0x0B => n c.footprint
  | 0x0C => n c.acc
  | 0x0D => n s.cycle
  | 0x0E => some c.committed
  | 0x0F => n c.e.busyTiles.toNat
  | 0x10 => some c.leaveWaits
  | 0x11 => some c.svrRej
  | _ => none

/-- SREAD (R169). -/
def execSread (c : Ctl) (sel : BitVec 8) (s : State) : Host.Outcome State Fault Refusal :=
  fireWith (.sread c sel) s fun s _ =>
    match specialWord s s.core sel.toNat with
    | some w => (s, .done (.s w) 0 [])
    | none => (s, .fault { cause := cIllegal, addr := 0 })

/-- The checks of a descriptor address when SPAWN or GLAUNCH fires (R170). -/
def descAddr (a : Word) : Except XErr Word :=
  if field a 5 0 ≠ 0 then .error { cause := cAlign, addr := a }
  else if field a 63 57 ≠ 0 then .error { cause := cNotPresent, addr := a }
  else .ok a

/-- SPAWN (R170). -/
def execSpawn (c : Ctl) (o : CmdOpt) (s : State) : Host.Outcome State Fault Refusal :=
  fireCommand (.spawn c o) s fun _ x => descAddr (tokWord x.a)

/-- TRAP (R172). -/
def execTrap (c : Ctl) (code : BitVec 13) (s : State) : Host.Outcome State Fault Refusal :=
  fireEffect (.trap c code) s fun _ _ => .error { cause := cUser, addr := code.setWidth 64 }

end Sys2Proof.Machine
end

