-- ==== Sys2Proof/Machine/Net.lean ====
section
/-!
DEFINITION. Sys2Proof/Machine/Net.lean: packets sent (R404 to R411): their header, their tags and release sequence, and the record
of those not yet acknowledged.
-/
namespace Sys2Proof.Machine

/-- Packet classes (R406; the messages of domain barriers log 111). -/
def classOf : Body → Nat
  | .memReq _ _ _ _ => 0
  | .reply _ _ _ _ => 1
  | .launch _ _ => 2
  | .doorbell _ _ => 3
  | .row _ _ _ _ _ _ _ _ _ _ _ _ => 4
  | .ret _ _ _ _ _ _ _ | .retMarker _ _ _ _ => 5
  | .chunk _ _ _ _ _ _ _ _ _ _ => 6
  | .poolReq _ _ _ _ _ | .poolGrant _ _ _ _ _ | .marker _ _ _ _ _ | .arrival _ _ | .absence _ _ _ | .phase _ _ _ | .retired _ _ _
  | .expired _ _ => 7
  | .host _ => 8
  | .refusal _ _ => 9

/-- PH0 (R404). -/
def ph0Of (cls : Nat) (src dst : BitVec 9) (die nhop : Nat) (space : BitVec 16) (rel svr : Bool) (nflit : Nat) : Word :=
  BitVec.ofNat 64 (0xC * 2 ^ 60 + cls * 2 ^ 56 + src.toNat * 2 ^ 47 + dst.toNat * 2 ^ 38 + die % 4 * 2 ^ 36
    + nhop % 16 * 2 ^ 32 + space.toNat * 2 ^ 16 + (if rel then 2 ^ 15 else 0) + (if svr then 2 ^ 14 else 0) + nflit % 64 * 2 ^ 8)

def pkSrc (p : Packet) : BitVec 9 := BitVec.ofNat 9 (field p.ph0 55 47)
def pkDst (p : Packet) : BitVec 9 := BitVec.ofNat 9 (field p.ph0 46 38)
def pkDie (p : Packet) : Nat := field p.ph0 37 36
def pkSpace (p : Packet) : BitVec 16 := BitVec.ofNat 16 (field p.ph0 31 16)
def pkRel (p : Packet) : Bool := bitAt p.ph0 15
def pkSvr (p : Packet) : Bool := bitAt p.ph0 14
def pkTag (p : Packet) : BitVec 32 := BitVec.ofNat 32 (field p.ph3 63 32)
def pkRseq (p : Packet) : BitVec 32 := BitVec.ofNat 32 (field p.ph3 31 0)

/-- Payload flits of a body whose length the spec gives; other bodies carry what their sender gives (log 16). -/
def flitsOf : Body → Nat
  | .memReq op _ size _ => match op with | .load | .check => 0 | _ => ceilDiv size 64
  | .reply _ _ data _ => ceilDiv data.length 64
  | .launch _ _ => 1
  | .row _ _ _ _ fmt codes scales _ _ _ _ _ => ceilDiv (ceilDiv (codes.length * fmt.width) 8 + scales.length) 64
  | .ret _ _ vals _ _ _ _ => ceilDiv (4 * vals.length) 64
  | .chunk _ _ _ _ fmt _ vals _ _ _ => ceilDiv (ceilDiv (vals.length * fmt.width) 8) 64
  | .poolReq _ _ wants _ _ => ceilDiv (8 * wants.length) 64
  | .poolGrant _ _ grants _ _ => ceilDiv (12 * grants.length) 64
  | .host (.writeIngress _ _ _) | .host (.writeDoorbell _ _ _) => 1
  | _ => 0

/-- The bytes that a packet writes at its destination, the doorbell that it rings, or the standing of a member that it tells. -/
def writesAt : Body → Option (Nat × Nat)
  | .memReq op a n _ => match op with | .load | .check => none | _ => some (a.toNat, n)
  | .doorbell _ n => some (2 ^ 40 + n.toNat, 1)
  | .absence bar member _ => some (2 ^ 41 + bar.toNat * 2 ^ 30 + member, 1)
  | _ => none

/-- Two packets write a common byte. -/
def clashes (a b : Body) : Bool :=
  match writesAt a, writesAt b with
  | some (x, n), some (y, m) => decide (x < y + m ∧ y < x + n)
  | _, _ => false

/-- A packet waits for an unacknowledged earlier one of its sender: a release for each of them, another for one to the same
destination that writes a byte that it writes (R118, R120, R135, R410). -/
def Out.waitsFor (o x : Out) : Bool :=
  x.core == o.core && x.tk == o.tk && x.src == o.src && decide (x.num < o.num)
  && (pkRel o.pkt || (x.dst == o.dst && clashes x.pkt.body o.pkt.body))

/-- Unacknowledged packets to one destination (R409). -/
def maxOut : Nat := 4096

/-- Packets to a destination that have gone out and are not acknowledged. -/
def flying (l : List Out) (dst : BitVec 9) : Nat := (l.filter fun o => o.dst == dst && !o.held).length

/-- A packet as it leaves for another endpoint: with the route that the tables give for the links that are up (R405, R408, log 16). -/
def State.routed (s : State) (p : Packet) : Packet :=
  let hops := (Config.routeHops s.port.links (pkDst p)).toNat + 1
  { p with ph0 := (p.ph0 &&& ~~~(mask64 35 32)) ||| BitVec.ofNat 64 (hops * 2 ^ 32), ph1 := Config.routeWord s.port.links (pkDst p),
           ph2 := BitVec.ofNat 64 (2 ^ (8 * (hops - 1))) }

/-- Sends a packet from endpoint `src`, of the task of a core or of its command `tk`. A packet between two agents of one endpoint
travels in `net`; every other is handed to the fabric, and every class but 0001 and 1001 is held until it is acknowledged (R409). -/
def State.send (s : State) (src dst : BitVec 9) (die : Nat) (space : BitVec 16) (rel svr : Bool) (core : Nat) (b : Body)
    (tk : Option Ticket := none) (done : Option (BitVec 10 × Word) := none) : State :=
  let tag := BitVec.ofNat 32 s.port.nextTag
  let rseq := if rel then (lookup (src, dst) s.port.rseqOut).getD 0 else 0
  let own := decide (src = dst)
  let cls := classOf b
  let nfl := min 63 (flitsOf b)
  let p : Packet :=
    { ph0 := ph0Of cls src dst die 0 space rel svr nfl, ph1 := 0, ph2 := 0, ph3 := BitVec.ofNat 64 (tag.toNat * 2 ^ 32 + rseq.toNat),
      ph4 := b.ph4, ph5 := b.ph5, ph6 := 0, ph7 := 0, flits := nfl, body := b, task := if own then (s.coreAt core).key else 0 }
  let port := { s.port with nextTag := s.port.nextTag + 1,
                            rseqOut := if rel then assign (src, dst) (rseq + 1) s.port.rseqOut else s.port.rseqOut }
  if own then { s with port := { port with net := port.net ++ [p] } }
  else if cls = 1 ∨ cls = 9 then { s with port := { port with outbox := s.routed p :: port.outbox } }
  else
    let o : Out := { src := src, dst := dst, tag := tag, num := s.port.nextTag, tk := tk, pkt := p, sent := s.cycle, resends := 0,
                     held := false, core := core, done := done }
    let held := port.unacked.any o.waitsFor || decide (maxOut ≤ flying port.unacked dst)
    { s with port := { port with unacked := port.unacked ++ [{ o with held := held }],
                                 outbox := if held then port.outbox else s.routed p :: port.outbox } }

/-- The tag the next packet takes. -/
def State.tagNext (s : State) : BitVec 32 := BitVec.ofNat 32 s.port.nextTag

/-- The acknowledgement of a packet: it is forgotten, and packets that waited for it go out (R409, R410). -/
def State.acked (s : State) (src dst : BitVec 9) (tag : BitVec 32) : State :=
  let rest := s.port.unacked.filter fun o => !(o.src == src && o.dst == dst && o.tag == tag)
  let go (acc : List Out × List Packet) (o : Out) : List Out × List Packet :=
    let n := flying rest o.dst + (acc.2.filter fun p => pkDst p == o.dst).length
    if o.held && !rest.any o.waitsFor && decide (n < maxOut) then (acc.1 ++ [{ o with held := false, sent := s.cycle }], s.routed o.pkt :: acc.2)
    else (acc.1 ++ [o], acc.2)
  let (outs, pkts) := rest.foldl go ([], [])
  { s with port := { s.port with unacked := outs, outbox := pkts ++ s.port.outbox } }

/-- A packet that acts on memory, a counter or a barrier; routing and collective packets end with their own protocols. -/
def Out.isAccess (o : Out) : Bool :=
  match o.pkt.body with
  | .memReq _ _ _ _ | .doorbell _ _ | .arrival _ _ => true
  | _ => false

/-- Every packet that the task of a core has sent is acknowledged, and so performed: a release of the task waits for this (R120). -/
def State.acksOf (s : State) (core : Nat) : Bool := s.port.unacked.all fun o => o.core != core || o.tk.isSome
/-- The same of the task's packets below a number. -/
def State.acksBelow (s : State) (core num : Nat) : Bool :=
  s.port.unacked.all fun o => o.core != core || o.tk.isSome || decide (num ≤ o.num)
/-- Every access of a command is acknowledged: its completion waits for this (R127, R130). -/
def State.acksCmd (s : State) (core : Nat) (t : Ticket) : Bool :=
  s.port.unacked.all fun o => o.core != core || o.tk != some t || !o.isAccess
/-- No access that the task of a core or its commands have made at another endpoint is outstanding. -/
def State.quietPort (s : State) (core : Nat) : Bool := s.port.unacked.all fun o => o.core != core || !o.isAccess

/-- A packet of a core's task that will never be performed: counted, recorded, and reported to the owner and the supervisor ring with its
space, destination, address or doorbell number, and cause (R411, log 17). -/
def State.undeliverable (s : State) (core : Nat) (space : BitVec 16) (dst : BitVec 9) (addr : Word) (cause : Nat) : State :=
  let d := dieOfCore core
  let detail := dst.toNat * 2 ^ 16 + cause
  let s : State := { s with port := { s.port with undelivered := s.port.undelivered + 1 } }
  let r : Report := { part := s.partOfDie d, code := 0x08, space := space, addr := addr, detail := BitVec.ofNat 32 detail }
  ((s.blackBox d 0x08 space 0xFF addr detail).tellSup d r).report r

/-- The address, the doorbell number or the serial that a packet names. -/
def bodyPlace : Body → Word
  | .memReq _ a _ _ => a.setWidth 64
  | .doorbell _ n => n.setWidth 64
  | .row ser _ _ _ _ _ _ _ _ _ _ _ | .ret ser _ _ _ _ _ _ | .retMarker ser _ _ _ | .chunk ser _ _ _ _ _ _ _ _ _ | .poolReq ser _ _ _ _
  | .poolGrant ser _ _ _ _ | .marker ser _ _ _ _ => ser.setWidth 64
  | .launch _ desc => desc.getD 3 0
  | _ => 0

/-- A posted store, a doorbell or a row that its destination refuses, or that goes unanswered, is undeliverable (R411); so is every other
packet for a task that has been killed (R419). -/
def State.lostPacket (s : State) (core : Nat) (p : Packet) (cause : Nat) : State :=
  let lost : State := s.undeliverable core (pkSpace p) (pkDst p) (bodyPlace p.body) cause
  match p.body with
  | .memReq op _ _ _ => match op with | .store | .storeBits _ => lost | _ => s
  | .doorbell _ _ | .row _ _ _ _ _ _ _ _ _ _ _ _ => lost
  | .ret _ _ _ _ _ _ _ | .retMarker _ _ _ _ | .chunk _ _ _ _ _ _ _ _ _ _ | .poolGrant _ _ _ _ _ | .marker _ _ _ _ _
  | .poolReq _ _ _ _ _ => if cause = cChannel.toNat then lost else s
  | _ => s

/-- A proxy absence token of a member of the core's gang has not been acknowledged: none of its tasks fetches (R396, R399). -/
def State.tokensOut (s : State) (c : Core) : Bool :=
  s.port.unacked.any fun o =>
    (o.core == c.id || (match c.task with | some t => t.cores.contains o.core | none => false)) &&
    match o.pkt.body with | .absence _ _ _ => true | _ => false

end Sys2Proof.Machine
end

