-- ==== Sys2Proof/Machine/Access.lean ====
section
/-!
DEFINITION. Sys2Proof/Machine/Access.lean: what loads read and what stores leave for the commit (R52, R97 to R124, R218, R383):
the L1, the scratchpad views, the pending stores of the own block, and accesses of other endpoints.
-/
namespace Sys2Proof.Machine

/-- One piece of an access: an address in its space and a size; its alignment is its size (R100). -/
structure Piece where
  addr : Nat
  size : Nat
deriving DecidableEq, Repr

/-- Resolves every piece in order; each page that they touch is translated once (R377). -/
def resolveOnce (c : Core) (spc : Space) (k : AccKind) (st32 : Bool) :
    List Piece → Memo → State → State × Memo × List (Except XErr (Phys × View))
  | [], memo, s => (s, memo, [])
  | p :: ps, memo, s =>
    let (s, memo, r) := resolveIn s memo c spc p.addr p.size p.size k st32
    let (s, memo, rs) := resolveOnce c spc k st32 ps memo s
    (s, memo, r :: rs)

def resolveAll (c : Core) (spc : Space) (k : AccKind) (st32 : Bool) (ps : List Piece) (s : State) :
    State × List (Except XErr (Phys × View)) :=
  match resolveOnce c spc k st32 ps [] s with
  | (s, _, rs) => (s, rs)

/-- The fault at the lowest byte, if any piece faults (R98, R218). -/
def lowestErr {α : Type} : List (Except XErr α) → Option XErr
  | [] => none
  | .ok _ :: l => lowestErr l
  | .error e :: l =>
    match lowestErr l with
    | some e' => if e'.addr.toNat < e.addr.toNat then some e' else some e
    | none => some e

/-! ## Atomic and bank updates (R96, R226, R231) -/

/-- Two BF16 additions, one in each half (R96). -/
def faddHalves (old b : Nat) : Nat :=
  let h (x y : Nat) : Nat := (rne .bf16 (addV .rne (decodeF .bf16 false (x % 65536)) (decodeF .bf16 false (y % 65536))).1).1
  h old b + h (old / 65536) (b / 65536) * 65536

def fadd32 (old b : Nat) : Nat := (rne .f32 (addV .rne (decodeF .f32 false old) (decodeF .f32 false b)).1).1

/-- New value of an AMO (R226). -/
def amoNew (op : AmoOp) (w64 : Bool) (old b : Nat) : Nat :=
  let n := if w64 then 64 else 32
  let b := b % 2 ^ n
  let sOld := toSigned n old
  let sB := toSigned n b
  match op with
  | .add => (old + b) % 2 ^ n
  | .and => (BitVec.ofNat n old &&& BitVec.ofNat n b).toNat
  | .or => (BitVec.ofNat n old ||| BitVec.ofNat n b).toNat
  | .xor => (BitVec.ofNat n old ^^^ BitVec.ofNat n b).toNat
  | .min => if sB < sOld then b else old
  | .max => if sOld < sB then b else old
  | .minn => min old b
  | .maxn => max old b
  | .swap => b
  | .faddF32 => fadd32 old b
  | .faddBf16x2 => faddHalves old b

/-- New value of a bank operation (R231). -/
def bankNew (op : BkOp) (w64 signed : Bool) (old b : Nat) : Nat :=
  let n := if w64 then 64 else 32
  let b := b % 2 ^ n
  match op with
  | .add => (old + b) % 2 ^ n
  | .max => if signed then (if toSigned n old < toSigned n b then b else old) else max old b
  | .min => if signed then (if toSigned n b < toSigned n old then b else old) else min old b
  | .inc | .hist => (old + 1) % 2 ^ n
  | .faddF32 => fadd32 old b
  | .faddBf16x2 => faddHalves old b

/-! ## Writing at the home -/

/-- Forgets the stores through a view of which another agent writes a byte (R124): that agent's write comes after them. -/
def Core.dropViews (c : Core) (keys : List Nat) : Core :=
  if c.view.isEmpty then c
  else
    let hit := (c.view.filter fun v => keys.contains v.key).map ViewByte.sid
    { c with view := c.view.filter fun v => !hit.contains v.sid }

/-- Writes bytes at their home as another agent than the owner of the scratchpad does. -/
def State.poke (s : State) (ws : List ByteW) : State :=
  let keys := ws.map ByteW.key
  let s := { s with core := s.core.dropViews keys, parked := s.parked.map fun (c : Core) => c.dropViews keys }
  let lost := s.lostStores
  let s := s.writeBytes ws
  if s.lostStores = lost then s else s.blackBox (dieOfKey (keys.headD 0)) 0x03 0 0xFF (BitVec.ofNat 64 (keys.headD 0)) (s.lostStores - lost)

/-- The core's own copy of written bytes (R107): the L1 line takes them if it is present. -/
def L1Line.put (l : L1Line) (ws : List ByteW) : L1Line :=
  ws.foldl (fun l b =>
    if b.key / 128 = l.line then
      let sh := 8 * (b.key % 128)
      let m : BitVec 1024 := b.mask.setWidth 1024
      let v : BitVec 1024 := b.val.setWidth 1024
      { l with data := (l.data &&& ~~~(m <<< sh)) ||| ((v &&& m) <<< sh) }
    else l) l

def State.putL1 (s : State) (ws : List ByteW) : State :=
  { s with core := { s.core with l1 := s.core.l1.map fun l => l.put ws } }

/-- Drops every line of the current core's L1 (R107). -/
def State.dropL1 (s : State) : State := { s with core := { s.core with l1 := [] } }

/-- Drops the line that holds a byte. -/
def State.dropLine (s : State) (key : Nat) : State :=
  { s with core := { s.core with l1 := s.core.l1.filter fun l => l.line != key / 128 } }

/-- Writes bytes of a commit at their home, and records the partial stores that an uncorrectable granule swallows (R384). -/
def State.writeRecorded (s : State) (ws : List ByteW) : State :=
  let lost := s.lostStores
  let s := s.writeBytes ws
  if s.lostStores = lost then s
  else s.blackBox (dieOfKey ((ws.headD { key := 0, val := 0 }).key)) 0x03 0 0xFF (BitVec.ofNat 64 ((ws.headD { key := 0, val := 0 }).key)) (s.lostStores - lost)

/-- A byte that the task has stored through the other view since the last VJOIN (R124). -/
def Core.clashes (c : Core) (view : View) (key : Nat) : Bool := c.view.any fun v => v.key == key && v.view != view

/-- Bytes stored by a task in its own scratchpad through a view, in pieces of `n` bytes (R124). Those in `kept` come before a store through
the other view, with which this one is unordered: its value stays. -/
def State.storeOwnWith (s : State) (view : View) (n : Nat) (ws kept : List ByteW) : State :=
  let sid := match s.core.view with | v :: _ => v.sid + 1 | [] => 0
  let old (b : ByteW) : Byte := cget (w := 8) s.mem b.key
  let new (b : ByteW) : Byte := (b.val &&& b.mask) ||| (old b &&& ~~~b.mask)
  let rest := s.core.view.filter fun v => !(ws.any fun b => b.key == v.key && s.core.clashes view b.key)
  let mine := (ws.zipIdx).map fun (b, i) =>
    ({ view := view, key := b.key, old := if kept.contains b then new b else old b, sid := sid + i / n } : ViewByte)
  let s' := s.writeRecorded (ws.filter fun b => !kept.contains b)
  { s' with core := { s'.core with view := mine.reverse ++ rest } }

/-- The same, with a free choice for each byte that the other view has stored. -/
def State.storeOwn (s : State) (view : View) (n : Nat) (ws : List ByteW) : State :=
  let (s, kept) := ws.foldl (fun (s, l) b =>
    if s.core.clashes view b.key then let (keep, s) := s.drawBit; (s, if keep then b :: l else l) else (s, l)) (s, ([] : List ByteW))
  s.storeOwnWith view n ws kept

/-- A store of the current core at its home, in pieces of `n` bytes: its L1 takes the bytes, and its views are kept (R107, R124). -/
def State.storeLocal (s : State) (view : View) (n : Nat) (ws : List ByteW) : State :=
  match view with
  | .other => (s.poke ws).putL1 ws
  | v => s.storeOwn v n ws

/-! ## The order of accesses of one block (R52, R114) -/

/-- The instruction of a frame at an index. -/
def Frame.instr (fr : Frame) (idx : Nat) : Option Instr :=
  match fr.words[idx]? with
  | none => none
  | some w => match decode w with | .ok i => some i | .error _ => none

/-- Memory fields of an instruction that carries an ordering annotation. -/
def memfOf : Instr → Option MemF
  | .ld _ _ m _ | .st _ _ m _ | .vld _ _ m _ | .vst _ _ m _ | .vlds _ _ m _ | .vsts _ _ m _ | .vgath _ _ m _ | .vscat _ _ m _
  | .tld _ _ m _ | .tst _ _ m _ | .amo _ _ _ _ m _ | .cas _ _ _ m _ | .bkop _ _ _ m _ => some m
  | _ => none

/-- An acquire of gang scope or wider drops the L1 (R107). -/
def acquires (m : MemF) : Bool := m.ord.isAcq && m.sc != .task

/-- The instructions that depend on some of the given ones, these included: targets lead to higher indices only (R46). -/
def Frame.dependents (fr : Frame) (seed : List Nat) : List Nat :=
  (List.range fr.words.length).foldl (fun acc i =>
    if acc.contains i then acc ++ (((fr.instr i).map targetsOf).getD []).map (fun t => t.idx.toNat) else acc) seed

/-- Instructions of a kind but `idx` that have not fired. -/
def Frame.unfired (fr : Frame) (idx : Nat) (kind : Instr → Bool) : List Nat :=
  (List.range fr.words.length).filter fun j =>
    j != idx && !fr.fired.getLsbD j && (match fr.instr j with | some k => kind k | none => false)

/-- Those that may still fire: none that depends on a faulted instruction, and none that depends on one of `also`. -/
def Frame.mayFire (fr : Frame) (also : List Nat) (l : List Nat) : List Nat :=
  if l.isEmpty then []
  else
    let out := fr.dependents (also ++ fr.faults.map FaultRec.idx)
    l.filter fun j => !out.contains j

/-- The instruction has a LSID below a bound. -/
def lsidBelow (lsid : Nat) (k : Instr) : Bool := match lsidOf k with | some l => decide (l < lsid) | none => false

/-- SIGMOV.sl reads before every LSID of its block (R304). -/
def readsFirst : Instr → Bool
  | .sigmovSl _ _ => true
  | _ => false

/-- What performs as a store at its LSID (R52, R128). -/
def storesAt (i : Instr) : Bool := isStore i || (match i with | .msta _ _ _ _ _ => true | _ => false)

/-- Acquires of any scope, waits, fences and view-joins: a load of a higher LSID comes after them (R120, R121, R124, R127). -/
def acquiresAny : Instr → Bool
  | .ctrwait _ _ _ _ | .barWait _ _ _ | .barSync _ _ _ | .fence _ _ _ _ | .vjoin _ _ | .mlda _ _ _ true _ _ => true
  | i => isLoad i && (match memfOf i with | some m => m.ord.isAcq | none => false)

/-- Instructions behind which a load of a higher LSID waits: those, and stores whose data it must see (R52, R259). -/
def loadBarrier (i : Instr) : Bool := acquiresAny i || storesAt i

/-- A load-class instruction waits for such an instruction of its block. -/
def Frame.loadWaits (fr : Frame) (idx lsid : Nat) : Bool :=
  !(fr.mayFire [idx] (fr.unfired idx fun k => loadBarrier k && lsidBelow lsid k)).isEmpty
/-- The load is, or comes, before a LSID. -/
def loadsUnder (lsid : Nat) (k : Instr) : Bool := (isLoad k && lsidBelow lsid k) || readsFirst k
/-- A load that comes before a LSID may still fire, and does not depend on `idx`: a FENCE or VJOIN at `idx` waits for it. -/
def Frame.loadsBelow (fr : Frame) (idx lsid : Nat) : Bool := !(fr.mayFire [idx] (fr.unfired idx (loadsUnder lsid))).isEmpty
/-- A load that comes before a LSID may still fire: what it returns must not be newer (R118). -/
def Frame.loadsLeft (fr : Frame) (idx lsid : Nat) : Bool := !(fr.mayFire [] (fr.unfired idx (loadsUnder lsid))).isEmpty

/-- Instructions whose slots let them fire and which do not wait (R48). -/
def readyList (fr : Frame) : List (Nat × Instr) :=
  (List.range fr.words.length).filterMap fun idx =>
    if fr.fired.getLsbD idx || fr.waiting.getLsbD idx then none
    else
      match decode (fr.words.getD idx 0) with
      | .ok i => if slotsReady fr idx i then some (idx, i) else none
      | .error _ => none

/-- Instructions that wait for something outside the block: all but loads whose replies have come or that have asked for none. -/
def Frame.waitsOutside (fr : Frame) : List Nat :=
  (List.range fr.words.length).filter fun j =>
    fr.waiting.getLsbD j &&
    ((match fr.instr j with | some k => !isLoad k | none => true) || fr.remotes.any fun r => r.idx == j && r.answer.isNone)

/-- A load that waits goes ahead of stores of lower LSID that are not known yet, where nothing else of the block can fire: they depend on other
loads that wait, or, once there is a fault, on waits that the discard abandons (R52, R60, log 15). What it saw is looked at again. -/
def Frame.goesEarly (fr : Frame) (idx lsid : Nat) : Bool :=
  fr.waiting.getLsbD idx && (readyList fr).isEmpty
  && (fr.mayFire [idx] (fr.unfired idx fun k => acquiresAny k && lsidBelow lsid k)).isEmpty
  && (!fr.faults.isEmpty ||
      (let held := fr.dependents fr.waitsOutside
       (fr.unfired idx fun k => storesAt k && lsidBelow lsid k).all fun j => !held.contains j))

/-- A FENCE of the block orders one of its stores before a load at a LSID (R121). -/
def Frame.fenced (fr : Frame) (lsid : Nat) : Bool :=
  fr.effs.any fun (_, e) =>
    match e with
    | .fence l k sc =>
      sc != .task && (k == .wr || k == .all) && decide (l < lsid)
      && (List.range fr.words.length).any fun j => match fr.instr j with | some i => storesAt i && lsidBelow l i | none => false
    | _ => false

/-- A VJOIN that has fired lies between a store of the own block, or of an earlier one, and a LSID. -/
def joined (fr : Frame) (lo : Option Nat) (hi : Nat) : Bool :=
  fr.effs.any fun (_, e) => match e with | .vjoin l => decide (l < hi) && (match lo with | some x => decide (x < l) | none => true) | _ => false

/-- LSID of a pending local store, MSTA or bank operation. -/
def storeLsid : Effect → Option Nat
  | .store l _ _ _ => some l
  | .bank l _ _ _ _ _ _ => some l
  | _ => none

/-- Inserts after every entry of the same or a lower key. -/
def insertKey {α : Type} (k : Nat) (x : α) : List (Nat × α) → List (Nat × α)
  | [] => [(k, x)]
  | (k', x') :: l => if k < k' then (k, x) :: (k', x') :: l else (k', x') :: insertKey k x l

/-- A pending effect whose page has begun to move since it fired: its bytes are where the copied lines are (R386). -/
def Effect.rebase (migs : List Mig) (e : Effect) : Effect :=
  if migs.isEmpty then e
  else
    match e with
    | .store l v ws vas => .store l v (ws.map fun b => { b with key := migKey migs b.key }) vas
    | .bank l op w64 sg key x va => .bank l op w64 sg (migKey migs key) x va
    | .atomic l (.here key) op w64 sc x v va => .atomic l (.here (migKey migs key)) op w64 sc x v va
    | e => e

/-- The pending local stores before an access, in order, with the instructions that they are of: those of the blocks before a speculative one,
then those of lower LSID. -/
def pendingBelow (fr : Frame) (lsid : Nat) : List (Option Nat × Nat × Effect) :=
  (fr.prior.map fun x => (none, x)) ++
  (fr.effs.foldl (fun acc x =>
    match storeLsid x.2 with
    | some l => if l < lsid then insertKey l x acc else acc
    | none => acc) ([] : List (Nat × Nat × Effect))).map fun x => (some x.1, x.2)

/-- A pending store applied to memory as its performance will. -/
def applyPending (m : Memory) : Effect → Memory
  | .store _ _ ws _ | .sigStore ws => ws.foldl mmerge m
  | .bank _ op w64 signed key operand _ =>
    let n := if w64 then 8 else 4
    mwrite m key (bytesOf n (bankNew op w64 signed (ofBytes (mread m key n)) operand.toNat))
  | _ => m

/-- Keys that a pending store touches, and its view. -/
def touches (key : Nat) : Effect → Option View
  | .store _ v ws _ => if ws.any fun b => b.key == key then some v else none
  | .sigStore ws => if ws.any fun b => b.key == key then some .linear else none
  | .bank _ _ w64 _ k _ _ => if k ≤ key ∧ key < k + (if w64 then 8 else 4) then some .other else none
  | _ => none

/-- The view that a pending store goes through. -/
def viewOf : Effect → View
  | .store _ v _ _ => v
  | .sigStore _ => .linear
  | _ => .other

/-- The bytes of one piece of a local store (R100). -/
def pieceLen (ws : List ByteW) (vas : List Nat) : Nat := ws.length / vas.length

/-- The pieces of a pending store, each single-copy atomic (R100). -/
def storeParts : Effect → List (List ByteW)
  | .store _ _ ws vas => let n := pieceLen ws vas; (List.range vas.length).map fun j => (ws.drop (j * n)).take n
  | _ => []

/-- Views that are ordered with each other: the same one, or both outside R124. -/
def viewsOrdered (a b : View) : Bool := a == b || a == .other || b == .other

/-- The stores through another view that a piece at some bytes may not show (R124): for each one a free choice; what it shows it will
always show (R118). -/
def State.viewPick (s : State) (view : View) (keys : List Nat) : State × List Nat :=
  let sids := ((s.core.view.filter fun v => keys.contains v.key && !viewsOrdered v.view view).map ViewByte.sid).eraseDups
  sids.foldl (fun (s, l) sid =>
    let (old, s) := s.drawBit
    if old then (s, sid :: l) else ({ s with core := { s.core with view := s.core.view.filter fun v => v.sid != sid } }, l)) (s, [])

/-- What stands at a byte without the stores of some ids, the newest first. -/
def hideStores (key : Nat) (hide : List Nat) : List ViewByte → Byte → Byte
  | [], cur => cur
  | v :: l, cur =>
    if v.key = key then (if hide.contains v.sid then hideStores key hide l v.old else cur) else hideStores key hide l cur

/-- A pending store is ordered with a load at a LSID: through the same view, or with a view-join between them (R120, R124). -/
def ordered (fr : Frame) (view : View) (lsid : Nat) (x : Option Nat × Nat × Effect) : Bool :=
  viewsOrdered (viewOf x.2.2) view || joined fr x.1 lsid

/-- The pieces of pending stores through another view that touch some bytes: instruction, place, bytes (R124). -/
def looseBelow (fr : Frame) (view : View) (lsid : Nat) (pend : List (Option Nat × Nat × Effect)) (key n : Nat) :
    List ((Nat × Nat) × List ByteW) :=
  (pend.filter fun x => !ordered fr view lsid x).flatMap fun (_, idx, e) =>
    ((storeParts e).zipIdx).filterMap fun (ws, j) =>
      if ws.any fun b => decide (key ≤ b.key ∧ b.key < key + n) then some ((idx, j), ws) else none

/-- Whether a load at a place shows such a piece: as a load of the same view has found that must agree with it, else by a free choice (R118). -/
def State.pickOne (s : State) (pos : Nat) (view : View) (x : Nat × Nat) : State × Bool :=
  let same : List Shown := match s.core.frame with
    | some fr => fr.picks.filter fun p => p.view == view && p.idx == x.1 && p.piece == x.2
    | none => []
  let (s, yes) : State × Bool :=
    if same.any fun p => p.yes && decide (p.pos ≤ pos) then (s, true)
    else if same.any fun p => !p.yes && decide (pos ≤ p.pos) then (s, false)
    else let (b, s) := s.drawBit; (s, b)
  (s.onFrame fun f => { f with picks := { pos := pos, view := view, idx := x.1, piece := x.2, yes := yes } :: f.picks }, yes)

/-- The bytes at a place under the pending stores before it (R52): those that are ordered with it, then the pieces of others that it shows. -/
def under (m : Memory) (fr : Frame) (view : View) (lsid : Nat) (pend : List (Option Nat × Nat × Effect)) (shown : List (List ByteW))
    (key : Nat) (base : List Byte) : List Byte :=
  if pend.isEmpty then base
  else
    let m := pend.foldl (fun m x => if ordered fr view lsid x then applyPending m x.2.2 else m) (mwrite m key base)
    mread (shown.foldl (fun m ws => ws.foldl mmerge m) m) key base.length

/-- The bytes of the line of 128 that holds a byte. -/
def State.lineData (s : State) (key : Nat) : BitVec 1024 := BitVec.ofNat 1024 (s.readNat (key / 128 * 128) 128)

/-- The line that serves a load, filled at a miss: one of the HBM4E pages of this package, not older than R119 allows (R107). A fill reads the
whole line (R383, R424). -/
def State.lineFor (s : State) (gl : Bool) (key : Nat) : State × Option L1Line :=
  if gl && (hbmDie key).isSome then
    match s.core.l1.find? fun l => l.line == key / 128 && decide (s.cycle < l.fill + Config.l1Life) with
    | some l => (s, some l)
    | none =>
      let l : L1Line := { line := key / 128, data := s.lineData key, fill := s.cycle }
      let rest := s.core.l1.filter fun x => x.line != key / 128
      let s := s.noted (key / 128 * 128) 128 s.core.space (coreOnDie s.core.id)
      ({ s with core := { s.core with l1 := (l :: rest).take Config.l1Lines } }, some l)
  else (s, none)

/-- The line as the nearest later load through an ordered view showed it, if one has fired already (R118). -/
def snapFor (pos : Nat) (view : View) (line : Nat) (l : List Snap) : Option Snap :=
  l.foldl (fun best x =>
    if x.line = line ∧ pos < x.pos ∧ viewsOrdered x.view view = true then
      (match best with | some b => if x.pos < b.pos then some x else best | none => some x)
    else best) none

/-- What a load found at a piece: what the home or the line gave, that without the stores that it does not show, and what it returns. -/
structure Seen where
  raw : List Byte
  base : List Byte
  got : List Byte

/-- One local piece of a load at a LSID, none for SIGMOV.sl, which stands before all of them. While a load before this one may still fire, the
line that this one shows is kept for it. -/
def State.loadPiece (s : State) (gl : Bool) (view : View) (fr : Frame) (lsid : Option Nat) (pend : List (Option Nat × Nat × Effect))
    (key n : Nat) : State × Seen :=
  let pos := match lsid with | some l => l + 1 | none => 0
  let l := lsid.getD 0
  let keys := (List.range n).map (key + ·)
  let (s, line) := s.lineFor gl key
  let s := if line.isSome then s else s.corrected key n
  let snap := snapFor pos view (key / 128) fr.snaps
  let rawAt (k : Nat) : Byte := match snap, line with
    | some x, _ => (x.data >>> (8 * (k % 128))).setWidth 8
    | none, some x => (x.data >>> (8 * (k % 128))).setWidth 8
    | none, none => cget (w := 8) s.mem k
  let joinedNow := fr.effs.any fun (_, e) => match e with | .vjoin x => decide (x < l) | _ => false
  let (s, hide) : State × List Nat := if joinedNow || s.core.view.isEmpty then (s, []) else s.viewPick view keys
  let hide := hide ++ (match snap with | some x => x.hide | none => [])
  let showAt (k : Nat) : Byte := hideStores k hide s.core.view (rawAt k)
  let s : State :=
    if lsid.isSome && fr.loadsLeft fr.cur l then
      let all := ofBytes ((List.range 128).map fun i => showAt (key / 128 * 128 + i))
      s.onFrame fun f =>
        { f with snaps := { pos := pos, view := view, line := key / 128, data := BitVec.ofNat 1024 all, hide := hide } :: f.snaps }
    else s
  let base := keys.map showAt
  let loose := looseBelow fr view l pend key n
  let (s, shown) := loose.foldl (fun (s, a) x => let (s, yes) := s.pickOne pos view x.1; (s, if yes then a ++ [x.2] else a)) (s, [])
  (s, { raw := keys.map rawAt, base := base, got := under s.mem fr view l pend shown key base })

/-! ## Loads -/

/-- What an access gives. -/
inductive Got where
  | bytes (l : List (List Byte))
  /-- replies of other endpoints are outstanding (R109) -/
  | wait
  | err (e : XErr)

/-- Endpoint of the current core's partition. -/
def State.myEndp (s : State) (id : Nat) : BitVec 9 := (s.part (s.partOfCore id)).endp

/-- Sends the request of a remote piece once, and records that it waits. -/
def State.askRemote (s : State) (idx piece : Nat) (endp : BitVec 9) (addr size : Nat) (op : ReqOp) (data : List Byte)
    (rel : Bool) : State :=
  let tag := s.tagNext
  let s := s.send (s.myEndp s.core.id) endp (addr / 2 ^ 37 % 4) s.core.space rel (fsrSvr s.core.r) s.core.id
    (.memReq op (BitVec.ofNat 40 addr) size data)
  s.onFrame fun fr => { fr with remotes := fr.remotes ++ [{ idx := idx, piece := piece, dst := endp, tag := tag, answer := none }] }

/-- A store of the task to bytes at another endpoint is on its way: a load of them waits until it is performed (R52, R118). -/
def State.ownStoreOut (s : State) (endp : BitVec 9) (addr n : Nat) : Bool :=
  s.port.unacked.any fun o => o.core == s.core.id && o.tk.isNone && o.dst == endp &&
    (match writesAt o.pkt.body with | some (x, m) => decide (x < addr + n ∧ addr < x + m) | none => false)

/-- Bytes of a remote piece under the pending remote stores of lower LSID of the own block (R52). -/
def overlayRemote (fr : Frame) (lsid : Nat) (endp : BitVec 9) (addr : Nat) (bs : List Byte) : List Byte :=
  let pend : List (Nat × Effect) := fr.effs.foldl (fun acc (_, e) =>
    match e with | .remote l e' _ _ => if l < lsid ∧ e' = endp then insertKey l e acc else acc | _ => acc) []
  (bs.zipIdx).map fun (b, i) =>
    pend.foldl (fun b (_, e) =>
      match e with
      | .remote _ _ _ pieces => pieces.foldl (fun b (a, l) =>
          if a ≤ addr + i then
            (match l[addr + i - a]? with | some (v, m) => (v &&& m) ||| (b &&& ~~~m) | none => b)
          else b) b
      | _ => b) b

/-- The answer to a remote piece, if it has been asked. -/
def Frame.remoteOf (fr : Frame) (idx piece : Nat) : Option Remote :=
  fr.remotes.find? fun r => r.idx == idx && r.piece == piece

/-- A piece of an access with its place, and where it leads. -/
abbrev Placed := (Piece × Nat) × (Phys × View)

/-- The first piece of the access that leads to the same bytes: lanes that read the same bytes read them once (R222). -/
def firstAt (all : List Placed) (x : Placed) : Nat :=
  match all.find? fun y => y.1.1.size == x.1.1.size && y.2.1 == x.2.1 with
  | some y => y.1.2
  | none => x.1.2

/-- Asks for every remote piece not yet asked for, but for bytes that a store of the task has still to write. -/
def askAll (idx : Nat) (all : List Placed) : List Placed → State → State
  | [], s => s
  | ((p, n), (.remote endp addr, v)) :: l, s =>
    let asked := match s.core.frame with | some fr => (fr.remoteOf idx n).isSome | none => true
    let again := firstAt all ((p, n), (.remote endp addr, v)) != n
    askAll idx all l (if asked || again || s.ownStoreOut endp addr p.size then s else s.askRemote idx n endp addr p.size .load [] false)
  | _ :: l, s => askAll idx all l s

/-- The reply to a piece: none for a local one; none inside while it is outstanding. -/
def State.replyTo (s : State) (idx : Nat) (all : List Placed) (x : Placed) : Option (Option (BitVec 8 × List Byte)) :=
  match x.2.1 with
  | .remote _ _ => some ((s.core.frame.bind fun fr => fr.remoteOf idx (firstAt all x)).bind fun r => r.answer)
  | _ => none

/-- What a piece cannot be read for: an uncorrectable granule, or what its home answered (R383). -/
def State.readErr (s : State) (x : Placed) (a : Option (Option (BitVec 8 × List Byte))) : Except XErr Unit :=
  let va := BitVec.ofNat 64 x.1.1.addr
  match x.2.1, a with
  | .here key, _ => if s.bad key x.1.1.size then .error { cause := cUncorr, addr := va } else .ok ()
  | _, some (some (cause, _)) => if cause = 0 then .ok () else .error { cause := cause, addr := va, rem := true }
  | _, _ => .ok ()

/-- An early load of a block that fires again for its sake may take any bytes (log 15). -/
def State.guessed (s : State) (guess : Bool) (bs : List Byte) : State × List Byte :=
  if guess then
    let (b, s) := s.drawBit
    if b then let (l, s) := s.drawBytes bs.length; (s, l) else (s, bs)
  else (s, bs)

/-- Reads one piece, and keeps what it saw where that is looked at again. -/
def State.readOne (s : State) (spc : Space) (fr : Frame) (lsid : Nat) (early : Bool) (pend : List (Option Nat × Nat × Effect))
    (x : Placed) (a : Option (Option (BitVec 8 × List Byte))) : State × List Byte :=
  let p := x.1.1
  let (s, view, far, key, f) : State × View × Option (BitVec 9) × Nat × Seen :=
    match x.2.1, a with
    | .here key, _ => let (s, f) := s.loadPiece (spc == .gl) x.2.2 fr (some lsid) pend key p.size; (s, x.2.2, none, key, f)
    | .remote endp addr, some (some (_, data)) =>
      let bs := (data ++ List.replicate p.size 0).take p.size
      (s, .other, some endp, addr, { raw := bs, base := bs, got := overlayRemote fr lsid endp addr bs })
    | _, _ => let bs := List.replicate p.size 0; (s, .other, none, 0, { raw := bs, base := bs, got := bs })
  let (s, got) := s.guessed (early && fr.guess) f.got
  let fenced := far.isNone && fr.fenced lsid
  let s := if early || fenced then
      s.onFrame fun r => { r with watch :=
        { pos := lsid + 1, view := view, early := early, fenced := fenced, far := far, key := key, raw := f.raw, base := f.base, got := got } :: r.watch }
    else s
  (s, got)

/-- The load-class read of an instruction of the current core, from pages that the same access may have translated already: every piece is
checked before any is read (R98, R218; an address before check bits: log 10); an address that fails faults at once, and otherwise the load waits
for what it must come after. -/
def State.readPlaced (s : State) (lsid : Nat) (spc : Space) (acq : Bool) (ps : List Piece) (rs : List (Except XErr (Phys × View))) :
    State × Got :=
  match lowestErr rs with
  | some e => (s, .err e)
  | none =>
    let oks := rs.filterMap fun r => match r with | .ok x => some x | .error _ => none
    let all : List Placed := (ps.zipIdx).zip oks
    match s.core.frame with
    | none => (s, .wait)
    | some fr =>
      let idx := fr.cur
      let far := all.any fun (_, ph, _) => match ph with | .remote _ _ => true | _ => false
      let late := fr.loadWaits idx lsid
      let early := late && fr.goesEarly idx lsid
      let pend := (pendingBelow fr lsid).map fun x => (x.1, x.2.1, x.2.2.rebase s.migs)
      let ahead := !fr.prior.isEmpty && all.any fun ((p, _), ph, view) =>
        match ph with | .here key => !(looseBelow fr view lsid (pend.filter fun x => x.1.isNone) key p.size).isEmpty | _ => false
      if !ps.isEmpty && !early && (late || ahead || (far && fr.loadsBelow idx lsid)) then (s, .wait)
      else
      let s := askAll idx all all s
      let answers := all.map (s.replyTo idx all)
      if answers.any fun a => match a with | some none => true | _ => false then (s, .wait)
      else
        match lowestErr ((all.zip answers).map fun (x, a) => s.readErr x a) with
        | some e => (s, .err e)
        | none =>
          let s := if acq then s.dropL1 else s
          let (s, l) := (all.zip answers).foldl (fun (s, l) (x, a) =>
            let (s, bs) := s.readOne spc fr lsid early pend x a; (s, l ++ [bs])) (s, [])
          (s, .bytes l)

/-- The read of an access on its own. -/
def State.readPieces (s : State) (lsid : Nat) (spc : Space) (acq : Bool) (ps : List Piece) : State × Got :=
  let (s, rs) := resolveAll s.core spc .load false ps s
  s.readPlaced lsid spc acq ps rs

/-! ### What a load saw, looked at again (R52, R121, log 15, log 49) -/

/-- What the load returned is what the stores of lower LSID, now all known, make of what it read; and, behind a FENCE, what the home still
holds. -/
def State.watchOk (s : State) (fr : Frame) (w : Watch) : Bool :=
  let lsid := w.pos - 1
  let pend := (pendingBelow fr lsid).map fun x => (x.1, x.2.1, x.2.2.rebase s.migs)
  let shown := (looseBelow fr w.view lsid pend w.key w.base.length).filterMap fun ((i, j), ws) =>
    if fr.picks.any fun p => p.pos == w.pos && p.view == w.view && p.idx == i && p.piece == j && p.yes then some ws else none
  (!w.early ||
    (match w.far with
     | some endp => overlayRemote fr lsid endp w.key w.base == w.got
     | none => under s.mem fr w.view lsid pend shown w.key w.base == w.got))
  && (!w.fenced || mread s.mem w.key w.raw.length == w.raw)

/-- Everything that is looked at again holds. -/
def State.watched (s : State) (fr : Frame) : Bool := fr.watch.all (s.watchOk fr)

/-- The block fires again, because something that it saw does not hold. -/
def State.fireAgain (s : State) : State :=
  s.onFrame fun f => { f.replay with guess := f.guess || f.watch.any Watch.early, units := f.units }

/-! ## Stores -/

/-- The pending effects of a store-class access: bytes of this package by view, packets for other endpoints, doorbells (R58, R135,
R413). A local effect names the address of each of its pieces, which are equally long (R100). -/
def storeEffects (lsid : Nat) (rel : Bool) (l : List ((Piece × List (Byte × Byte)) × (Phys × View))) : List Effect :=
  let eff (v : View) : List Effect :=
    let mine := l.filter fun (_, ph, v') => v' == v && (match ph with | .here _ => true | _ => false)
    let ws : List ByteW := mine.flatMap fun ((_, bs), ph, _) =>
      match ph with
      | .here key => (bs.zipIdx).map fun ((x, m), i) => { key := key + i, val := x, mask := m }
      | _ => []
    if mine.isEmpty then [] else [.store lsid v ws (mine.map fun ((p, _), _) => p.addr)]
  let far : List Effect := l.filterMap fun ((_, bs), ph, _) =>
    match ph with
    | .remote endp addr => some (.remote lsid endp rel [(addr, bs)])
    | .door endp number => some (.door lsid endp rel number (BitVec.ofNat 32 (ofBytes (bs.map Prod.fst))))
    | .here _ => none
  eff .other ++ eff .linear ++ eff .swizzled ++ far

/-- A piece of a store, the bytes with the bits that it writes, and where it leads. -/
abbrev Put := (Piece × List (Byte × Byte)) × (Phys × View)

/-- A later piece writes every bit of this one. -/
def Put.over (y x : Put) : Bool :=
  y.2.1 == x.2.1 && y.1.2.length == x.1.2.length && (x.1.2.zip y.1.2).all fun (a, b) => a.2 &&& ~~~b.2 == 0

/-- Of lanes that write the same bytes the highest stays, before anything is performed (R222). -/
def mergePuts : List Put → List Put
  | [] => []
  | x :: l => if l.any fun y => y.over x then mergePuts l else x :: mergePuts l

/-- What is left for the commit of pieces that have been resolved. -/
def putPlaced (lsid : Nat) (rel : Bool) (ps : List (Piece × List (Byte × Byte))) (rs : List (Except XErr (Phys × View))) : List Effect :=
  let oks := rs.filterMap fun r => match r with | .ok x => some x | .error _ => none
  storeEffects lsid rel (mergePuts (ps.zip oks))

/-- The store-class write of an instruction of the current core: checked now, performed at the commit (R58, R218). Each piece
carries its bytes with a mask of the bits written. -/
def State.storePieces (s : State) (lsid : Nat) (spc : Space) (rel st32 : Bool) (ps : List (Piece × List (Byte × Byte))) :
    State × Except XErr (List Effect) :=
  let (s, rs) := resolveAll s.core spc .store st32 (ps.map Prod.fst) s
  match lowestErr rs with
  | some e => (s, .error e)
  | none => (s, .ok (putPlaced lsid rel ps rs))

/-- A tensor store whose codes depend on the scale bytes of its elements (R67, R223, R259): one access, of which each page is translated once
(R377) and the lowest byte that fails is the fault (R98); none where it has to wait. -/
def State.scaledStore {α : Type} (s : State) (lsid : Nat) (spc : Space) (rel : Bool) (scales elems : List Piece)
    (k : List (List Byte) → List (Piece × List (Byte × Byte)) × α) : State × Except (Option XErr) (List Effect × α) :=
  let (s, memo, ls) := resolveOnce s.core spc .load false scales [] s
  let (s, _, rs) := resolveOnce s.core spc .store false elems memo s
  match lowestErr (ls ++ rs) with
  | some e => (s, .error (some e))
  | none =>
    match s.readPlaced lsid spc false scales ls with
    | (s, .err e) => (s, .error (some e))
    | (s, .wait) => (s, .error none)
    | (s, .bytes l) => let (ps, a) := k l; (s, .ok (putPlaced lsid rel ps rs, a))

/-- A load of lower LSID than a fence or view-join of the frame may still fire. -/
def State.loadsWait (s : State) (lsid : Nat) : Bool :=
  match s.core.frame with
  | some fr => fr.loadsBelow fr.cur lsid
  | none => false

/-- Bytes written whole. -/
def wholeBytes (n x : Nat) : List (Byte × Byte) := (bytesOf n x).map fun b => (b, 0xFF)

end Sys2Proof.Machine
end

