-- ==== Sys2Proof/Machine/Channels.lean ====
section
/-!
DEFINITION. Sys2Proof/Machine/Channels.lean: channels, barriers and counters as state (R38, R39, R69, R70, R229, R242 to R244, R398).
-/
namespace Sys2Proof.Machine

/-! ## Counters and armed commands (R39, R70, R235) -/

/-- A count has met a threshold: their difference, read as a signed 32-bit number, is 0 or more (R39). -/
def met (count th : BitVec 32) : Bool := !(count - th).msb

/-- Entries whose threshold is met leave the table, in order, and fire (R235). -/
def Eng.fireMet (e : Eng) (k : BitVec 5) (count : BitVec 32) : Eng :=
  let go (a : Armed) : Bool := a.k == k && met count a.th
  { e with armed := e.armed.filter fun a => !go a, fired := e.fired ++ e.armed.filter go }

/-- One event of a counter (R39): the count becomes `v`, and armed commands are tested. -/
def Core.setCounter (c : Core) (k : BitVec 5) (v : BitVec 32) : Core :=
  { c with r := { c.r with k := cput c.r.k k.toNat v }, e := c.e.fireMet k v }

def Core.addCounter (c : Core) (k : BitVec 5) (v : BitVec 32) : Core := c.setCounter k (cget c.r.k k.toNat + v)

/-- Removes armed commands on a counter, or all; their tickets complete CANCELLED (R31, R232, R235). -/
def Core.cancelArmed (c : Core) (k : Option (BitVec 5)) : Core :=
  let gone := c.e.armed.filter fun a => match k with | some k => a.k == k | none => true
  let keep := c.e.armed.filter fun a => match k with | some k => a.k != k | none => false
  { c with e := gone.foldl (fun e a => e.setStatus a.cmd.tk (statusWord stCancelled 0 0 0)) { c.e with armed := keep } }

/-- The effect of a CTR at commit (R232). -/
def Core.ctrApply (c : Core) (op : CtrOp) (k : BitVec 5) (v : BitVec 32) : Core :=
  match op with
  | .inc => c.addCounter k 1
  | .add => c.addCounter k v
  | .set => c.setCounter k v
  | .reset => { c.cancelArmed (some k) with r := { c.r with k := cput c.r.k k.toNat 0 } }
  | .resetKeep => c.setCounter k 0

/-! ## Barriers (R229, R398) -/

/-- Barriers 448 to 511 are domain barriers. -/
def isDomainBar (b : BitVec 9) : Bool := decide (448 ≤ b.toNat)

/-- Barrier b of the gang whose rank 0 is core `c0`. -/
def barOf (c0 : Core) (b : BitVec 9) : Bar := (lookup b.toNat c0.bars).getD { count := c0.gsize, arrivals := 0, phase := 0 }

def setBar (c0 : Core) (b : BitVec 9) (x : Bar) : Core := { c0 with bars := assign b.toNat x c0.bars }

/-- BARRIER_PHASE_COMPLETE (R229). -/
def Bar.settle (b : Bar) : Bar := if b.count ≤ b.arrivals then { b with arrivals := 0, phase := b.phase + 1 } else b

/-- The domain barrier that is configured for a task, and the task's number among its members. -/
def State.domainBar (s : State) (c : Core) (b : BitVec 9) : Option (DBar × Nat) :=
  match c.task with
  | none => none
  | some t =>
    s.dbars.findSome? fun d =>
      if d.bar = b then
        (d.members.findIdx? fun (e, sp_, q, w) => e == (s.part t.part).endp && sp_ == t.space && q == t.queue && w == t.wid).map
          fun i => (d, i)
      else none

/-- The current phase of a barrier as the task's core sees it. -/
def State.phaseOf (s : State) (c : Core) (b : BitVec 9) : BitVec 32 :=
  if isDomainBar b then (match s.domainBar c b with | some (d, _) => d.phase | none => 0)
  else (barOf (s.coreAt (c.member 0)) b).phase

/-- An arrival of the task on core `id` (R230, R398): the task records the current phase; a domain arrival travels to the home. -/
def State.arrive (s : State) (id : Nat) (b : BitVec 9) : State :=
  let c := s.coreAt id
  let s := s.onCore id fun c => { c with barRec := assign b.toNat (s.phaseOf c b) c.barRec }
  if isDomainBar b then
    match s.domainBar c b with
    | some (d, n) => s.send (s.myEndp id) d.home 0 c.space true (fsrSvr c.r) id (.arrival b n)
    | none => s
  else
    s.onCore (c.member 0) fun c0 =>
      let x := barOf c0 b
      setBar c0 b ({ x with arrivals := x.arrivals + 1 }.settle)

/-- The phase that the task last recorded has completed, or it recorded none. -/
def State.barDone (s : State) (c : Core) (b : BitVec 9) : Bool :=
  match lookup b.toNat c.barRec with
  | none => true
  | some ph => s.phaseOf c b != ph

/-! ## Channels (R38, R69) -/

def chanOf (c : Core) (h : BitVec 4) : Option Chan := lookup h.toNat c.r.ch
def setChan (c : Core) (h : BitVec 4) (x : Option Chan) : Core :=
  { c with r := { c.r with ch := match x with | some x => assign h.toNat x c.r.ch | none => unassign h.toNat c.r.ch } }

def Chan.filled (x : Chan) : Nat := (x.p - x.c).toNat
def Chan.free (x : Chan) : Nat := x.slots.toNat - x.filled
/-- The byte offset of the slot that the next advance of a role takes. -/
def Chan.slotOff (x : Chan) (prod : Bool) : Nat :=
  x.base.toNat + (if prod then x.p.toNat else x.c.toNat) % x.slots.toNat * (x.size.toNat * 64)
def Chan.role (x : Chan) (prod : Bool) : BitVec 2 := if prod then x.pb else x.cb
def Chan.setRole (x : Chan) (prod : Bool) (v : BitVec 2) : Chan := if prod then { x with pb := v } else { x with cb := v }

/-- The owner's core and handle of a handle, and the owner's channel state. -/
def State.ownerOf (s : State) (c : Core) (h : BitVec 4) : Option (Nat × BitVec 4 × Chan) :=
  match chanOf c h with
  | none => none
  | some x =>
    if x.own then some (c.id, h, x)
    else
      let o := c.member x.orank.toNat
      match chanOf (s.coreAt o) x.och with
      | some y => if y.own then some (o, x.och, y) else none
      | none => none

/-- The task holds a role on a handle: the owner's own role, or a member's; a copy engine's role is not the task's (R243). -/
def State.holdsRole (s : State) (c : Core) (h : BitVec 4) (prod : Bool) : Option (Nat × BitVec 4 × Chan) :=
  match chanOf c h, s.ownerOf c h with
  | some x, some (o, oh, y) =>
    if x.own then (if y.role prod = 1 then some (o, oh, y) else none)
    else if x.role prod = 2 ∧ y.role prod = 2 then some (o, oh, y) else none
  | _, _ => none

/-- A role is claimed by a CHBIND that has fired in some frame of the gang (R242). -/
def State.claimed (s : State) (owner : Nat) (oh : BitVec 4) (prod : Bool) : Bool :=
  s.allCores.any fun c =>
    match c.frame with
    | none => false
    | some fr => fr.effs.any fun (_, e) =>
      match e with
      | .chbind .own _ _ _ => false
      | .chbind f _ a b =>
        (f == .prod) == prod && c.member (field a 5 0) == owner && BitVec.ofNat 4 (field b 3 0) == oh
      | _ => false

/-- The copy engine is claimed for a role by a CHBIND of the owner that has fired in its frame (R242). -/
def State.claimedEngine (s : State) (owner : Nat) (oh : BitVec 4) (prod : Bool) : Bool :=
  match (s.coreAt owner).frame with
  | none => false
  | some fr => fr.effs.any fun (_, e) =>
    match e with
    | .chbind .own _ _ _ => false
    | .chbind f h _ b => (f == .prod) == prod && h == oh && bitAt b 8
    | _ => false

/-- The checks of a CHBIND when it fires (R242). -/
def State.chbindCheck (s : State) (c : Core) (f : BindForm) (h : BitVec 4) (a b : Word) : Option (BitVec 8) :=
  match f with
  | .own =>
    if b = 0 then none
    else
      let base := field a 19 0
      let slots := field b 15 0
      let size := field b 27 16
      if field a 63 20 ≠ 0 ∨ base % 64 ≠ 0 ∨ field b 63 28 ≠ 0 then some cChannel
      else if slots = 0 ∨ size = 0 then some cChannel
      else if c.footprint < base + 64 * size * slots then some cChannel
      else if (chanOf c h).isSome then some cChannel
      else none
  | f =>
    let prod := f == .prod
    let rank := field a 5 0
    let oh : BitVec 4 := BitVec.ofNat 4 (field b 3 0)
    let eng := bitAt b 8
    if field a 63 6 ≠ 0 ∨ field b 63 9 ≠ 0 ∨ field b 7 4 ≠ 0 then some cChannel
    else if c.gsize ≤ rank then some cIllegal
    else
      let own := decide (rank = c.rank)
      let owner := c.member rank
      if own && oh != h then some cChannel
      else if eng && !own then some cChannel
      else
        match chanOf (s.coreAt owner) oh with
        | none => some cChannel
        | some y =>
          if !y.own then some cChannel
          else if y.role prod ≠ 0 ∨ s.claimed owner oh prod then some cChannel
          else if eng && (y.role (!prod) == 3 || s.claimedEngine owner oh (!prod)) then some cChannel
          else if own then none
          else
            match chanOf c h with
            | none => none
            | some x => if !x.own && x.orank.toNat == rank && x.och == oh then none else some cChannel

/-- A blank member handle. -/
def memberChan (rank : Nat) (oh : BitVec 4) : Chan :=
  { own := false, pb := 0, cb := 0, orank := BitVec.ofNat 6 rank, och := oh, base := 0, size := 0, slots := 0, p := 0, c := 0 }

/-- The effect of a CHBIND at commit (R242). -/
def State.chbindApply (s : State) (id : Nat) (f : BindForm) (h : BitVec 4) (a b : Word) : State :=
  let c := s.coreAt id
  match f with
  | .own =>
    if b = 0 then
      match chanOf c h with
      | none => s
      | some x =>
        if x.own then
          let s := s.onCore id fun c => setChan c h none
          -- the members' handles lose their roles
          match c.task with
          | none => s
          | some t => t.cores.foldl (fun s m =>
              s.onCore m fun c => { c with r := { c.r with ch := c.r.ch.map fun (n, y) =>
                if !y.own && y.orank.toNat == t.rank && y.och == h && m != id then (n, { y with pb := 0, cb := 0 }) else (n, y) } }) s
        else
          let o := c.member x.orank.toNat
          let s := s.onCore o fun oc =>
            match chanOf oc x.och with
            | some y =>
              let y := if x.pb = 2 ∧ y.pb = 2 then { y with pb := 0 } else y
              let y := if x.cb = 2 ∧ y.cb = 2 then { y with cb := 0 } else y
              setChan oc x.och (some y)
            | none => oc
          s.onCore id fun c => setChan c h none
    else
      s.onCore id fun c => setChan c h (some
        { own := true, pb := 0, cb := 0, orank := BitVec.ofNat 6 c.rank, och := h, base := BitVec.ofNat 20 (field a 19 0),
          size := BitVec.ofNat 12 (field b 27 16), slots := BitVec.ofNat 16 (field b 15 0), p := 0, c := 0 })
  | f =>
    let prod := f == .prod
    let rank := field a 5 0
    let oh : BitVec 4 := BitVec.ofNat 4 (field b 3 0)
    let owner := c.member rank
    let code : BitVec 2 := if rank = c.rank then (if bitAt b 8 then 3 else 1) else 2
    let s := s.onCore owner fun oc =>
      match chanOf oc oh with
      | some y => setChan oc oh (some (y.setRole prod code))
      | none => oc
    if rank = c.rank then s
    else s.onCore id fun c =>
      setChan c h (some (((chanOf c h).getD (memberChan rank oh)).setRole prod 2))

/-- An advance of a pointer at the owner (R244). -/
def State.advance (s : State) (owner : Nat) (oh : BitVec 4) (prod : Bool) (n : Nat) : State :=
  s.onCore owner fun c =>
    match chanOf c oh with
    | some y =>
      let d := BitVec.ofNat 32 n
      setChan c oh (some (if prod then { y with p := y.p + d } else { y with c := y.c + d }))
    | none => c

end Sys2Proof.Machine
end

