-- ==== Sys2Proof/Machine/Lanes.lean ====
section
/-!
DEFINITION. Sys2Proof/Machine/Lanes.lean: lanes of a vector token, lane nulls, code images and the fixed summation tree (R64, R92,
R194 to R196, R214).
-/
namespace Sys2Proof.Machine

/-- Lanes of w bits (R194). -/
def laneCount (w : Nat) : Nat := 2048 / w

/-- Lane j as a number. -/
def laneNat (w : Nat) (x : Vec) (j : Nat) : Nat := (x >>> (w * j)).toNat % 2 ^ w

/-- A lane is null when its lowest granule is invalid (R47). -/
def laneOk (w : Nat) (ok : Mask) (j : Nat) : Bool := ok.getLsbD (w / 16 * j)

/-- Numbers of w bits laid from bit 0 upward. -/
def packNat (w : Nat) : List Nat → Nat
  | [] => 0
  | x :: xs => x % 2 ^ w + 2 ^ w * packNat w xs

/-- A mask with the granules of each lane set or cleared together (R64). -/
def packMask (w : Nat) (l : List Bool) : Mask :=
  BitVec.ofNat 128 (packNat (w / 16) (l.map fun b => if b then 2 ^ (w / 16) - 1 else 0))

/-- A vector token from its lanes; an absent lane is a lane null, and its data bits are 0 (log 109). -/
def packLanes (w : Nat) (l : List (Option Nat)) : Tok :=
  .v (BitVec.ofNat 2048 (packNat w (l.map fun x => x.getD 0))) (packMask w (l.map Option.isSome))

/-- A lane result: null, or a code with the flags it raised. -/
abbrev Lane := Option (Nat × Flags)

/-- The vector of lane results, and the flags of the lanes ORed (R196). -/
def ofLanes (w : Nat) (l : List Lane) : Tok × Flags :=
  (packLanes w (l.map fun x => x.map Prod.fst), orAll (l.map fun x => match x with | some (_, fl) => fl | none => 0))

/-- The immediate broadcast to every lane (R195). -/
def immVec (w : Nat) (i : BitVec 13) : Tok :=
  .v (BitVec.ofNat 2048 (packNat w (List.replicate (laneCount w) (imm64 i).toNat))) (BitVec.allOnes 128)

/-- Slot B as a vector, or the immediate. -/
def bVec (w : Nat) (imm : Option (BitVec 13)) (b : Tok) : Tok := match imm with | some i => immVec w i | none => b

/-- Lane j of a token, none when it is a lane null. -/
def laneOf (w : Nat) (t : Tok) (j : Nat) : Option Nat :=
  if laneOk w (tokValid t) j then some (laneNat w (tokVec t) j) else none

/-- Every lane of a token. -/
def lanesOf (w : Nat) (t : Tok) : List (Option Nat) := (List.range (laneCount w)).map (laneOf w t)

/-- Result lanes from input lanes at the same place: null where the mask or an input lane is (R196). -/
def map1 (w : Nat) (lm : Mask) (a : Tok) (f : Nat → Nat × Flags) : Tok × Flags :=
  ofLanes w ((List.range (laneCount w)).map fun j =>
    if laneOk w lm j then (laneOf w a j).map f else none)

def map2 (w : Nat) (lm : Mask) (a b : Tok) (f : Nat → Nat → Nat × Flags) : Tok × Flags :=
  ofLanes w ((List.range (laneCount w)).map fun j =>
    if laneOk w lm j then
      match laneOf w a j, laneOf w b j with
      | some x, some y => some (f x y)
      | _, _ => none
    else none)

def map3 (w : Nat) (lm : Mask) (a b c : Tok) (f : Nat → Nat → Nat → Nat × Flags) : Tok × Flags :=
  ofLanes w ((List.range (laneCount w)).map fun j =>
    if laneOk w lm j then
      match laneOf w a j, laneOf w b j, laneOf w c j with
      | some x, some y, some z => some (f x y z)
      | _, _, _ => none
    else none)

/-- An element of a lane type as a scalar token: sign-extended for .i types, zero-extended otherwise (R207, R210). -/
def laneWord (t : Ty) (x : Nat) : Word :=
  if t.isSigned then sext t.width (BitVec.ofNat 64 x) else zext t.width (BitVec.ofNat 64 x)

/-! ## The fixed tree (R92) -/

/-- One level of the tree. -/
def pairUp (op : Nat → Nat → Nat × Flags) : List Nat → List Nat × Flags
  | a :: b :: l =>
    let (r, f) := op a b
    let (rs, fs) := pairUp op l
    (r :: rs, f ||| fs)
  | l => (l, 0)

/-- The levels of the tree from the lanes up, and the flags of its nodes. -/
def treeLevels (op : Nat → Nat → Nat × Flags) : Nat → List Nat → List (List Nat) × Flags
  | 0, l => ([l], 0)
  | n + 1, l =>
    if l.length ≤ 1 then ([l], 0)
    else
      let (up, f) := pairUp op l
      let (ls, fs) := treeLevels op n up
      (l :: ls, f ||| fs)

/-- TreeSum. -/
def treeSum (op : Nat → Nat → Nat × Flags) (l : List Nat) : Nat × Flags :=
  let (ls, f) := treeLevels op 8 l
  ((ls.getLastD []).headD 0, f)

/-- The prefix over lanes 0..j: the nodes that cover it, from lane 0 upward. -/
def prefixOf (op : Nat → Nat → Nat × Flags) (ls : List (List Nat)) (j : Nat) : Nat × Flags :=
  let sizes := (List.range 8).reverse.filter fun a => (j + 1).testBit a
  let (_, acc, fl) := sizes.foldl (fun (st : Nat × Option Nat × Flags) a =>
    let (pos, acc, fl) := st
    let node := (ls.getD a []).getD (pos / 2 ^ a) 0
    match acc with
    | none => (pos + 2 ^ a, some node, fl)
    | some x => let (r, f) := op x node; (pos + 2 ^ a, some r, fl ||| f)) ((0, none, 0) : Nat × Option Nat × Flags)
  (acc.getD 0, fl)

/-! ## Code images (R214) -/

/-- CI(n, e): the codes of present lanes, with its valid granules. -/
def codeImage (e : Nat) (codes : List (Option Nat)) : Tok :=
  let n := codes.length
  let x := packNat e (codes.map fun c => c.getD 0)
  let ok := (List.range 128).map fun g =>
    (List.range n).any fun j => (codes.getD j none).isSome && decide (e * j < 16 * g + 16 ∧ 16 * g < e * j + e)
  .v (BitVec.ofNat 2048 x) (packMask 16 ok)

/-- Code j of a code image, none when it is absent. -/
def codeAt (e : Nat) (t : Tok) (j : Nat) : Option Nat :=
  if (tokValid t).getLsbD (e * j / 16) then some ((tokVec t >>> (e * j)).toNat % 2 ^ e) else none

end Sys2Proof.Machine
end

