-- ==== Sys2Proof/Machine/Tensor.lean ====
section
/-!
DEFINITION. Sys2Proof/Machine/Tensor.lean: tensor descriptors (R66 to R68, R81): their fields, their check, and where an element and
its scale lie.
-/
namespace Sys2Proof.Machine

/-! ## Fields (R66) -/

def tdV (t : Td) : Bool := bitAt t.w0 63
def tdFmtCode (t : Td) : BitVec 5 := BitVec.ofNat 5 (field t.w0 62 58)
/-- FMT; a code that is no type makes the descriptor malformed. -/
def tdFmt (t : Td) : Ty := (Ty.ofCode (tdFmtCode t)).getD .i8
def tdSpCode (t : Td) : Nat := field t.w0 57 55
def tdSp (t : Td) : Space := match tdSpCode t with | 0 => .gl | 1 => .sp | 2 => .sw | 3 => .nb | _ => .sb
def tdSwz (t : Td) : Bool := bitAt t.w0 54
def tdNd (t : Td) : Nat := field t.w0 53 52
def tdScb (t : Td) : Int := sfield t.w0 51 44
def tdExt0 (t : Td) : Nat := field t.w0 43 24
def tdExt1 (t : Td) : Nat := field t.w0 23 4
def tdBase (t : Td) : Nat := field t.w1 56 0
def tdStr1 (t : Td) : Int := sfield t.w2 63 38
def tdStr2 (t : Td) : Int := sfield t.w2 37 12
def tdExt2 (t : Td) : Nat := field t.w2 11 0
def tdRow0 (t : Td) : Nat := field t.w3 63 44
def tdCol0 (t : Td) : Nat := field t.w3 43 24
def tdSoff (t : Td) : Nat := field t.w3 23 0

/-- Extents with the dimensions a descriptor lacks read as 1. -/
def tdE1 (t : Td) : Nat := if 2 ≤ tdNd t then tdExt1 t else 1
def tdE2 (t : Td) : Nat := if tdNd t = 3 then tdExt2 t else 1

/-- The descriptor is well formed (R68). -/
def tdOk (t : Td) : Bool :=
  let w := (tdFmt t).width
  let nd := tdNd t
  tdV t && (Ty.ofCode (tdFmtCode t)).isSome && decide (tdSpCode t ≤ 4) && nd != 0
  && tdExt0 t != 0
  && (if 2 ≤ nd then tdExt1 t != 0 else tdExt1 t == 0 && tdStr1 t == 0)
  && (if nd = 3 then tdExt2 t != 0 else tdExt2 t == 0 && tdStr2 t == 0)
  && field t.w0 3 0 == 0 && field t.w1 63 57 == 0
  && (tdSoff t == 0 || decide (w ≤ 8))
  && (if w < 8 then decide (tdStr1 t % 32 = 0 ∧ tdStr2 t % 32 = 0) else tdBase t % (w / 8) == 0)

/-! ## Placement (R67, R81) -/

/-- A tensor element lies inside the extents. -/
def inExtents (t : Td) (i0 i1 i2 : Nat) : Bool :=
  decide (i0 < tdExt0 t) && (decide (tdNd t < 2) || decide (i1 < tdExt1 t)) && (tdNd t != 3 || decide (i2 < tdExt2 t))

/-- Bit offset of an element. -/
def bitOff (t : Td) (i0 i1 i2 : Nat) : Int := (tdFmt t).width * ((i0 : Int) + i1 * tdStr1 t + i2 * tdStr2 t)

/-- The row swizzle of a byte address. -/
def swzRow (t : Td) (i1 a : Nat) : Nat :=
  if tdSwz t then a - a / 16 % 8 * 16 + ((a / 16 % 8) ^^^ (i1 % 8)) * 16 else a

/-- Addresses of the bytes an element of w bits touches, and its first bit in the first of them; each byte is swizzled by itself (log 89). -/
def elemBytes (t : Td) (i0 i1 i2 : Nat) : List Nat × Nat :=
  let off := bitOff t i0 i1 i2
  let b := (off % 8).toNat
  let first : Int := tdBase t + off / 8
  let n := if 8 ≤ (tdFmt t).width then (tdFmt t).width / 8 else ceilDiv (b + (tdFmt t).width) 8
  ((List.range n).map fun (k : Nat) => swzRow t i1 (wrap 64 (first + (k : Int))), b)

/-- The pieces of an element: one of its size, or single bytes below 8 bits. -/
def elemPieces (t : Td) (i0 i1 i2 : Nat) : List Piece :=
  let (as_, _) := elemBytes t i0 i1 i2
  if 8 ≤ (tdFmt t).width then [{ addr := as_.headD 0, size := (tdFmt t).width / 8 }]
  else as_.map fun a => { addr := a, size := 1 }

/-- The element's code in the bytes of its pieces. -/
def elemCode (t : Td) (i0 i1 i2 : Nat) (bs : List Byte) : Nat :=
  let (_, b) := elemBytes t i0 i1 i2
  ofBytes bs / 2 ^ b % 2 ^ (tdFmt t).width

/-- An element's bytes to write, with the masks of a merge below 8 bits (R223). -/
def elemWrite (t : Td) (i0 i1 i2 code : Nat) : List (Byte × Byte) :=
  let w := (tdFmt t).width
  if 8 ≤ w then wholeBytes (w / 8) code
  else
    let (as_, b) := elemBytes t i0 i1 i2
    let n := as_.length
    (bytesOf n (code % 2 ^ w * 2 ^ b)).zip (bytesOf n ((2 ^ w - 1) * 2 ^ b))

/-- The address of the scale byte that covers an element, if the descriptor has a scale array. -/
def scaleAddr (t : Td) (i0 i1 i2 : Nat) : Option Nat :=
  if tdSoff t = 0 then none
  else
    let nb := (tdExt0 t + 31) / 32
    some ((tdBase t + 64 * tdSoff t + i0 / 32 + nb * (i1 + tdE1 t * i2)) % 2 ^ 64)

/-- The value of an element (R67): exact, or a quiet NaN under the NaN scale. -/
def elemValue (t : Td) (svr : Bool) (code : Nat) (scale : Option Nat) : FVal :=
  let x : FVal := if (tdFmt t).isInt then FVal.ofInt (intVal (tdFmt t) code) else decodeF (tdFmt t) svr code
  match scale with
  | some 0xFF => .nan false
  | some c => x.scale (tdScb t + ((c : Int) - 127))
  | none => x.scale (tdScb t)

/-- The quotient that a store through the descriptor rounds into FMT. -/
def storeQuot (t : Td) (x : FVal) (scale : Option Nat) : FVal :=
  match scale with
  | some 0xFF => .nan false
  | some c => x.scale (-(tdScb t + ((c : Int) - 127)))
  | none => x.scale (-(tdScb t))

end Sys2Proof.Machine
end

