-- ==== Sys2Proof/Machine/MemInstr.lean ====
section
/-!
DEFINITION. Sys2Proof/Machine/MemInstr.lean: the memory majors 0x50 to 0x5B (R218 to R225).
-/
namespace Sys2Proof.Machine

/-- A + SignExt(DISP, 20) mod 2^64 (R218). -/
def effAddr (a : Word) (disp : BitVec 20) : Nat := (a + disp.signExtend 64).toNat

/-- Fires a load-class read and makes its token from the bytes of each piece. -/
def fireLoad (i : Instr) (s : State) (m : MemF) (pieces : In → List Piece) (out : In → List (List Byte) → Tok × Flags) :
    Host.Outcome State Fault Refusal :=
  fireWith i s fun s x =>
    match s.readPieces m.lsid.toNat m.sp (acquires m) (pieces x) with
    | (s, .err e) => (s, .fault e)
    | (s, .wait) => (s, .hold)
    | (s, .bytes l) => let (t, fl) := out x l; (s, .done t fl [])

/-- Fires a store-class write of the given pieces. -/
def fireStore (i : Instr) (s : State) (m : MemF) (st32 : Bool) (pieces : In → List (Piece × List (Byte × Byte))) :
    Host.Outcome State Fault Refusal :=
  fireWith i s fun s x =>
    match s.storePieces m.lsid.toNat m.sp m.ord.isRel st32 (pieces x) with
    | (s, .error e) => (s, .fault e)
    | (s, .ok effs) => (s, .done .null 0 effs)

/-- A loaded scalar: sign-extended for .i types, zero-extended otherwise (R219). -/
def loadWord (t : Ty) (bs : List Byte) : Word :=
  if t.isSigned then sext t.width (BitVec.ofNat 64 (ofBytes bs)) else BitVec.ofNat 64 (ofBytes bs)

/-- LD (R219). -/
def execLd (c : Ctl) (t : Ty) (m : MemF) (disp : BitVec 20) (s : State) : Host.Outcome State Fault Refusal :=
  fireLoad (.ld c t m disp) s m (fun x => [{ addr := effAddr (tokWord x.a) disp, size := t.width / 8 }])
    fun _ l => (.s (loadWord t (l.headD [])), 0)

/-- A 4-byte integer store, the one a doorbell page takes (R375). -/
def isSt32 (t : Ty) : Bool := t == .i32 || t == .n32

/-- ST (R219). -/
def execSt (c : Ctl) (t : Ty) (m : MemF) (disp : BitVec 20) (s : State) : Host.Outcome State Fault Refusal :=
  fireStore (.st c t m disp) s m (isSt32 t) fun x =>
    [({ addr := effAddr (tokWord x.a) disp, size := t.width / 8 }, wholeBytes (t.width / 8) (tokWord x.b).toNat)]

/-! ## Vectors: which lanes are accessed, and where (R220, R221) -/

/-- Lanes accessed, with their addresses, from a base, an address rule and the lanes allowed. -/
def laneAddrs (w : Nat) (ok : Nat → Bool) (addr : Nat → Nat) : List (Nat × Nat) :=
  ((List.range (laneCount w)).filter ok).map fun j => (j, addr j)

/-- Contiguous lanes. -/
def contig (w base j : Nat) : Nat := (base + j * (w / 8)) % 2 ^ 64
/-- Strided lanes: the stride is a signed 64-bit byte count. -/
def strided (base : Nat) (stride : Word) (j : Nat) : Nat := (base + j * stride.toNat) % 2 ^ 64
/-- Lane j of an offset vector: a signed element index. -/
def indexed (w base : Nat) (off : Tok) (j : Nat) : Nat :=
  wrap 64 ((base : Int) + toSigned w (laneNat w (tokVec off) j) * ((w / 8 : Nat) : Int))

def lanePieces (w : Nat) (l : List (Nat × Nat)) : List Piece := l.map fun (_, a) => { addr := a, size := w / 8 }

/-- The vector of loaded lanes; the others are lane nulls. -/
def loadedVec (w : Nat) (l : List (Nat × Nat)) (bs : List (List Byte)) : Tok :=
  let vals := l.zip bs
  packLanes w ((List.range (laneCount w)).map fun j =>
    (vals.find? fun ((k, _), _) => k == j).map fun (_, b) => ofBytes b)

/-- Pieces of stored lanes. -/
def storedLanes (w : Nat) (l : List (Nat × Nat)) (data : Tok) : List (Piece × List (Byte × Byte)) :=
  l.map fun (j, a) => ({ addr := a, size := w / 8 }, wholeBytes (w / 8) (laneNat w (tokVec data) j))

/-- VLD (R220). -/
def execVld (c : Ctl) (t : Ty) (m : MemF) (disp : BitVec 20) (s : State) : Host.Outcome State Fault Refusal :=
  let lanes (x : In) := laneAddrs t.width (laneOk t.width x.lm) (contig t.width (effAddr (tokWord x.a) disp))
  fireLoad (.vld c t m disp) s m (fun x => lanePieces t.width (lanes x)) fun x l => (loadedVec t.width (lanes x) l, 0)

/-- VST (R220). -/
def execVst (c : Ctl) (t : Ty) (m : MemF) (disp : BitVec 20) (s : State) : Host.Outcome State Fault Refusal :=
  let w := t.width
  fireStore (.vst c t m disp) s m false fun x =>
    storedLanes w (laneAddrs w (fun j => laneOk w x.lm j && laneOk w (tokValid x.b) j)
      (contig w (effAddr (tokWord x.a) disp))) x.b

/-- Lanes that read the same bytes read them once (R222). -/
def oncePieces (w : Nat) (l : List (Nat × Nat)) : List Piece := (lanePieces w l).eraseDups

/-- The bytes of each lane, from those of the distinct pieces. -/
def spread (w : Nat) (l : List (Nat × Nat)) (bs : List (List Byte)) : List (List Byte) :=
  let got := (oncePieces w l).zip bs
  (lanePieces w l).map fun p => ((got.find? fun x => x.1 == p).map Prod.snd).getD []

/-- VLDS (R220, R222). -/
def execVlds (c : Ctl) (t : Ty) (m : MemF) (disp : BitVec 20) (s : State) : Host.Outcome State Fault Refusal :=
  let lanes (x : In) := laneAddrs t.width (laneOk t.width x.lm) (strided (effAddr (tokWord x.a) disp) (tokWord x.b))
  fireLoad (.vlds c t m disp) s m (fun x => oncePieces t.width (lanes x))
    fun x l => (loadedVec t.width (lanes x) (spread t.width (lanes x) l), 0)

/-- VSTS (R220, R222). -/
def execVsts (c : Ctl) (t : Ty) (m : MemF) (disp : BitVec 20) (s : State) : Host.Outcome State Fault Refusal :=
  let w := t.width
  fireStore (.vsts c t m disp) s m false fun x =>
    (storedLanes w (laneAddrs w (fun j => laneOk w x.lm j && laneOk w (tokValid x.c) j)
      (strided (effAddr (tokWord x.a) disp) (tokWord x.b))) x.c)

/-- VGATH (R221, R222). -/
def execVgath (c : Ctl) (t : Ty) (m : MemF) (disp : BitVec 20) (s : State) : Host.Outcome State Fault Refusal :=
  let lanes (x : In) := laneAddrs t.width (fun j => laneOk t.width x.lm j && laneOk t.width (tokValid x.b) j)
    (indexed t.width (effAddr (tokWord x.a) disp) x.b)
  fireLoad (.vgath c t m disp) s m (fun x => oncePieces t.width (lanes x))
    fun x l => (loadedVec t.width (lanes x) (spread t.width (lanes x) l), 0)

/-- VSCAT (R221, R222). -/
def execVscat (c : Ctl) (t : Ty) (m : MemF) (disp : BitVec 20) (s : State) : Host.Outcome State Fault Refusal :=
  let w := t.width
  fireStore (.vscat c t m disp) s m false fun x =>
    (storedLanes w (laneAddrs w (fun j => laneOk w x.lm j && laneOk w (tokValid x.b) j && laneOk w (tokValid x.c) j)
      (indexed w (effAddr (tokWord x.a) disp) x.b)) x.c)

/-! ## Tensor slices (R223) -/

/-- The descriptor suits a TLD or TST of a lane type (R68, R223). -/
def sliceOk (d : Td) (t : Ty) : Bool := tdOk d && (if (tdFmt d).isInt then t == tdFmt d else t.isFL)

/-- Tensor indices of lane j of a slice: i0, i1, i2 (R67, R223). -/
def sliceIdx (d : Td) (a b : Word) (j : Nat) : Nat × Nat × Nat :=
  (tdCol0 d + b.toNat + j, tdRow0 d + field a 31 0, if tdNd d = 3 then field a 63 32 else 0)

/-- Lanes inside the extents, among those allowed. -/
def sliceLanes (d : Td) (w : Nat) (ok : Nat → Bool) (a b : Word) : List Nat :=
  (List.range (laneCount w)).filter fun j => ok j && (let (i0, i1, i2) := sliceIdx d a b j; inExtents d i0 i1 i2)

/-- The scale byte's piece of an element, none where the descriptor has no scales. -/
def scalePieces (d : Td) (i0 i1 i2 : Nat) : List Piece :=
  (scaleAddr d i0 i1 i2).toList.map fun a => { addr := a, size := 1 }

/-- The same for a TLD or TST, which moves the bits of an integer element without a scale (R223). -/
def sliceScale (d : Td) (i0 i1 i2 : Nat) : List Piece := if (tdFmt d).isInt then [] else scalePieces d i0 i1 i2

/-- Pieces of the elements of a slice: each element's own, then its scale byte. -/
def slicePieces (d : Td) (a b : Word) (js : List Nat) : List Piece :=
  js.flatMap fun j => let (i0, i1, i2) := sliceIdx d a b j; elemPieces d i0 i1 i2 ++ sliceScale d i0 i1 i2

/-- The value of one lane from the bytes of its pieces. -/
def sliceLane (d : Td) (t : Ty) (svr : Bool) (rm : Rm) (i0 i1 i2 : Nat) (bs : List (List Byte)) : Nat × Flags :=
  let n := (elemPieces d i0 i1 i2).length
  let code := elemCode d i0 i1 i2 (bs.take n).flatten
  let scale := (bs.drop n).head?.map ofBytes
  if (tdFmt d).isInt then (code, 0) else roundF t false rm (elemValue d svr code scale)

/-- The pieces of an element with the bits of its code (R67, R223). -/
def elemPuts (d : Td) (i0 i1 i2 code : Nat) : List (Piece × List (Byte × Byte)) :=
  let bs := elemWrite d i0 i1 i2 code
  if 8 ≤ (tdFmt d).width then (elemPieces d i0 i1 i2).map fun p => (p, bs)
  else ((elemPieces d i0 i1 i2).zip bs).map fun (p, x) => (p, [x])

/-- Cuts a list of piece contents into the parts of each lane. -/
def cutPieces : List Nat → List (List Byte) → List (List (List Byte))
  | [], _ => []
  | n :: ns, l => l.take n :: cutPieces ns (l.drop n)

/-- TLD (R223). -/
def execTld (c : Ctl) (t : Ty) (m : MemF) (td : BitVec 6) (s : State) : Host.Outcome State Fault Refusal :=
  fireWith (.tld c t m td) s fun s x =>
    let d := getTd s.core.r td.toNat
    let w := t.width
    if !sliceOk d t then (s, .fault { cause := cDesc, addr := 0 })
    else
      let a := tokWord x.a
      let b := tokWord x.b
      let js := sliceLanes d w (laneOk w x.lm) a b
      match s.readPieces m.lsid.toNat (tdSp d) (acquires m) (slicePieces d a b js) with
      | (s, .err e) => (s, .fault e)
      | (s, .wait) => (s, .hold)
      | (s, .bytes l) =>
        let counts := js.map fun j => let (i0, i1, i2) := sliceIdx d a b j; (elemPieces d i0 i1 i2 ++ sliceScale d i0 i1 i2).length
        let vals := js.zip (cutPieces counts l)
        let (v, fl) := ofLanes w ((List.range (laneCount w)).map fun j =>
          if laneOk w x.lm j then
            match vals.find? fun (k, _) => k == j with
            | some (_, bs) =>
              let (i0, i1, i2) := sliceIdx d a b j
              some (sliceLane d t (fsrSvr s.core.r) (fsrRm s.core.r) i0 i1 i2 bs)
            | none => some (0, 0)
          else none)
        (s, .done v fl [])

/-- TST (R223): each value is rounded under the scale that stands in the array; the array is not written. -/
def execTst (c : Ctl) (t : Ty) (m : MemF) (td : BitVec 6) (s : State) : Host.Outcome State Fault Refusal :=
  fireWith (.tst c t m td) s fun s x =>
    let d := getTd s.core.r td.toNat
    let w := t.width
    if !sliceOk d t then (s, .fault { cause := cDesc, addr := 0 })
    else
      let a := tokWord x.a
      let b := tokWord x.b
      let js := sliceLanes d w (fun j => laneOk w x.lm j && laneOk w (tokValid x.c) j) a b
      let scalesOf (j : Nat) : List Piece := let (i0, i1, i2) := sliceIdx d a b j; sliceScale d i0 i1 i2
      let elems := js.flatMap fun j => let (i0, i1, i2) := sliceIdx d a b j; elemPieces d i0 i1 i2
      let r := s.scaledStore m.lsid.toNat (tdSp d) m.ord.isRel (js.flatMap scalesOf) elems fun l =>
        let scales := cutPieces (js.map fun j => (scalesOf j).length) l
        let codes : List (Nat × (Nat × Flags)) := (js.zip scales).map fun (j, bs) =>
          let v := laneNat w (tokVec x.c) j
          if (tdFmt d).isInt then (j, (v, 0))
          else
            (j, roundF (tdFmt d) (fsrSvr s.core.r) (fsrRm s.core.r)
              (storeQuot d (decodeF t false v) (bs.head?.map ofBytes)))
        (codes.flatMap fun (j, code, _) => let (i0, i1, i2) := sliceIdx d a b j; elemPuts d i0 i1 i2 code,
         orAll (codes.map fun (_, _, fl) => fl))
      match r with
      | (s, .error (some e)) => (s, .fault e)
      | (s, .error none) => (s, .hold)
      | (s, .ok (effs, fl)) => (s, .done .null fl effs)

/-- PREF (R224): the line comes into the L1 where it may; nothing else happens, and nothing faults. A line with an uncorrectable granule
leaves a black-box event (R383). -/
def execPref (c : Ctl) (l2 : Bool) (m : MemF) (disp : BitVec 20) (s : State) : Host.Outcome State Fault Refusal :=
  fireWith (.pref c l2 m disp) s fun s x =>
    match m.sp with
    | .gl =>
      match resolve s s.core .gl (effAddr (tokWord x.a) disp) 1 1 .load with
      | (s', .ok (.here key, _)) =>
        let line := key / 128 * 128
        let s' := if (hbmDie key).isSome && s'.bad line 128 then
            s'.blackBox (dieOfKey key) 0x02 s.core.space (coreOnDie s.core.id) (BitVec.ofNat 64 (effAddr (tokWord x.a) disp)) 0
          else s'
        (if l2 then s' else (s'.lineFor true key).1, .done .null 0 [])
      | _ => (s, .done .null 0 [])
    | _ => (s, .done .null 0 [])

/-- VJOIN (R124, R225): loads of higher LSID wait for it, and it waits for those of lower LSID. -/
def execVjoin (c : Ctl) (lsid : BitVec 5) (s : State) : Host.Outcome State Fault Refusal :=
  fireWith (.vjoin c lsid) s fun s _ =>
    if s.loadsWait lsid.toNat then (s, .hold) else (s, .done .null 0 [.vjoin lsid.toNat])

end Sys2Proof.Machine
end

