-- ==== Sys2Proof/Machine/Sync.lean ====
section
/-!
DEFINITION. Sys2Proof/Machine/Sync.lean: atomics, fences, barriers, bank operations, counters, armed commands, channels and copies,
majors 0x60 to 0x6C (R226 to R244), and the waits on tickets.
-/
namespace Sys2Proof.Machine

/-! ## Atomics (R226, R227): checked when they fire, performed at the binding point (R53) -/

/-- Fires an atomic: its address is checked now. -/
def fireAtomic (i : Instr) (s : State) (m : MemF) (disp : BitVec 20) (op : In → AtomOp) (w64 sc : Bool) (operand : In → Word) :
    Host.Outcome State Fault Refusal :=
  fireWith i s fun s x =>
    let addr := effAddr (tokWord x.a) disp
    let n := if w64 then 8 else 4
    let va := BitVec.ofNat 64 addr
    match resolve s s.core m.sp addr n n .atom with
    | (s, .error e) => (s, .fault e)
    | (s, .ok (.here key, view)) =>
      if s.bad key n then (s, .fault { cause := cUncorr, addr := va })
      else (s, .pend [.atomic m.lsid.toNat (.here key) (op x) w64 sc (operand x) view va])
    | (s, .ok (.remote endp a, view)) =>
      if sc then (s, .fault { cause := cIllegal, addr := va })
      else (s, .pend [.atomic m.lsid.toNat (.remote endp (BitVec.ofNat 40 a)) (op x) w64 sc (operand x) view va])
    | (s, .ok (.door _ _, _)) => (s, .fault { cause := cRights, addr := va })

/-- AMO (R226). -/
def execAmo (c : Ctl) (op : AmoOp) (sc w64 : Bool) (m : MemF) (disp : BitVec 20) (s : State) :
    Host.Outcome State Fault Refusal :=
  fireAtomic (.amo c op sc w64 m disp) s m disp (fun _ => .amo op) w64 sc fun x => tokWord x.b

/-- CAS (R227). -/
def execCas (c : Ctl) (sc w64 : Bool) (m : MemF) (disp : BitVec 20) (s : State) : Host.Outcome State Fault Refusal :=
  fireAtomic (.cas c sc w64 m disp) s m disp (fun x => .cas (tokWord x.b)) w64 sc fun x => tokWord x.c

/-! ## FENCE (R121, R228) -/

/-- Kinds that drop the L1 (R121). -/
def fenceDrops (k : FenceKind) (sc : Scope) : Bool :=
  sc != .task && (match k with | .rr | .wr | .all => true | .rw | .ww => false)

/-- A FENCE that orders stores before loads waits until the stores of earlier blocks are performed (R121). -/
def fenceAcks (k : FenceKind) (sc : Scope) : Bool := sc != .task && (k == .wr || k == .all)

/-- FENCE: loads of higher LSID wait for it, and it waits for those of lower LSID and, where it orders stores before loads, for the stores of
earlier blocks; what it orders stores behind is done when its turn in the memory step comes (R58). -/
def execFence (c : Ctl) (k : FenceKind) (lsid : BitVec 5) (sc : Scope) (s : State) : Host.Outcome State Fault Refusal :=
  fireWith (.fence c k lsid sc) s fun s _ =>
    if s.loadsWait lsid.toNat || (fenceAcks k sc && !s.acksOf s.core.id) then (s, .hold)
    else (if fenceDrops k sc then s.dropL1 else s, .done .null 0 [.fence lsid.toNat k sc])

/-! ## Barriers (R230) -/

/-- A BAR on a domain barrier that is not configured for the task raises Illegal Operand. -/
def State.barAllowed (s : State) (b : BitVec 9) : Bool := !isDomainBar b || (s.domainBar s.core b).isSome

def illegal : Fired := .fault { cause := cIllegal, addr := 0 }

/-- BAR.init. -/
def execBarInit (c : Ctl) (lsid : BitVec 5) (b : BitVec 9) (s : State) : Host.Outcome State Fault Refusal :=
  fireWith (.barInit c lsid b) s fun s x =>
    let n := (tokWord x.a).toNat
    if isDomainBar b ∨ n = 0 ∨ 65535 < n then (s, illegal)
    else (s, .done (.s 0) 0 [.barInit lsid.toNat b n])

/-- BAR.arrive. -/
def execBarArrive (c : Ctl) (lsid : BitVec 5) (b : BitVec 9) (s : State) : Host.Outcome State Fault Refusal :=
  fireWith (.barArrive c lsid b) s fun s _ =>
    if s.barAllowed b then (s, .done (.s 0) 0 [.barArrive lsid.toNat b]) else (s, illegal)

/-- Completes as BAR.wait: an acquire once the recorded phase has completed (R130). -/
def State.barWait (s : State) (b : BitVec 9) : State × Fired :=
  if s.barDone s.core b then (s.dropL1, .done (.s 0) 0 []) else (s, .hold)

/-- BAR.wait. -/
def execBarWait (c : Ctl) (lsid : BitVec 5) (b : BitVec 9) (s : State) : Host.Outcome State Fault Refusal :=
  fireWith (.barWait c lsid b) s fun s _ => if s.barAllowed b then s.barWait b else (s, illegal)

/-- BAR.sync: arrives once, when it fires and the task's packets are acknowledged (R120, R130), then waits. -/
def execBarSync (c : Ctl) (lsid : BitVec 5) (b : BitVec 9) (s : State) : Host.Outcome State Fault Refusal :=
  fireWith (.barSync c lsid b) s fun s _ =>
    if !s.barAllowed b then (s, illegal)
    else
      match s.core.frame with
      | none => (s, .hold)
      | some fr =>
        if fr.arrived.getLsbD fr.cur then s.barWait b
        else if !s.acksOf s.core.id then (s, .hold)
        else ((s.arrive s.core.id b).onFrame fun fr => { fr with arrived := setBit fr.arrived fr.cur }).barWait b

/-! ## BKOP (R231) -/

/-- Whether a BKOP's type is of 64 bits. -/
def bk64 (t : Ty) : Bool := t == .i64 || t == .n64

/-- BKOP. -/
def execBkop (c : Ctl) (op : BkOp) (t : Ty) (m : MemF) (disp : BitVec 20) (s : State) : Host.Outcome State Fault Refusal :=
  fireWith (.bkop c op t m disp) s fun s x =>
    let base := effAddr (tokWord x.a) disp
    let addr := if op = .hist then (base + 4 * (tokWord x.b).toNat) % 2 ^ 64 else base
    let n := if bk64 t then 8 else 4
    match resolve s s.core m.sp addr n n .store with
    | (s, .error e) => (s, .fault e)
    | (s, .ok (.here key, _)) => (s, .done .null 0 [.bank m.lsid.toNat op (bk64 t) t.isSigned key (tokWord x.b) (BitVec.ofNat 64 addr)])
    | (s, .ok _) => (s, .fault { cause := cRights, addr := BitVec.ofNat 64 addr })

/-! ## Counters (R232, R233) -/

/-- The low 32 bits of a token. -/
def low32 (t : Tok) : BitVec 32 := (tokWord t).setWidth 32

/-- CTR.inc. -/
def execCtrInc (c : Ctl) (lsid : BitVec 5) (rel : Bool) (k : BitVec 5) (s : State) : Host.Outcome State Fault Refusal :=
  fireEffect (.ctrInc c lsid rel k) s fun _ _ => .ok [.ctr lsid.toNat .inc k 1 none]

/-- CTR.add; at gang scope the rank stands in A[53:48] (R35). -/
def execCtrAdd (c : Ctl) (lsid : BitVec 5) (rel gang : Bool) (k : BitVec 5) (s : State) : Host.Outcome State Fault Refusal :=
  fireEffect (.ctrAdd c lsid rel gang k) s fun core x =>
    let rank := field (tokWord x.a) 53 48
    if gang && decide (core.gsize ≤ rank) then .error { cause := cIllegal, addr := 0 }
    else .ok [.ctr lsid.toNat .add k (low32 x.a) (if gang then some rank else none)]

/-- CTR.set. -/
def execCtrSet (c : Ctl) (lsid : BitVec 5) (rel : Bool) (k : BitVec 5) (s : State) : Host.Outcome State Fault Refusal :=
  fireEffect (.ctrSet c lsid rel k) s fun _ x => .ok [.ctr lsid.toNat .set k (low32 x.a) none]

/-- CTR.reset. -/
def execCtrReset (c : Ctl) (lsid : BitVec 5) (rel : Bool) (k : BitVec 5) (s : State) : Host.Outcome State Fault Refusal :=
  fireEffect (.ctrReset c lsid rel k) s fun _ _ => .ok [.ctr lsid.toNat .reset k 0 none]

/-- CTR.reset.keep. -/
def execCtrResetKeep (c : Ctl) (lsid : BitVec 5) (rel : Bool) (k : BitVec 5) (s : State) :
    Host.Outcome State Fault Refusal :=
  fireEffect (.ctrResetKeep c lsid rel k) s fun _ _ => .ok [.ctr lsid.toNat .resetKeep k 0 none]

/-- CTR.read. -/
def execCtrRead (c : Ctl) (lsid k : BitVec 5) (s : State) : Host.Outcome State Fault Refusal :=
  fireScalar (.ctrRead c lsid k) s fun r _ => ((cget r.k k.toNat).setWidth 64, 0)

/-- CTRWAIT (R233): an acquire once satisfied (R127, R130). -/
def execCtrwait (c : Ctl) (lsid : BitVec 5) (sc : Scope) (k : BitVec 5) (s : State) : Host.Outcome State Fault Refusal :=
  fireWith (.ctrwait c lsid sc k) s fun s x =>
    let count := cget s.core.r.k k.toNat
    if met count (low32 x.a) then (s.dropL1, .done (.s (count.setWidth 64)) 0 []) else (s, .hold)

/-! ## ARM (R234) -/

/-- ARM words of the frame below an index. -/
def armsBelow (fr : Frame) (idx : Nat) : List Nat :=
  (List.range idx).filter fun j => match fr.instr j with | some i => isArm i | none => false

/-- ARM: a seventeenth entry raises Illegal Operand; earlier ARMs of the block count, so it waits until they have fired. -/
def execArm (c : Ctl) (rel : Bool) (k : BitVec 5) (s : State) : Host.Outcome State Fault Refusal :=
  fireWith (.arm c rel k) s fun s x =>
    match s.core.frame with
    | none => (s, .hold)
    | some fr =>
      let below := armsBelow fr fr.cur
      if below.any fun j => !fr.fired.getLsbD j then (s, .hold)
      else
        let entered := (fr.effs.filter fun (j, e) =>
          match e with | .arm _ _ _ _ => decide (j < fr.cur) | _ => false).length
        if 16 ≤ s.core.e.armed.length + entered then (s, illegal)
        else
          match ticketOf (tokWord x.a) with
          | none => (s, illegal)
          | some tk => (s, .done x.a 0 [.arm tk rel k (low32 x.b)])

/-! ## Channels (R242 to R244) -/

def execChbind (f : BindForm) (i : Instr) (h : BitVec 4) (s : State) : Host.Outcome State Fault Refusal :=
  fireWith i s fun s x =>
    match s.chbindCheck s.core f h (tokWord x.a) (tokWord x.b) with
    | some cause => (s, .fault { cause := cause, addr := 0 })
    | none => (s, .done .null 0 [.chbind f h (tokWord x.a) (tokWord x.b)])

/-- CHBIND.own. -/
def execChbindOwn (c : Ctl) (h : BitVec 4) (s : State) : Host.Outcome State Fault Refusal :=
  execChbind .own (.chbindOwn c h) h s
/-- CHBIND.prod. -/
def execChbindProd (c : Ctl) (h : BitVec 4) (s : State) : Host.Outcome State Fault Refusal :=
  execChbind .prod (.chbindProd c h) h s
/-- CHBIND.cons. -/
def execChbindCons (c : Ctl) (h : BitVec 4) (s : State) : Host.Outcome State Fault Refusal :=
  execChbind .cons (.chbindCons c h) h s

/-- The slot offset that CHWAIT delivers (R243). -/
def slotWord (c : Core) (h : BitVec 4) (y : Chan) (prod : Bool) : Word :=
  match chanOf c h with
  | some x =>
    if x.own then BitVec.ofNat 64 (y.slotOff prod) else BitVec.ofNat 64 (x.orank.toNat * 2 ^ 20 ||| y.slotOff prod)
  | none => 0

/-- CHWAIT (R243). The role is looked for before the number of slots, so a wait for none without it is a misuse too (log 112). -/
def execChwait (c : Ctl) (prod : Bool) (h : BitVec 4) (s : State) : Host.Outcome State Fault Refusal :=
  fireWith (.chwait c prod h) s fun s x =>
    let n := (tokWord x.a).toNat
    match s.holdsRole s.core h prod with
    | none => (s, .fault { cause := cChannel, addr := 0 })
    | some (_, _, y) =>
      if y.slots.toNat < n then (s, .fault { cause := cChannel, addr := 0 })
      else if n ≤ (if prod then y.free else y.filled) then
        (if y.pb == 1 && y.cb == 1 then s else s.dropL1, .done (.s (slotWord s.core h y prod)) 0 [])
      else (s, .hold)

/-- CHADV (R244): its check is made once the block is otherwise complete. -/
def execChadv (c : Ctl) (prod : Bool) (h : BitVec 4) (s : State) : Host.Outcome State Fault Refusal :=
  fireEffect (.chadv c prod h) s fun _ x => .ok [.chadv prod h (tokWord x.a).toNat]

/-! ## Copies and waits on tickets (R237 to R241) -/

/-- COPY (R238): checked when it issues. -/
def execCopy (c : Ctl) (tda tdb : BitVec 6) (o : CmdOpt) (s : State) : Host.Outcome State Fault Refusal :=
  fireCommand (.copy c tda tdb o) s fun _ _ => .ok 0

/-- COPY.ch (R240). -/
def execCopyCh (c : Ctl) (tda tdb : BitVec 6) (h : BitVec 4) (o : CmdOpt) (s : State) : Host.Outcome State Fault Refusal :=
  fireCommand (.copyCh c tda tdb h o) s fun _ _ => .ok 0

/-- A wait or a test on a ticket (R236, R237, R241): the status word, an acquire of a completed command, its flags ORed. -/
def fireTicket (i : Instr) (classes : List (BitVec 4)) (test : Bool) (s : State) : Host.Outcome State Fault Refusal :=
  fireWith i s fun s x =>
    match ticketOf (tokWord x.a) with
    | none => (s, illegal)
    | some tk =>
      if !classes.contains tk.eng then (s, illegal)
      else
        match s.core.e.status tk with
        | none => (s, illegal)
        | some st =>
          if statusSt st = stPending then (if test then (s, .done (.s st) 0 []) else (s, .hold))
          else (if statusSt st = stCancelled ∨ !s.core.e.wide tk then s else s.dropL1, .done (.s st) (statusFlags st) [])

/-- COPYW. -/
def execCopyw (c : Ctl) (s : State) : Host.Outcome State Fault Refusal := fireTicket (.copyw c) [engCopy, engLaunch] false s
/-- COPYW.test. -/
def execCopywTest (c : Ctl) (s : State) : Host.Outcome State Fault Refusal :=
  fireTicket (.copywTest c) [engCopy, engLaunch] true s

end Sys2Proof.Machine
end

