-- ==== Sys2Proof/Machine/Matrix.lean ====
section
/-!
DEFINITION. Sys2Proof/Machine/Matrix.lean: descriptors as registers, matrix commands as they fire, tile rows to and from memory, and
the matrix wait, majors 0x70 to 0x78 (R245 to R260).
-/
namespace Sys2Proof.Machine

/-- A class of operand formats (R249). -/
structure MatClass where
  num : Nat
  ch : Nat
  acc : Ty
  mmax : Nat
  rate : Nat
deriving DecidableEq, Repr

def matClass : Ty → Option MatClass
  | .bf16 | .f16 => some ⟨0, 16, .f32, 128, 2048⟩
  | .e4m3 | .e5m2 | .t8 => some ⟨1, 32, .f32, 128, 4096⟩
  | .e2m3 | .e3m2 | .e2m1 | .t6 => some ⟨2, 64, .f32, 128, 8192⟩
  | .f32 => some ⟨3, 8, .f32, 128, 512⟩
  | .f64 => some ⟨4, 4, .f64, 64, 128⟩
  | _ => none

/-- Byte offset of a coefficient in its tile (R245). -/
def coefOff (acc : Ty) (i j : Nat) : Nat := (if acc = .f64 then 8 else 4) * (128 * i + j)

/-- Key of a coefficient of a core's tile. -/
def coefKey (core tile : Nat) (acc : Ty) (i j : Nat) : Nat := accKey core (tile * 65536 + coefOff acc i j)

/-- Bytes of a coefficient. -/
def coefBytes (acc : Ty) : Nat := if acc = .f64 then 8 else 4

/-- TDSET (R248). -/
def execTdset (c : Ctl) (td : BitVec 6) (n : BitVec 2) (s : State) : Host.Outcome State Fault Refusal :=
  fireEffect (.tdset c td n) s fun _ x => .ok [.tdset td n (tokWord x.a)]

/-- TDGET (R248). -/
def execTdget (c : Ctl) (td : BitVec 6) (n : BitVec 2) (s : State) : Host.Outcome State Fault Refusal :=
  fireScalar (.tdget c td n) s fun r _ => (cget r.td (4 * td.toNat + n.toNat), 0)

/-- A matrix command checks its tile when it fires (R29, R251). -/
def tileCheck (tile : BitVec 3) (s : State) : Except XErr Word :=
  if s.core.acc ≤ tile.toNat then .error { cause := cIllegal, addr := 0 } else .ok 0

/-- MZERO (R254). -/
def execMzero (c : Ctl) (tile : BitVec 3) (o : CmdOpt) (s : State) : Host.Outcome State Fault Refusal :=
  fireCommand (.mzero c tile o) s fun s _ => tileCheck tile s

/-- MMA (R255). -/
def execMma (c : Ctl) (tb : Bool) (tda tdb : BitVec 6) (tile : BitVec 3) (o : CmdOpt) (s : State) :
    Host.Outcome State Fault Refusal :=
  fireCommand (.mma c tb tda tdb tile o) s fun s _ => tileCheck tile s

/-- MMAG (R256). -/
def execMmag (c : Ctl) (tb : Bool) (tda tdb : BitVec 6) (tile : BitVec 3) (o : CmdOpt) (s : State) :
    Host.Outcome State Fault Refusal :=
  fireCommand (.mmag c tb tda tdb tile o) s fun s _ => tileCheck tile s

/-- GMMA (R258). -/
def execGmma (c : Ctl) (tda tdb tdc : BitVec 6) (tile : BitVec 3) (o : CmdOpt) (s : State) :
    Host.Outcome State Fault Refusal :=
  fireCommand (.gmma c tda tdb tdc tile o) s fun s _ => tileCheck tile s

/-- The checks of MLDA and MSTA before they wait for the tile (R250, R259). -/
def rowsCheck (c : Core) (d : Td) (tile r0 : Nat) : Option (BitVec 8) :=
  if !(tdOk d && tdSpCode d != 0 && tdNd d != 3) then some cDesc
  else
    match matClass (tdFmt d) with
    | none => some cDesc
    | some k =>
      if r0 % 16 ≠ 0 ∨ k.mmax ≤ r0 then some cIllegal
      else if c.acc ≤ tile then some cIllegal
      else none

/-- Elements of a slice of 16 tile rows, in row order: (r, c). -/
def rowElems (r0 : Nat) : List (Nat × Nat) :=
  (List.range 16).flatMap fun i => (List.range 128).map fun j => (r0 + i, j)

/-- Tensor indices of a tile element (R67). -/
def tileIdx (d : Td) (r c : Nat) : Nat × Nat := (tdCol0 d + c, tdRow0 d + r)

/-- Pieces of one element: its own and its scale byte. -/
def elemAll (d : Td) (i0 i1 i2 : Nat) : List Piece := elemPieces d i0 i1 i2 ++ scalePieces d i0 i1 i2

/-- Value of an element from the bytes of its pieces. -/
def elemFrom (d : Td) (svr : Bool) (i0 i1 i2 : Nat) (bs : List (List Byte)) : FVal :=
  let n := (elemPieces d i0 i1 i2).length
  elemValue d svr (elemCode d i0 i1 i2 (bs.take n).flatten) ((bs.drop n).head?.map ofBytes)

/-- MLDA (R259): reads as a load at its LSID; the tile is written at the commit. -/
def execMlda (c : Ctl) (lsid : BitVec 5) (sc : Scope) (acq : Bool) (td : BitVec 6) (tile : BitVec 3) (s : State) :
    Host.Outcome State Fault Refusal :=
  fireWith (.mlda c lsid sc acq td tile) s fun s x =>
    let d := getTd s.core.r td.toNat
    let r0 := (tokWord x.a).toNat
    match rowsCheck s.core d tile.toNat r0, matClass (tdFmt d) with
    | some cause, _ => (s, .fault { cause := cause, addr := 0 })
    | none, none => (s, .fault { cause := cDesc, addr := 0 })
    | none, some k =>
      if s.core.e.busyTiles.getLsbD tile.toNat then (s, .hold)
      else
        let els := rowElems r0
        let live := els.filter fun (r, j) => let (i0, i1) := tileIdx d r j; inExtents d i0 i1 0
        let pieces := live.map fun (r, j) => let (i0, i1) := tileIdx d r j; elemAll d i0 i1 0
        match s.readPieces lsid.toNat (tdSp d) (acq && sc != .task) pieces.flatten with
        | (s, .err e) => (s, .fault e)
        | (s, .wait) => (s, .hold)
        | (s, .bytes l) =>
          let vals := live.zip (cutPieces (pieces.map List.length) l)
          let res := vals.map fun ((r, j), bs) =>
            let (i0, i1) := tileIdx d r j
            let v := elemFrom d (fsrSvr s.core.r) i0 i1 0 bs
            ((r, j), rne k.acc v)
          let outside := els.filter fun (r, j) => let (i0, i1) := tileIdx d r j; !inExtents d i0 i1 0
          let ws := (res.flatMap fun ((r, j), code, _) =>
              byteWs (coefKey s.core.id tile.toNat k.acc r j) (bytesOf (coefBytes k.acc) code))
            ++ outside.flatMap fun (r, j) => byteWs (coefKey s.core.id tile.toNat k.acc r j) (bytesOf (coefBytes k.acc) 0)
          (s, .done .null (orAll (res.map fun (_, _, fl) => fl)) [.tile lsid.toNat tile.toNat ws])

/-- MSTA (R259): reads the tile now; its stores are performed in the memory step at its LSID. -/
def execMsta (c : Ctl) (lsid : BitVec 5) (sc : Scope) (td : BitVec 6) (tile : BitVec 3) (s : State) :
    Host.Outcome State Fault Refusal :=
  fireWith (.msta c lsid sc td tile) s fun s x =>
    let d := getTd s.core.r td.toNat
    let r0 := (tokWord x.a).toNat
    match rowsCheck s.core d tile.toNat r0, matClass (tdFmt d) with
    | some cause, _ => (s, .fault { cause := cause, addr := 0 })
    | none, none => (s, .fault { cause := cDesc, addr := 0 })
    | none, some k =>
      if s.core.e.busyTiles.getLsbD tile.toNat then (s, .hold)
      else
        let live := (rowElems r0).filter fun (r, j) => let (i0, i1) := tileIdx d r j; inExtents d i0 i1 0
        let scalesOf (p : Nat × Nat) : List Piece := let (i0, i1) := tileIdx d p.1 p.2; scalePieces d i0 i1 0
        let first := coefKey s.core.id tile.toNat k.acc r0 0
        if s.bad first (16 * 128 * coefBytes k.acc) then (s, .fault { cause := cUncorr, addr := 0 })
        else
          let s := s.corrected first (16 * 128 * coefBytes k.acc)
          let elems := live.flatMap fun (r, j) => let (i0, i1) := tileIdx d r j; elemPieces d i0 i1 0
          let r := s.scaledStore lsid.toNat (tdSp d) false (live.flatMap scalesOf) elems fun l =>
            let scales := cutPieces (live.map fun p => (scalesOf p).length) l
            let codes := (live.zip scales).map fun ((r, j), bs) =>
              let v := decodeF k.acc false (s.readNat (coefKey s.core.id tile.toNat k.acc r j) (coefBytes k.acc))
              ((r, j), roundF (tdFmt d) (fsrSvr s.core.r) .rne (storeQuot d v (bs.head?.map ofBytes)))
            (codes.flatMap fun ((r, j), code, _) => let (i0, i1) := tileIdx d r j; elemPuts d i0 i1 0 code,
             orAll (codes.map fun (_, _, fl) => fl))
          match r with
          | (s, .error (some e)) => (s, .fault e)
          | (s, .error none) => (s, .hold)
          | (s, .ok (effs, fl)) => (s, .done .null fl effs)

/-- MWAIT (R260). -/
def execMwait (c : Ctl) (s : State) : Host.Outcome State Fault Refusal := fireTicket (.mwait c) [engMatrix, engSig] false s
/-- MWAIT.test (R260). -/
def execMwaitTest (c : Ctl) (s : State) : Host.Outcome State Fault Refusal :=
  fireTicket (.mwaitTest c) [engMatrix, engSig] true s

end Sys2Proof.Machine
end

