-- ==== Sys2Proof/Machine/Signature.lean ====
section
/-!
DEFINITION. Sys2Proof/Machine/Signature.lean: the signature slots and the instructions of the Shingle unit, majors 0x90 to 0x99
(R290 to R304). A word of level k is its number in base d, its first letter the most significant digit.
-/
namespace Sys2Proof.Machine

/-! ## Slots (R290 to R292) -/

/-- Ck: the first coefficient of course k. -/
def courseAt (d k : Nat) : Nat := ((List.range k).map fun i => d ^ i).foldl (· + ·) 0

def sgV (c : BitVec 32) : Bool := c.getLsbD 31
def sgTw (c : BitVec 32) : Bool := c.getLsbD 30
def sgN (c : BitVec 32) : Nat := c.toNat / 2 ^ 26 % 16
def sgD (c : BitVec 32) : Nat := c.toNat / 2 ^ 19 % 128
def sgF (c : BitVec 32) : Nat := c.toNat % 2 ^ 16

/-- A configuration (R291). -/
def sgWord (d n : Nat) : BitVec 32 :=
  let f := courseAt d (n + 1)
  BitVec.ofNat 32 (2 ^ 31 + (if 16384 < f then 2 ^ 30 else 0) + n * 2 ^ 26 + d * 2 ^ 19 + f)

def Regs.sigOf (r : Regs) (s : BitVec 2) : BitVec 32 := cget r.sig s.toNat

/-- The last tile that a slot uses. -/
def lastTile (cfg : BitVec 32) (s : BitVec 2) : Nat := 2 * s.toNat + (if sgTw cfg then 1 else 0)

/-- The tiles of a slot as a bit each. -/
def slotTiles (cfg : BitVec 32) (s : BitVec 2) : BitVec 8 := (if sgTw cfg then 3 else 1) <<< (2 * s.toNat)

/-- The slot may be used (R292). -/
def slotUsable (c : Core) (cfg : BitVec 32) (s : BitVec 2) : Bool := sgV cfg && decide (lastTile cfg s < c.acc)

/-- Key of coefficient q (R290): the two tiles of a slot are consecutive. -/
def sigKey (core : Nat) (s : BitVec 2) (q : Nat) : Nat := accKey core (2 * s.toNat * 65536 + 4 * q)

/-- The coefficients of a slot as committed. -/
def State.coefs (s : State) (core : Nat) (sl : BitVec 2) (f : Nat) : Array Nat :=
  ((List.range f).map fun q => s.readNat (sigKey core sl q) 4).toArray

/-! ## Arithmetic (R294, R301, R302): codes of binary32 with the flags raised -/

def f32V (x : Nat) : FVal := decodeF .f32 false x
def oneF32 : Nat := 0x3F800000

/-- c(k), a constant: it raises nothing (log 27). -/
def invNat (k : Nat) : Nat := (roundWithS .f32 .rne (divV (.fin false 1 0) (.fin false k 0))).1

def mulR (a b : Nat) : Nat × Flags := roundWith .f32 .rne (mulV (f32V a) (f32V b))
/-- acc + a × b with one rounding. -/
def fmaR (acc a b : Nat) : Nat × Flags := roundWith .f32 .rne (fmaV .rne (f32V a) (f32V b) (f32V acc))

/-- The middle terms of a product, |u| = i for i in `is`. -/
def midTerms (d k x : Nat) (y z : Array Nat) (start : Nat × Flags) : List Nat → Nat × Flags
  | [] => start
  | i :: is =>
    let u := courseAt d i + x / d ^ (k - i)
    let v := courseAt d (k - i) + x % d ^ (k - i)
    let (r, fl) := fmaR start.1 (y.getD u 0) (z.getD v 0)
    midTerms d k x y z (r, start.2 ||| fl) is

/-- Prod(y, z, k, w) for word x of level k. -/
def sigProd (d : Nat) (y z : Array Nat) (k x : Nat) : Nat × Flags :=
  if k = 0 then mulR (y.getD 0 0) (z.getD 0 0)
  else
    let w := courseAt d k + x
    let (acc, f) := midTerms d k x y z (mulR (y.getD w 0) (z.getD 0 0)) ((List.range (k - 1)).map (· + 1))
    let (r, f2) := fmaR acc (y.getD 0 0) (z.getD w 0)
    (r, f ||| f2)

/-- XP(X, P) for word x of level k ≥ 1. -/
def sigXp (d : Nat) (y p : Array Nat) (k x : Nat) : Nat × Flags :=
  midTerms d k x y p (mulR (y.getD (courseAt d k + x) 0) (p.getD 0 0)) ((List.range (k - 1)).map (· + 1))

/-- A function of every word of levels lo to hi, in index order. -/
def sigAll (d lo hi : Nat) (f : Nat → Nat → Nat × Flags) : List Nat × Flags :=
  let l := (List.range (hi + 1 - lo)).flatMap fun i => (List.range (d ^ (lo + i))).map fun x => f (lo + i) x
  (l.map Prod.fst, orAll (l.map Prod.snd))

/-- The levels k and above of ExpInc, from level k − 1. -/
def expLevels (dl : List Nat) : Nat → Nat → List Nat → List Nat × Flags
  | 0, _, _ => ([], 0)
  | n + 1, k, prev =>
    let c := invNat k
    let l := prev.flatMap fun u => dl.map fun x =>
      let (a, f1) := mulR u x
      let (b, f2) := mulR a c
      (b, f1 ||| f2)
    let here := l.map Prod.fst
    let (rest, f) := expLevels dl n (k + 1) here
    (here ++ rest, orAll (l.map Prod.snd) ||| f)

/-- ExpInc(Δ). -/
def expInc (n : Nat) (dl : List Nat) : List Nat × Flags :=
  let (l, f) := expLevels dl (n - 1) 2 dl
  (oneF32 :: dl ++ l, f)

/-- y ⊗ z (R300). -/
def sigJoin (d n : Nat) (y z : Array Nat) : List Nat × Flags := sigAll d 0 n (sigProd d y z)

/-- S ⊗ ExpInc(Δ) (R297). -/
def sigStep (d n : Nat) (y : Array Nat) (dl : List Nat) : List Nat × Flags :=
  let (e, f1) := expInc n dl
  let (r, f2) := sigJoin d n y e.toArray
  (r, f1 ||| f2)

def negCode (x : Nat) : Nat := (BitVec.ofNat 32 x ^^^ 0x80000000).toNat

/-- The identity with `first` at the empty word. -/
def sigUnit (f first : Nat) : List Nat := first :: List.replicate (f - 1) 0

/-- The Horner steps of SIGLOG, n down to 1. -/
def logSteps (d nn : Nat) (y : Array Nat) : Nat → Array Nat → Array Nat × Flags
  | 0, p => (p, 0)
  | n + 1, p =>
    let (q, f) := sigAll d 1 nn (sigXp d y p)
    let (r, f2) := logSteps d nn y n (invNat (n + 1) :: q.map negCode).toArray
    (r, f ||| f2)

/-- SIGLOG (R301). -/
def sigLog (d n : Nat) (y : Array Nat) : List Nat × Flags :=
  let (p, f) := logSteps d n y (n - 1) (sigUnit (courseAt d (n + 1)) (invNat n)).toArray
  let (x, f2) := sigAll d 1 n (sigXp d y p)
  (0 :: x, f ||| f2)

/-- SIGEXP (R301): n down to 1. -/
def expSteps (d nn : Nat) (y : Array Nat) : Nat → List Nat → List Nat × Flags
  | 0, p => (p, 0)
  | n + 1, p =>
    let (q, f) := sigAll d 1 nn (sigXp d y p.toArray)
    let sc := q.map fun x => mulR x (invNat (n + 1))
    let (r, f2) := expSteps d nn y n (oneF32 :: sc.map Prod.fst)
    (r, f ||| orAll (sc.map Prod.snd) ||| f2)

def sigExp (d n : Nat) (y : Array Nat) : List Nat × Flags := expSteps d n y n (sigUnit (courseAt d (n + 1)) oneF32)

/-- A word of k letters read backwards. -/
def revWord (d : Nat) : Nat → Nat → Nat
  | 0, _ => 0
  | k + 1, x => x % d * d ^ k + revWord d k (x / d)

/-- SIGINV (R301). -/
def sigInv (d n : Nat) (y : Array Nat) : List Nat × Flags :=
  sigAll d 0 n fun k x =>
    let c := y.getD (courseAt d k + revWord d k x) 0
    match f32V c with
    | .nan sg => (canonNan .f32, if sg then fNV else 0)
    | _ => (if k % 2 = 1 then negCode c else c, 0)

/-- λ^k, exact (R302). -/
def powV (x : FVal) (k : Nat) : FVal :=
  match x with
  | .fin s m e => .fin (s && k % 2 == 1) (m ^ k) (e * k)
  | .inf s => .inf (s && k % 2 == 1)
  | .nan g => .nan g

/-- SIGSCL of levels 1 to n (R302). -/
def sigScl (d n : Nat) (lam : Nat) (y : Array Nat) : List Nat × Flags :=
  sigAll d 1 n fun k x => roundWith .f32 .rne (mulV (f32V (y.getD (courseAt d k + x) 0)) (powV (f32V lam) k))

/-! ## Firing (R293) -/

/-- The checks and the wait that every synchronous instruction makes on the slots it names (R292, R293). -/
def sigGuard (s : State) (slots : List (BitVec 2)) (same : Bool) (f : State → State × Fired) : State × Fired :=
  let cfg (x : BitVec 2) := s.core.r.sigOf x
  let c0 := cfg (slots.headD 0)
  if slots.any fun x => !slotUsable s.core (cfg x) x then (s, illegal)
  else if same && slots.any fun x => sgD (cfg x) != sgD c0 || sgN (cfg x) != sgN c0 then (s, illegal)
  else if slots.any fun x => s.core.e.busyTiles &&& slotTiles (cfg x) x != 0 then (s, .hold)
  else f s

/-- A read of bytes of slots, each a key and a length: an uncorrectable granule among them is a fault (R383, log 62). -/
def sigRead (s : State) (ranges : List (Nat × Nat)) (f : State → State × Fired) : State × Fired :=
  if ranges.any fun (k, n) => s.bad k n then (s, .fault { cause := cUncorr, addr := 0 })
  else f (ranges.foldl (fun s (k, n) => s.corrected k n) s)

/-- The coefficients of a slot as a range of bytes. -/
def State.slotRange (s : State) (x : BitVec 2) : Nat × Nat := (sigKey s.core.id x 0, 4 * sgF (s.core.r.sigOf x))

/-- An instruction that writes slot `x` with coefficients computed from the slots `reads`. -/
def sigWriteWith (s : State) (x : BitVec 2) (reads : List (BitVec 2)) (lo : Nat)
    (f : Nat → Nat → State → List Nat × Flags) : State × Fired :=
  sigGuard s (x :: reads) true fun s =>
    sigRead s (reads.map s.slotRange) fun s =>
      let cfg := s.core.r.sigOf x
      let (vals, fl) := f (sgD cfg) (sgN cfg) s
      (s, .done .null fl [.sigSet x lo (vals.map (BitVec.ofNat 32))])

/-- The coefficients of slot y of the current core. -/
def State.slotCoefs (s : State) (y : BitVec 2) : Array Nat := s.coefs s.core.id y (sgF (s.core.r.sigOf y))

/-- SIGCFG (R295). -/
def execSigcfg (c : Ctl) (sl : BitVec 2) (s : State) : Host.Outcome State Fault Refusal :=
  fireWith (.sigcfg c sl) s fun s x =>
    let d := (tokWord x.a).toNat
    let n := (tokWord x.b).toNat
    if d = 0 ∨ 64 < d ∨ n = 0 ∨ 12 < n then (s, illegal)
    else if 32768 < courseAt d (n + 1) then (s, illegal)
    else if s.core.acc ≤ lastTile (sgWord d n) sl then (s, illegal)
    else (s, .done .null 0 [.sigCfg sl (sgWord d n)])

/-- SIGID (R296). -/
def execSigid (c : Ctl) (sl : BitVec 2) (s : State) : Host.Outcome State Fault Refusal :=
  fireWith (.sigid c sl) s fun s _ =>
    sigWriteWith s sl [] 0 fun d n _ => (sigUnit (courseAt d (n + 1)) oneF32, 0)

/-- SIGSTEP (R297). -/
def execSigstep (c : Ctl) (sl : BitVec 2) (s : State) : Host.Outcome State Fault Refusal :=
  fireWith (.sigstep c sl) s fun s x =>
    sigWriteWith s sl [sl] 0 fun d n s =>
      sigStep d n (s.slotCoefs sl)
        ((List.range d).map fun j => if laneOk 32 x.lm j then (laneOf 32 x.a j).getD 0 else 0)

/-- SIGSTRM (R298): checked when it issues. -/
def execSigstrm (c : Ctl) (tda : BitVec 6) (sl : BitVec 2) (o : CmdOpt) (s : State) : Host.Outcome State Fault Refusal :=
  fireCommand (.sigstrm c tda sl o) s fun _ _ => .ok 0

/-- SIGJOIN (R300). -/
def execSigjoin (c : Ctl) (x y z : BitVec 2) (s : State) : Host.Outcome State Fault Refusal :=
  fireWith (.sigjoin c x y z) s fun s _ =>
    sigWriteWith s x [y, z] 0 fun d n s => sigJoin d n (s.slotCoefs y) (s.slotCoefs z)

/-- SIGLOG (R301). -/
def execSiglog (c : Ctl) (x y : BitVec 2) (s : State) : Host.Outcome State Fault Refusal :=
  fireWith (.siglog c x y) s fun s _ => sigWriteWith s x [y] 0 fun d n s => sigLog d n (s.slotCoefs y)

/-- SIGEXP (R301). -/
def execSigexp (c : Ctl) (x y : BitVec 2) (s : State) : Host.Outcome State Fault Refusal :=
  fireWith (.sigexp c x y) s fun s _ => sigWriteWith s x [y] 0 fun d n s => sigExp d n (s.slotCoefs y)

/-- SIGINV (R301). -/
def execSiginv (c : Ctl) (x y : BitVec 2) (s : State) : Host.Outcome State Fault Refusal :=
  fireWith (.siginv c x y) s fun s _ => sigWriteWith s x [y] 0 fun d n s => sigInv d n (s.slotCoefs y)

/-- SIGSCL (R302). -/
def execSigscl (c : Ctl) (sl : BitVec 2) (s : State) : Host.Outcome State Fault Refusal :=
  fireWith (.sigscl c sl) s fun s x =>
    sigWriteWith s sl [sl] 1 fun d n s => sigScl d n ((tokWord x.a).toNat % 2 ^ 32) (s.slotCoefs sl)

/-- SIGMOV.cv (R303). -/
def execSigmovCv (c : Ctl) (sl : BitVec 2) (s : State) : Host.Outcome State Fault Refusal :=
  fireWith (.sigmovCv c sl) s fun s x =>
    sigGuard s [sl] false fun s =>
      let f := sgF (s.core.r.sigOf sl)
      let q := (tokWord x.a).toNat
      if f ≤ q then (s, illegal)
      else
        let live := (List.range 64).filter fun j => decide (q + j < f) && laneOk 32 x.lm j
        sigRead s (live.map fun j => (sigKey s.core.id sl (q + j), 4)) fun s =>
          (s, .done (packLanes 32 ((List.range 64).map fun j =>
            if live.contains j then some (s.readNat (sigKey s.core.id sl (q + j)) 4) else none)) 0 [])

/-- SIGMOV.vc (R303). -/
def execSigmovVc (c : Ctl) (sl : BitVec 2) (s : State) : Host.Outcome State Fault Refusal :=
  fireWith (.sigmovVc c sl) s fun s x =>
    sigGuard s [sl] false fun s =>
      let f := sgF (s.core.r.sigOf sl)
      let q := (tokWord x.a).toNat
      if f ≤ q then (s, illegal)
      else
        let vals := (List.range 64).filterMap fun j =>
          match laneOf 32 x.b j with
          | some v => if q + j < f ∧ laneOk 32 x.lm j then some (q + j, BitVec.ofNat 32 v) else none
          | none => none
        (s, .done .null 0 [.sigPut sl vals])

/-- SIGMOV.ss (R303, R304): writes at the commit. -/
def execSigmovSs (c : Ctl) (sl : BitVec 2) (s : State) : Host.Outcome State Fault Refusal :=
  fireWith (.sigmovSs c sl) s fun s x =>
    sigGuard s [sl] false fun s =>
      let f := sgF (s.core.r.sigOf sl)
      match resolve s s.core .sp (tokWord x.a).toNat (4 * f) 4 .store with
      | (s, .error e) => (s, .fault e)
      | (s, .ok (.here key, _)) =>
        sigRead s [s.slotRange sl] fun s =>
          (s, .done .null 0 [.sigStore ((List.range f).flatMap fun q =>
            byteWs (key + 4 * q) (bytesOf 4 (s.readNat (sigKey s.core.id sl q) 4)))])
      | (s, .ok _) => (s, illegal)

/-- SIGMOV.sl (R303, R304): reads when it fires, before every LSID of its block. -/
def execSigmovSl (c : Ctl) (sl : BitVec 2) (s : State) : Host.Outcome State Fault Refusal :=
  fireWith (.sigmovSl c sl) s fun s x =>
    sigGuard s [sl] false fun s =>
      let f := sgF (s.core.r.sigOf sl)
      match resolve s s.core .sp (tokWord x.a).toNat (4 * f) 4 .load with
      | (s, .error e) => (s, .fault e)
      | (s, .ok (.here key, view)) =>
        if s.bad key (4 * f) then
          (s, .fault { cause := cUncorr, addr := tokWord x.a })
        else
          match s.core.frame with
          | none => (s, .hold)
          | some fr =>
            let (s, l) := (List.range f).foldl (fun (s, l) q =>
              let (s, x) := s.loadPiece false view fr none [] (key + 4 * q) 4
              (s, l ++ [BitVec.ofNat 32 (ofBytes x.got)])) (s, [])
            (s, .done .null 0 [.sigSet sl 0 l])
      | (s, .ok _) => (s, illegal)

end Sys2Proof.Machine
end

