-- ==== Sys2Proof/Machine/Engine.lean ====
section
/-!
DEFINITION. Sys2Proof/Machine/Engine.lean: what every engine command shares: its completion with ticket, counter and Engine Error
record, its accesses as an agent of its own, and room in the engines (R31, R58, R125, R142, R237, R262).
-/
namespace Sys2Proof.Machine

/-! ## Commands of a core -/

/-- The instruction of a command word. -/
def Cmd.instr (m : Cmd) : Option Instr := match decode m.word with | .ok i => some i | .error _ => none
def Cmd.op (m : Cmd) : Nat := field m.word 63 56
def Cmd.fn (m : Cmd) : Nat := field m.word 55 51
def Cmd.xf (m : Cmd) : Nat := field m.word 9 7
/-- The counter that the completion increments (R142). -/
def Cmd.counter (m : Cmd) : Option (BitVec 5) := if bitAt m.word 1 then some (BitVec.ofNat 5 (field m.word 6 2)) else none
def Cmd.rel (m : Cmd) : Bool := bitAt m.word 0

def Core.cmdOf (c : Core) (t : Ticket) : Option Cmd := c.e.cmds.find? fun m => m.tk == t
/-- Replaces a command of a core. -/
def State.putCmd (s : State) (id : Nat) (m : Cmd) : State :=
  s.onCore id fun c => { c with e := { c.e with cmds := c.e.cmds.map fun x => if x.tk = m.tk then m else x } }
/-- Takes a command into its engine, in which it stands already when its issue has waited. -/
def State.takeCmd (s : State) (id : Nat) (m : Cmd) : State :=
  s.onCore id fun c =>
    { c with e := { c.e with cmds := if (c.cmdOf m.tk).isSome then c.e.cmds.map fun x => if x.tk = m.tk then m else x
                                     else c.e.cmds ++ [m] } }

/-- A descriptor as the command's issue found it (R263). -/
def Cmd.tdAt (m : Cmd) (c : Core) (n : Nat) : Td :=
  getTd { c.r with td := m.pre.getD c.r.td } n

/-- Engines by room: 0 copy, 1 matrix, 2 Shingle, 3 Pilot, 4 Lighter, 5 COLL, 6 launches (R247, R262, R298, R393). -/
def roomClass (op : Nat) : Nat :=
  if op = 0x6B then 0
  else if op = 0x93 then 2
  else if 0x72 ≤ op ∧ op ≤ 0x75 then 1
  else if op = 0x80 ∨ op = 0x81 ∨ op = 0x82 ∨ op = 0x89 then 3
  else if op = 0x87 then 5
  else if 0x83 ≤ op ∧ op ≤ 0x86 then 4
  else 6

def roomLimit : Nat → Option Nat
  | 0 => some 16
  | 1 => some 8
  | 2 => some 4
  | 3 => some 8
  | 4 => some 8
  | 5 => some 4
  | _ => none

/-- The engine of a command has room (R58). -/
def Core.hasRoom (c : Core) (op : Nat) : Bool :=
  match roomLimit (roomClass op) with
  | none => true
  | some n => decide ((c.e.cmds.filter fun m => roomClass m.op == roomClass op).length < n)

/-! ## Completion -/

/-- DETAIL of a fault: bit 7 for translation and data faults (R237). -/
def detailOf (cause : BitVec 8) : BitVec 8 :=
  if cause = cNotPresent ∨ cause = cRights ∨ cause = cUncorr then cause ||| 0x80 else cause

/-- An engine fault after END: a record for the supervisor, and the task does not resume (R31, R380). -/
def State.engineError (s : State) (id : Nat) (t : Ticket) (detail : BitVec 8) : State :=
  let p : Stop := { cause := cEngine, resume := 0, ticket := (ticketWord t).toNat, detail := detail.toNat }
  s.onDie (dieOfCore id) fun d => { d with trapq := d.trapq ++ [(id, p.words (s.coreAt id))] }

/-- Width of a scope in the order task, gang, die, package, domain. -/
def scopeRank : Scope → Nat
  | .task => 0
  | .gang => 1
  | .die => 2
  | .pkg => 3
  | .dom => 4

def wider (a b : Scope) : Scope := if scopeRank a < scopeRank b then b else a

/-- The scope that an operand needs (R126). -/
def tdScope (d : Td) : Scope :=
  match tdSp d with
  | .gl => .dom
  | .sb => .die
  | .nb => .gang
  | _ => .task

/-- A command's scope: the widest that its operands need, or the fixed one of its kind (R126). -/
def Cmd.scope (m : Cmd) : Scope :=
  match m.op with
  | 0x6B | 0x73 => wider (tdScope m.tda) (tdScope m.tdb)
  | 0x72 => .task
  | 0x74 => wider .gang (wider (tdScope m.tda) (tdScope m.tdb))
  | 0x75 => wider (tdScope m.tda) (wider (tdScope m.tdb) (tdScope m.tdc))
  | 0x93 => tdScope m.tda
  | 0x80 | 0x81 | 0x82 | 0x89 =>
    if ([m.tda, m.tdb, m.tdc] ++ (if m.op = 0x82 then m.rtd.take 2 else [])).any fun d => tdSp d == .gl then .dom else .die
  | _ => .dom

/-- The command is a release at issue that must wait for the task's packets (R125, R126). -/
def Cmd.releases (m : Cmd) : Bool := m.rel && m.scope != .task

/-- The contributions of a COLL that is cancelled are not sent again (R289). -/
def State.dropShares (s : State) (id : Nat) (t : Ticket) : State :=
  let key := (s.coreAt id).key
  let mine (b : Body) : Bool := match b with | .chunk _ _ _ _ _ _ _ _ c k => c == key && k == t | _ => false
  let s : State := { s with port := { s.port with net := s.port.net.filter fun p => !mine p.body } }
  (s.port.unacked.filter fun o => mine o.pkt.body).foldl (fun s o => s.acked o.src o.dst o.tag) s

/-- A command's ticket becomes final; its counter is incremented unless it was cancelled (R142), and its leave and its ranges
return (R133, R422). -/
def State.finishCmd (s : State) (id : Nat) (m : Cmd) (st : Nat) (detail : BitVec 8) (fl : Flags) (donen : Nat) : State :=
  let s := s.onCore id fun c => { c with e := c.e.finish m.tk (statusWord st detail fl donen) (m.scope != .task) }
  let s := s.onDie (dieOfCore id) fun d => { d with leaveQ := d.leaveQ.filter fun q => !(q.core == id && q.tk == m.tk) }
  let s := if st = stCancelled then s.dropShares id m.tk else s
  let s := { s with guards := s.guards.filter fun g => !(g.core == id && g.tk == m.tk) }
  let s := match m.counter with
    | some k => if st = stCancelled then s else s.onCore id fun c => c.addCounter k 1
    | none => s
  if st = stFault ∧ (s.coreAt id).st = .ended ∧ !(s.coreAt id).killed then s.engineError id m.tk detail else s

/-- The command ends: its ticket becomes final once everything that it wrote at other endpoints is performed (R127, R129, R130). -/
def State.completeCmd (s : State) (id : Nat) (m : Cmd) (st : Nat) (detail : BitVec 8) (fl : Flags) (donen : Nat) : State :=
  match (s.coreAt id).cmdOf m.tk with
  | some { fin := some _, .. } => s
  | x =>
    if s.acksCmd id m.tk then s.finishCmd id m st detail fl donen
    else (if x.isNone then s.takeCmd id m else s).putCmd id { m with fin := some (st, detail, donen), flags := fl, pre := none }

def State.doneCmd (s : State) (id : Nat) (m : Cmd) (donen : Nat) : State := s.completeCmd id m stDone 0 m.flags donen
def State.failCmd (s : State) (id : Nat) (m : Cmd) (detail : BitVec 8) (donen : Nat) : State :=
  s.completeCmd id m stFault detail m.flags donen

/-- An event of a command of the current core. A command that has ended only waits for its acknowledgements. -/
def cmdEvent (t : Ticket) (s : State) (mine : Cmd → Bool) (f : Cmd → State) : Host.Outcome State Fault Refusal :=
  match s.core.cmdOf t with
  | none => .next s
  | some m =>
    if !mine m then .next s
    else
      match m.fin with
      | some (st, detail, donen) =>
        .next (if s.acksCmd s.core.id t then s.finishCmd s.core.id m st detail m.flags donen else s)
      | none => .next (f m)

/-! ## What a command's accesses give -/

/-- A request that a command has to make at another endpoint. -/
structure Wish where
  dst : BitVec 9
  addr : Nat
  size : Nat
  op : ReqOp := .load
  data : List Byte := []
deriving DecidableEq, Repr

/-- Why a command cannot go on: a fault, or requests to other endpoints that it has still to make; with an empty list it waits for what it
has asked or written (R109). -/
inductive Stuck where
  | err (e : XErr)
  | need (l : List Wish)

/-- The result of a part of a command. -/
abbrev Prog (α : Type) := State × Except Stuck α

def Prog.andThen {α β : Type} (r : Prog α) (f : α → State → Prog β) : Prog β :=
  match r with
  | (s, .ok x) => f x s
  | (s, .error e) => (s, .error e)

/-- A part done for each of a list, in order, up to the first that cannot go on. -/
def Prog.each {α β : Type} (f : α → State → Prog β) : List α → State → Prog (List β)
  | [], s => (s, .ok [])
  | x :: l, s => Prog.andThen (f x s) fun y s => Prog.andThen (Prog.each f l s) fun ys s => (s, .ok (y :: ys))

/-- The same with a value carried along. -/
def Prog.fold {α β : Type} (f : β → α → State → Prog β) : List α → β → State → Prog β
  | [], y, s => (s, .ok y)
  | x :: l, y, s => Prog.andThen (f y x s) fun y s => Prog.fold f l y s

/-- Sends the requests that a command of a core needs, and records that it waits. -/
def State.askCmd (s : State) (id : Nat) (m : Cmd) (l : List Wish) : State :=
  let s := if ((s.coreAt id).cmdOf m.tk).isNone then s.takeCmd id m else s
  let (s, as_) := l.foldl (fun (s, as_) w =>
    let tag := s.tagNext
    let s := s.send (s.myEndp id) w.dst (w.addr / 2 ^ 37 % 4) (s.coreAt id).space false m.svr id
      (.memReq w.op (BitVec.ofNat 40 w.addr) w.size w.data) (some m.tk)
    (s, as_ ++ [({ dst := w.dst, addr := w.addr, size := w.size, op := w.op, tag := tag, answer := none } : Ask)])) (s, m.asks)
  s.putCmd id { m with asks := as_ }

/-- Takes a part of a command from `s`: done, it goes on with `f`; faulted, the command ends with `bad`; while it waits for other
endpoints nothing of the part has happened. -/
def State.takePart {α : Type} (s : State) (id : Nat) (m : Cmd) (r : Prog α) (bad : State → BitVec 8 → State) (f : State → α → State) : State :=
  match r with
  | (s', .ok x) => f s' x
  | (s', .error (.err e)) => bad s' (detailOf e.cause)
  | (_, .error (.need l)) => if l.isEmpty then s else s.askCmd id m l

/-! ## Accesses of a command -/

/-- Resolves pieces for a command of core `c`. -/
def State.agentResolve (s : State) (c : Core) (spc : Space) (k : AccKind) (ps : List Piece) : Prog (List Phys) :=
  let (s, rs) := resolveAll c spc k false ps s
  match rs.find? fun r => match r with | .error _ => true | .ok _ => false with
  | some (.error e) => (s.uncorr c.id c.space e.cause e.addr, .error (.err e))
  | _ => (s, .ok (rs.filterMap fun r => match r with | .ok (p, _) => some p | .error _ => none))

/-- The faults of a window's pieces, in the order of R251 and R263: a rank, then a bound, then a guarded range, then the rest. -/
def State.windowErr (s : State) (c : Core) (spc : Space) (k : AccKind) (ps : List Piece) : State × Option (BitVec 8) :=
  let (s, rs) := resolveAll c spc k false ps s
  let es := rs.filterMap fun r => match r with | .ok _ => none | .error e => some e.cause
  let s := rs.foldl (fun s r => match r with | .ok _ => s | .error e => s.uncorr c.id c.space e.cause e.addr) s
  let pickFrom (l : List (BitVec 8)) : Option (BitVec 8) := l.find? fun x => es.contains x
  (s, match pickFrom [cIllegal, cBounds, cGuard] with | some x => some x | none => es.head?)

/-- A store of the command to bytes at another endpoint is on its way. -/
def State.cmdStoreOut (s : State) (id : Nat) (t : Ticket) (endp : BitVec 9) (addr n : Nat) : Bool :=
  s.port.unacked.any fun o => o.core == id && o.tk == some t && o.dst == endp &&
    (match writesAt o.pkt.body with | some (x, k) => decide (x < addr + n ∧ addr < x + k) | none => false)

/-- The answer to a request at another endpoint, none before it has been asked. -/
def Cmd.askOf (m : Cmd) (w : Wish) : Option Ask :=
  m.asks.find? fun a => a.dst == w.dst && a.addr == w.addr && a.size == w.size && a.op == w.op

/-- Bytes that a command reads, in this package or at another endpoint (R109, R125). -/
def State.agentRead (s : State) (c : Core) (m : Cmd) (spc : Space) (ps : List Piece) : Prog (List (List Byte)) :=
  Prog.andThen (s.agentResolve c spc .load ps) fun phs s =>
    let all := ps.zip phs
    let far : List Wish := all.filterMap fun (p, ph) =>
      match ph with | .remote endp addr => some { dst := endp, addr := addr, size := p.size } | _ => none
    let asked := far.map m.askOf
    if asked.any fun a => match a with | some { answer := some _, .. } => false | _ => true then
      (s, .error (.need ((far.filter fun w => (m.askOf w).isNone && !s.cmdStoreOut c.id m.tk w.dst w.addr w.size).eraseDups)))
    else
      let fails : List (Except XErr Unit) := all.map fun (p, ph) =>
        let va := BitVec.ofNat 64 p.addr
        match ph with
        | .here key => if s.bad key p.size then .error { cause := cUncorr, addr := va } else .ok ()
        | .remote endp addr =>
          (match m.askOf { dst := endp, addr := addr, size := p.size } with
           | some { answer := some (cause, _), .. } => if cause = 0 then .ok () else .error { cause := cause, addr := va, rem := true }
           | _ => .ok ())
        | .door _ _ => .ok ()
      match fails.find? fun r => match r with | .error _ => true | .ok _ => false with
      | some (.error e) => (s.uncorr c.id c.space e.cause e.addr, .error (.err e))
      | _ =>
        let (s, l) := all.foldl (fun (s, l) (p, ph) =>
          match ph with
          | .here key => (s.corrected key p.size, l ++ [mread s.mem key p.size])
          | .remote endp addr =>
            (match m.askOf { dst := endp, addr := addr, size := p.size } with
             | some { answer := some (_, data), .. } => (s, l ++ [(data ++ List.replicate p.size 0).take p.size])
             | _ => (s, l ++ [List.replicate p.size 0]))
          | .door _ _ => (s, l ++ [List.replicate p.size 0])) (s, ([] : List (List Byte)))
        (s, .ok l)

/-- A store of whole bytes or of some bits of each (R223). -/
def storeOp (bs : List (Byte × Byte)) : ReqOp :=
  if bs.all fun b => b.2 == 0xFF then .store else .storeBits (bs.map Prod.snd)

/-- A write of a command, checked whole before any byte is written; what lies at other endpoints goes out as the command's packets
(R72, R125, R135). Bytes in `free` take unspecified values (R239). -/
def State.agentWrite (s : State) (c : Core) (m : Cmd) (spc : Space) (ps : List (Piece × List (Byte × Byte)))
    (shared : Phys → Nat → Bool := fun _ _ => false) : Prog Unit :=
  Prog.andThen (s.agentResolve c spc .store (ps.map Prod.fst)) fun phs s =>
    let (s, all) := (ps.zip phs).foldl (fun (s, l) ((_, bs), ph) =>
      let (s, bs) := (bs.zipIdx).foldl (fun (s, bs) ((v, k), i) =>
        if shared ph i then let (x, s) := s.drawBytes 1; (s, bs ++ [(x.headD 0, k)]) else (s, bs ++ [(v, k)]))
        (s, ([] : List (Byte × Byte)))
      (s, l ++ [(bs, ph)])) (s, ([] : List (List (Byte × Byte) × Phys)))
    let ws : List ByteW := all.flatMap fun (bs, ph) =>
      match ph with
      | .here key => (bs.zipIdx).map fun ((v, k), i) => ({ key := key + i, val := v, mask := k } : ByteW)
      | _ => []
    let s := s.poke ws
    (all.foldl (fun s (bs, ph) =>
      match ph with
      | .remote endp addr =>
        s.send (s.myEndp c.id) endp (addr / 2 ^ 37 % 4) c.space false m.svr c.id
          (.memReq (storeOp bs) (BitVec.ofNat 40 addr) bs.length (bs.map Prod.fst)) (some m.tk)
      | _ => s) s, .ok ())

/-- The pieces with their bytes that write one element. -/
def elemStore (d : Td) (i0 i1 i2 code : Nat) : List (Piece × List (Byte × Byte)) :=
  let bs := elemWrite d i0 i1 i2 code
  if 8 ≤ (tdFmt d).width then (elemPieces d i0 i1 i2).map fun p => (p, bs)
  else ((elemPieces d i0 i1 i2).zip bs).map fun (p, x) => (p, [x])

/-- A word of a table: tile element (r, c), +0 outside the extents (R67). -/
def State.tableWord (s : State) (c : Core) (m : Cmd) (d : Td) (r col : Nat) : Prog Nat :=
  let (i0, i1) := tileIdx d r col
  if !inExtents d i0 i1 0 then (s, .ok 0)
  else Prog.andThen (s.agentRead c m (tdSp d) (elemPieces d i0 i1 0)) fun l s => (s, .ok (elemCode d i0 i1 0 l.flatten))

/-- Reads n consecutive elements of a table row. -/
def State.getRow (c : Core) (m : Cmd) (d : Td) (r n j : Nat) (s : State) : Prog (List Nat) :=
  Prog.each (fun i s => s.tableWord c m d r (j + i)) (List.range n) s

/-- Writes consecutive elements of a table row, all or none; outside the extents nothing is written. -/
def State.putRow (c : Core) (m : Cmd) (d : Td) (r j : Nat) (xs : List Nat) (s : State) : Prog Unit :=
  s.agentWrite c m (tdSp d) ((xs.zipIdx).flatMap fun (x, i) =>
    let (i0, i1) := tileIdx d r (j + i)
    if inExtents d i0 i1 0 then elemStore d i0 i1 0 x else [])

/-- The value of a tensor element as a command reads it (R67). -/
def State.agentElem (s : State) (c : Core) (m : Cmd) (d : Td) (i0 i1 i2 : Nat) : Prog FVal :=
  if !inExtents d i0 i1 i2 then (s, .ok (.fin false 0 0))
  else Prog.andThen (s.agentRead c m (tdSp d) (elemAll d i0 i1 i2)) fun l s => (s, .ok (elemFrom d m.svr i0 i1 i2 l))

/-- Elements in order. -/
def State.agentElems (c : Core) (m : Cmd) (d : Td) (l : List (Nat × Nat × Nat)) (s : State) : Prog (List FVal) :=
  Prog.each (fun (i0, i1, i2) s => s.agentElem c m d i0 i1 i2) l s

/-! ## Leave (R252, R261, R422) -/

/-- The task of a core drains: it is stopped for a switch-out or a migration, for which a task stopped for its supervisor waits too, or it is
being killed (R390, R422). -/
def State.draining (s : State) (c : Core) : Bool :=
  c.st == .quiet || c.killed
  || (c.st == .stopped && match c.task with | some t => s.gangs.any fun g => g.id == t.gang && g.request.isSome | none => false)

/-- Units of a heavy command, none for the others (R252, R422). -/
def Cmd.units (m : Cmd) (kDim : Nat) : Option Nat :=
  match m.op with
  | 0x73 => if 64 ≤ kDim then (match tdFmt m.tda with | .f32 | .f64 => some 1 | _ => some 2) else none
  | 0x74 => some 2
  | 0x75 => (match tdFmt m.tda with | .f32 | .f64 => some 1 | _ => some 2)
  | 0x93 => some 1
  | _ => none

/-- K of a matrix command (R250). -/
def Cmd.kDim (m : Cmd) : Nat := tdExt0 m.tda - tdCol0 m.tda

/-- Units granted on a die. -/
def State.grantedUnits (s : State) (d : Nat) : Nat :=
  (s.allCores.filter fun c => decide (dieOfCore c.id = d ∧ c.id < 1024)).foldl (fun n c =>
    c.e.cmds.foldl (fun n m => if m.leave = .granted then n + (m.units m.kDim).getD 0 else n) n) 0

/-- The request fits (R422, R423). -/
def State.leaveFits (s : State) (d units : Nat) : Bool := decide (s.grantedUnits d + units ≤ (s.die d).dlim)

/-- A request enters the queue in the order of arrival, and of core numbers within a cycle (R422). -/
def enterLeave (r : LeaveReq) : List LeaveReq → List LeaveReq
  | [] => [r]
  | x :: l => if x.cycle = r.cycle ∧ r.core < x.core then r :: x :: l else x :: enterLeave r l

/-- A heavy command asks for leave (R252, R422). -/
def State.askLeave (s : State) (id : Nat) (m : Cmd) (units : Nat) : State :=
  let r : LeaveReq := { core := id, tk := m.tk, units := units, cycle := s.cycle }
  (s.onDie (dieOfCore id) fun di => { di with leaveQ := enterLeave r di.leaveQ }).putCmd id { m with leave := .asked }

/-- The request that the governor of a die looks at next among some: a draining task's first (R261, R422). -/
def State.nextLeave (s : State) (q : List LeaveReq) : Option LeaveReq :=
  match q.find? fun r => s.draining (s.coreAt r.core) with | some r => some r | none => q.head?

/-- A request is granted. -/
def State.grantLeave (s : State) (d : Nat) (r : LeaveReq) : State :=
  let s := s.onDie d fun di => { di with leaveQ := di.leaveQ.filter fun x => !(x.core == r.core && x.tk == r.tk) }
  match (s.coreAt r.core).cmdOf r.tk with
  | some m => s.putCmd r.core { m with leave := .granted }
  | none => s

/-- Grants requests of a die until one does not fit; `fuel` bounds their number. -/
def State.grantLeaves (d : Nat) : Nat → State → State
  | 0, s => s
  | fuel + 1, s =>
    match s.nextLeave (s.die d).leaveQ with
    | some r => if s.leaveFits d r.units then State.grantLeaves d fuel (s.grantLeave d r) else s
    | none => s

/-- At the end of a cycle in which a die has been asked for leave, its governor grants what fits; a request of the cycle that is not granted
counts as a wait (R252, R422). -/
def State.closeLeave (s : State) (d : Nat) : State :=
  if (s.die d).leaveQ.any fun r => r.cycle == s.cycle then
    let s := State.grantLeaves d (s.die d).leaveQ.length s
    ((s.die d).leaveQ.filter fun r => r.cycle == s.cycle).foldl (fun s r =>
      s.onCore r.core fun c => { c with leaveWaits := c.leaveWaits + 1 }) s
  else s

end Sys2Proof.Machine
end

