-- ==== Sys2Proof/Machine/MatrixEngine.lean ====
section
/-!
DEFINITION. Sys2Proof/Machine/MatrixEngine.lean: matrix and signature commands from issue to completion (R91, R246 to R258, R261,
R298, R299, R422).
-/
namespace Sys2Proof.Machine

/-! ## Shapes and operands (R250) -/

/-- The transposed form. -/
def Cmd.tb (m : Cmd) : Bool := m.op != 0x75 && m.fn == 1
def Cmd.isGmma (m : Cmd) : Bool := m.op == 0x75
def rowsOfTd (d : Td) : Nat := if tdNd d = 1 then 1 - tdRow0 d else tdExt1 d - tdRow0 d
def colsOfTd (d : Td) : Nat := tdExt0 d - tdCol0 d

/-- Class of the operands, none when they mix classes or name no class (R249). -/
def Cmd.matClass (m : Cmd) : Option MatClass :=
  match Machine.matClass (tdFmt m.tda), Machine.matClass (tdFmt m.tdb) with
  | some a, some b => if a.num = b.num then some a else none
  | _, _ => none

/-- N (R250): EXT1 of a descriptor of one dimension is 0. -/
def Cmd.nDim (m : Cmd) : Nat := min (if m.tb then tdExt1 m.tdb - tdRow0 m.tdb else colsOfTd m.tdb) 128

/-- Output rows: M, or the sum of the counts. -/
def Cmd.mTot (m : Cmd) (k : MatClass) : Nat :=
  if m.isGmma then m.counts.foldl (· + ·) 0 else min (rowsOfTd m.tda) k.mmax

/-- The group that owns output row r, and none past the last. -/
def groupAt : List Nat → Nat → Nat
  | [], _ => 0
  | n :: ns, r => if r < n then 0 else 1 + groupAt ns (r - n)

/-- Tensor indices of A(i, k), and of B(k, j) for depth g. -/
def Cmd.aIdx (m : Cmd) (i k : Nat) : Nat × Nat × Nat := (tdCol0 m.tda + k, tdRow0 m.tda + i, 0)
def Cmd.bIdx (m : Cmd) (k j g : Nat) : Nat × Nat × Nat :=
  if m.tb then (tdCol0 m.tdb + k, tdRow0 m.tdb + j, 0) else (tdCol0 m.tdb + j, tdRow0 m.tdb + k, if m.isGmma then g else 0)

/-- Depths that hold a row. -/
def Cmd.depths (m : Cmd) : List Nat :=
  if m.isGmma then (List.range m.counts.length).filter fun g => m.counts.getD g 0 != 0 else [0]

/-- Rows of a window that lie inside the extents; in one dimension every row is the same elements, the swizzle tells eight apart, and a scale
array has scales of its own for each (R67). -/
def rowsInside (d : Td) (n : Nat) : Nat := min n (if tdNd d ≠ 1 then rowsOfTd d else if tdSoff d ≠ 0 then n else 8)

/-- Pieces of every element of the operand windows inside their extents. -/
def Cmd.aPieces (m : Cmd) (k : MatClass) : List Piece :=
  (List.range (rowsInside m.tda (m.mTot k))).flatMap fun i =>
    (List.range m.kDim).flatMap fun kk =>
      let (i0, i1, i2) := m.aIdx i kk
      if inExtents m.tda i0 i1 i2 then elemAll m.tda i0 i1 i2 else []
def Cmd.bPieces (m : Cmd) : List Piece :=
  m.depths.flatMap fun g => (List.range (if m.tb then min m.kDim (colsOfTd m.tdb) else rowsInside m.tdb m.kDim)).flatMap fun kk =>
    (List.range m.nDim).flatMap fun j =>
      let (i0, i1, i2) := m.bIdx kk j g
      if inExtents m.tdb i0 i1 i2 then elemAll m.tdb i0 i1 i2 else []

/-- Rows of a tile in a class (R258). -/
def tileRows (k : MatClass) : Nat := if k.acc = .f64 then 64 else 128

/-- Nothing to compute (R251). -/
def Cmd.isEmpty (m : Cmd) (k : MatClass) : Bool := m.mTot k == 0 || m.nDim == 0 || m.kDim == 0

/-- Tiles that the command names (R246, R258). -/
def Cmd.tileCount (m : Cmd) (k : MatClass) : Nat := if m.isGmma then ceilDiv (m.mTot k) (tileRows k) else 1
def tileMask (first n : Nat) : BitVec 8 := BitVec.ofNat 8 ((2 ^ n - 1) * 2 ^ first)

/-- Cost (R251). -/
def Cmd.cost (m : Cmd) (k : MatClass) : Nat := ceilDiv (m.mTot k * m.nDim * (k.ch * ceilDiv m.kDim k.ch)) k.rate

/-- Descriptor check (R68, R250, R258). -/
def Cmd.matOk (m : Cmd) : Bool :=
  tdOk m.tda && tdOk m.tdb && tdSpCode m.tda != 0 && tdSpCode m.tdb != 0 && tdNd m.tda != 3
  && (if m.isGmma then tdNd m.tdb == 3 else tdNd m.tdb != 3) && m.matClass.isSome
  && (!m.isGmma || (tdOk m.tdc && tdFmt m.tdc == .n32 && tdNd m.tdc == 1 && decide (1 ≤ tdExt0 m.tdc ∧ tdExt0 m.tdc ≤ 64)
        && tdSoff m.tdc == 0 && tdSpCode m.tdc != 0))

/-! ## MMAG groups (R256, R257) -/

/-- The members of the core's group of four, by core. -/
def Core.groupCores (c : Core) : List Nat := (List.range 4).map fun q => c.member (4 * (c.rank / 4) + q)

/-- The n-th MMAG of a core as it was issued. -/
def Core.panelOf (c : Core) (n : Nat) : Option (Bool × Cmd) := lookup n c.e.panels

/-- A shared panel must lie where it names the same bytes on every core. -/
def panelSpaces (m : Cmd) : Bool :=
  !(tdSp m.tda == .sp || tdSp m.tda == .sw || tdSp m.tdb == .sp || tdSp m.tdb == .sw)

/-- DETAIL of a group whose four commands have been issued: the descriptors and K, then SVR (R257, log 115). -/
def groupDetail (ms : List Cmd) : Option (BitVec 8) :=
  match ms with
  | [a, b, c, d] =>
    if a.tda != b.tda || c.tda != d.tda || a.tdb != c.tdb || b.tdb != d.tdb then some cIllegal
    else if a.kDim ≠ b.kDim ∨ a.kDim ≠ c.kDim ∨ a.kDim ≠ d.kDim then some cIllegal
    else if a.svr != b.svr || a.svr != c.svr || a.svr != d.svr then some cFormat
    else none
  | _ => some cIllegal

/-- Ends the n-th MMAGs that a list of cores still holds. -/
def failGroup (n : Nat) (detail : BitVec 8) : List Nat → State → State
  | [], s => s
  | id :: ids, s =>
    match (s.coreAt id).e.cmds.find? fun m => m.op == 0x74 && m.nth == n with
    | some m => failGroup n detail ids (s.failCmd id m detail 0)
    | none => failGroup n detail ids s

/-- An MMAG is issued as its core's n-th: the group's rules are checked once all four have issued, or as soon as one of them
cannot pass (R257). A sibling that ended FAULT when it issued ends the group (log 30). -/
def State.joinGroup (s : State) (id : Nat) (m : Cmd) (ownFault : Bool) : State :=
  let n := m.nth
  let s := s.onCore id fun c => { c with e := { c.e with panels := assign n (ownFault, m) c.e.panels } }
  let ids := (s.coreAt id).groupCores
  let sib := ids.map fun i => s.coreAt i
  let gone := sib.any fun c => (c.st == .ended || c.st == .held) && decide (c.e.mmags < n)
  let faulted := sib.any fun c => match c.panelOf n with | some (f, _) => f | none => false
  if faulted || gone then failGroup n cIllegal ids s
  else
    let ms := sib.filterMap fun c => (c.panelOf n).map Prod.snd
    if ms.length < 4 then s
    else
      match groupDetail ms with
      | some d => failGroup n d ids s
      | none => s

/-- At an END commit, the pending MMAGs that its core will never join end FAULT (R257). -/
def State.leaveGroup (s : State) (id : Nat) : State :=
  let c := s.coreAt id
  if 4 * (c.rank / 4) + 3 < c.gsize then
    c.groupCores.foldl (fun s i =>
      ((s.coreAt i).e.cmds.filter fun m => m.op == 0x74 && decide (c.e.mmags < m.nth)).foldl
        (fun s m => failGroup m.nth cIllegal c.groupCores s) s) s
  else s

/-! ## Issue (R246, R250, R251) -/

/-- Ends a command at issue. An MMAG counts as issued and ends its group. -/
def State.refuseMatrix (s : State) (id : Nat) (m : Cmd) (detail : BitVec 8) : State :=
  let s := s.failCmd id m detail 0
  if m.op = 0x74 then s.joinGroup id m true else s

/-- The first of the window checks of R251 that some of the windows (descriptor, pieces) fails: rank, bound, guarded range. -/
def State.operandErr (s : State) (c : Core) (l : List (Td × List Piece)) : State × Option (BitVec 8) :=
  let (s, es) := l.foldl (fun (s, es) (d, ps) =>
    let (s, e) := s.windowErr c (tdSp d) .load ps
    (s, es ++ e.toList)) (s, ([] : List (BitVec 8)))
  (s, [cIllegal, cBounds, cGuard].find? fun x => es.contains x)

/-- Issue of MMA, MMAG or GMMA with its counts read: the checks of R251 after that of the descriptors, which a command without anything to
compute passes; an MMAG among those counts as its member's part of the group (log 110). -/
def State.issueProduct (s : State) (id : Nat) (m : Cmd) : State :=
  let c := s.coreAt id
  match m.matClass with
  | none => s.refuseMatrix id m cDesc
  | some k =>
    let empty := m.isEmpty k
    let (s, e) := if empty then (s, none) else s.operandErr c [(m.tda, m.aPieces k), (m.tdb, m.bPieces)]
    match e with
    | some d => s.refuseMatrix id m d
    | none =>
      let first := m.xf
      let grouped := decide (4 * (c.rank / 4) + 3 < c.gsize)
      if !empty && (decide (c.acc < first + m.tileCount k) || decide (4096 < m.cost k)) then s.refuseMatrix id m cIllegal
      else if !empty && m.op == 0x74 && (!grouped || k.num == 4 || !panelSpaces m) then s.refuseMatrix id m cIllegal
      else
        let m := { m with tiles := if empty then 0 else tileMask first (m.tileCount k) }
        let s := s.usesUnit id (fmtUnits (tdFmt m.tda) ||| fmtUnits (tdFmt m.tdb))
        let s := if empty then s.doneCmd id m (m.mTot k) else s.takeCmd id m
        if m.op = 0x74 ∧ grouped then s.joinGroup id m false else s

/-- Issue of a matrix command (R246 to R258). The counts of a GMMA are read here; a rank of an operand is looked at before a bound or
a guarded range of their table (R251). -/
def State.issueMatrix (s : State) (id : Nat) (m : Cmd) : State :=
  if m.op = 0x72 then s.takeCmd id { m with tiles := tileMask m.xf 1 }
  else
    let m := if m.op = 0x74 then { m with nth := (s.coreAt id).e.mmags + 1 } else m
    let s := if m.op = 0x74 then s.onCore id fun c => { c with e := { c.e with mmags := c.e.mmags + 1 } } else s
    if !m.matOk then s.refuseMatrix id m cDesc
    else if m.isGmma then
      let c := s.coreAt id
      let g := tdExt0 m.tdc
      let tables := (List.range (g - tdCol0 m.tdc)).flatMap fun j => let (i0, i1) := tileIdx m.tdc 0 j; elemPieces m.tdc i0 i1 0
      match s.operandErr c [(m.tdc, tables)] with
      | (s, some d) =>
        let all := { m with counts := List.replicate g 1 }
        let (s, e) := match m.matClass with
          | some k => if all.isEmpty k then (s, none) else s.operandErr c [(m.tda, all.aPieces k), (m.tdb, all.bPieces)]
          | none => (s, none)
        s.refuseMatrix id m (if e = some cIllegal then cIllegal else d)
      | (s, none) => s.takePart id m (State.getRow c m m.tdc 0 g 0 s) (fun s d => s.refuseMatrix id m d)
          fun s l => s.issueProduct id { m with counts := l }
    else s.issueProduct id m

/-- Increments of a SIGSTRM (R298). -/
def strmCount (d : Td) : Nat := if tdNd d = 2 then tdExt1 d - tdRow0 d else 1

/-- The elements of increment r of a SIGSTRM: those inside EXT0 (R298). -/
def strmIdx (d : Td) (dim r : Nat) : List (Nat × Nat × Nat) :=
  (List.range dim).map fun i => let (i0, i1) := tileIdx d r i; (i0, i1, 0)

/-- Issue of SIGSTRM (R298). -/
def State.issueSigstrm (s : State) (id : Nat) (m : Cmd) : State :=
  let c := s.coreAt id
  let d := m.tda
  let sl : BitVec 2 := BitVec.ofNat 2 m.xf
  let cfg := c.r.sigOf sl
  let m := { m with scfg := cfg }
  let f := tdFmt d
  if !(tdOk d && (f == .f32 || f == .bf16 || f == .f16) && tdSpCode d != 0 && tdNd d != 3) then s.failCmd id m cDesc 0
  else if !slotUsable c cfg sl then s.failCmd id m cIllegal 0
  else
    let n := strmCount d
    let ps := (List.range n).flatMap fun r => (strmIdx d (sgD cfg) r).flatMap fun (i0, i1, i2) =>
      if inExtents d i0 i1 i2 then elemAll d i0 i1 i2 else []
    match s.windowErr c (tdSp d) .load ps with
    | (s, some e) => s.failCmd id m e 0
    | (s, none) =>
      if 4096 < n * ceilDiv (sgN cfg * sgF cfg) 256 then s.failCmd id m cIllegal 0
      else if n = 0 then s.doneCmd id m 0
      else s.takeCmd id { m with tiles := slotTiles cfg sl }

/-! ## Start (R246, R247, R252, R257) -/

/-- No earlier command of the core names one of the tiles (R128). -/
def Core.tilesFree (c : Core) (m : Cmd) : Bool :=
  !((c.e.cmds.takeWhile fun x => x.tk != m.tk).any fun x => x.tiles &&& m.tiles != 0)

/-- The four commands of an MMAG's group all hold leave; one with nothing to compute counts as holding it (log 110). -/
def State.groupReady (s : State) (id n : Nat) : Bool :=
  (s.coreAt id).groupCores.all fun i =>
    match (s.coreAt i).e.cmds.find? fun m => m.op == 0x74 && m.nth == n with
    | some m => m.leave == .granted
    | none => match (s.coreAt i).panelOf n with | some (f, m) => !f && m.tiles == 0 | none => false

/-- All four MMAGs of a group have been issued, and none has ended it: its rules have passed (R252, R257). -/
def State.groupIssued (s : State) (id n : Nat) : Bool :=
  (s.coreAt id).groupCores.all fun i => match (s.coreAt i).panelOf n with | some (f, _) => !f | none => false

/-- Starts a command that holds leave: an MMAG with its group. -/
def State.startHeavy (s : State) (id : Nat) (m : Cmd) : State :=
  if m.op ≠ 0x74 then s.putCmd id { m with started := true }
  else if s.groupReady id m.nth then
    (s.coreAt id).groupCores.foldl (fun s i => s.onCore i fun c => { c with e := { c.e with cmds := c.e.cmds.map fun x =>
      if x.op == 0x74 && x.nth == m.nth then { x with started := true } else x } }) s
  else s

/-- MATRIX_COMMAND_START: a held matrix or signature command whose checks have passed and whose tiles are free starts, a heavy one once it
has asked for leave and holds it; an MMAG starts with its group. -/
def execMatrixCommandStart (t : Ticket) (s : State) : Host.Outcome State Fault Refusal :=
  cmdEvent t s (fun m => (t.eng == engMatrix || t.eng == engSig) && !m.started) fun m =>
    let id := s.core.id
    if !s.core.tilesFree m || (m.op == 0x74 && !s.groupIssued id m.nth) then s
    else
      match m.units m.kDim, m.leave with
      | none, _ => s.putCmd id { m with started := true }
      | some u, .no => s.askLeave id m u
      | some _, .asked => s
      | some _, .granted => s.startHeavy id m

/-- LEAVE_GRANT: the governor of a die grants the next request of an earlier cycle, a draining task's first (R261, R422). -/
def execLeaveGrant (die : BitVec 2) (s : State) : Host.Outcome State Fault Refusal :=
  let d := die.toNat
  match s.nextLeave ((s.die d).leaveQ.filter fun r => decide (r.cycle < s.cycle)) with
  | none => .next s
  | some r => .next (if s.leaveFits d r.units then s.grantLeave d r else s)

/-! ## Completion (R91, R253 to R255, R258) -/

/-- One output element (R91). -/
def dotChunks (acc : Ty) : List (List (FVal × FVal)) → Nat → Nat × Flags
  | [], cur => (cur, 0)
  | ch :: chs, cur =>
    let ps := ch.map fun (a, b) => mulV a b
    let (sum, f1) := chunkSum (ps.map Prod.fst)
    let (r, f2) := roundWith acc .rne (addV .rne (decodeF acc false cur) sum)
    let (out, f3) := dotChunks acc chs r
    (out, orAll (ps.map Prod.snd) ||| f1 ||| f2 ||| f3)

/-- Cuts a list into chunks of n ≥ 1. -/
def chunksOf {α : Type} (n : Nat) : Nat → List α → List (List α)
  | 0, _ => []
  | fuel + 1, l => if l.isEmpty then [] else l.take n :: chunksOf n fuel (l.drop n)

/-- The coefficients of one output row, or the fault of a read. -/
def State.productRow (s : State) (c : Core) (m : Cmd) (k : MatClass) (r : Nat) : Prog (List ByteW × Flags) :=
  let g := if m.isGmma then groupAt m.counts r else 0
  let tile := m.xf + r / tileRows k
  let row := r % tileRows k
  let first := coefKey c.id tile k.acc row 0
  if s.bad first (m.nDim * coefBytes k.acc) then
    (s.uncorr c.id c.space cUncorr (BitVec.ofNat 64 first), .error (.err { cause := cUncorr, addr := 0 }))
  else
    Prog.andThen (State.agentElems c m m.tda ((List.range m.kDim).map fun kk => m.aIdx r kk)
        (s.corrected first (m.nDim * coefBytes k.acc))) fun as_ s =>
      Prog.andThen (State.agentElems c m m.tdb ((List.range m.nDim).flatMap fun j =>
          (List.range m.kDim).map fun kk => m.bIdx kk j g) s) fun bs s =>
        let cols := chunksOf (max m.kDim 1) m.nDim bs
        let outs := cols.zipIdx.map fun (b, j) =>
          let key := coefKey c.id tile k.acc row j
          let (x, fl) := dotChunks k.acc (chunksOf k.ch m.kDim (as_.zip b)) (s.readNat key (coefBytes k.acc))
          (byteWs key (bytesOf (coefBytes k.acc) x), fl)
        (s, .ok (outs.flatMap Prod.fst, orAll (outs.map Prod.snd)))

/-- The next block of 16 rows, written whole; an unreadable operand ends the command with the earlier blocks whole (R253). -/
def State.productBlock (s : State) (c : Core) (m : Cmd) (k : MatClass) : State :=
  let n := m.mTot k
  let rows := (List.range (min 16 (n - 16 * m.done))).map (16 * m.done + ·)
  s.takePart c.id m (Prog.each (fun r s => s.productRow c m k r) rows s)
    (fun s d => s.completeCmd c.id m stFault d m.flags (16 * m.done))
    fun s l =>
      let m := { m with done := m.done + 1, flags := m.flags ||| orAll (l.map Prod.snd) }
      let s := s.writeRecorded (l.flatMap Prod.fst)
      if n ≤ 16 * m.done then s.doneCmd c.id m n else s.putCmd c.id m

/-- MATRIX_COMMAND_COMPLETE: the next block of rows, and with the last one the command completes. -/
def execMatrixCommandComplete (t : Ticket) (s : State) : Host.Outcome State Fault Refusal :=
  cmdEvent t s (fun m => t.eng == engMatrix && m.started) fun m =>
    if m.op = 0x72 then
      { s with mem := mclear s.mem (accKey s.core.id (m.xf * 65536)) 65536,
               badGran := s.badGran.filter fun g =>
                 !(decide (accKey s.core.id (m.xf * 65536) ≤ g * 32 ∧ g * 32 < accKey s.core.id (m.xf * 65536) + 65536)),
               softGran := s.softGran.filter fun g =>
                 !(decide (accKey s.core.id (m.xf * 65536) ≤ g * 32 ∧ g * 32 < accKey s.core.id (m.xf * 65536) + 65536)) }.doneCmd
        s.core.id m 128
    else
      match m.matClass with
      | none => s.failCmd s.core.id m cDesc 0
      | some k => s.productBlock s.core m k

/-- The next increment, applied whole (R299). -/
def State.strmRow (s : State) (c : Core) (m : Cmd) (sl : BitVec 2) : State :=
  let slot := sigKey c.id sl 0
  let n := 4 * sgF m.scfg
  let fail (s : State) (d : BitVec 8) : State := s.completeCmd c.id m stFault d m.flags m.done
  if s.bad slot n then fail (s.uncorr c.id c.space cUncorr (BitVec.ofNat 64 slot)) (detailOf cUncorr)
  else
    s.takePart c.id m (State.agentElems c m m.tda (strmIdx m.tda (sgD m.scfg) m.done) (s.corrected slot n)) fail fun s vs =>
      let dl := vs.map fun v => rne .f32 v
      let (out, f) := sigStep (sgD m.scfg) (sgN m.scfg) (s.coefs c.id sl (sgF m.scfg)) (dl.map Prod.fst)
      let ws := out.zipIdx.flatMap fun (x, q) => byteWs (sigKey c.id sl q) (bytesOf 4 x)
      let m := { m with done := m.done + 1, flags := m.flags ||| f ||| orAll (dl.map Prod.snd) }
      let s := s.writeRecorded ws
      if strmCount m.tda ≤ m.done then s.doneCmd c.id m m.done else s.putCmd c.id m

/-- SIGSTRM_COMPLETE: the next increment, and with the last one the command completes. -/
def execSigstrmComplete (t : Ticket) (s : State) : Host.Outcome State Fault Refusal :=
  cmdEvent t s (fun m => t.eng == engSig && m.started) fun m => s.strmRow s.core m (BitVec.ofNat 2 m.xf)

end Sys2Proof.Machine
end

