-- ==== Sys2Proof/Machine/CopyEngine.lean ====
section
/-!
DEFINITION. Sys2Proof/Machine/CopyEngine.lean: COPY and COPY.ch from issue to completion (R238 to R240).
-/
namespace Sys2Proof.Machine

/-- Extents of the window (R238). -/
def windowDims (d : Td) : Nat × Nat × Nat :=
  (tdExt0 d - tdCol0 d, if 2 ≤ tdNd d then tdExt1 d - tdRow0 d else 1, if tdNd d = 3 then tdExt2 d else 1)

/-- The window's indices in loop order. -/
def windowIdx (d : Td) : List (Nat × Nat × Nat) :=
  let (n0, n1, n2) := windowDims d
  (List.range n2).flatMap fun i2 => (List.range n1).flatMap fun i1 => (List.range n0).map fun i0 => (i0, i1, i2)

/-- Moves codes unchanged (R238). -/
def isBitCopy (a b : Td) : Bool :=
  tdFmt a == tdFmt b && ((tdScb a == tdScb b && tdSoff a == 0 && tdSoff b == 0) || (tdSoff a != 0 && tdSoff b != 0))

/-- The descriptor check of R238 and R239. -/
def copyOk (a b : Td) : Bool :=
  tdOk a && tdOk b && (isBitCopy a b || ((tdFmt a).isInt == (tdFmt b).isInt && tdSoff b == 0))

/-- COPY.ch: the handle and whether it serves as the producer (R240). -/
def Cmd.chan (m : Cmd) : Option (BitVec 4) :=
  if m.op = 0x6B ∧ m.fn = 1 then some (BitVec.ofNat 4 (field m.word 13 10)) else none

/-- The engine's role on an own handle: some true for the producer. -/
def engineRole (c : Core) (h : BitVec 4) : Option Bool :=
  match chanOf c h with
  | some x => if !x.own then none else if x.pb = 3 then some true else if x.cb = 3 then some false else none
  | none => none

/-- The commands of a list after the one with a ticket, on one handle, are to end FAULT 0x12. -/
def doomLater (t : Ticket) (h : BitVec 4) : List Cmd → List Cmd
  | [] => []
  | m :: l =>
    if m.tk = t then m :: l.map fun (x : Cmd) => if x.chan = some h then { x with detail := cChannel } else x
    else m :: doomLater t h l

/-- A COPY.ch that ends FAULT poisons its handle for every later COPY.ch, issued already or not (R240). -/
def State.failCopy (s : State) (id : Nat) (m : Cmd) (detail : BitVec 8) (donen : Nat) : State :=
  match m.chan with
  | none => s.failCmd id m detail donen
  | some h =>
    let poison (c : Core) : Core :=
      { c with e := { c.e with cmds := doomLater m.tk h c.e.cmds, chFault := c.e.chFault ||| (1 : BitVec 16) <<< h.toNat } }
    (s.onCore id poison).failCmd id m detail donen

/-- A copy is done; a channel copy advances its pointer with it, as a release (R130, R240). One that holds its slot when its handle has been
unbound advances nothing (log 114). -/
def State.doneCopy (s : State) (id : Nat) (m : Cmd) : State :=
  let s' := s.doneCmd id m m.done
  match m.chan with
  | none => s'
  | some h =>
    match engineRole (s.coreAt id) h with
    | some prod => s'.advance id h prod 1
    | none => s'

/-- No COPY.ch of the handle is in flight before this one: those of one handle take slots and advance in issue order (R240). -/
def Core.firstOnChan (c : Core) (m : Cmd) (h : BitVec 4) : Bool :=
  !((c.e.cmds.takeWhile fun x => x.tk != m.tk).any fun x => x.chan == some h)

/-- Issue of a copy: the descriptors, then the channel (R239, R240). With an empty window it is done at once, on a handle after the copies
before it (R238, log 55). -/
def State.issueCopy (s : State) (id : Nat) (m : Cmd) : State :=
  let c := s.coreAt id
  let empty := (windowIdx m.tda).isEmpty
  if !copyOk m.tda m.tdb then s.failCopy id m cDesc 0
  else
    let s := s.usesUnit id (taperedUnit (tdFmt m.tda) ||| taperedUnit (tdFmt m.tdb))
    match m.chan with
    | none => if empty then s.doneCopy id m else s.takeCmd id { m with started := true }
    | some h =>
      match engineRole c h with
      | none => s.failCopy id m cChannel 0
      | some prod =>
        if c.e.chFault.getLsbD h.toNat then s.failCopy id m cChannel 0
        else if tdSpCode (if prod then m.tdb else m.tda) != 1 then s.failCopy id m cChannel 0
        else if empty && c.firstOnChan m h then s.doneCopy id m
        else s.takeCmd id m

/-- The descriptor whose base takes the slot, moved to it. -/
def slotTd (d : Td) (off : Nat) : Td := { d with w1 := BitVec.ofNat 64 ((tdBase d + off) % 2 ^ 57) }

/-- COPY_SLOT_TAKE: the next COPY.ch of a handle takes its slot once there is one (R240). -/
def execCopySlotTake (t : Ticket) (s : State) : Host.Outcome State Fault Refusal :=
  cmdEvent t s (fun m => m.chan.isSome && !m.started) fun m =>
    let id := s.core.id
    match m.chan with
    | none => s
    | some h =>
      if !s.core.firstOnChan m h then s
      else if m.detail != 0 then s.failCopy id m m.detail 0
      else if (windowIdx m.tda).isEmpty then s.doneCopy id m
      else
        match engineRole s.core h, chanOf s.core h with
        | some prod, some x =>
          if (if prod then x.free else x.filled) = 0 then s
          else
            let off := x.slotOff prod
            let m := if prod then { m with tdb := slotTd m.tdb off } else { m with tda := slotTd m.tda off }
            s.putCmd id { m with started := true, slot := some off }
        | _, _ => s.failCopy id m cChannel 0

/-- Destination index of a window index. -/
def destIdx (d : Td) (i : Nat × Nat × Nat) : Nat × Nat × Nat := (tdCol0 d + i.1, tdRow0 d + i.2.1, i.2.2)

/-- Window indices whose destination is written (R67, R238). -/
def liveIdx (m : Cmd) : List (Nat × Nat × Nat) :=
  (windowIdx m.tda).filter fun i => let (a, b, c) := destIdx m.tdb i; inExtents m.tdb a b c

/-- Elements of one chunk of 1 KiB of destination bytes (R239). -/
def perChunk (m : Cmd) : Nat := 8192 / (tdFmt m.tdb).width

def chunkIdx (m : Cmd) : List (Nat × Nat × Nat) := ((liveIdx m).drop (m.done * perChunk m)).take (perChunk m)

/-- A value copied to an integer format: SatInt of an integer; a value that a scale has made no integer is rounded to nearest even first
(R238, log 47); a NaN scale gives +0 with QINV (R67, log 107). -/
def copyInt (t : Ty) (x : FVal) : Nat × Flags :=
  match x with
  | .fin neg m e =>
    let (n, inexact) := toIntegral .rne neg m e
    let (c, f) := satInt t n
    (c, f ||| (if inexact then fNX else 0))
  | _ => (0, fQINV)

/-- One element copied: its code at the destination (R238). -/
def State.copyElem (s : State) (c : Core) (m : Cmd) (i : Nat × Nat × Nat) : Prog (Nat × Flags) :=
  let (a0, a1, a2) := destIdx m.tda i
  if isBitCopy m.tda m.tdb then
    Prog.andThen (s.agentRead c m (tdSp m.tda) (elemPieces m.tda a0 a1 a2)) fun l s => (s, .ok (elemCode m.tda a0 a1 a2 l.flatten, 0))
  else
    Prog.andThen (s.agentElem c m m.tda a0 a1 a2) fun v s =>
      let q := storeQuot m.tdb v none
      (s, .ok (if (tdFmt m.tdb).isInt then copyInt (tdFmt m.tdb) q else roundF (tdFmt m.tdb) m.svr .rne q))

/-- Where the bytes of a window lie. -/
def State.windowPhys (s : State) (c : Core) (d : Td) : State × List (Phys × Nat) :=
  let ps := (windowIdx d).flatMap fun i =>
    let (a0, a1, a2) := destIdx d i
    if inExtents d a0 a1 a2 then elemPieces d a0 a1 a2 else []
  let (s, rs) := resolveAll c (tdSp d) .load false ps s
  (s, (ps.zip rs).filterMap fun (p, r) => match r with | .ok (ph, _) => some (ph, p.size) | .error _ => none)

/-- Byte i of a destination piece is a byte of the source window (R239). -/
def isShared (src : List (Phys × Nat)) (ph : Phys) (i : Nat) : Bool :=
  src.any fun (q, n) =>
    match ph, q with
    | .here k, .here k' => decide (k' ≤ k + i ∧ k + i < k' + n)
    | .remote e a, .remote e' a' => e == e' && decide (a' ≤ a + i ∧ a + i < a' + n)
    | _, _ => false

/-- The next chunk: its elements are read in order and written whole; bytes that the windows share take unspecified values (R239). -/
def State.copyChunk (s : State) (c : Core) (m : Cmd) : Prog Flags :=
  Prog.andThen (Prog.each (fun i s => s.copyElem c m i) (chunkIdx m) s) fun l s =>
    let ps := ((chunkIdx m).zip l).flatMap fun (i, code, _) => let (b0, b1, b2) := destIdx m.tdb i; elemStore m.tdb b0 b1 b2 code
    let (s, src) := s.windowPhys c m.tda
    Prog.andThen (s.agentWrite c m (tdSp m.tdb) ps (isShared src)) fun _ s => (s, .ok (orAll (l.map Prod.snd)))

/-- COPY_CHUNK_WRITE: the next chunk is written, or ends the copy (R239). -/
def execCopyChunkWrite (t : Ticket) (s : State) : Host.Outcome State Fault Refusal :=
  cmdEvent t s (fun m => t.eng == engCopy && m.started) fun m =>
    let id := s.core.id
    if (chunkIdx m).isEmpty then s
    else if m.detail != 0 then s.failCopy id m m.detail m.done
    else
      s.takePart id m (s.copyChunk s.core m) (fun s d => s.failCopy id m d m.done) fun s fl =>
        s.putCmd id { m with done := m.done + 1, flags := m.flags ||| fl, asks := [] }

/-- COPY_COMPLETE: every chunk is written and performed (R239, R240). -/
def execCopyComplete (t : Ticket) (s : State) : Host.Outcome State Fault Refusal :=
  cmdEvent t s (fun m => t.eng == engCopy && m.started) fun m =>
    if !(chunkIdx m).isEmpty then s
    else if m.detail != 0 then s.failCopy s.core.id m m.detail m.done
    else if s.acksCmd s.core.id t then s.doneCopy s.core.id m
    else s

end Sys2Proof.Machine
end

