-- ==== Sys2Proof/Machine/RouteEngine.lean ====
section
/-!
DEFINITION. Sys2Proof/Machine/RouteEngine.lean: the Pilot's commands, and the Lighter's as far as their own task goes: control
records, selection, binning, requests, dispatch, combine, release and load hints (R263, R267 to R273, R275 to R285).
-/
namespace Sys2Proof.Machine

/-! ## The control record (R267) -/

def rKind (w : Word) : Nat := field w 63 60
def rE (w : Word) : Nat := field w 59 48
def rNG (w : Word) : Nat := field w 47 40
def rK (w : Word) : Nat := field w 39 36
def rKX (w : Word) : Nat := field w 35 32
def rKG (w : Word) : Nat := field w 31 28
def rRole (w : Word) : Bool := bitAt w 27
def rMmt (w : Word) : Bool := bitAt w 26
def rQF (w : Word) : Nat := field w 25 24
def rSel (w : Word) : Bool := bitAt w 23
def rTdx (w : Word) : Nat := field w 22 17
def rTdy (w : Word) : Nat := field w 16 11
def rTdz (w : Word) : Nat := field w 10 5
def rSerial (w : Word) : BitVec 32 := BitVec.ofNat 32 (field w 63 32)
def rNsrc (w : Word) : Nat := field w 31 22
def rTdout (w : Word) : Nat := field w 21 16
def rTdscr (w : Word) : Nat := field w 15 10
def rThr (w : Word) : Nat := field w 9 0

def Cmd.w0 (m : Cmd) : Word := m.rcw.getD 0 0
def Cmd.w1 (m : Cmd) : Word := m.rcw.getD 1 0
def Cmd.rd (m : Cmd) (n : Nat) : Td := m.rtd.getD n {}
def Cmd.tdx (m : Cmd) : Td := m.rd 0
def Cmd.tdy (m : Cmd) : Td := m.rd 1
def Cmd.tdz (m : Cmd) : Td := m.rd 2
def Cmd.tdout (m : Cmd) : Td := m.rd 3
def Cmd.tdscr (m : Cmd) : Td := m.rd 4
/-- Choices per token. -/
def Cmd.choices (m : Cmd) : Nat := (if m.op = 0x80 then rKG m.w0 else rK m.w0) + rKX m.w0

/-- Bits of RCW0 and RCW1 that a command uses; every other bit must be zero (R267, log 31). -/
def usedBits (op : Nat) (role sel : Bool) : Word × Word :=
  let all := mask64 63 60 ||| mask64 26 26
  let kkx := mask64 39 36 ||| mask64 35 32
  let ser := mask64 63 32
  match op with
  | 0x80 => (all ||| mask64 59 40 ||| mask64 35 28, 0)
  | 0x81 => (all ||| mask64 59 48 ||| kkx, 0)
  | 0x82 => (all ||| mask64 59 48 ||| kkx ||| mask64 22 11, 0)
  | 0x83 =>
    if role then (all ||| mask64 59 48 ||| kkx ||| mask64 27 27 ||| mask64 23 11, ser ||| mask64 31 22)
    else (all ||| mask64 59 48 ||| kkx ||| mask64 22 11, ser)
  | 0x84 =>
    (all ||| mask64 59 48 ||| kkx ||| mask64 25 5, ser ||| mask64 21 16 ||| (if sel then mask64 15 10 else 0))
  | 0x85 | 0x86 => (all, ser)
  | _ => (all ||| mask64 59 48 ||| mask64 27 27, mask64 9 0)

/-- KIND of a command (R267). -/
def kindOfOp (op : Nat) : Nat := if op = 0x89 then 8 else op - 0x7F

/-- The record's fields are in range (R267). -/
def recordOk (m : Cmd) : Bool :=
  let w0 := m.w0
  let (u0, u1) := usedBits m.op (rRole w0) (rSel w0)
  let e := rE w0
  let c := m.choices
  rKind w0 == kindOfOp m.op && w0 &&& ~~~u0 == 0 && m.w1 &&& ~~~u1 == 0
  && (match m.op with
      | 0x80 => decide (1 ≤ e ∧ 1 ≤ rNG w0 ∧ e % rNG w0 = 0 ∧ 1 ≤ rKG w0 ∧ rKG w0 ≤ 8 ∧ rKX w0 ≤ 7 ∧ c ≤ min (rNG w0) 8)
      | 0x85 | 0x86 => true
      | 0x89 => decide (1 ≤ e)
      | _ => decide (1 ≤ e ∧ 1 ≤ rK w0 ∧ rK w0 ≤ 8 ∧ rKX w0 ≤ 7 ∧ c ≤ 8 ∧ c ≤ e))
  && rQF w0 != 3
  && (m.op != 0x83 || !rRole w0 || decide (1 ≤ rNsrc m.w1 ∧ rNsrc m.w1 ≤ 512))

/-! ## Descriptors (R268) -/

/-- Rows of a window. -/
def tRows (d : Td) : Nat := if tdNd d = 1 then 1 else tdExt1 d - tdRow0 d
def tCols (d : Td) : Nat := tdExt0 d - tdCol0 d

def isFl (t : Ty) : Bool := t == .f32 || t == .bf16 || t == .f16 || t == .f64

/-- A table of the format with at least so many columns and rows. -/
def tableOk (d : Td) (f : Ty → Bool) (nds : List Nat) (cols rows : Nat) : Bool :=
  tdOk d && f (tdFmt d) && nds.contains (tdNd d) && decide (cols ≤ tCols d ∧ rows ≤ tRows d)

/-- A policy table: .n64, ND 2, EXT0 = 2 (R269). -/
def policyOk (d : Td) (e : Nat) : Bool := tableOk d (· == .n64) [2] 2 e && tCols d == 2

def isN32 (t : Ty) : Bool := t == .n32

/-- The token count T (R267). -/
def Cmd.tokens (m : Cmd) : Nat := tRows m.tda

/-- Every descriptor of the command meets R268. -/
def routeTdsOk (m : Cmd) : Bool :=
  let e := rE m.w0
  let c := m.choices
  let k := rK m.w0
  let t := m.tokens
  match m.op with
  | 0x80 | 0x81 => tableOk m.tda isFl [1, 2] e 0 && tableOk m.tdb isN32 [2] (2 * c) t
  | 0x82 =>
    tableOk m.tda isN32 [1, 2] (2 * c) 0 && tableOk m.tdb isN32 [2] 4 (t * k)
    && tableOk m.tdx isN32 [1] e 0 && tdSpCode m.tdx == 4 && policyOk m.tdy e
  | 0x83 =>
    if rRole m.w0 then
      let f := tdFmt m.tda
      tableOk m.tda (fun f => f == .bf16 || f == .f16 || f == .f32 || f == .e4m3 || f == .e5m2) [2] 0 0
      && ((f != .e4m3 && f != .e5m2) || tdSoff m.tda != 0)
      && tableOk m.tdb isN32 [2] (4 + (if rSel m.w0 then 2 * c else 0)) 0
      && tableOk m.tdx isN32 [1] e 0 && tdSpCode m.tdx != 0 && policyOk m.tdy e
    else
      tableOk m.tdb isN32 [2] 2 e && tableOk m.tdx isN32 [1] e 0 && tdSpCode m.tdx == 4 && policyOk m.tdy e
  | 0x84 =>
    tableOk m.tda (fun f => f == .bf16 || f == .f16 || f == .f32) [2] 0 0 && tableOk m.tdb isN32 [2] 4 (t * k)
    && tableOk m.tdx isN32 [2] 2 e && policyOk m.tdy e && tableOk m.tdz (· == .f32) [1, 2] 0 (t * k)
    && tableOk m.tdout (fun f => f == .f32 || f == .bf16) [1, 2] 0 t
    && (!rSel m.w0 || tableOk m.tdscr isFl [1, 2] e t)
  | 0x85 => tableOk m.tda (fun f => f == .f32 || f == .bf16) [1, 2] 0 0 && tableOk m.tdb isN32 [2] 4 0
  | 0x86 => true
  | _ => policyOk m.tda e && tableOk m.tdb isN32 [1] e 0

/-- Windows that the command reads or writes: descriptor, rows, columns. -/
def routeWindows (m : Cmd) : List (Td × Nat × Nat) :=
  let e := rE m.w0
  let c := m.choices
  let k := rK m.w0
  let t := m.tokens
  match m.op with
  | 0x80 | 0x81 => [(m.tda, t, e), (m.tdb, t, 2 * c)]
  | 0x82 => [(m.tda, t, 2 * c), (m.tdb, t * k, 4), (m.tdx, 1, e), (m.tdy, e, 2)]
  | 0x83 =>
    if rRole m.w0 then [(m.tda, tRows m.tda, tCols m.tda), (m.tdb, tRows m.tdb, tCols m.tdb), (m.tdx, 1, e), (m.tdy, e, 2)]
    else [(m.tdb, e, 2), (m.tdx, 1, e), (m.tdy, e, 2)]
  | 0x84 =>
    [(m.tda, t, tCols m.tda), (m.tdb, t * k, 4), (m.tdx, e, 2), (m.tdy, e, 2), (m.tdz, t * k, tCols m.tdz),
     (m.tdout, t, tCols m.tdout)] ++ (if rSel m.w0 then [(m.tdscr, t, tCols m.tdscr)] else [])
  | 0x85 => [(m.tda, tRows m.tda, tCols m.tda), (m.tdb, tRows m.tdb, tCols m.tdb)]
  | 0x86 => []
  | _ => [(m.tda, e, 2), (m.tdb, 1, e)]

/-- Bytes of a window inside the extents. -/
def windowPieces (d : Td) (rows cols : Nat) : List Piece :=
  (List.range rows).flatMap fun r => (List.range cols).flatMap fun j =>
    let (i0, i1) := tileIdx d r j
    if inExtents d i0 i1 0 then elemAll d i0 i1 0 else []

/-- Bounds of every window, then guarded ranges (R263). -/
def State.windowsErr (s : State) (c : Core) (l : List (Td × Nat × Nat)) : State × Option (BitVec 8) :=
  s.operandErr c (l.map fun (d, r, n) => (d, windowPieces d r n))

/-! ## Selection (R270 to R272) -/

/-- Candidate a of index i comes before candidate b of index j. -/
def ranksBefore (a : FVal) (i : Nat) (b : FVal) (j : Nat) : Bool :=
  match a.isNan, b.isNan with
  | true, true => decide (i < j)
  | true, false => false
  | false, true => true
  | false, false => let c := cmpV a b; decide (c = 1) || (decide (c = 0) && decide (i < j))

def insertRank (v : FVal) (i : Nat) : List (FVal × Nat) → List (FVal × Nat)
  | [] => [(v, i)]
  | (w, j) :: l => if ranksBefore v i w j then (v, i) :: (w, j) :: l else (w, j) :: insertRank v i l

/-- Candidates in rank order. -/
def ranked (vs : List FVal) : List (FVal × Nat) := vs.zipIdx.foldl (fun l (v, i) => insertRank v i l) []

/-- The best of a group, NaN when every score is (R271). -/
def groupBest (vs : List FVal) : FVal :=
  match (ranked vs).head? with | some (v, _) => v | none => .nan false

/-- A selection row: index and score words of the first n candidates. -/
def selectionWords (n : Nat) (vs : List FVal) : List Nat × Flags :=
  let l := ((ranked vs).take n).map fun (v, i) => (i, rne .f32 v)
  (l.flatMap fun (i, code, _) => [i, code], orAll (l.map fun (_, _, fl) => fl))

/-- A signalling NaN read among the scores sets NV (R82). -/
def sawSnan (vs : List FVal) : Flags := if vs.contains (.nan true) then fNV else 0

/-- RGRP and RTOPK for one token. -/
def State.selectRow (s : State) (c : Core) (m : Cmd) (t : Nat) : Prog Flags :=
  let e := rE m.w0
  Prog.andThen (State.agentElems c m m.tda ((List.range e).map fun j => let (i0, i1) := tileIdx m.tda t j; (i0, i1, 0)) s) fun vs s =>
    let cands := if m.op = 0x80 then (chunksOf (e / max (rNG m.w0) 1) (rNG m.w0) vs).map groupBest else vs
    let (ws, f) := selectionWords m.choices cands
    Prog.andThen (State.putRow c m m.tdb t 0 ws s) fun _ s => (s, .ok (f ||| sawSnan vs))

/-! ## Policy rows (R269) -/

structure Policy where
  cap : Nat
  ovf : Nat
  res : Nat
  repl : Nat
  endp : Nat
  die : Nat
  loc : Nat
  load : Nat
deriving DecidableEq, Repr

/-- Row e of a policy table; a bit in a zero field ends the command with 0x13. -/
def State.policyRow (s : State) (c : Core) (m : Cmd) (d : Td) (e : Nat) : Prog Policy :=
  Prog.andThen (State.getRow c m d e 2 0 s) fun l s =>
    let p0 := BitVec.ofNat 64 (l.getD 0 0)
    let p1 := BitVec.ofNat 64 (l.getD 1 0)
    if field p0 15 0 ≠ 0 ∨ field p1 63 55 ≠ 0 then (s, .error (.err { cause := cDesc, addr := 0 }))
    else
      (s, .ok { cap := field p0 63 32, ovf := field p0 31 30, res := field p0 29 28, repl := field p0 27 16,
                endp := field p1 54 46, die := field p1 45 44, loc := field p1 43 32, load := field p1 31 0 })

/-- Where LOAD of a row lies, checked for reading and writing. -/
def State.loadAt (s : State) (c : Core) (d : Td) (e : Nat) : Prog (Option Phys) :=
  let (i0, i1) := tileIdx d e 1
  if !inExtents d i0 i1 0 then (s, .ok none)
  else
    Prog.andThen (s.agentResolve c (tdSp d) .atom ((elemPieces d i0 i1 0).map fun p => { p with size := 4 })) fun l s =>
      (s, .ok l.head?)

/-- LOAD + 1 as one indivisible add at its home (R269). -/
def State.bumpLoad (s : State) (c : Core) (m : Cmd) (d : Td) (e : Nat) : Prog Unit :=
  Prog.andThen (s.loadAt c d e) fun ph s =>
    match ph with
    | some (.here key) => (s.poke (byteWs key (bytesOf 4 (s.readNat key 4 + 1))), .ok ())
    | some (.remote endp addr) =>
      (s.send (s.myEndp c.id) endp (addr / 2 ^ 37 % 4) c.space false m.svr c.id
        (.memReq (.amo .add false) (BitVec.ofNat 40 addr) 4 (bytesOf 4 1)) (some m.tk), .ok ())
    | _ => (s, .ok ())

/-- LOAD read and cleared in one indivisible step (R285). -/
def State.clearLoad (s : State) (c : Core) (m : Cmd) (d : Td) (e : Nat) : Prog Nat :=
  Prog.andThen (s.loadAt c d e) fun ph s =>
    match ph with
    | some (.here key) => (s.poke (byteWs key (bytesOf 4 0)), .ok (s.readNat key 4))
    | some (.remote endp addr) =>
      let w : Wish := { dst := endp, addr := addr, size := 4, op := .amo .swap false, data := bytesOf 4 0 }
      (match m.askOf w with
       | none => (s, .error (.need [w]))
       | some { answer := none, .. } => (s, .error (.need []))
       | some { answer := some (cause, data), .. } =>
         if cause = 0 then (s, .ok (ofBytes (data.take 4))) else (s, .error (.err { cause := cause, addr := 0, rem := true })))
    | _ => (s, .ok 0)

/-! ## Binning (R273) -/

/-- Takes a position in the bin of an expert if it has room: one update at the bank. -/
def State.takeBin (s : State) (c : Core) (m : Cmd) (e : Nat) : Prog (Option Nat) :=
  if rE m.w0 ≤ e ∨ m.sent.contains e then (s, .ok none)
  else
    Prog.andThen (s.policyRow c m m.tdy e) fun p s =>
      Prog.andThen (s.tableWord c m m.tdx 0 e) fun n s =>
        if p.cap ≤ n then (s, .ok none)
        else
          Prog.andThen (State.putRow c m m.tdx 0 e [(n + 1) % 2 ^ 32] s) fun _ s =>
            Prog.andThen (s.bumpLoad c m m.tdy e) fun _ s => (s, .ok (some n))

/-- The first of the candidates (expert, choice) that has room: expert, position, choice. -/
def State.takeFirst (c : Core) (m : Cmd) : List (Nat × Nat) → State → Prog (Option (Nat × Nat × Nat))
  | [], s => (s, .ok none)
  | (e, ch) :: l, s =>
    Prog.andThen (s.takeBin c m e) fun r s =>
      match r with
      | some n => (s, .ok (some (e, n, ch)))
      | none => State.takeFirst c m l s

/-- Candidates after the primary choice: spares, a replica, or none. -/
def State.otherBins (s : State) (c : Core) (m : Cmd) (sel : List Nat) (ch : Nat) : Prog (List (Nat × Nat)) :=
  let e := sel.getD (2 * ch) 0
  if rE m.w0 ≤ e then (s, .ok [])
  else
    Prog.andThen (s.policyRow c m m.tdy e) fun p s =>
      (s, .ok (match p.ovf with
        | 1 => (List.range (rKX m.w0)).map fun i => (sel.getD (2 * (rK m.w0 + i)) 0, rK m.w0 + i)
        | 2 => [(p.repl, ch)]
        | _ => []))

/-- One primary choice, number `done` of the command, given its place: the send-list row, the experts of the token used, the rows
placed. -/
def State.binChoice (s : State) (c : Core) (m : Cmd) : Prog Cmd :=
  let k := rK m.w0
  let ch := m.done % k
  let m := if ch = 0 then { m with sent := [] } else m
  Prog.andThen (State.getRow c m m.tda (m.done / k) (2 * m.choices) 0 s) fun sel s =>
    let e := sel.getD (2 * ch) 0
    Prog.andThen (s.takeBin c m e) fun first s =>
      Prog.andThen (match first with
        | some n => (s, .ok (some (e, n, ch)))
        | none => Prog.andThen (s.otherBins c m sel ch) fun l s => State.takeFirst c m l s) fun r s =>
        let (row, m') : List Nat × Cmd := match r with
          | none => ([0xFFFFFFFF, 0, sel.getD (2 * ch + 1) 0, ch + 256], m)
          | some (f, n, ch') =>
            ([f, n, sel.getD (2 * ch' + 1) 0, ch'], { m with sent := f :: m.sent, counts := [m.counts.headD 0 + 1] })
        Prog.andThen (State.putRow c m m.tdb m.done 0 row s) fun _ s => (s, .ok m')

/-! ## Load hints (R285) -/

/-- LOAD, cleared as it is read with ROLE = 1, and RES of an expert. -/
def State.readLoad (s : State) (c : Core) (m : Cmd) (e : Nat) : Prog (Nat × Nat) :=
  Prog.andThen (s.policyRow c m m.tda e) fun p s =>
    if rRole m.w0 then Prog.andThen (s.clearLoad c m m.tda e) fun n s => (s, .ok (n, p.res)) else (s, .ok (p.load, p.res))

/-- Hint word of an expert. -/
def hintWord (thr mean load res : Nat) : Nat :=
  let h := if load * 16 > thr * mean ∧ res ≠ 3 then 1 else if res = 3 ∧ load * 2 < mean then 2 else 0
  h * 2 ^ 30 + min load (2 ^ 30 - 1)

def State.loadHints (s : State) (c : Core) (m : Cmd) : Prog Unit :=
  let e := rE m.w0
  Prog.andThen (Prog.each (fun e s => s.readLoad c m e) (List.range e) s) fun l s =>
    let mean := (l.map Prod.fst).foldl (· + ·) 0 / max e 1
    State.putRow c m m.tdb 0 0 (l.map fun (x, res) => hintWord (rThr m.w1) mean x res) s

/-! ## Pools of a die (R274) -/

def State.poolAt (s : State) (die : Nat) (space : BitVec 16) (serial : BitVec 32) : Option Pool :=
  (s.die die).pools.find? fun p => p.space == space && p.serial == serial

def State.putPool (s : State) (die : Nat) (p : Pool) : State :=
  s.onDie die fun d => { d with pools := d.pools.map fun x => if x.space = p.space ∧ x.serial = p.serial then p else x }

/-- The last 16 released serials of a space (R281). -/
def State.releasedOf (s : State) (die : Nat) (space : BitVec 16) : List (BitVec 32) :=
  (lookup space (s.die die).released).getD []

/-- A command of a task that is switched out has ended: its ticket becomes final when the task is back (R391). -/
def Core.endSaved (c : Core) (m : Cmd) (st : Nat) (detail : BitVec 8) (donen : Nat) : Core :=
  let fin (x : Cmd) : Cmd := if x.tk = m.tk then { x with fin := some (st, detail, donen), pre := none } else x
  { c with e := { c.e with cmds := c.e.cmds.map fin } }

/-- The same for the task with a number. -/
def State.onSaved (s : State) (core : Nat) (f : Core → Core) : State :=
  let one (v : Saved) : Saved :=
    if v.gang.id = (core - 65536) / 64 then
      { v with cores := (v.cores.zipIdx).map fun (c, r) => if r = (core - 65536) % 64 then f c else c }
    else v
  { s with saved := s.saved.map one }

/-- The command of a task that is switched out ends FAULT: `core` is its virtual number (R266). -/
def State.failSaved (s : State) (core : Nat) (t : Ticket) (detail : BitVec 8) : State :=
  s.onSaved core fun c => match c.cmdOf t with | some m => c.endSaved m stFault detail m.done | none => c

/-- Ends the command of a task, wherever it runs in the package, when it is still in flight. -/
def State.failAt (s : State) (core : Nat) (t : Ticket) (detail : BitVec 8) : State :=
  let id := if 65536 ≤ core then s.taskAt core else some core
  match id with
  | none => s.failSaved core t detail
  | some id =>
    match (s.coreAt id).cmdOf t with
    | some m => s.failCmd id m detail m.done
    | none => s

/-- A pool leaves its die; its serial is remembered (R281, R284). -/
def State.dropPool (s : State) (die : Nat) (p : Pool) : State :=
  s.onDie die fun d =>
    { d with pools := d.pools.filter fun x => !(x.space == p.space && x.serial == p.serial),
             released := assign p.space ((p.serial :: (lookup p.space d.released).getD []).take 16) d.released }

/-- Ends the DSPATs of the pool's own space and partition that are bound for it: they await its returns, or their source, which has
asked for its berths, is still sending (R284). -/
def State.endDspats (s : State) (die : Nat) (p : Pool) (detail : BitVec 8) : State :=
  let pn := s.partOfDie die
  let endp := (s.part pn).endp.toNat
  let hit (c : Core) (m : Cmd) : Bool :=
    m.op == 0x84 && m.fin.isNone && rSerial m.w1 == p.serial
    && (m.pend.contains (endp, die) || (m.slot.isSome && p.reqs.any fun r => r.1 == endp))
    && (match c.task with | some t => t.part == pn && t.space == p.space | none => false)
  let s := s.allCores.foldl (fun s c => (c.e.cmds.filter (hit c)).foldl (fun s m => s.failCmd c.id m detail m.done) s) s
  let fixC (c : Core) : Core :=
    (c.e.cmds.filter (hit c)).foldl (fun c m => c.endSaved m stFault detail m.done) c
  let fixV (v : Saved) : Saved := { v with cores := v.cores.map fixC }
  { s with saved := s.saved.map fixV }

/-- An abort: the open ticket and the DSPATs still bound for the pool end FAULT 0x12 (R284). A DSPAT of another endpoint is told by a
refusal of its last packet; one of which no packet has come yet, by a refusal of its first. -/
def State.abortPool (s : State) (die : Nat) (p : Pool) : State :=
  let s := s.failAt p.core p.tk cChannel
  let own := (s.part (s.partOfDie die)).endp
  let s := s.endDspats die p cChannel
  let s := (p.bound.filter fun b => b.1 != own).foldl (fun s (endp, _, _, tag) =>
    s.send own endp 0 p.space false p.svr 1024 (.refusal tag (.reject cChannel.toNat))) s
  let later := (p.reqs.map Prod.fst).filter fun e => e != own.toNat && !p.bound.any fun b => b.1.toNat == e
  (s.dropPool die p).onDie die fun d => { d with aborted := (p.space, p.serial, later) :: d.aborted }

/-- The pool is COMPLETE once every source's marker has arrived with the rows that it counts, and all that it has written is performed:
its ticket reads DONE (R274, R276). -/
def State.settlePool (s : State) (die : Nat) (x : Pool) : State :=
  let got (src : Nat) : Nat := (x.rows.filter fun r => r.1 == src).length
  let all := x.reqs.all fun r => match lookup r.1 x.markers with | some n => decide (n ≤ got r.1) | none => false
  if x.st = .granted ∧ all ∧ s.acksCmd x.core x.tk then
    let s := s.putPool die { x with st := .complete }
    let total := x.grants.foldl (fun n g => n + g.2.2.2) 0
    match (s.coreAt x.core).cmdOf x.tk with
    | some m => s.completeCmd x.core m stDone 0 m.flags total
    | none => s
  else s.putPool die x

/-! ## Issue (R263) -/

/-- Reads the two words of a control record. -/
def State.readRecord (s : State) (c : Core) (m : Cmd) : Prog (List Word) :=
  let d := m.tdc
  if !(tableOk d (· == .n64) [1] 2 0 && tCols d == 2 && tdSoff d == 0) then (s, .error (.err { cause := cDesc, addr := 0 }))
  else Prog.andThen (State.getRow c m d 0 2 0 s) fun l s => (s, .ok (l.map (BitVec.ofNat 64)))

/-- MMT of an issued command is known to its ticket (R264). -/
def State.noteMmt (s : State) (id : Nat) (t : Ticket) (b : Bool) : State :=
  s.onCore id fun c =>
    { c with e := { c.e with tickets := c.e.tickets.map fun x => if x.tk = t then { x with mmt := b } else x } }

/-- A routing command or a collective of a serial begins: what a kill left of that serial is over (R419). -/
def State.forgetKilled (s : State) (id : Nat) (op : BitVec 8) (serial : BitVec 32) (rank : Nat) : State :=
  let key := ((s.coreAt id).space, op, serial, rank)
  if (s.part (s.partOfCore id)).killed.contains key then s.onPart (s.partOfCore id) fun p => { p with killed := p.killed.filter fun x => x != key }
  else s

/-- Requests of a BPERM: (expert, LOC, count) by pool. -/
def groupByPool : List (Nat × Policy × Nat) → List ((Nat × Nat) × List (Nat × Nat × Nat))
  | [] => []
  | (e, p, n) :: l =>
    let rest := groupByPool l
    let key := (p.endp, p.die)
    assign key ((e, p.loc, n) :: (lookup key rest).getD []) rest

/-- A policy row with its count (R275). -/
def State.readPolicy (s : State) (c : Core) (m : Cmd) (e : Nat) : Prog (Nat × Policy × Nat) :=
  Prog.andThen (s.policyRow c m m.tdy e) fun p s =>
    Prog.andThen (s.tableWord c m m.tdx 0 e) fun n s => (s, .ok (e, p, n))

def noRepeat : List Nat → Bool
  | [] => true
  | x :: l => !l.contains x && noRepeat l

/-- BPERM in its request role: one request to every pool that the policy names. -/
def State.issueRequest (s : State) (id : Nat) (m : Cmd) : State :=
  let c := s.coreAt id
  s.takePart id m (Prog.each (fun e s => s.readPolicy c m e) (List.range (rE m.w0)) s) (fun s d => s.failCmd id m d 0) fun s l =>
    let gs := groupByPool l
    if gs.any fun (_, es) => !noRepeat (es.map fun (_, loc, _) => loc) then s.failCmd id m cDesc 0
    else
      let m := { m with started := true, pre := none, asks := [], pend := gs.map Prod.fst,
                        counts := l.flatMap fun (_, p, _) => [p.endp, p.die, p.loc] }
      let s := (s.forgetKilled id 0x83 (rSerial m.w1) 0).takeCmd id m
      gs.foldl (fun s ((endp, die), es) =>
        s.send (s.myEndp id) (BitVec.ofNat 9 endp) die c.space true m.svr id
          (.poolReq (rSerial m.w1) (BitVec.ofNat 2 die) (es.map fun (_, loc, n) => (loc, n)) c.key m.tk) (some m.tk)) s

/-- BPERM in its open role (R276). -/
def State.issueOpen (s : State) (id : Nat) (m : Cmd) : State :=
  let c := s.coreAt id
  let d := dieOfCore id
  let ser := rSerial m.w1
  let mine := (s.die d).pools.filter fun p => p.space == c.space
  if (s.poolAt d c.space ser).isSome ∨ 16 ≤ mine.length then s.failCmd id m cIllegal 0
  else
    let p : Pool :=
      { space := c.space, serial := ser, core := id, tk := m.tk, svr := m.svr, area := m.tda, header := m.tdb, e := rE m.w0,
        k := rK m.w0, kx := rKX m.w0, nsrc := rNsrc m.w1, sel := rSel m.w0, policy := m.tdy, grantTd := m.tdx, st := .opened,
        why := 0, bound := [], reqs := [], grants := [], markers := [], rows := [], some_ := [] }
    let s := (s.forgetKilled id 0x83 ser 0).onDie d fun di =>
      { di with pools := di.pools ++ [p],
                released := assign c.space (((lookup c.space di.released).getD []).filter fun x => x != ser) di.released,
                aborted := di.aborted.filter fun x => !(x.1 == c.space && x.2.1 == ser) }
    s.takeCmd id { m with started := true, pre := none, asks := [] }

/-! ## Dispatch (R277, R278) -/

/-- Element ranges (first, number) of at most `per` elements each that cover n elements; one of none when n = 0. -/
def slices (per n : Nat) : List (Nat × Nat) :=
  if n = 0 then [(0, 0)] else (List.range (ceilDiv n (max per 1))).map fun k => (k * max per 1, min (max per 1) (n - k * max per 1))

/-- Elements of a width that 63 flits carry, in whole blocks of 32, each with a scale byte where there are scales (R406). -/
def perPacket (width : Nat) (scaled : Bool) : Nat := 4032 / (4 * width + (if scaled then 1 else 0)) * 32

/-- MX codes and scales of a row (R89, R90): blocks of 32, codes under the scale 0xFF free. -/
def quantBlocks (f : MxFmt) (svr : Bool) (free : Nat) : Nat → List (List FVal) → List Nat × List Byte × Flags × Nat
  | _, [] => ([], [], 0, free)
  | n, b :: bs =>
    let (sc, f1) := mxScale f svr b
    let l := if sc = 0xFF then b.zipIdx.map fun (_, j) => ((Config.freeByte (free + j)).toNat, (0 : Flags)) else b.map (mxElem f svr sc)
    let free := if sc = 0xFF then free + b.length else free
    let (cs, ss, f2, free) := quantBlocks f svr free (n + 1) bs
    (l.map Prod.fst ++ cs, BitVec.ofNat 8 sc :: ss, f1 ||| orAll (l.map Prod.snd) ||| f2, free)

/-- The contents of token row t: format, codes, scales, flags. -/
def State.rowPayload (s : State) (c : Core) (m : Cmd) (t : Nat) : Prog (Ty × List Nat × List Byte × Flags) :=
  let h := tCols m.tda
  match rQF m.w0 with
  | 0 => Prog.andThen (State.getRow c m m.tda t h 0 s) fun l s => (s, .ok (tdFmt m.tda, l, [], 0))
  | q =>
    let f : MxFmt := if q = 1 then .e4m3 else .e5m2
    Prog.andThen (State.agentElems c m m.tda ((List.range h).map fun j => let (i0, i1) := tileIdx m.tda t j; (i0, i1, 0)) s) fun vs s =>
      let (cs, ss, fl, free) := quantBlocks f m.svr s.free 0 (chunksOf 32 (ceilDiv h 32) vs)
      ({ s with free := free }, .ok (f.ty, cs, ss, fl))

/-- Carried scores of a group: S columns of TDSCR for each of E groups (R277, log 32). -/
def State.carried (s : State) (c : Core) (m : Cmd) (t g : Nat) : Prog (List (BitVec 64 × Ty × Int)) :=
  if !rSel m.w0 then (s, .ok [])
  else
    let n := tCols m.tdscr / max (rE m.w0) 1
    Prog.andThen (State.getRow c m m.tdscr t n (g * n) s) fun l s =>
      (s, .ok (l.map fun x => (BitVec.ofNat 64 x, tdFmt m.tdscr, tdScb m.tdscr)))

/-- Sends token row t for send-list row i to a pool, in as many packets as it takes (R277, R406). -/
def State.sendRow (s : State) (c : Core) (m : Cmd) (i berth : Nat) (weight : Nat) (p : Policy) (fmt : Ty) (codes : List Nat)
    (scales : List Byte) (scores : List (BitVec 64 × Ty × Int)) : State × Cmd :=
  let key := (p.endp, p.die)
  let l := slices (perPacket fmt.width (!scales.isEmpty)) codes.length
  let (s, m) := l.foldl (fun (s, (m : Cmd)) (off, n) =>
    let tag := s.tagNext
    (s.send (s.myEndp c.id) (BitVec.ofNat 9 p.endp) p.die c.space false m.svr c.id
      (.row (rSerial m.w1) i (BitVec.ofNat 32 weight) berth fmt ((codes.drop off).take n) ((scales.drop (off / 32)).take (ceilDiv n 32))
        scores off l.length c.key m.tk) (some m.tk), { m with tags := tag :: m.tags })) (s, m)
  (s, { m with sent := m.sent ++ [i], done := m.done + 1, tally := assign key ((lookup key m.tally).getD 0 + 1) m.tally })

/-- Row i of the send list (R277). -/
def State.dispatchRow (s : State) (c : Core) (m : Cmd) (i : Nat) : Prog Cmd :=
  Prog.andThen (State.getRow c m m.tdb i 4 0 s) fun w s =>
    let e := w.getD 0 0
    if e = 0xFFFFFFFF then (s, .ok m)
    else
      Prog.andThen (if e < rE m.w0 then State.getRow c m m.tdx e 2 0 s else (s, .ok [0, 0])) fun bg s =>
        if w.getD 1 0 < bg.getD 1 0 then
          Prog.andThen (s.policyRow c m m.tdy e) fun p s =>
            Prog.andThen (s.rowPayload c m (i / rK m.w0)) fun (fmt, codes, scales, fl) s =>
              Prog.andThen (s.carried c m (i / rK m.w0) e) fun scores s =>
                let (s, m) := s.sendRow c m i (bg.getD 0 0 + w.getD 1 0) (w.getD 2 0) p fmt codes scales scores
                (s, .ok { m with flags := m.flags ||| fl })
        else
          Prog.andThen (State.putRow c m m.tdb i 3 [(BitVec.ofNat 32 (w.getD 3 0) ||| 0x200).toNat] s) fun _ s => (s, .ok m)

/-! ## Returns (R283) -/

/-- acc of R283 over the rows of a token, element by element. -/
def sumReturns (rows : List (List Nat)) (n : Nat) : List Nat × Flags :=
  let cols := (List.range n).map fun j =>
    match rows.map fun r => r.getD j 0 with
    | [] => (0, (0 : Flags))
    | x :: xs => xs.foldl (fun (a, f) y =>
        let (r, f') := roundWith .f32 .rne (addV .rne (f32V a) (f32V y))
        (r, f ||| f')) (x, 0)
  (cols.map Prod.fst, orAll (cols.map Prod.snd))

/-- Writes the output row of a token whose rows have all been looked at and, where sent, have returned (R283). -/
def State.finishToken (s : State) (c : Core) (m : Cmd) (t : Nat) : Prog Cmd :=
  let is := m.sent.filter fun i => i / rK m.w0 == t
  let ahead := match m.slot with | some j => decide (j < (t + 1) * rK m.w0) | none => false
  if ahead || m.outs.contains t || is.any (fun i => (lookup i m.got).isNone) then (s, .ok m)
  else
    let n := tCols m.tdout
    let (acc, f1) := sumReturns (is.map fun i => (lookup i m.got).getD []) n
    let l := acc.map fun x => roundF (tdFmt m.tdout) m.svr .rne (storeQuot m.tdout (f32V x) none)
    Prog.andThen (State.putRow c m m.tdout t 0 (l.map Prod.fst) s) fun _ s =>
      (s, .ok { m with outs := t :: m.outs, flags := m.flags ||| f1 ||| orAll (l.map Prod.snd) })

/-- The next row of the send list, with the output row of its token when that is its last row and nothing is awaited. -/
def State.dspatRow (s : State) (c : Core) (m : Cmd) (i : Nat) : Prog Cmd :=
  Prog.andThen (s.dispatchRow c m i) fun m s => s.finishToken c { m with slot := some (i + 1) } (i / rK m.w0)

/-- The closing markers of a DSPAT, to every pool of the policy, those without rows included. -/
def State.sendMarkers (s : State) (c : Core) (m : Cmd) : Prog Cmd :=
  Prog.andThen (Prog.each (fun e s => s.policyRow c m m.tdy e) (List.range (rE m.w0)) s) fun ps s =>
    let pools := (ps.map fun p => (p.endp, p.die)).eraseDups
    let (s, m) := pools.foldl (fun (s, (m : Cmd)) (endp, die) =>
      let tag := s.tagNext
      (s.send (s.myEndp c.id) (BitVec.ofNat 9 endp) die c.space true m.svr c.id
        (.marker (rSerial m.w1) (BitVec.ofNat 2 die) ((lookup (endp, die) m.tally).getD 0) c.key m.tk) (some m.tk),
       { m with tags := tag :: m.tags })) (s, m)
    (s, .ok { m with slot := none, pend := pools })

/-- Issue of a DSPAT: the die of its task is known from now on (R281). -/
def State.issueDspat (s : State) (id : Nat) (m : Cmd) : State :=
  let c := s.coreAt id
  let note (p : Part) : Part := { p with sources := (c.space, rSerial m.w1, dieOfCore id) :: p.sources }
  let s := s.onCore id fun c => { c with e := { c.e with svrFail := c.e.svrFail.filter fun x => x.2 != rSerial m.w1 } }
  ((s.forgetKilled id 0x84 (rSerial m.w1) 0).onPart (s.partOfCore id) note).takeCmd id { m with started := true, pre := none, asks := [], slot := some 0 }

/-! ## Combine (R280) -/

/-- Berth row r of a complete pool goes back to its source, in as many packets as it takes (R280, R406). -/
def State.returnRow (s : State) (c : Core) (m : Cmd) (r : Nat) : Prog Cmd :=
  Prog.andThen (State.getRow c m m.tdb r 4 0 s) fun w s =>
    if w.getD 3 0 ≠ 1 then (s, .ok m)
    else
      Prog.andThen (State.agentElems c m m.tda ((List.range (tCols m.tda)).map fun j =>
          let (i0, i1) := tileIdx m.tda r j; (i0, i1, 0)) s) fun ys s =>
        let xs := ys.map fun y => roundWith .f32 .rne (mulV (f32V (w.getD 2 0)) y)
        let l := slices (perPacket 32 false) xs.length
        let s := l.foldl (fun s (off, n) =>
          s.send (s.myEndp c.id) (BitVec.ofNat 9 (w.getD 0 0)) 0 c.space false m.svr c.id
            (.ret (rSerial m.w1) (w.getD 1 0) (((xs.drop off).take n).map fun x => BitVec.ofNat 32 x.1) off l.length c.key m.tk)
            (some m.tk)) s
        (s, .ok { m with done := m.done + 1, flags := m.flags ||| orAll (xs.map Prod.snd) })

/-- Issue of a CMBN. -/
def State.issueCmbn (s : State) (id : Nat) (m : Cmd) : State :=
  let c := s.coreAt id
  match s.poolAt (dieOfCore id) c.space (rSerial m.w1) with
  | none => s.failCmd id m cChannel 0
  | some p =>
    if p.st ≠ .complete then s.failCmd id m cChannel 0
    else s.takeCmd id { m with started := true, pre := none, asks := [], slot := some 0 }

/-- The markers that close the returns of a pool, one to each source. -/
def State.closeReturns (s : State) (c : Core) (m : Cmd) : State :=
  let d := dieOfCore c.id
  match s.poolAt d c.space (rSerial m.w1) with
  | none => s
  | some p => p.reqs.foldl (fun s (src, _, _, _) =>
      s.send (s.myEndp c.id) (BitVec.ofNat 9 src) 0 c.space true m.svr c.id
        (.retMarker (rSerial m.w1) (BitVec.ofNat 2 d) c.key m.tk) (some m.tk)) s

/-- Issue of a Pilot or Lighter command (R263). -/
def State.issueRoute (s : State) (id : Nat) (m : Cmd) : State :=
  let c := s.coreAt id
  let m := { m with pre := some (m.pre.getD c.r.td) }
  s.takePart id m (s.readRecord c m) (fun s d => s.failCmd id m d 0) fun s ws =>
    let w0 := ws.getD 0 0
    let w1 := ws.getD 1 0
    let td := m.tdAt c
    let m := { m with rcw := ws, rtd := [td (rTdx w0), td (rTdy w0), td (rTdz w0), td (rTdout w1), td (rTdscr w1)] }
    let s := s.noteMmt id m.tk (rMmt w0)
    if !recordOk m || !routeTdsOk m then s.failCmd id m cDesc 0
    else
      match s.windowsErr c (routeWindows m) with
      | (s, some d) => s.failCmd id m d 0
      | (s, none) =>
        match m.op with
        | 0x83 => if rRole w0 then s.issueOpen id m else s.issueRequest id m
        | 0x84 => s.issueDspat id m
        | 0x85 => s.issueCmbn id m
        | _ => s.takeCmd id { m with started := true, pre := none, asks := [] }

/-! ## Progress and completion -/

/-- Units of a Pilot command that it does one at a time: tokens, send-list rows, permit rows, or the whole. -/
def Cmd.units_ (m : Cmd) : Nat :=
  match m.op with
  | 0x80 | 0x81 => m.tokens
  | 0x82 => m.tokens * rK m.w0
  | 0x83 => rE m.w0
  | _ => 1

/-- DONEN when the first `done` units are done. -/
def Cmd.donen (m : Cmd) : Nat :=
  match m.op with
  | 0x80 | 0x81 => m.done
  | 0x82 => m.counts.headD 0
  | 0x83 => ((List.range m.done).map fun e => ((lookup e m.got).getD []).getD 1 0).foldl (· + ·) 0
  | _ => if m.done = 0 then 0 else rE m.w0

/-- The next unit of a command. -/
def State.routeUnit (s : State) (c : Core) (m : Cmd) : Prog Cmd :=
  match m.op with
  | 0x80 | 0x81 => Prog.andThen (s.selectRow c m m.done) fun f s => (s, .ok { m with flags := m.flags ||| f })
  | 0x82 => s.binChoice c m
  | 0x83 => Prog.andThen (State.putRow c m m.tdb m.done 0 ((lookup m.done m.got).getD [0, 0]) s) fun _ s => (s, .ok m)
  | _ => Prog.andThen (s.loadHints c m) fun _ s => (s, .ok m)

/-- BREL (R284). It waits for a CMBN that is still reading its record, which says on which pool it is. -/
def State.runBrel (s : State) (c : Core) (m : Cmd) : State :=
  let d := dieOfCore c.id
  let ser := rSerial m.w1
  match s.poolAt d c.space ser with
  | none => s.failCmd c.id m cIllegal 0
  | some p =>
    let other : List Cmd := c.e.cmds.filter fun x => x.op == 0x85
    if other.any fun x => !x.rcw.isEmpty && rSerial x.w1 == ser then s.failCmd c.id m cChannel 0
    else if other.any fun x => x.rcw.isEmpty && x.fin.isNone then s
    else
      let s := if p.st = .complete then s.dropPool d p else s.abortPool d p
      s.completeCmd c.id m stDone 0 m.flags 0

/-- ROUTING_COMMAND_COMPLETE: the next unit of a Pilot's command, or of a request once every pool has answered; with the last one the
command completes. An open pool is looked at again, a BREL is one step, and an issue that waited goes on. -/
def execRoutingCommandComplete (t : Ticket) (s : State) : Host.Outcome State Fault Refusal :=
  cmdEvent t s (fun _ => t.eng == engRoute) fun m =>
    let id := s.core.id
    if m.pre.isSome then s.issueRoute id m
    else if m.op = 0x86 then s.runBrel s.core m
    else if m.op = 0x83 ∧ rRole m.w0 then
      match s.poolAt (dieOfCore id) s.core.space (rSerial m.w1) with
      | some x => if x.tk = t then s.settlePool (dieOfCore id) x else s
      | none => s
    else if m.op = 0x84 ∨ m.op = 0x85 ∨ (m.op = 0x83 ∧ !m.pend.isEmpty) then s
    else if m.units_ ≤ m.done then s.doneCmd id m m.donen
    else
      s.takePart id m (s.routeUnit s.core m) (fun s d => s.failCmd id m d m.donen) fun s m =>
        let m := { m with done := m.done + 1, asks := [] }
        if m.units_ ≤ m.done then s.doneCmd id m m.donen else s.putCmd id m

/-- DSPAT_COMPLETE: the next row of the send list, the closing markers after the last, and DONE once every output row is written and
every return marker has arrived (R277, R283). -/
def execDspatComplete (t : Ticket) (s : State) : Host.Outcome State Fault Refusal :=
  cmdEvent t s (fun m => m.op == 0x84 && m.started) fun m =>
    let id := s.core.id
    match m.slot with
    | some i =>
      s.takePart id m (if i < m.tokens * rK m.w0 then s.dspatRow s.core m i else s.sendMarkers s.core m)
        (fun s d => s.failCmd id m d m.done) fun s m => s.putCmd id { m with asks := [] }
    | none =>
      if !m.pend.isEmpty || (List.range m.tokens).any fun i => !m.outs.contains i then s else s.doneCmd id m m.done

/-- Some packet of the command has not been answered. -/
def State.inFlight (s : State) (id : Nat) (t : Ticket) : Bool :=
  let key := (s.coreAt id).key
  let mine (b : Body) : Bool :=
    match b with
    | .row _ _ _ _ _ _ _ _ _ _ c k | .ret _ _ _ _ _ c k | .retMarker _ _ c k | .chunk _ _ _ _ _ _ _ _ c k | .poolReq _ _ _ c k
    | .marker _ _ _ c k => c == key && k == t
    | _ => false
  (s.port.net.any fun p => mine p.body) || (s.port.unacked.any fun o => mine o.pkt.body)

/-- CMBN_COMPLETE: the next berth row goes back, the markers after the last, and DONE once all of them are answered (R280, R281). -/
def execCmbnComplete (t : Ticket) (s : State) : Host.Outcome State Fault Refusal :=
  cmdEvent t s (fun m => m.op == 0x85 && m.started) fun m =>
    let id := s.core.id
    match m.slot with
    | some r =>
      if tRows m.tdb ≤ r then (s.closeReturns s.core m).putCmd id { m with slot := none }
      else
        s.takePart id m (s.returnRow s.core m r) (fun s d => s.failCmd id m d m.done) fun s m =>
          s.putCmd id { m with slot := some (r + 1), asks := [] }
    | none => if s.inFlight id t then s else s.doneCmd id m m.done

end Sys2Proof.Machine
end

