-- ==== Sys2Proof/Machine/CollEngine.lean ====
section
/-!
DEFINITION. Sys2Proof/Machine/CollEngine.lean: collectives from issue to completion (R94, R95, R133, R134, R286 to R289).
-/
namespace Sys2Proof.Machine

/-! ## The record (R286) -/

def cNm (w : Word) : Nat := field w 59 50
def cRank (w : Word) : Nat := field w 49 41
def cRed (w : Word) : Nat := field w 40 39
/-- COUNT mode; GUARD when clear. -/
def cCount (w : Word) : Bool := bitAt w 38
def cMmt (w : Word) : Bool := bitAt w 37
def cTdmem (w : Word) : Nat := field w 36 31
def cTdflg (w : Word) : Nat := field w 30 25
def cChk (w : Word) : Nat := field w 24 17
def cSer (w : Word) : BitVec 32 := BitVec.ofNat 32 (field w 63 32)
def cD (w : Word) : Nat := field w 31 25
def cNdep (w : Word) : Nat := field w 24 21
def cRoot (w : Word) : Nat := field w 20 12

def Cmd.tdmem (m : Cmd) : Td := m.rd 0
def Cmd.tdflg (m : Cmd) : Td := m.rd 1

/-- Elements of a window (R238, R287). -/
def windowLen (d : Td) : Nat := let (n0, n1, n2) := windowDims d; n0 * n1 * n2

/-- The record's own conditions, given the form (R286, R287). -/
def collRecordOk (m : Cmd) : Bool :=
  let w0 := m.w0
  let w1 := m.w1
  let op := m.fn
  field w0 63 60 == 9 && field w0 16 0 == 0 && field w1 11 0 == 0
  && decide (1 ≤ cNm w0 ∧ cNm w0 ≤ 512 ∧ cRank w0 < cNm w0)
  && (if op = 0 ∨ op = 1 then decide (cRed w0 ≤ 1) else cRed w0 == 2)
  && (if cCount w0 then decide (1 ≤ cChk w0) else cChk w0 == 0 && cTdflg w0 == 0)
  && (if op = 5 then decide (1 ≤ cD w1 ∧ cD w1 ≤ 64 ∧ 1 ≤ cNdep w1 ∧ cNdep w1 ≤ 12 ∧ courseAt (cD w1) (cNdep w1 + 1) ≤ 32768)
      else cD w1 == 0 && cNdep w1 == 0)
  && (if op = 4 then decide (cRoot w1 < cNm w0) else cRoot w1 == 0)

/-- Bytes of a chunk for DONEN and for the flags. -/
def Cmd.chunkBytes (m : Cmd) : Nat := if cCount m.w0 then 1024 * cChk m.w0 else 1024

/-- Blocks of 32 that member r receives of L elements: the first, and how many (R288). -/
def rsBlocks (len nm r : Nat) : Nat × Nat :=
  let b := ceilDiv len 32
  let q := b / nm
  let e := b % nm
  (r * q + min r e, if r < e then q + 1 else q)

/-- Elements that this member receives in TDB. -/
def Cmd.received (m : Cmd) : Nat :=
  let l := windowLen m.tda
  match m.fn with
  | 1 => let (f, n) := rsBlocks l (cNm m.w0) (cRank m.w0); min l (32 * (f + n)) - min l (32 * f)
  | 2 => cNm m.w0 * l
  | _ => l

/-- Chunks of TDB (R289). -/
def Cmd.chunks (m : Cmd) : Nat := ceilDiv (ceilDiv (m.received * (tdFmt m.tdb).width) 8) m.chunkBytes

/-- Descriptors of a collective (R286, R287): both windows have one FMT (log 118). Of TDFLG only its format is asked; flag k stands at
element k of its first row (log 117). -/
def collTdsOk (m : Cmd) : Bool :=
  let f := tdFmt m.tda
  let l := windowLen m.tda
  tdOk m.tda && tdOk m.tdb && f == tdFmt m.tdb && tableOk m.tdmem isN32 [1] (cNm m.w0) 0
  && (!cCount m.w0 || (tdOk m.tdflg && isN32 (tdFmt m.tdflg)))
  && (match m.fn with
      | 0 | 1 => f == .f32 || f == .bf16
      | 2 => decide (cNm m.w0 * l ≤ windowLen m.tdb)
      | 3 => l % max (cNm m.w0) 1 == 0
      | 5 => f == .f32 && l == courseAt (cD m.w1) (cNdep m.w1 + 1)
      | _ => true)

/-! ## The range table (R133, R289) -/

/-- The bytes that a pending store, atomic or bank operation has in this package. -/
def effKeys : Effect → List Nat
  | .store _ _ ws _ | .sigStore ws => ws.map ByteW.key
  | .atomic _ (.here key) _ w64 _ _ _ _ | .bank _ _ w64 _ key _ _ => (List.range (if w64 then 8 else 4)).map (key + ·)
  | _ => []

/-- Those of the places that lie in this package, as byte keys. -/
def hereKeys (l : List (Phys × Nat)) : List (Nat × Nat) :=
  l.filterMap fun (ph, n) => match ph with | .here k => some (k, n) | _ => none

/-- A block of the space that can no longer be discarded, and so no longer faults, has yet to write a byte of some ranges (R53, R133). -/
def State.boundWrites (s : State) (part : Nat) (space : BitVec 16) (keys : List (Nat × Nat)) : Bool :=
  s.allCores.any fun c => c.space == space && s.partOfCore c.id == part &&
    match c.frame with
    | some fr => fr.bound && !fr.performed && fr.effs.any fun x => (effKeys x.2).any fun k => keys.any fun r => decide (r.1 ≤ k ∧ k < r.1 + r.2)
    | none => false

/-- Accesses of the collective itself pass its own ranges. -/
def State.inOwnRange {α : Type} (s : State) (id : Nat) (t : Ticket) (f : State → Prog α) : Prog α :=
  let mine (g : Guard) : Bool := g.core == id && g.tk == t
  let (s', r) := f { s with guards := s.guards.filter fun g => !mine g }
  ({ s' with guards := s'.guards ++ s.guards.filter mine }, r)

/-- Two windows share a byte (R287). -/
def physMeet (a b : List (Phys × Nat)) : Bool := a.any fun x => (List.range x.2).any fun i => isShared b x.1 i

/-! ## Contributions (R287, R289) -/

/-- An element as it travels: its code and the exponent that its descriptor adds, none for the NaN scale (R67). -/
abbrev Item := BitVec 64 × Option Int

/-- Element i of the window of TDA, with the scale byte that covers it. -/
def State.readItem (s : State) (c : Core) (m : Cmd) (i : Nat × Nat × Nat) : Prog Item :=
  let d := m.tda
  let (a0, a1, a2) := destIdx d i
  let els := elemPieces d a0 a1 a2
  Prog.andThen (s.agentRead c m (tdSp d) (els ++ scalePieces d a0 a1 a2)) fun l s =>
    let code := BitVec.ofNat 64 (elemCode d a0 a1 a2 (l.take els.length).flatten)
    let exp : Option Int := match (l.drop els.length).head?.map ofBytes with
      | some 0xFF => none
      | some x => some (tdScb d + ((x : Int) - 127))
      | none => some (tdScb d)
    (s, .ok (code, exp))

/-- The value of an item of a format (R67). -/
def itemValue (f : Ty) (svr : Bool) (x : Item) : FVal :=
  match x.2 with
  | none => .nan false
  | some e => (if f.isInt then FVal.ofInt (intVal f x.1.toNat) else decodeF f svr x.1.toNat).scale e

/-- What a member sends to another, none when it needs nothing (R287). -/
def Cmd.contribution (m : Cmd) (items : List Item) (to_ : Nat) : Option (List Item) :=
  match m.fn with
  | 3 => let n := items.length / max (cNm m.w0) 1; some ((items.drop (to_ * n)).take n)
  | 4 => if cRank m.w0 = cRoot m.w1 then some items else none
  | _ => some items

/-- Elements of a contribution in one packet: no more than a chunk of TDB takes, and than 63 flits carry (R289, R406). -/
def Cmd.perChunkPacket (m : Cmd) : Nat :=
  let w := (tdFmt m.tda).width
  if m.fn = 5 then 4032 / 4 else max 1 (min (8 * m.chunkBytes) 32256 / w)

/-- Values that every member must share (R289); the member table goes with them. -/
def Cmd.agree (m : Cmd) (table : List Nat) : List Nat :=
  [cNm m.w0, m.fn, cRed m.w0, (if cCount m.w0 then 1 else 0), windowLen m.tda, cRoot m.w1, cD m.w1, cNdep m.w1] ++ table

/-- The descriptors that the record names are known (R263). -/
def Cmd.withRecord (m : Cmd) (c : Core) (ws : List Word) : Cmd :=
  let w0 := ws.getD 0 0
  { m with rcw := ws, rtd := [m.tdAt c (cTdmem w0), m.tdAt c (cTdflg w0)] }

/-- The ranges of a COLL enter the table of R133, or under COUNT are watched for stores of others (R134). -/
def State.enterRanges (s : State) (id : Nat) (m : Cmd) (ka kb : List (Nat × Nat)) : State :=
  let g (k : List (Nat × Nat)) : Guard :=
    { part := s.partOfCore id, space := (s.coreAt id).space, core := id, tk := m.tk, keys := k, count := cCount m.w0 }
  { s with guards := s.guards ++ g ka :: (if m.tda = m.tdb then [] else [g kb]) }

/-- Sends the contribution of a member to the others, in packets of their own (R287, R289). -/
def State.sendShares (s : State) (id : Nat) (m : Cmd) (items : List Item) : State :=
  let c := s.coreAt id
  let to_ (s : State) (r : Nat) (vals : List Item) : State :=
    let e := m.counts.getD r 0
    (slices m.perChunkPacket vals.length).foldl (fun s (off, n) =>
      s.send (s.myEndp id) (BitVec.ofNat 9 (e % 512)) (e / 512 % 4) c.space false m.svr id
        (.chunk (cSer m.w1) (cRank m.w0) r (m.agree m.counts) (tdFmt m.tda) off ((vals.drop off).take n) [] c.key m.tk)
        (some m.tk)) s
  ((List.range (cNm m.w0)).filter fun r => r != cRank m.w0).foldl (fun s r =>
    match m.contribution items r with
    | none => s
    | some vals => to_ s r vals) s

/-- A COLL of a checked record and of a member table enters its engine with its own contribution (R287, R289, R133). A block that can no
longer be discarded stores first (R53). -/
def State.startColl (s : State) (id : Nat) (m : Cmd) (items : List Item) : State :=
  let c := s.coreAt id
  let me := cRank m.w0
  let (s, pa) := s.windowPhys c m.tda
  let (s, pb) := s.windowPhys c m.tdb
  let ka := hereKeys pa
  let kb := hereKeys pb
  if !cCount m.w0 && s.boundWrites (s.partOfCore id) c.space (ka ++ kb) then s.takeCmd id m
  else
    let mine : List Share := [{ src := me, off := 0, items := (m.contribution items me).getD [] }]
    let shared := physMeet pa pb && !(m.tda = m.tdb && (m.fn == 0 || m.fn == 4))
    let m := { m with started := true, pre := none, asks := [], parts := mine, slot := if shared then some 1 else none }
    let s := s.usesUnit id (taperedUnit (tdFmt m.tda) ||| taperedUnit (tdFmt m.tdb))
    let forget (e : Eng) : Eng := { e with collFail := e.collFail.filter fun x => x.1 != cSer m.w1 }
    let s := ((s.forgetKilled id 0x87 (cSer m.w1) me).onCore id fun c => { c with e := forget c.e }).takeCmd id m
    (s.enterRanges id m ka kb).sendShares id m items

/-- Issue of a COLL (R263, R286 to R289). The member table is kept as `counts`. -/
def State.issueColl (s : State) (id : Nat) (m : Cmd) : State :=
  let c := s.coreAt id
  let m := { m with pre := some (m.pre.getD c.r.td) }
  let bad (s : State) (d : BitVec 8) : State := s.failCmd id m d 0
  s.takePart id m (s.readRecord c m) bad fun s ws =>
    let m := m.withRecord c ws
    let w0 := m.w0
    let s := s.noteMmt id m.tk (cMmt w0)
    if !collRecordOk m || !collTdsOk m then bad s cDesc
    else if 256 < cNm w0 ∧ cRed w0 = 0 then bad s cIllegal
    else
      let table := (m.tdmem, windowPieces m.tdmem 1 (cNm w0))
      let flags := if cCount w0 then [(m.tdflg, windowPieces m.tdflg 1 m.chunks)] else []
      let window (d : Td) : Td × List Piece := (d, (windowIdx d).flatMap fun i => let (a, b, e) := destIdx d i; elemAll d a b e)
      match s.operandErr c ([table, window m.tda, window m.tdb] ++ flags) with
      | (s, some d) => bad s d
      | (s, none) =>
        s.takePart id m (State.getRow c m m.tdmem 0 (cNm w0) 0 s) bad fun s table =>
          let m := { m with counts := table }
          if table.getD (cRank w0) 0 % 2048 ≠ (s.myEndp id).toNat + dieOfCore id * 512 then bad s cDesc
          else
            let inTable := (s.guards.filter fun g => g.part == s.partOfCore id && g.space == c.space && !g.count).length
            if !cCount w0 ∧ 64 < inTable + (if m.tda = m.tdb then 1 else 2) then bad s cIllegal
            else
              s.takePart id m (Prog.each (fun i s => s.readItem c m i) (windowIdx m.tda) s) bad fun s items => s.startColl id m items

/-! ## Reductions (R94, R95, R287) -/

/-- The sum at one position of AlignSum, before it is rounded: E of the block, the members' values there. -/
def alignSum (e : Option Int) (vs : List FVal) : FVal × Flags :=
  let both := vs.contains (.inf false) && vs.contains (.inf true)
  if vs.any FVal.isNan || both then (.nan false, fNV)
  else if vs.contains (.inf false) then (.inf false, 0)
  else if vs.contains (.inf true) then (.inf true, 0)
  else
    match e with
    | none => (.fin false 0 0, 0)
    | some e =>
      let s := vs.foldl (fun (a : Int) v =>
        match v with
        | .fin sg x q => let (n, _) := roundGrid sg x (q + 53 - e) false 0 .rne; if sg then a - (n : Int) else a + (n : Int)
        | _ => a) 0
      (.fin (decide (s < 0)) s.natAbs (e - 53), 0)

/-- AlignSum of a block: a list of members, each a list of elements; the sum is rounded to the format (R94). -/
def alignBlock (f : Ty) (vals : List (List FVal)) : List (FVal × Flags) :=
  let tops := vals.flatten.filterMap fun v => match v with | .fin _ m e => if m = 0 then none else some (floorLog2 m e) | _ => none
  let e : Option Int := match tops with | [] => none | t :: ts => some (ts.foldl max t)
  (List.range ((vals.map List.length).foldl max 0)).map fun i =>
    let (r, fl) := roundWith f .rne (alignSum e (vals.map fun p => p.getD i (.fin false 0 0)))
    (decodeF f false r, fl)

/-- The IEEE fold of one position in rank order (R95). -/
def foldSum (f : Ty) : List FVal → FVal × Flags
  | [] => (.fin false 0 0, 0)
  | x :: l => l.foldl (fun (acc, fl) y =>
      let (r, fl') := roundWith f .rne (addV .rne acc y)
      (decodeF f false r, fl ||| fl')) (x, 0)

/-- The reduction of members' values of whole blocks, before it is stored. -/
def reduceAll (f : Ty) (red : Nat) (parts : List (List FVal)) : List (FVal × Flags) :=
  let n := (parts.map List.length).foldl max 0
  if red = 1 then (List.range n).map fun i => foldSum f (parts.map fun p => p.getD i (.fin false 0 0))
  else (List.range (ceilDiv n 32)).flatMap fun b => alignBlock f (parts.map fun p => (p.drop (32 * b)).take 32)

/-- One level of the ordered product. -/
def joinPairs (d n : Nat) : List (List Nat) → List (List Nat) × Flags
  | a :: b :: l =>
    let (x, f) := sigJoin d n a.toArray b.toArray
    let (xs, fs) := joinPairs d n l
    (x :: xs, f ||| fs)
  | l => (l, 0)

/-- The ordered product of the images (R287). -/
def orderedProduct (d n : Nat) : Nat → List (List Nat) → List Nat × Flags
  | 0, l => (l.headD [], 0)
  | fuel + 1, l =>
    if l.length ≤ 1 then (l.headD [], 0)
    else
      let (up, f) := joinPairs d n l
      let (x, fs) := orderedProduct d n fuel up
      (x, f ||| fs)

/-! ## Chunks (R287 to R289) -/

/-- Item i of a member's contribution, once it has arrived. -/
def Cmd.itemOf (m : Cmd) (r i : Nat) : Option Item :=
  m.parts.findSome? fun p => if p.src = r ∧ p.off ≤ i then p.items[i - p.off]? else none

/-- The first and the number of the received elements that have a byte in a chunk. -/
def Cmd.chunkRange (m : Cmd) (c : Nat) : Nat × Nat :=
  let w := (tdFmt m.tdb).width
  let lo := 8 * m.chunkBytes * c / w
  (lo, min m.received (ceilDiv (8 * m.chunkBytes * (c + 1)) w) - lo)

/-- Where received element i of a moving form comes from: a member, and its place in what that member sent. -/
def Cmd.origin (m : Cmd) (i : Nat) : Nat × Nat :=
  match m.fn with
  | 2 => (i / max (windowLen m.tda) 1, i % max (windowLen m.tda) 1)
  | 3 => let n := max (windowLen m.tda / max (cNm m.w0) 1) 1; (i / n, i % n)
  | _ => (cRoot m.w1, i)

/-- Elements lo..lo + n − 1 of every member's contribution, once all have arrived. -/
def Cmd.allParts (m : Cmd) (lo n : Nat) : Option (List (List Item)) :=
  (List.range (cNm m.w0)).mapM fun r => (List.range n).mapM fun i => m.itemOf r (lo + i)

/-- What stands in the elements of a chunk before it is stored: items that move, or values; none while something of it is awaited. -/
def Cmd.chunkItems (m : Cmd) (lo n : Nat) : Option (List (Item ⊕ (FVal × Flags))) :=
  let f := tdFmt m.tda
  match m.fn with
  | 0 | 1 =>
    let first := if m.fn = 1 then 32 * (rsBlocks (windowLen m.tda) (cNm m.w0) (cRank m.w0)).1 else 0
    (m.allParts (first + lo) n).map fun ps => (reduceAll f (cRed m.w0) (ps.map fun p => p.map (itemValue f m.svr))).map .inr
  | 2 | 3 | 4 => (List.range n).mapM fun i => let (r, j) := m.origin (lo + i); (m.itemOf r j).map .inl
  | _ => (m.allParts 0 (windowLen m.tda)).map fun ps =>
      let image (p : List Item) : List Nat := p.map fun x => if x.2 = some 0 then x.1.toNat else (rne .f32 (itemValue .f32 m.svr x)).1
      let (l, fl) := orderedProduct (cD m.w1) (cNdep m.w1) 10 (ps.map image)
      ((l.drop lo).take n).map fun x => .inr (f32V x, fl)

/-- The code of an element of TDB, given the scale byte that covers it: an item that moves keeps its code where both descriptors value it
alike (log 100); every other value is stored through TDB (R67). -/
def Cmd.storedCode (m : Cmd) (scale : Option Nat) : Item ⊕ (FVal × Flags) → Nat × Flags
  | .inl x =>
    let d := m.tdb
    let here : Option Int := match scale with | some 0xFF => none | some c => some (tdScb d + ((c : Int) - 127)) | none => some (tdScb d)
    if x.2.isSome && x.2 == here then (x.1.toNat, 0)
    else
      let q := storeQuot d (itemValue (tdFmt d) m.svr x) scale
      if (tdFmt d).isInt then copyInt (tdFmt d) q else roundF (tdFmt d) m.svr .rne q
  | .inr (v, fl) => let (b, fl') := roundF (tdFmt m.tdb) m.svr .rne (storeQuot m.tdb v scale); (b, fl ||| fl')

/-- One element of TDB: the pieces that store it; nothing outside the window. Where the windows overlap it is unspecified (R287). -/
def State.collElem (s : State) (c : Core) (m : Cmd) (idx : List (Nat × Nat × Nat)) (i : Nat) (x : Item ⊕ (FVal × Flags)) :
    Prog (List (Piece × List (Byte × Byte)) × Flags) :=
  match idx[i]? with
  | none => (s, .ok ([], 0))
  | some j =>
    let d := m.tdb
    let (b0, b1, b2) := destIdx d j
    if m.slot.isSome then let (w, s) := s.drawWord; (s, .ok (elemStore d b0 b1 b2 (w.toNat % 2 ^ (tdFmt d).width), 0))
    else
      Prog.andThen (s.agentRead c m (tdSp d) (scalePieces d b0 b1 b2)) fun l s =>
        let (code, fl) := m.storedCode (l.head?.map ofBytes) x
        (s, .ok (elemStore d b0 b1 b2 code, fl))

/-- A chunk whose contributions have all arrived is written whole (R289). -/
def State.collChunk (s : State) (c : Core) (m : Cmd) (lo : Nat) (xs : List (Item ⊕ (FVal × Flags))) : Prog Flags :=
  s.inOwnRange c.id m.tk fun s =>
    let idx := windowIdx m.tdb
    Prog.andThen (Prog.each (fun (x, i) s => s.collElem c m idx (lo + i) x) xs.zipIdx s) fun l s =>
      Prog.andThen (s.agentWrite c m (tdSp m.tdb) (l.flatMap Prod.fst)) fun _ s => (s, .ok (orAll (l.map Prod.snd)))

/-- Elements of a window with a byte among some keys take unspecified values (R134). -/
def State.freeHits (s : State) (c : Core) (m : Cmd) (d : Td) (hit : List Nat) : Prog Unit :=
  Prog.andThen (Prog.each (fun i s =>
    let (b0, b1, b2) := destIdx d i
    let (s, rs) := resolveAll c (tdSp d) .load false (if inExtents d b0 b1 b2 then elemPieces d b0 b1 b2 else []) s
    let touched := rs.any fun r => match r with | .ok (.here k, _) => hit.any fun x => decide (k ≤ x ∧ x < k + max 1 ((tdFmt d).width / 8)) | _ => false
    if touched then let (w, s) := s.drawWord; (s, .ok (elemStore d b0 b1 b2 (w.toNat % 2 ^ (tdFmt d).width))) else (s, .ok [])) (windowIdx d) s)
    fun l s => s.agentWrite c m (tdSp d) l.flatten

/-- Every chunk is final: what others have stored in the buffers of a COLL in COUNT mode is unspecified (R134), and the COLL is done. -/
def State.endColl (s : State) (id : Nat) (m : Cmd) : State :=
  let hit := (s.guards.filter fun g => g.core == id && g.tk == m.tk && g.count).flatMap Guard.hit
  if hit.isEmpty then s.doneCmd id m m.chunks
  else
    let c := s.coreAt id
    let r := s.inOwnRange id m.tk fun s =>
      Prog.andThen (s.freeHits c m m.tdb hit) fun _ s => if m.tda = m.tdb then (s, .ok ()) else s.freeHits c m m.tda hit
    s.takePart id m r (fun s d => s.failCmd id m d m.chunks) fun s _ => s.doneCmd id m m.chunks

/-- COLL_COMPLETE: the next chunk whose contributions have arrived is written; under COUNT a chunk that is written and performed has its
flag set; with the last of them the COLL is done (R132 to R134, R289). An issue that waited goes on. The DONEN of a COLL that fails counts the
chunks written so far, in whatever order their contributions came (log 108). -/
def execCollComplete (t : Ticket) (s : State) : Host.Outcome State Fault Refusal :=
  cmdEvent t s (fun _ => t.eng == engColl) fun m =>
    let id := s.core.id
    let c := s.core
    if m.pre.isSome then s.issueColl id m
    else
      let all := List.range m.chunks
      let bad (s : State) (d : BitVec 8) : State := s.failCmd id m d m.outs.length
      match all.find? fun k => m.outs.contains k && cCount m.w0 && !m.sent.contains k with
      | some k =>
        if !s.acksCmd id t then s
        else
          s.takePart id m (State.putRow c m m.tdflg 0 k [(cSer m.w1).toNat] s) bad fun s _ => s.putCmd id { m with sent := k :: m.sent }
      | none =>
        let next := all.findSome? fun k =>
          if m.outs.contains k then none else let (lo, n) := m.chunkRange k; (m.chunkItems lo n).map fun xs => (k, lo, xs)
        match next with
        | some (k, lo, xs) =>
          s.takePart id m (s.collChunk c m lo xs) bad fun s fl =>
            s.putCmd id { m with outs := k :: m.outs, flags := m.flags ||| fl, asks := [] }
        | none => if all.all m.outs.contains then s.endColl id m else s

end Sys2Proof.Machine
end

