-- ==== Sys2Proof/Machine/Context.lean ====
section
/-!
DEFINITION. Sys2Proof/Machine/Context.lean: the context image (R74, R392, R394 to R396), pre-emption requests and the stop they
make (R61, R389, R390), and the release of cores (R32).
-/
namespace Sys2Proof.Machine

/-! ## The image (R394, R395) -/

def lightLen : Nat := 49152
def fullLen (d : Desc) : Nat := lightLen + 4096 * Desc_.spk d + 65536 * Desc_.acc d

/-- CHW0 and CHW1 of a bound handle (R69). -/
def chanWords (x : Chan) : Word × Word :=
  (BitVec.ofNat 64 (2 ^ 63 + (if x.own then 2 ^ 62 else 0) + x.pb.toNat * 2 ^ 60 + x.cb.toNat * 2 ^ 58 + x.orank.toNat * 2 ^ 52
      + x.och.toNat * 2 ^ 48 + x.base.toNat * 2 ^ 28 + x.size.toNat * 2 ^ 16 + x.slots.toNat),
   BitVec.ofNat 64 (x.p.toNat * 2 ^ 32 + x.c.toNat))

/-- The handle that two words hold. -/
def chanOfWords (w0 w1 : Word) : Option Chan :=
  if !bitAt w0 63 then none
  else some { own := bitAt w0 62, pb := BitVec.ofNat 2 (field w0 61 60), cb := BitVec.ofNat 2 (field w0 59 58),
              orank := BitVec.ofNat 6 (field w0 57 52), och := BitVec.ofNat 4 (field w0 51 48),
              base := BitVec.ofNat 20 (field w0 47 28), size := BitVec.ofNat 12 (field w0 27 16),
              slots := BitVec.ofNat 16 (field w0 15 0), p := BitVec.ofNat 32 (field w1 63 32), c := BitVec.ofNat 32 (field w1 31 0) }

/-- Suspended commands of a task (R393). -/
def Core.suspended (c : Core) : List Cmd :=
  c.e.cmds.filter fun m => roomClass m.op == 0 || roomClass m.op == 4 || roomClass m.op == 5

/-- The header of an image: CI0 to CI7, the descriptor, the trap record (R394). -/
def imageHeader (c : Core) (t : Ident) (full : Bool) : List Word :=
  let stp := c.stop.isSome
  let d := t.desc
  [ BitVec.ofNat 64 (0x5D40 * 2 ^ 48 + 2 ^ 44 + (if full then 2 ^ 43 else 0) + (if stp then 2 ^ 42 else 0)
      + Config.fam.toNat * 2 ^ 24 + c.units.toNat),
    t.wid,
    BitVec.ofNat 64 (t.space.toNat * 2 ^ 32 + t.gsize * 2 ^ 16 + t.rank * 2 ^ 8),
    c.pc, d.l4,
    BitVec.ofNat 64 (Desc_.acc d * 2 ^ 25 + Desc_.spk d * 2 ^ 16 + Desc_.swzkey d),
    BitVec.ofNat 64 (c.suspended.length * 8 + (if c.stepPend then 4 else 0)),
    BitVec.ofNat 64 (if full then fullLen d else lightLen) ] ++ d.words ++ (c.stop.getD [])

/-- Writes words one after another. -/
def putWords (m : Memory) (off : Nat) : List Word → Memory
  | [] => m
  | w :: ws => putWords (mwrite m off (bytesOf 8 w.toNat)) (off + 8) ws

def putNats (n : Nat) (m : Memory) (off : Nat) : List Nat → Memory
  | [] => m
  | x :: xs => putNats n (mwrite m off (bytesOf n x)) (off + n) xs

/-- Memory cells of a range, moved to another place. -/
def moved (m : Memory) (lo n at_ : Nat) : List (Nat × Byte) :=
  (m.filter fun x => decide (lo ≤ x.1) && decide (x.1 < lo + n)).map fun x => (x.1 - lo + at_, x.2)

def putCells (m : Memory) (l : List (Nat × Byte)) : Memory := l.foldl (fun m (k, b) => cput (w := 8) m k b) m

/-- Statuses by class and serial (log 18). -/
def statusOff (t : Ticket) : Nat := 0x3000 + 2048 * (t.eng.toNat - 1) + 8 * (t.serial.toNat % 256)

/-- An image: its bytes by offset, and its granules that ECC cannot correct, numbered from its start. -/
structure Img where
  mem : Memory
  bad : List Nat

/-- A read of [lo, lo + n) for a copy: what is corrected or uncorrectable there is recorded; the latter goes with the copy (R383, R387). -/
def State.readCopied (s : State) (lo n : Nat) (space : BitVec 16) (core : Nat) : State × List Nat :=
  (s.noted lo n space (coreOnDie core), (s.badGran.filter fun g => decide (lo ≤ g * 32 ∧ g * 32 < lo + n)).map fun g => g - lo / 32)

/-- The bytes of [lo, lo + n) are replaced by those of a copy; granules numbered from `lo` are uncorrectable as they were. -/
def State.writeCopied (s : State) (lo n : Nat) (cells : Memory) (bad : List Nat) : State :=
  let out (g : Nat) : Bool := !(decide (lo ≤ g * 32 ∧ g * 32 < lo + n))
  { s with mem := putCells (mclear s.mem lo n) cells,
           badGran := s.badGran.filter out ++ bad.map (lo / 32 + ·), softGran := s.softGran.filter out }

/-- Granules of a part of an image, numbered from the part's start. -/
def Img.badIn (img : Img) (off n : Nat) : List Nat :=
  (img.bad.filter fun g => decide (off ≤ g * 32 ∧ g * 32 < off + n)).map fun g => g - off / 32

/-- An entry of the armed table: command word, counter and threshold, ticket, SVR, then the three descriptors, or the argument of a
launch (R395, log 18). -/
def Armed.words (a : Armed) : List Word :=
  [a.cmd.word, BitVec.ofNat 64 (a.k.toNat * 2 ^ 32 + a.th.toNat), ticketWord a.cmd.tk, if a.cmd.svr then 1 else 0]
  ++ (if roomClass a.cmd.op = 6 then a.cmd.arg :: List.replicate 11 0 else a.cmd.tda.words ++ a.cmd.tdb.words ++ a.cmd.tdc.words)

/-- The entry that sixteen words hold, none where the command word is zero. -/
def armedOfWords (w : Nat → Word) : Option Armed :=
  if w 0 = 0 then none
  else
    let td (i : Nat) : Td := { w0 := w i, w1 := w (i + 1), w2 := w (i + 2), w3 := w (i + 3) }
    let m : Cmd := { word := w 0, tk := (ticketOf (w 2)).getD { eng := 0, serial := 0 }, svr := bitAt (w 3) 0 }
    let m := if roomClass m.op = 6 then { m with arg := w 4 } else { m with tda := td 4, tdb := td 8, tdc := td 12 }
    some { k := BitVec.ofNat 5 (field (w 1) 36 32), th := BitVec.ofNat 32 (field (w 1) 31 0), cmd := m, upto := 0 }

/-- The record of a suspended command: command word, ticket with SVR and what it has raised, progress, control record, TDA, TDB and TDC, or in place of
TDC the four descriptors that a control record names first (R393, R395, log 18). -/
def Cmd.words (m : Cmd) : List Word :=
  [m.word,
   BitVec.ofNat 64 ((ticketWord m.tk).toNat + (if m.svr then 2 ^ 24 else 0) + (if m.started then 2 ^ 25 else 0)
     + (if m.slot.isSome then 2 ^ 26 else 0) + m.flags.toNat * 2 ^ 32 + m.detail.toNat * 2 ^ 40),
   BitVec.ofNat 64 (m.done % 2 ^ 32 + m.slot.getD 0 % 2 ^ 32 * 2 ^ 32), m.rcw.getD 0 0, m.rcw.getD 1 0]
  ++ m.tda.words ++ m.tdb.words ++ (if roomClass m.op = 0 then m.tdc.words else (List.range 4).flatMap fun i => (m.rd i).words)

/-- The command that a record holds; what the record has no room for is that of `rest` (log 18). -/
def cmdOfWords (r : Regs) (rest : List Cmd) (w : Nat → Word) : Cmd :=
  let td (i : Nat) : Td := { w0 := w i, w1 := w (i + 1), w2 := w (i + 2), w3 := w (i + 3) }
  let tk : Ticket := { eng := BitVec.ofNat 4 (field (w 1) 23 20), serial := BitVec.ofNat 16 (field (w 1) 15 0) }
  let old : Cmd := (rest.find? fun m => m.tk == tk && m.word == w 0).getD { word := w 0, tk := tk, svr := false }
  let m : Cmd :=
    { old with svr := bitAt (w 1) 24, started := bitAt (w 1) 25, flags := BitVec.ofNat 7 (field (w 1) 38 32),
               detail := BitVec.ofNat 8 (field (w 1) 47 40), done := field (w 2) 31 0,
               slot := if bitAt (w 1) 26 then some (field (w 2) 63 32) else none, tda := td 5, tdb := td 9 }
  if roomClass m.op = 0 then { m with tdc := td 13 }
  else if !m.started then { m with pre := some (old.pre.getD r.td) }
  else { m with rcw := [w 3, w 4], rtd := [td 13, td 17, td 21, td 25] ++ old.rtd.drop 4 }

/-- The registers' part of an image. -/
def imageRegs (m : Memory) (c : Core) (t : Ident) : Memory :=
  let r := c.r
  let m := putWords m 0x100 ((List.range 128).map (getG r))
  let m := putNats 16 m 0x500 ((List.range 16).map fun i => (cget r.m i).toNat)
  let m := putWords m 0x600 ((List.range 4).map fun i => cget r.b i)
  let m := putWords m 0x620 ((List.range 4).map fun i => (cget r.l i).setWidth 64)
  let m := putWords m 0x640 [r.fsr, r.bgt.setWidth 64]
  let m := putNats 4 m 0x650 ((List.range 4).map fun i => (cget r.sig i).toNat)
  let m := putNats 4 m 0x660 ((List.range 32).map fun i => (cget r.k i).toNat)
  let m := putWords m 0x800 ((List.range 256).map fun i => cget r.td i)
  let m := putWords m 0x1000 ((List.range 16).flatMap fun h =>
    match lookup h r.ch with | some x => [(chanWords x).1, (chanWords x).2] | none => [0, 0])
  let m := putWords m 0x1100 ((List.range 4).map fun i => c.brk.getD i (BitVec.allOnes 64))
  let m := putWords m 0x1120 ((List.range 6).map fun i => (cget c.e.serial (i + 1)).setWidth 64)
  let m := putWords m 0x1150 [BitVec.ofNat 64 c.e.mmags]
  let m := putNats 4 m 0x1200 ((List.range 512).map fun b =>
    match lookup b c.barRec with | some ph => ph.toNat | none => 0xFFFFFFFF)
  let m := if t.rank = 0 then
      putNats 8 m 0x1A00 ((List.range 448).map fun b =>
        let x := barOf c (BitVec.ofNat 9 b)
        x.count + x.arrivals * 2 ^ 16 + x.phase.toNat * 2 ^ 32)
    else m
  let m := (c.e.armed.zipIdx).foldl (fun m (a, i) => putWords m (0x2800 + 128 * i) a.words) m
  let m := putNats 8 m 0x3000 (List.replicate 1536 (2 ^ 64 - 1))
  let m := c.e.tickets.foldl (fun m x => mwrite m (statusOff x.tk) (bytesOf 8 x.st.toNat)) m
  putNats 256 m 0x8000 ((List.range 64).map fun i => (getV r i).toNat)

/-- Unspecified bytes at an offset (R395). -/
def State.freeAt (s : State) (m : Memory) (off n : Nat) : State × Memory :=
  let (bs, s) := s.drawBytes n
  (s, mwrite m off bs)

/-- The image of a task: byte by offset. What the layout leaves open is unspecified (R395, log 18). -/
def State.imageOf (s : State) (c : Core) (full : Bool) : State × Img :=
  match c.task with
  | none => (s, { mem := [], bad := [] })
  | some t =>
    let m := imageRegs (putWords [] 0 (imageHeader c t full)) c t
    let n := 8 * (c.stop.getD []).length
    let (s, m) := s.freeAt m (0x80 + n) (64 - n)
    let (s, m) := s.freeAt m 0x1158 0xA8
    let (s, m) := s.freeAt m 0x6000 0x2000
    let m := (c.suspended.zipIdx).foldl (fun m (x, i) => putWords m (0x6000 + 256 * i) x.words) m
    if full then
      let spk := 4096 * Desc_.spk t.desc
      let acc := 65536 * Desc_.acc t.desc
      let (s, bad1) := s.readCopied (spKey c.id 0) spk t.space c.id
      let (s, bad2) := s.readCopied (accKey c.id 0) acc t.space c.id
      (s, { mem := putCells (putCells m (moved s.mem (spKey c.id 0) spk 0xC000)) (moved s.mem (accKey c.id 0) acc (0xC000 + spk)),
            bad := bad1.map (0xC000 / 32 + ·) ++ bad2.map ((0xC000 + spk) / 32 + ·) })
    else (s, { mem := m, bad := [] })

/-- Where the 4 KiB units of an image lie. -/
abbrev Units := List Phys

/-- The parts of a unit: offset, length and key. A page may be moving, line by line (R386). -/
def unitParts (migs : List Mig) (key : Nat) : List (Nat × Nat × Nat) :=
  if migs.isEmpty then [(0, 4096, key)]
  else (List.range 32).map fun l => (128 * l, 128, migKey migs (migBack migs key + 128 * l))

/-- Writes an image into its units; what lies past it in the last unit is not touched. -/
def putUnits (img : Img) : Units → Nat → State → State
  | [], _, s => s
  | u :: us, n, s =>
    let s :=
      match u with
      | .here key =>
        (unitParts s.migs key).foldl (fun s (o, len, k) =>
          s.writeCopied k len (moved img.mem (4096 * n + o) len k) (img.badIn (4096 * n + o) len)) s
      | .remote endp addr =>
        let half (s : State) (o : Nat) : State :=
          s.send (s.myEndp s.core.id) endp (addr / 2 ^ 37 % 4) 0 false false s.core.id
            (.memReq .store (BitVec.ofNat 40 (addr + o)) 2048 (mread img.mem (4096 * n + o) 2048))
        half (half s 0) 2048
      | .door _ _ => s
    putUnits img us (n + 1) s

/-- An answer to a request for half a unit of an image at another endpoint (R109). -/
abbrev Halves := Nat → Option (BitVec 8 × List Byte)

/-- Reads an image from its units; of those at other endpoints, what `far` says that the homes of their halves have answered. -/
def getUnits (space : BitVec 16) (core : Nat) (far : Halves) : Units → Nat → Img → State → State × Img
  | [], _, img, s => (s, img)
  | u :: us, n, img, s =>
    match u with
    | .here key =>
      let (s, img) := (unitParts s.migs key).foldl (fun (s, (img : Img)) (o, len, k) =>
        let (s, bad) := s.readCopied k len space core
        (s, { mem := putCells img.mem (moved s.mem k len (4096 * n + o)), bad := img.bad ++ bad.map ((4096 * n + o) / 32 + ·) }))
        (s, img)
      getUnits space core far us (n + 1) img s
    | _ =>
      let half (m : Memory) (k : Nat) : Memory := mwrite m (2048 * k) (((far k).map Prod.snd).getD [])
      getUnits space core far us (n + 1) { img with mem := half (half img.mem (2 * n)) (2 * n + 1) } s

def imgWord (img : Memory) (off : Nat) : Word := wordOf (mread img off 8)

/-- The check of an image against the place that awaits it (R396): none when it passes. -/
def imageErr (img : Memory) (gsize : Nat) : Option (BitVec 8) :=
  let ci0 := imgWord img 0
  let ci2 := imgWord img 16
  let ci5 := imgWord img 40
  let ci6 := imgWord img 48
  let spk := field ci5 24 16
  let acc := field ci5 28 25
  let len := if bitAt ci0 43 then lightLen + 4096 * spk + 65536 * acc else lightLen
  if field ci0 63 48 ≠ 0x5D40 ∨ field ci0 47 44 ≠ 1 ∨ field ci0 41 32 ≠ 0 ∨ field ci0 23 12 ≠ 0 ∨ field ci2 63 48 ≠ 0
      ∨ field ci2 31 23 ≠ 0 ∨ field ci2 15 14 ≠ 0 ∨ field ci2 7 0 ≠ 0 ∨ field ci5 63 29 ≠ 0 ∨ field ci6 63 8 ≠ 0
      ∨ field ci6 1 0 ≠ 0 ∨ imgWord img 56 ≠ BitVec.ofNat 64 len ∨ !((List.range 8).all fun i => imgWord img (192 + 8 * i) == 0) then
    some cIllegal
  else if field ci0 11 0 &&& Config.allUnits.toNat ≠ field ci0 11 0 then some cCap
  else if field ci2 22 16 ≠ gsize then some cIllegal
  else none

def listCells {w : Nat} (l : List (BitVec w)) : Cells w := (l.zipIdx).foldl (fun c (x, i) => cput c i x) []

/-- The barriers of a gang as the image of rank 0 holds them. -/
def imageBars (img : Memory) (gsize : Nat) : List (Nat × Bar) :=
  (List.range 448).filterMap fun b =>
    let w := imgWord img (0x1A00 + 8 * b)
    let x : Bar := { count := field w 15 0, arrivals := field w 31 16, phase := BitVec.ofNat 32 (field w 63 32) }
    if x = { count := gsize, arrivals := 0, phase := 0 } then none else some (b, x)

/-- The tickets of an image, oldest first in each class; what the layout does not hold of them is that of the shadow (log 18). -/
def imageTickets (img : Memory) (serial : Cells 16) (sh : List TicketSt) : List TicketSt :=
  [engCopy, engMatrix, engSig, engRoute, engColl, engLaunch].flatMap fun e =>
    (List.range 256).filterMap fun i =>
      let tk : Ticket := { eng := e, serial := cget serial e.toNat - BitVec.ofNat 16 (256 - i) }
      let st := imgWord img (statusOff tk)
      let old := sh.find? fun x => x.tk == tk
      if st = BitVec.allOnes 64 then none
      else some { tk := tk, st := st, mmt := (old.map TicketSt.mmt).getD false, wide := (old.map TicketSt.wide).getD true }

/-- The context that an image holds, over the shadow for what no field of its layout holds (log 18). -/
def imageLoad (img : Memory) (sh : Core) : Core :=
  let word (off : Nat) : Word := imgWord img off
  let nat (n off : Nat) : Nat := ofBytes (mread img off n)
  let r : Regs :=
    { g := listCells ((List.range 128).map fun i => if i = 0 then 0 else word (0x100 + 8 * i)),
      v := listCells ((List.range 64).map fun i => BitVec.ofNat 2048 (nat 256 (0x8000 + 256 * i))),
      m := listCells ((List.range 16).map fun i => BitVec.ofNat 128 (nat 16 (0x500 + 16 * i))),
      b := listCells ((List.range 4).map fun i => word (0x600 + 8 * i)),
      l := listCells ((List.range 4).map fun i => BitVec.ofNat 32 (nat 8 (0x620 + 8 * i))),
      fsr := word 0x640 &&& fsrMask,
      td := listCells ((List.range 256).map fun i => word (0x800 + 8 * i)),
      ch := (List.range 16).filterMap fun h => (chanOfWords (word (0x1000 + 16 * h)) (word (0x1008 + 16 * h))).map fun x => (h, x),
      k := listCells ((List.range 32).map fun i => BitVec.ofNat 32 (nat 4 (0x660 + 4 * i))),
      sig := listCells ((List.range 4).map fun i => BitVec.ofNat 32 (nat 4 (0x650 + 4 * i))),
      bgt := BitVec.ofNat 32 (nat 8 0x648) }
  let ci0 := word 0
  let ci2 := word 16
  let serial : Cells 16 := (List.range 6).foldl (fun c i => cput c (i + 1) ((word (0x1120 + 8 * i)).setWidth 16)) []
  let armed := (List.range 16).filterMap fun i => armedOfWords fun n => word (0x2800 + 128 * i + 8 * n)
  { sh with
    r := r, pc := word 24, frame := none, spec := [], inRepeat := false, preempt := none,
    units := BitVec.ofNat 12 (field ci0 11 0), stepPend := bitAt (word 48) 2,
    e := { sh.e with
      serial := serial, tickets := imageTickets img serial sh.e.tickets, armed := armed, mmags := (word 0x1150).toNat,
      cmds := (List.range (min 28 (field (word 48) 7 3))).map (fun i => cmdOfWords r sh.e.cmds fun n => word (0x6000 + 256 * i + 8 * n))
        ++ sh.e.cmds.filter fun m => roomClass m.op == 6 },
    brk := (List.range 4).filterMap fun i => let w := word (0x1100 + 8 * i); if w = BitVec.allOnes 64 then none else some w,
    bars := if field ci2 13 8 = 0 then imageBars img (field ci2 22 16) else [],
    barRec := (List.range 512).filterMap fun b =>
      let ph := nat 4 (0x1200 + 4 * b); if ph = 0xFFFFFFFF then none else some (b, BitVec.ofNat 32 ph),
    stop := if bitAt ci0 42 then some ((List.range 7).map fun i => word (128 + 8 * i)) else none }

/-! ## The context area (R392) -/

/-- Units of a partition's area in use, as unit numbers. -/
def State.usedUnits (s : State) (p : Nat) : List (Nat × Nat) :=
  ((s.gangs ++ s.saved.map Saved.gang).filter fun g => g.part == p).flatMap Gang.area

/-- The lowest-addressed run of n free units from unit u on; `fuel` units remain. -/
def findRun (used : List (Nat × Nat)) (total n : Nat) : Nat → Nat → Option Nat
  | 0, _ => none
  | fuel + 1, u =>
    if total < u + n then none
    else
      match used.find? fun (b, k) => decide (b < u + n ∧ u < b + k) with
      | none => some u
      | some (b, k) => findRun used total n fuel (max (b + k) (u + 1))

/-- Reserves a run for each length, none when one does not fit. -/
def reserveRuns (used : List (Nat × Nat)) (total : Nat) : List Nat → Option (List (Nat × Nat))
  | [] => some []
  | n :: ns =>
    match findRun used total n (used.length + 2) 0 with
    | none => none
    | some u =>
      match reserveRuns ((u, n) :: used) total ns with
      | none => none
      | some l => some ((u, n) :: l)

def Part.ctxUnits (p : Part) : Nat := field p.ctxl 27 0
def Part.ctxBase (p : Part) : Nat := field p.ctxa 39 12 * 4096

/-! ## Stops without a trap record (R61, R390) -/

/-- The block in the frame can no longer be discarded: it is bound, or its commit waits for room. -/
def Core.mustCommit (c : Core) : Bool := match c.frame with | some fr => fr.bound || fr.issuing | none => false

/-- The task stops at its block boundary, for a switch-out or a migration: a light stop where its last committed block has QP = 1, or had it at
the request (R390). -/
def Core.quiesce (c : Core) : Core :=
  { c with st := .quiet, light := c.lastQp || c.stopNow == some true, frame := none, spec := [], inRepeat := false, preempt := none,
           stopNow := none }

/-- Tasks that a system effect names: they are held from the checks of its block to its commit (R308). -/
def SysOp.names (op : SysOp) : Option Nat :=
  match op with
  | .tresume h _ | .tresumeSame h | .save h _ | .restore h _ | .kill h | .budgetSet h _ | .budgetAdd h _ | .step h | .brk h _
  | .clrbrk h => some h
  | _ => none

/-- A checked block of the core's supervisor holds the core: it commits nothing, and no stop, switch or kill reaches it (R308). -/
def State.heldBySup (s : State) (id : Nat) : Bool :=
  if isSup id then false
  else
    match (s.coreAt (1024 + dieOfCore id)).frame with
    | some fr => fr.checked && fr.effs.any fun (_, e) => match e with | .sys op => op.names == some (id % 256) | _ => false
    | none => false

/-- A request reaches a task (PREEMPT_REQUEST, R390). A task at a boundary, one whose block must commit, and one that is held meet it
later; so does one that is stopped for its supervisor, should it be resumed before the switch. -/
def Core.request (c : Core) (held : Bool) (now : Nat) : Core :=
  match c.st with
  | .running =>
    if c.lastQp && c.frame.isSome && !c.mustCommit && !held then c.quiesce
    else { c with preempt := some (c.preempt.getD now), stopNow := if c.lastQp then some true else c.stopNow }
  | .stopped => { c with preempt := some (c.preempt.getD now), stopNow := if c.lastQp then some true else c.stopNow }
  | _ => c

def State.gangAt (s : State) (id : Nat) : Option Gang := s.gangs.find? fun g => g.id == id
def State.putGang (s : State) (g : Gang) : State := { s with gangs := s.gangs.map fun x => if x.id = g.id then g else x }
/-- Cores of the gang's ranks. -/
def Gang.ranks (g : Gang) : List Nat := g.cores.take (Desc_.gangSize g.desc)

/-- A request to every task of a gang. -/
def State.requestAll (s : State) (g : Gang) : State :=
  g.ranks.foldl (fun s id => s.onCore id fun c => c.request (s.heldBySup id) s.cycle) s

/-- A request of the watchdog, supervisor software or the host (R389, R392): refused for want of room. A gang that stops to be moved is
switched out instead (R366, log 90). -/
def State.requestSwitch (s : State) (g : Gang) : State × Bool :=
  if g.request.isSome && g.target.isEmpty then (s, true)
  else
    let p := s.part g.part
    let ns := g.ranks.map fun _ => ceilDiv (fullLen g.desc) 4096
    match (if p.ctxUnits = 0 then none else reserveRuns (s.usedUnits g.part) p.ctxUnits ns) with
    | none => (s.blackBox g.die 0x0B g.space 0xFF (BitVec.ofNat 64 g.id) 0, false)
    | some area => ((s.putGang { g with request := some (g.request.getD s.cycle), area := area, target := [] }).requestAll g, true)

/-! ## Releasing cores (R32) -/

/-- A core without a task: it keeps the template that it started from, and no line of its task (R30, R358). -/
def Core.release (c : Core) : Core :=
  if c.st = .fenced then (if c.killed then c else { Core.blank c.id with st := .fenced }) else { Core.blank c.id with icache := c.icache, tmpl := c.tmpl }

/-- Region of a core on its die (R15). -/
def regionOf (id : Nat) : Nat := id % 256 / 8

/-- A pool whose opener has gone names no core; it stays until it is released (R284, log 60). -/
def Die.orphanPools (ids : List Nat) (d : Die) : Die :=
  { d with pools := d.pools.map fun p => if ids.contains p.core then { p with core := 4096 } else p }

/-- Cores are freed; a reservation that waits for the first freed core of its die takes that core's region (R364). -/
def State.freeCores (s : State) (ids : List Nat) : State :=
  let s := { s with dies := s.dies.map (Die.orphanPools ids) }
  let s := ids.foldl (fun s id => s.onCore id Core.release) s
  (List.range 4).foldl (fun s d =>
    let here := ids.filter fun id => dieOfCore id == d && (s.coreAt id).st == .free
    match (s.die d).reserve, here with
    | some r, id :: rest =>
      if r.waiting then
        s.onDie d fun di =>
          { di with reserve := some { r with regions := [rest.foldl (fun m x => min m (regionOf x)) (regionOf id)], waiting := false } }
      else s
    | _, _ => s) s

/-! ## Proxy absence tokens (R399) -/

/-- The home learns that a member is absent or present: its clock stops or runs (R399). -/
def DBar.absence (b : DBar) (now member : Nat) (standing : Bool) : DBar :=
  let run := match b.since with | some t => b.counted + (now - t) | none => b.counted
  let absent := if standing then (if b.absent.contains member then b.absent else member :: b.absent)
    else b.absent.filter fun x => x != member
  { b with absent := absent, counted := run,
           since := if absent.isEmpty && !b.arrivals.isEmpty then some now else none }

/-- Changes the barrier of a number and a home. -/
def State.onDbar (s : State) (bar home : BitVec 9) (f : DBar → DBar) : State :=
  { s with dbars := s.dbars.map fun b => if b.bar = bar ∧ b.home = home then f b else b }

/-- Member numbers of a task in the domain barriers. -/
def DBar.memberOf (b : DBar) (endp : BitVec 9) (t : Ident) : Option Nat :=
  b.members.findIdx? fun (e, sp_, q, w) => e == endp && sp_ == t.space && q == t.queue && w == t.wid

/-- Sends, or withdraws, the tokens of a task. A home at this endpoint learns of it at once. -/
def State.absenceTokens (s : State) (id : Nat) (t : Ident) (standing : Bool) : State :=
  let own := (s.part t.part).endp
  s.dbars.foldl (fun s b =>
    match b.memberOf own t with
    | none => s
    | some n =>
      if b.home = own then s.onDbar b.bar own fun b => b.absence s.cycle n standing
      else s.send own b.home 0 t.space false false id (.absence b.bar n standing)) s

end Sys2Proof.Machine
end

