-- ==== Sys2Proof/Machine/Scheduler.lean ====
section
/-!
DEFINITION. Sys2Proof/Machine/Scheduler.lean: descriptors accepted and refused (R24, R25), queues and their entries (R355 to R357),
templates (R358), candidates, placement and reservations (R360 to R365), task start and restore (R30, R396), retirement (R31, R32,
R37), kills (R312) and the launch commands (R36, R170, R171, R313).
-/
namespace Sys2Proof.Machine

/-! ## The descriptor (R25) -/

/-- The number of the first failing check, 1 to 11. -/
def descErr (dies : BitVec 4) (d : Desc) : Option Nat :=
  let w (k : Nat) : Nat := field d.l1 (7 * k + 6) (7 * k)
  let sum := ((List.range 6).map w).foldl (· + ·) 0
  let nf := Desc_.nf d
  let checks : List (Nat × Bool) :=
    [ (1, field d.l0 63 60 != 0xA || field d.l0 59 58 != 1),
      (2, field d.l0 38 35 != 0 || field d.l1 63 42 != 0 || field d.l5 63 13 != 0 || d.l7 != 0),
      (3, nf == 0 || nf == 7),
      (4, (List.range 6).any (fun k => (w k == 0) == decide (k < nf)) || decide (64 < sum)),
      (5, decide (sum < 64) && d.l2.toNat / 2 ^ sum != 0),
      (6, decide (nf < Desc_.gl d) || (Desc_.dl d != 7 && !decide (Desc_.gl d ≤ Desc_.dl d ∧ Desc_.dl d ≤ nf))),
      (7, decide (2 ≤ Desc_.plc d)),
      (8, decide (64 < Desc_.gangSize d) || (Desc_.plc d == 1 && decide (8 < Desc_.gangSize d))),
      (9, decide (256 < Desc_.spk d) || decide (8 < Desc_.acc d)),
      (10, field d.l3 4 0 != 0 || field d.l6 2 0 != 0),
      (11, Desc_.dmask d != 0 && BitVec.ofNat 4 (Desc_.dmask d) &&& dies == 0) ]
  (checks.find? fun x => x.2).map Prod.fst

/-! ## Queues (R355, R357) -/

def State.queueAt (s : State) (q : BitVec 10) : Option Queue := s.queues.find? fun x => x.num == q
def State.putQueue (s : State) (q : Queue) : State := { s with queues := s.queues.map fun x => if x.num = q.num then q else x }

def Entry.gangs (e : Entry) : Nat := Desc_.gangs e.desc

/-- A HELD entry with none before it is released; the oldest entry with an unplaced gang is PLACING, and its gang a candidate
from now on. -/
def startHead (now : Nat) : List Entry → List Entry
  | [] => []
  | e :: es =>
    if e.placed < e.gangs then
      match e.st with
      | .waiting => { e with st := .placing, since := now, ep := Desc_.prio e.desc } :: es
      | _ => e :: es
    else e :: startHead now es

def Queue.settle (q : Queue) (now : Nat) : Queue :=
  let es := match q.entries with
    | e :: es => (if e.st = .held then { e with st := .waiting } else e) :: es
    | [] => []
  { q with entries := startHead now es }

def State.settleQueue (s : State) (n : BitVec 10) : State :=
  { s with queues := s.queues.map fun q => if q.num = n then q.settle s.cycle else q }

/-- Entries not yet RUNNING: the hint of R356. -/
def Queue.hint (q : Queue) : Nat := (q.entries.filter fun e => e.st != .running).length

/-- A launch is entered in its queue. -/
def State.enterLaunch (s : State) (n : BitVec 10) (d : Desc) (holdc : Option Nat) : State :=
  match s.queueAt n with
  | none => s
  | some q =>
    let held := Desc_.bar d && !q.entries.isEmpty
    let e : Entry :=
      { id := s.nextId, desc := d, st := if held then .held else .waiting, placed := 0, live := Desc_.tasks d, holdc := holdc,
        since := s.cycle, ep := Desc_.prio d, groups := [], target := none, tried := false }
    ({ s with nextId := s.nextId + 1 }.putQueue { q with entries := q.entries ++ [e] }).settleQueue n

/-! ## Candidates (R360, R361) -/

structure Cand where
  /-- launch of a next gang, or gang of a resumption -/
  key : Nat
  resume : Bool
  desc : Desc
  gidx : Nat
  queue : BitVec 10
  part : Nat
  space : BitVec 16
  since : Nat
  /-- the one die it may go to (R34, R362) -/
  only : Option Nat
  target : Option Nat
  tried : Bool

/-- The die that a gang's affinity group has. -/
def groupDie (e : Entry) (gidx : Nat) : Option Nat :=
  (Desc_.group e.desc (Desc_.widOf e.desc gidx 0)).bind fun g => lookup g e.groups

def State.entryOf (s : State) (launch : Nat) : Option (Queue × Entry) :=
  s.queues.findSome? fun q => (q.entries.find? fun e => e.id == launch).map fun e => (q, e)

/-- The die of an open pool that a saved gang holds (R266). -/
def State.poolDie (s : State) (g : Gang) : Option Nat :=
  (List.range 4).find? fun d => (s.die d).pools.any fun p => decide (savedId g.id 0 ≤ p.core ∧ p.core < savedId g.id 64)

def State.candidates (s : State) (p : Nat) : List Cand :=
  let nexts := s.queues.filterMap fun q =>
    if s.partOfQueue q.num ≠ p then none
    else
      (q.entries.find? fun e => decide (e.placed < e.gangs)).bind fun e =>
        if e.st = .placing ∧ e.holdc.isNone then
          some { key := e.id, resume := false, desc := e.desc, gidx := e.placed, queue := q.num, part := p, space := q.space,
                 since := e.since, only := groupDie e e.placed, target := e.target, tried := e.tried : Cand }
        else none
  let backs := (s.saved.filter fun v => v.gang.part == p).map fun v =>
    { key := v.gang.id, resume := true, desc := v.gang.desc, gidx := v.gang.gidx, queue := v.gang.queue, part := p,
      space := v.gang.space, since := v.since,
      only := match s.poolDie v.gang with
        | some d => some d
        | none => (s.entryOf v.gang.launch).bind fun (_, e) => groupDie e v.gang.gidx,
      target := v.target, tried := true : Cand }
  nexts ++ backs

def State.candEp (s : State) (c : Cand) : Nat := min 255 (Desc_.prio c.desc + (s.cycle - c.since) / max (s.part c.part).agei 1)

/-- A COLL of the partition is in flight. -/
def State.collInFlight (s : State) (p : Nat) : Bool :=
  let has (c : Core) : Bool := c.e.cmds.any fun m => m.op == 0x87
  (s.allCores.any fun c => s.partOfCore c.id == p && has c) || (s.saved.any fun v => v.gang.part == p && v.cores.any has)

/-- Rank order as a list of keys, smaller first. -/
def State.candKey (s : State) (coll : Bool) (c : Cand) : List Nat :=
  [255 - s.candEp c, if coll && !Desc_.ml c.desc then 1 else 0, c.since, c.queue.toNat, if c.resume then 0 else 1]

def keyLt : List Nat → List Nat → Bool
  | x :: xs, y :: ys => decide (x < y) || (x == y && keyLt xs ys)
  | _, _ => false

def insertCand (k : List Nat) (c : Cand) : List (List Nat × Cand) → List (List Nat × Cand)
  | [] => [(k, c)]
  | (k', c') :: l => if keyLt k k' then (k, c) :: (k', c') :: l else (k', c') :: insertCand k c l

def State.rankedCands (s : State) (p : Nat) : List Cand :=
  let coll := s.collInFlight p
  ((s.candidates p).foldl (fun l c => insertCand (s.candKey coll c) c l) []).map Prod.snd

/-! ## Where a candidate fits (R33, R363) -/

def regionCores (d r : Nat) : List Nat := (List.range 8).map fun i => 256 * d + 8 * r + i

def State.isFree (s : State) (id : Nat) : Bool := (s.coreAt id).st == .free

/-- The region is reserved for another candidate (R364). -/
def State.takenRegion (s : State) (key d r : Nat) : Bool :=
  match (s.die d).reserve with | some x => x.cand != key && x.regions.contains r | none => false

def freeCount (s : State) (d : Nat) : Nat := ((List.range 256).filter fun i => s.isFree (256 * d + i)).length

/-- Dies that a launch may use. -/
def State.allowedDies (s : State) (c : Cand) : List Nat :=
  (List.range 4).filter fun d => (s.part c.part).dies.getLsbD d
    && (Desc_.dmask c.desc == 0 || (BitVec.ofNat 4 (Desc_.dmask c.desc)).getLsbD d)
    && (match c.only with | some x => x == d | none => true)

/-- The cores on a die, those of the ranks first. -/
def State.fitOn (s : State) (c : Cand) (d : Nat) : Option (List Nat) :=
  let n := Desc_.gangSize c.desc
  if Desc_.plc c.desc = 0 then
    let k := ceilDiv n 8
    let rs := (List.range 32).filter fun r => !s.takenRegion c.key d r && (regionCores d r).all s.isFree
    if rs.length < k then none else some ((rs.take k).flatMap (regionCores d))
  else
    let rs := (List.range 32).filterMap fun r =>
      let f := (regionCores d r).filter s.isFree
      if s.takenRegion c.key d r || decide (f.length < n) then none else some f
    match rs with
    | [] => none
    | f :: fs => some ((fs.foldl (fun best x => if x.length < best.length then x else best) f).take n)

/-- The die and the cores, if the candidate fits. -/
def State.fit (s : State) (c : Cand) : Option (Nat × List Nat) :=
  let l := (s.allowedDies c).filterMap fun d => (s.fitOn c d).map fun cs => (freeCount s d, d, cs)
  match l with
  | [] => none
  | x :: xs => some (xs.foldl (fun best y => if best.1 < y.1 then y else best) x).2

/-! ## Starting a gang (R30, R358) -/

def State.templateOf (s : State) (p : Nat) (space : BitVec 16) (entry : Word) : Option Tmpl :=
  s.tmpls.find? fun t => t.part == p && t.space == space && t.entry == entry

/-- The registers of R30. -/
def entryRegs (d : Desc) (wid : Word) (rank gsize : Nat) (bgt : BitVec 32) : Regs :=
  { Regs.zero with
    g := cput (cput (cput (cput [] 1 d.l4) 2 wid) 3 (BitVec.ofNat 64 rank)) 4 (BitVec.ofNat 64 gsize),
    fsr := BitVec.ofNat 64 (Desc_.rm d * 2 ^ 18 + (if Desc_.svr d then 2 ^ 17 else 0)),
    bgt := bgt }

/-- Clears bytes and makes their granules good. -/
def State.wipe (s : State) (lo n : Nat) : State :=
  let outside (g : Nat) : Bool := !(decide (lo ≤ g * 32 ∧ g * 32 < lo + n))
  { s with mem := mclear s.mem lo n, badGran := s.badGran.filter outside, softGran := s.softGran.filter outside }

/-- TASK_START: the task of a rank starts on its core, which holds no line of an earlier task: the start acquires whatever was released to
it (R30, R36, R357). The template has the first block of the gang's first task (R358). -/
def State.startTask (s : State) (id : Nat) (t : Ident) (tm : Option Tmpl) : State :=
  let d := t.desc
  let s := (s.wipe (spKey id 0) (4096 * Desc_.spk d)).wipe (accKey id 0) (65536 * Desc_.acc d)
  let old := s.coreAt id
  let kept := match tm, old.tmpl with | some x, some n => if x.fill = n then old.icache else [] | _, _ => []
  let words := match tm with | some x => if t.rank = 0 then x.words else [] | none => []
  s.putCore { Core.blank id with
    st := .running, task := some t,
    r := entryRegs d t.wid t.rank t.gsize ((lookup t.queue.toNat s.qbgt).getD 0xFFFFFFFF),
    pc := d.l3, entry := words, icache := kept, tmpl := tm.map Tmpl.fill }

def State.holdIdle (s : State) (ids : List Nat) : State := ids.foldl (fun s id => s.onCore id fun c => { c with st := .reserved }) s

/-- The reservation of a placed candidate ends (R364). -/
def State.endReserve (s : State) (key : Nat) : State :=
  (List.range 4).foldl (fun s d =>
    s.onDie d fun di => { di with reserve := match di.reserve with | some r => if r.cand = key then none else some r | none => none }) s

/-- Places the next gang of a launch. -/
def State.placeNext (s : State) (c : Cand) (d : Nat) (cores : List Nat) : State :=
  match s.entryOf c.key with
  | none => s
  | some (q, e) =>
    let n := Desc_.gangSize e.desc
    let ranks := cores.take n
    let tm := s.templateOf c.part c.space e.desc.l3
    let g : Gang :=
      { id := s.nextId, launch := e.id, queue := q.num, part := c.part, space := q.space, desc := e.desc, gidx := c.gidx, die := d,
        cores := cores, since := s.cycle, time := 0, stages := 0, request := none, area := [], target := [], due := 0 }
    let s := { s with nextId := s.nextId + 1, gangs := s.gangs ++ [g] }
    let s := (ranks.zipIdx).foldl (fun s (id, rank) =>
      s.startTask id { launch := e.id, gang := g.id, space := q.space, queue := q.num, part := c.part, desc := e.desc,
                       wid := Desc_.widOf e.desc c.gidx rank, gidx := c.gidx, rank := rank, gsize := n, cores := ranks } tm) s
    let s := s.holdIdle (cores.drop n)
    let groups := match Desc_.group e.desc (Desc_.widOf e.desc c.gidx 0) with | some x => assign x d e.groups | none => e.groups
    let placed := e.placed + 1
    let e' := { e with placed := placed, groups := groups, st := if placed = e.gangs then .running else .placing,
                       since := s.cycle, ep := Desc_.prio e.desc, target := none, tried := false }
    ((s.putQueue { q with entries := q.entries.map fun x => if x.id = e.id then e' else x }).settleQueue q.num).endReserve c.key

/-! ## Restoring a gang (R396) -/

/-- Where the scratchpad of a task lies: of one that is switched out, whose number is above 65,536, at keys that no access reaches. -/
def spBase (id : Nat) : Nat := if id < 65536 then spKey id 0 else 2 ^ 50 + id * 2 ^ 20

/-- Pools, ranges, packets and child launches of a task name it by another number, and ranges in its scratchpad lie in the new one. -/
def State.rehome (s : State) (old new : Nat) : State :=
  let f (x : Nat) : Nat := if x = old then new else x
  let key (k : Nat) : Nat := if spBase old ≤ k ∧ k < spBase old + 2 ^ 20 then k - spBase old + spBase new else k
  let guard (g : Guard) : Guard := { g with core := f g.core, keys := g.keys.map fun r => (key r.1, r.2), hit := g.hit.map key }
  { s with
    guards := s.guards.map guard,
    dies := s.dies.map fun d => { d with pools := d.pools.map fun p => { p with core := f p.core } },
    childq := s.childq.map fun c => { c with core := f c.core },
    port := { s.port with unacked := s.port.unacked.map fun o => { o with core := f o.core } } }

/-- Entries of the armed table whose thresholds are met fire, in table order (R393). -/
def Core.testArmed (c : Core) : Core :=
  let hit (a : Armed) : Bool := met (cget c.r.k a.k.toNat) a.th
  { c with e := { c.e with armed := c.e.armed.filter fun a => !hit a, fired := c.e.fired ++ c.e.armed.filter hit } }

/-- A stopped task's record, with its new core, for the ring of its die (R378, R396). -/
def State.requeueTrap (s : State) (id : Nat) : State :=
  let c := s.coreAt id
  match c.stop with
  | some (w :: ws) =>
    let w' := (w &&& ~~~mask64 23 16) ||| BitVec.ofNat 64 (coreOnDie id * 2 ^ 16)
    let l := (w' :: ws).take 7
    (s.putCore { c with stop := some l }).onDie (dieOfCore id) fun d => { d with trapq := d.trapq ++ [(id, l)] }
  | _ => s

/-- Every byte of a range is unspecified (R6, R74). -/
def State.freeRange (s : State) (lo n : Nat) : State :=
  let s := s.writeCopied lo n [] []
  { s with mem := mfill s.mem lo n fun i => Config.freeByte (s.free + i), free := s.free + n }

/-- The footprint that an image brings to core `id`; a light one leaves it unspecified (R74, R396). -/
def State.loadFootprint (s : State) (id : Nat) (d : Desc) (img : Img) : State :=
  let spk := 4096 * Desc_.spk d
  let acc := 65536 * Desc_.acc d
  if bitAt (imgWord img.mem 0) 43 then
    (s.writeCopied (spKey id 0) spk (moved img.mem 0xC000 spk (spKey id 0)) (img.badIn 0xC000 spk)).writeCopied (accKey id 0) acc
      (moved img.mem (0xC000 + spk) acc (accKey id 0)) (img.badIn (0xC000 + spk) acc)
  else (s.freeRange (spKey id 0) spk).freeRange (accKey id 0) acc

/-- CONTEXT_RESTORE of one member: from the units of its image, onto core `id`. A member that had retired stands held again, its scratchpad
readable (R32). An image whose context cannot be read stops its task with Uncorrectable Data (log 92). -/
def State.restoreMember (s : State) (id : Nat) (us : Units) (sh : Core) (cores : List Nat) : State :=
  match sh.task with
  | none => s
  | some t =>
    let t' : Ident := { t with cores := cores }
    let (s, img) := getUnits t.space id (fun _ => none) us 0 { mem := [], bad := [] } s
    let s := s.loadFootprint id t.desc img
    if sh.st = .held then s.putCore { sh with id := id, task := some t' }
    else
      let c := imageLoad img.mem sh
      let c : Core := { c.testArmed with id := id, task := some t', l1 := [], entry := [], icache := [], tmpl := none, view := [], wake := false,
                                         st := .running }
      match imageErr img.mem t.gsize, img.badIn 0 0xC000 with
      | some cause, _ => (s.putCore c).stopCore id { cause := cause, resume := c.pc }
      | none, _ :: _ => (s.putCore c).stopCore id { cause := cUncorr, resume := c.pc }
      | none, [] => if c.stop.isSome then (s.putCore { c with st := .stopped }).requeueTrap id else s.putCore c

/-- Restores each member. -/
def State.restoreAll (g : Gang) (ranks : List Nat) : List (Nat × Core) → State → State
  | [], s => s
  | (rank, sh) :: l, s =>
    let id := ranks.getD rank 0
    let (u, n) := g.area.getD rank (0, 0)
    let us : Units := (List.range n).map fun i => Phys.here ((s.part g.part).ctxBase + 4096 * (u + i))
    let s := s.restoreMember id us sh ranks
    let s := s.rehome (savedId g.id rank) id
    let s := match sh.task with | some t => if sh.st = .held then s else s.absenceTokens id t false | none => s
    State.restoreAll g ranks l s

/-- The die of a gang is the die of its affinity group from now on (R34). -/
def State.noteGroup (s : State) (g : Gang) (d : Nat) : State :=
  match s.entryOf g.launch, Desc_.group g.desc (Desc_.widOf g.desc g.gidx 0) with
  | some (q, e), some x =>
    s.putQueue { q with entries := q.entries.map fun (y : Entry) => if y.id = e.id then { e with groups := assign x d e.groups } else y }
  | _, _ => s

/-- A resumption candidate is placed. -/
def State.placeResume (s : State) (c : Cand) (d : Nat) (cores : List Nat) : State :=
  match s.saved.find? fun v => v.gang.id == c.key with
  | none => s
  | some v =>
    let n := Desc_.gangSize v.gang.desc
    let ranks := cores.take n
    let g := { v.gang with die := d, cores := cores, since := s.cycle, area := [], request := none, due := 0 }
    let s := State.restoreAll v.gang ranks ((List.range v.cores.length).zip v.cores) s
    let s := { s with saved := s.saved.filter fun x => x.gang.id != c.key, gangs := s.gangs ++ [g] }
    ((s.holdIdle (cores.drop n)).noteGroup v.gang d).endReserve c.key

/-! ## Starving candidates (R364) -/

def State.starves (s : State) (c : Cand) : Bool := decide ((s.part c.part).starve < s.cycle - c.since)

def State.hasReserve (s : State) (key : Nat) : Bool :=
  (List.range 4).any fun d => match (s.die d).reserve with | some r => r.cand == key | none => false

def busyCount (s : State) (ids : List Nat) : Nat :=
  (ids.filter fun id => match (s.coreAt id).st with | .free | .fenced => false | _ => true).length

/-- The target die of a candidate: its group's, or the permitted one with the fewest busy cores. -/
def State.targetDie (s : State) (c : Cand) : Option Nat :=
  match s.allowedDies c with
  | [] => none
  | d :: ds =>
    let busy (x : Nat) : Nat := busyCount s ((List.range 256).map fun i => 256 * x + i)
    some (ds.foldl (fun best x => if busy x < busy best then x else best) d)

def insertBusy (k r : Nat) : List (Nat × Nat) → List (Nat × Nat)
  | [] => [(k, r)]
  | (k', r') :: l => if k < k' then (k, r) :: (k', r') :: l else (k', r') :: insertBusy k r l

def State.reserveOn (s : State) (c : Cand) (d : Nat) : State :=
  let rv : Reserve :=
    if Desc_.plc c.desc = 0 then
      let rs := (List.range 32).filter fun r => (regionCores d r).all fun id => (s.coreAt id).st != .fenced
      let l := rs.foldl (fun l r => insertBusy (busyCount s (regionCores d r)) r l) []
      { cand := c.key, regions := (l.take (ceilDiv (Desc_.gangSize c.desc) 8)).map Prod.snd, waiting := false }
    else
      let free (r : Nat) : Nat := ((regionCores d r).filter s.isFree).length
      let best := (List.range 32).foldl (fun b r => if free b < free r then r else b) 0
      if free best = 0 then { cand := c.key, regions := [], waiting := true }
      else { cand := c.key, regions := [best], waiting := false }
  s.onDie d fun di => { di with reserve := some rv }

def State.setTarget (s : State) (c : Cand) (d : Nat) : State :=
  { s with
    queues := s.queues.map fun q => { q with entries := q.entries.map fun e =>
      if !c.resume && e.id == c.key then { e with target := some d } else e },
    saved := s.saved.map fun v => if c.resume && v.gang.id == c.key then { v with target := some d } else v }

/-- A starving candidate takes its target die, and its reservation there when the die serves no other. -/
def State.starveOne (s : State) (c : Cand) : State :=
  match (match c.target with | some d => some d | none => s.targetDie c) with
  | none => s
  | some d =>
    let s := if c.target.isNone then s.setTarget c d else s
    if (s.die d).reserve.isNone then s.reserveOn c d else s

def insertOld (c : Cand) : List Cand → List Cand
  | [] => [c]
  | x :: l => if c.since < x.since then c :: x :: l else x :: insertOld c l

def State.allCands (s : State) : List Cand := (List.range 4).flatMap s.candidates

/-- The reservations of the moment: one whose candidate is gone has ended, and starving candidates take theirs, the oldest first. -/
def State.reservations (s : State) : State :=
  let keys := s.allCands.map Cand.key
  let s : State := { s with dies := s.dies.map fun d =>
    { d with reserve := match d.reserve with | some r => if keys.contains r.cand then some r else none | none => none } }
  let hungry := s.allCands.filter fun c => s.starves c && !s.hasReserve c.key
  (hungry.foldl (fun l c => insertOld c l) []).foldl State.starveOne s

/-! ## The placement pass (R362) -/

inductive Tried where
  | placed (s : State)
  /-- the placement waits for the template of a candidate (R358) -/
  | waits (c : Cand)
  | none

/-- The first candidate that fits is placed. -/
def State.tryPlace (s : State) : List Cand → Tried
  | [] => .none
  | c :: cs =>
    match s.fit c with
    | Option.none => s.tryPlace cs
    | some (d, cores) =>
      if c.resume then .placed (s.placeResume c d cores)
      else if (s.templateOf c.part c.space c.desc.l3).isSome || c.tried then .placed (s.placeNext c d cores)
      else .waits c

def State.passFor (p : Nat) : Nat → State → State
  | 0, s => s
  | fuel + 1, s =>
    match s.tryPlace (s.rankedCands p) with
    | .placed s => State.passFor p fuel s
    | _ => s

/-- Every candidate's effective priority is noted. -/
def State.noteEp (s : State) : State :=
  let ep (p : Nat) (d : Desc) (since : Nat) : Nat := min 255 (Desc_.prio d + (s.cycle - since) / max (s.part p).agei 1)
  { s with
    queues := s.queues.map fun q => { q with entries := q.entries.map fun e =>
      if e.st = .placing then { e with ep := ep (s.partOfQueue q.num) e.desc e.since } else e },
    saved := s.saved.map fun v => { v with ep := ep v.gang.part v.gang.desc v.since } }

/-- A fill that has failed lets one pass place its candidate. -/
def State.forgetTried (s : State) : State :=
  { s with queues := s.queues.map fun q => { q with entries := q.entries.map fun e => { e with tried := false } } }

/-- PLACEMENT_PASS over every partition, after the reservations of the cores that are free; the cores of a reservation that ended in the pass
are then reserved for the next in turn. Each placement takes a core, so 1,024 suffice. -/
def State.pass (s : State) : State :=
  { ((List.range 4).foldl (fun s p => State.passFor p 1024 s) s.reservations).reservations.noteEp.forgetTried with passDue := false }

/-- An event calls for a placement pass at the end of its cycle (R362). -/
def State.askPass (s : State) : State := { s with passDue := true }

/-- What ends a cycle: its placement pass, which every event of the cycle shares, and the leave that it grants (R362, R422). -/
def State.closeCycle (s : State) : State :=
  (List.range 4).foldl State.closeLeave (if s.passDue then s.pass else s)

/-- The effective priority that the last pass noted. -/
def State.notedEp (s : State) (c : Cand) : Nat :=
  (if c.resume then (s.saved.find? fun v => v.gang.id == c.key).map Saved.ep else (s.entryOf c.key).map fun (_, e) => e.ep).getD 255

/-- CANDIDATE_AGEING: some candidate's effective priority has changed (R360, R362). -/
def execCandidateAgeing (s : State) : Host.Outcome State Fault Refusal :=
  .next (if s.allCands.any fun c => s.notedEp c != s.candEp c then s.askPass else s)

/-- CANDIDATE_STARVE: a candidate has begun to starve, and has neither a target die nor a reservation (R364). -/
def execCandidateStarve (s : State) : Host.Outcome State Fault Refusal :=
  .next (if s.allCands.any fun c => s.starves c && c.target.isNone && !(s.allowedDies c).isEmpty then s.askPass else s)

/-! ## Templates (R358) -/

/-- n lines of 32 bytes of code from an address; nothing when one cannot be fetched. -/
def fillFrom (p : Nat) (space : BitVec 16) : Nat → Nat → State → State × Option (List (Nat × Word))
  | 0, _, s => (s, some [])
  | n + 1, a, s =>
    match translate s p space a 32 .fetch false with
    | (s, .ok (.here key)) =>
      if s.bad key 32 then (s.blackBox (dieOfKey key) 0x02 space 0xFF (BitVec.ofNat 64 a) 0, none)
      else
        let ws := (List.range 4).map fun i => (a / 8 + i, s.readWord (key + 8 * i))
        (match fillFrom p space n (a + 32) (s.corrected key 32) with
         | (s, some l) => (s, some (ws ++ l))
         | (s, none) => (s, none))
    | (s, _) => (s, none)

/-- The words of a template: the header at ENTRY and the block that it heads (R42, R358). -/
def fillTemplate (p : Nat) (space : BitVec 16) (entry : Nat) (s : State) : State × Option (List (Nat × Word)) :=
  match fillFrom p space 1 entry s with
  | (s, none) => (s, none)
  | (s, some h) =>
    match fillFrom p space (ceilDiv (hNi ((h.headD (0, 0)).2)) 4) (entry + 32) s with
    | (s, none) => (s, none)
    | (s, some l) => (s, some (h ++ l))

/-- The candidate whose placement waits for a template. -/
def State.fillFor (s : State) (space : BitVec 16) (entry : Word) : Option Cand :=
  (List.range 4).findSome? fun p =>
    match s.tryPlace (s.rankedCands p) with
    | .waits c => if c.space = space ∧ c.desc.l3 = entry then some c else none
    | _ => none

/-- TEMPLATE_FILL: the fill that a candidate waits for (R358). -/
def execTemplateFill (space : BitVec 16) (entry : Word) (s : State) : Host.Outcome State Fault Refusal :=
  match s.fillFor space entry with
  | none => .next s
  | some c =>
    match fillTemplate c.part space entry.toNat s, leafFor s c.part space entry.toNat entry with
    | (s, some ws), (_, .ok (_, page)) =>
      let t : Tmpl := { part := c.part, space := space, entry := entry, fill := s.nextId, page := page, words := ws }
      .next (State.askPass { s with nextId := s.nextId + 1, tmpls := (t :: s.tmpls).take 512 })
    | (s, _), _ =>
      let mark (e : Entry) : Entry := if e.id = c.key then { e with tried := true } else e
      .next (State.askPass { s with queues := s.queues.map fun q => { q with entries := q.entries.map mark } })

/-! ## Retirement (R31, R32, R37) -/

/-- The last task of a launch has retired: the add at DONE, and the entry is freed (R37, R355). -/
def State.completeLaunch (s : State) (q : Queue) (e : Entry) (core : Nat) : State :=
  let p := s.partOfQueue q.num
  let done := e.desc.l6
  let err (s : State) (cause : BitVec 8) : State :=
    let s := s.uncorr core q.space cause done
    { s with qerrs := s.qerrs ++ [{ part := p, space := q.space, queue := q.num, src := (s.part p).endp, addr := done, cause := cause }] }
  let s :=
    if done = 0 then s
    else
      match translate s p q.space done.toNat 8 .atom false with
      | (s, .error x) => err s x.cause
      | (s, .ok (.here key)) =>
        if s.bad key 8 then err s cUncorr else s.poke (byteWs key (bytesOf 8 ((s.readNat key 8 + 1) % 2 ^ 64)))
      | (s, .ok (.remote endp addr)) =>
        s.send (s.part p).endp endp (addr / 2 ^ 37 % 4) q.space true false core
          (.memReq (.amo .add true) (BitVec.ofNat 40 addr) 8 (bytesOf 8 1)) none (some (q.num, done))
      | (s, .ok (.door _ _)) => err s cRights
  let drop (x : Queue) : Queue := if x.num = q.num then { x with entries := x.entries.filter fun y => y.id != e.id } else x
  State.settleQueue { s with queues := s.queues.map drop } q.num

/-- One task of a launch fewer is live (LAUNCH_COMPLETE). -/
def State.taskGone (s : State) (t : Ident) (core : Nat) : State :=
  match s.entryOf t.launch with
  | none => s
  | some (q, e) =>
    if e.live ≤ 1 then s.completeLaunch q { e with live := 0 } core
    else s.putQueue { q with entries := q.entries.map fun x => if x.id = e.id then { e with live := e.live - 1 } else x }

/-- A configuration of a domain barrier ends with its last member (R398). -/
def State.endDbars (s : State) : State :=
  { s with dbars := s.dbars.filter fun b => !decide (b.members.length ≤ b.retired.length) }

/-- A member of a domain barrier counts as retired. -/
def DBar.retire (b : DBar) (n : Nat) : DBar := if b.retired.contains n then b else { b with retired := n :: b.retired }

/-- The endpoints of a barrier, its home and those of its members, that lie in other packages. -/
def State.farEndps (s : State) (b : DBar) : List (BitVec 9) :=
  (b.home :: b.members.map Prod.fst).eraseDups.filter fun e => (s.partOfEndp e).isNone

/-- The task of a core counts as retired in the domain barriers of which it is a member, here and at their other endpoints (R398). -/
def State.retireMember (s : State) (t : Ident) (core : Nat) : State :=
  let own := (s.part t.part).endp
  (s.dbars.foldl (fun s b =>
    match b.memberOf own t with
    | none => s
    | some n =>
      if b.retired.contains n then s
      else (s.farEndps b).foldl (fun s e => s.send own e 0 t.space false false core (.retired b.bar b.home n))
        (s.onDbar b.bar b.home fun b => b.retire n)) s).endDbars

/-- GANG_RELEASE: every rank has retired or is fenced, so the cores are released at once (R32, R367). -/
def State.releaseGang (s : State) (id : Nat) : State :=
  match s.gangAt id with
  | none => s
  | some g =>
    if g.ranks.all fun i => match (s.coreAt i).st with | .held | .fenced => true | _ => false then
      { s with gangs := s.gangs.filter fun x => x.id != id, forwards := s.forwards.filter fun f => f.gang != id }.freeCores g.cores
    else s

/-- A retired task leaves its core held for its gang; its pending child launches go on without it (R32, R36). -/
def State.retire (s : State) (id : Nat) : State :=
  match (s.coreAt id).task with
  | none => s
  | some t =>
    let s := s.onCore id fun c => { c with st := .held, frame := none, spec := [] }
    let orphan (c : Child) : Child := if c.core = id then { c with core := 4096 } else c
    let s : State := { s with childq := s.childq.map orphan }
    ((((s.retireMember t id).releaseGang t.gang).taskGone t id)).askPass

/-- Nothing that the task issued is still in an engine, but for child launches whose descriptors have been read (R31). -/
def Core.drained (c : Core) : Bool := (c.e.cmds.all fun m => roomClass m.op == 6 && m.pre.isNone && m.fin.isNone) && c.e.fired.isEmpty

/-- The engines of a core hold only commands that a switch suspends and child launches that wait for their entries, no armed command that has
fired has still to be drained, and everything sent for its task is performed (R74, R261, R393, log 36). -/
def State.enginesRest (s : State) (c : Core) : Bool :=
  (c.e.cmds.all fun m => match roomClass m.op with | 0 | 4 | 5 => true | 6 => m.pre.isNone && m.fin.isNone | _ => false)
  && (c.e.fired.all fun a => match roomClass a.cmd.op with | 1 | 2 | 3 => false | _ => true) && s.quietPort c.id

/-! ## Kills (R312) -/

/-- What names the COLLs, DSPATs and BPERMs of a task in packets: space, operation, serial and rank. -/
def Core.routeKeys (c : Core) : List (BitVec 16 × BitVec 8 × BitVec 32 × Nat) :=
  c.e.cmds.filterMap fun m =>
    if m.op = 0x87 then some (c.space, 0x87, cSer m.w1, cRank m.w0)
    else if m.op = 0x83 ∨ m.op = 0x84 then some (c.space, BitVec.ofNat 8 m.op, rSerial m.w1, 0) else none

/-- A pool whose BPERM a kill or a fence ends has failed. -/
def Pool.unopened (x : Pool) (c : Core) : Pool :=
  if (x.core = c.id ∨ x.core = c.key) ∧ (c.cmdOf x.tk).isSome ∧ (x.st = .opened ∨ x.st = .granted) then
    { x with st := .failed, why := cChannel }
  else x

/-- What arrives for a COLL, DSPAT or BPERM of a task that is killed is refused from now on (R419). -/
def State.noteKilled (s : State) (c : Core) : State :=
  match c.task with
  | none => s
  | some t =>
    if c.routeKeys.isEmpty then s
    else
      let s := s.onPart t.part fun p => { p with killed := c.routeKeys ++ p.killed.filter fun x => !c.routeKeys.contains x }
      { s with dies := s.dies.map fun d => { d with pools := d.pools.map fun x => x.unopened c } }

/-- Copies, Lighter commands and collectives of a killed task end CANCELLED. -/
def State.cancelSuspended (s : State) (id : Nat) : State :=
  (s.coreAt id).suspended.foldl (fun s m => s.completeCmd id m stCancelled 0 m.flags m.done) (s.noteKilled (s.coreAt id))

/-- The killed task at its boundary: armed entries go, copies, Lighter commands and collectives end CANCELLED, the rest drains. -/
def State.endKilled (s : State) (id : Nat) : State :=
  let s := s.onCore id fun c =>
    let c := { c with e := { c.e with armed := c.e.armed ++ c.e.fired, fired := [] } }
    { c.cancelArmed none with st := .ended, killed := true, frame := none, spec := [], stop := none, preempt := none }
  (s.leaveGroup id).cancelSuspended id

/-- A kill reaches a task: a block that cannot be discarded commits first (R61). -/
def State.killTask (s : State) (id : Nat) : State :=
  let c := s.coreAt id
  if !c.hasTask then s
  else if c.mustCommit then s.onCore id fun c => { c with killed := true }
  else if c.st = .ended then (s.onCore id fun c => { c with killed := true }).cancelSuspended id
  else s.endKilled id

/-- A kill that no block of the supervisor makes: a task that such a block holds is killed once the block has committed (R308). -/
def State.killSoon (s : State) (id : Nat) : State :=
  if s.heldBySup id && (s.coreAt id).hasTask then s.onCore id fun c => { c with killed := true } else s.killTask id

/-! ## TASK_RETIRE -/

/-- A killed task that no block of the supervisor holds any more, and that can be ended. -/
def Core.toEnd (c : Core) (held : Bool) : Bool :=
  c.hasTask && c.killed && !held && !c.mustCommit && (c.st != .ended || !c.suspended.isEmpty)

/-- TASK_RETIRE of the current core: its commands have completed, and everything that they and the task wrote is performed, so that the
retirement, and the completion that it may be, is a release of it (R31, R37, R357). A kill that had to wait is made first; a task that was
fenced off counts as retired once what it wrote is performed (R367). -/
def execTaskRetire (s : State) : Host.Outcome State Fault Refusal :=
  let c := s.core
  .next (
    if c.toEnd (s.heldBySup c.id) then s.killTask c.id
    else if !s.quietPort c.id then s
    else if c.st = .ended ∧ c.drained then s.retire c.id
    else
      match c.st, c.task with
      | .fenced, some t =>
        if c.killed then
          let c' : Core := { c with killed := false, task := if (s.gangAt t.gang).isSome then some t else none }
          (State.taskGone { s with core := c' } t c.id).askPass
        else s
      | _, _ => s)

/-! ## Launch commands (R36, R170, R171, R313) -/

/-- Check 12 of R25. A queue of another partition, for which no rule gives a result, is refused alike (log 91). -/
def State.queueRefused (s : State) (p : Nat) (space : Option (BitVec 16)) (n : BitVec 10) : Bool :=
  match s.queueAt n with
  | none => true
  | some q => s.partOfQueue n != p || (s.part p).hlt.contains q.space || (match space with | some x => x != q.space | none => false)

/-- Issue of SPAWN or GLAUNCH: the descriptor is read, as it stands in memory (log 93), and checked, and the child waits for its entry. -/
def State.issueLaunch (s : State) (id : Nat) (m : Cmd) : State :=
  let c := s.coreAt id
  let m := { m with pre := some (m.pre.getD c.r.td) }
  let bad (s : State) (d : BitVec 8) : State := s.failCmd id m d 0
  s.takePart id m (s.agentRead c m .gl ((List.range 8).map fun i => { addr := m.arg.toNat + 8 * i, size := 8 })) bad fun s l =>
    let d := Desc.ofWords (l.map wordOf)
    let p := s.partOfCore id
    let space := if isSup id then none else some c.space
    let n : BitVec 10 := BitVec.ofNat 10 (Desc_.queue d)
    match descErr (s.part p).dies d with
    | some k => bad s (BitVec.ofNat 8 (0x40 + k))
    | none =>
      if s.queueRefused p space n then bad s 0x4C
      else
        let s := s.takeCmd id { m with started := true, pre := none, asks := [] }
        let hold := if !isSup id && (s.die (dieOfCore id)).dbgctl.getLsbD 1 then some (dieOfCore id) else none
        { s with childq := s.childq ++ [{ core := id, tk := m.tk, space := space, queue := n, desc := d, holdc := hold }] }

/-- The first child with the ticket that is next for its queue and finds room there, with those before it. -/
def State.nextChild (s : State) (t : Ticket) : List (BitVec 10) → List Child → Option Child
  | _, [] => none
  | seen, c :: cs =>
    let room := match s.queueAt c.queue with | some q => decide (q.entries.length < 64) | none => true
    if c.tk == t && !seen.contains c.queue && room then some c else s.nextChild t (c.queue :: seen) cs

/-- The ticket of a child launch becomes final, where its task still is; of a task that is switched out, when it is back. -/
def State.endChild (s : State) (c : Child) (st : Nat) (detail : BitVec 8) : State :=
  if c.core = 4096 then s
  else if 65536 ≤ c.core then
    s.onSaved c.core fun x => match x.cmdOf c.tk with | some m => x.endSaved m st detail 0 | none => x
  else
    match (s.coreAt c.core).cmdOf c.tk with
    | some m => s.completeCmd c.core m st detail 0 0
    | none => s

/-- CHILD_LAUNCH_ENTRY: the entry is made, or refused when its queue has been halted or destroyed meanwhile (R36, R356). A launch command of
the current core that waits for its descriptor looks again. -/
def execChildLaunchEntry (t : Ticket) (s : State) : Host.Outcome State Fault Refusal :=
  if (match s.core.cmdOf t with | some m => m.pre.isSome || m.fin.isSome | none => false) then
    cmdEvent t s (fun m => roomClass m.op == 6) fun m => s.issueLaunch s.core.id m
  else
    match s.nextChild t [] s.childq with
    | none => .next s
    | some c =>
      let s := { s with childq := s.childq.erase c }
      if s.queueRefused (s.partOfQueue c.queue) c.space c.queue then .next (s.endChild c stFault 0x4C)
      else .next ((s.enterLaunch c.queue c.desc c.holdc).endChild c stDone 0).askPass

/-- Issue of any command of a task, by the engine of its word (R58 step 3). -/
def State.issueCmd (s : State) (id : Nat) (m : Cmd) : State :=
  match roomClass m.op with
  | 0 => s.issueCopy id m
  | 1 => s.issueMatrix id m
  | 2 => s.issueSigstrm id m
  | 3 | 4 => s.issueRoute id m
  | 5 => s.issueColl id m
  | _ => s.issueLaunch id m

/-- ARMED_COMMAND_FIRE: the oldest fired entry of the current core issues once its engine has room (R235); where the ARM or the command is a
release, once the task's packets of before the ARM are performed (R131). -/
def execArmedCommandFire (s : State) : Host.Outcome State Fault Refusal :=
  match s.core.e.fired with
  | [] => .next s
  | a :: rest =>
    if !s.core.hasRoom a.cmd.op || (a.cmd.releases && !s.acksBelow s.core.id a.upto) then .next s
    else .next ({ s with core := { s.core with e := { s.core.e with fired := rest } } }.issueCmd s.core.id a.cmd)

end Sys2Proof.Machine
end

