-- ==== Sys2Proof/Machine/System.lean ====
section
/-!
DEFINITION. Sys2Proof/Machine/System.lean: the system instructions as they fire, majors 0xF0 to 0xF8 (R306 to R317), and the
privileged state registers (R345 to R347). Their deferred checks and their effects at the commit are in SystemEffects (R308).
-/
namespace Sys2Proof.Machine

/-! ## Privileged state registers -/

/-- DCMAP of a die: sites 0 to 32 (R346). -/
def dcmap (d : Nat) : Word :=
  BitVec.ofNat 64 (((List.range 8).map fun g => min 32 (field ((Config.dcmapFuses d).setWidth 64) (6 * g + 5) (6 * g)) * 2 ^ (6 * g)).foldl
    (· + ·) 0)

/-- The enabled sites of region group g under a DCMAP, in increasing order: those but SITEg (R353). -/
def enabledSites (map : Word) (g : Nat) : List Nat := (List.range 33).filter fun n => n != field map (6 * g + 5) (6 * g)

/-- The logical core on die of a site of region group g, none for the disabled one: the k-th enabled site is position k mod 8 of region
4g + k div 8 (R15, R353). -/
def coreOfSite (map : Word) (g site : Nat) : Option Nat :=
  ((enabledSites map g).findIdx? fun n => n == site).map fun k => 8 * (4 * g + k / 8) + k % 8

/-- The region group and the site at which a logical core on die stands (R353). -/
def siteOfCore (map : Word) (core : Nat) : Nat × Nat := (core / 32, (enabledSites map (core / 32)).getD (core % 32) 0)

/-- Bits of a register that are not marked "—" (R346). -/
def psrBits (n : Nat) : Word :=
  match n with
  | 0x000 => mask64 12 0
  | 0x001 => mask64 3 0
  | 0x002 => mask64 31 24 ||| mask64 11 0
  | 0x003 => mask64 47 0
  | 0x010 => mask64 15 0
  | 0x011 => mask64 56 12
  | 0x012 => mask64 13 8 ||| mask64 5 0
  | 0x013 => mask64 1 0
  | 0x020 => mask64 9 0
  | 0x021 | 0x030 | 0x031 => mask64 31 0
  | 0x022 => mask64 47 0
  | 0x040 => mask64 1 0
  | 0x050 => mask64 39 12
  | 0x051 => mask64 27 0
  | _ => 0

/-- QSEL of die d names a queue of another partition, as it may after a reset or a split: QBGT and QWD of that queue are out of reach here
(R351, log 94). -/
def State.farQueue (s : State) (d n : Nat) : Bool :=
  (n == 0x021 || n == 0x022) && s.partOfQueue (s.die d).qsel != s.partOfDie d

/-- PSR.rd on die d, none for a number that is not listed (R345, R346). -/
def psrRead (s : State) (d n : Nat) : Option Word :=
  let di := s.die d
  let pn := s.partOfDie d
  let p := s.part pn
  match n with
  | 0x000 => some (BitVec.ofNat 64 (p.endp.toNat * 16 + pn * 4 + d))
  | 0x001 => some (p.dies.setWidth 64)
  | 0x002 => some (BitVec.ofNat 64 (Config.fam.toNat * 2 ^ 24 + Config.allUnits.toNat))
  | 0x003 => some (dcmap d)
  | 0x010 => some (di.spsel.setWidth 64)
  | 0x011 => some ((lookup di.spsel p.sppt).getD 0)
  | 0x012 => some ((lookup di.spsel di.sphold).getD 0)
  | 0x013 => some (BitVec.ofNat 64 ((if p.spaces.contains di.spsel then 1 else 0) + (if p.hlt.contains di.spsel then 2 else 0)))
  | 0x020 => some (di.qsel.setWidth 64)
  | 0x021 => some (((lookup di.qsel.toNat s.qbgt).getD 0xFFFFFFFF).setWidth 64)
  | 0x022 => some (((lookup di.qsel.toNat s.qwd).getD 0).setWidth 64)
  | 0x030 => some (di.dupcnt.setWidth 64)
  | 0x031 => some (di.miscnt.setWidth 64)
  | 0x040 => some (di.dbgctl.setWidth 64)
  | 0x050 => some p.ctxa
  | 0x051 => some p.ctxl
  | _ => none

/-- The die of the supervisor core that executes. -/
def myDie (s : State) : Nat := dieOfCore s.core.id

/-- PSR.rd (R309); of a queue out of reach, an unspecified value (log 94). -/
def execPsrRead (c : Ctl) (n : BitVec 13) (s : State) : Host.Outcome State Fault Refusal :=
  fireWith (.psrRead c n) s fun s _ =>
    match psrRead s (myDie s) n.toNat with
    | some w =>
      if s.farQueue (myDie s) n.toNat then let (w, s) := s.drawWord; (s, .done (.s (w &&& psrBits n.toNat)) 0 [])
      else (s, .done (.s w) 0 [])
    | none => (s, .fault { cause := cIllegal, addr := 0 })

/-- A PSR.wr that fires: an unlisted number raises Illegal Operand now (R309). -/
def firePsr (i : Instr) (n : BitVec 13) (s : State) : Host.Outcome State Fault Refusal :=
  fireWith i s fun s x =>
    match psrRead s (myDie s) n.toNat with
    | some _ => (s, .done .null 0 [.sys (.psr n (tokWord x.a))])
    | none => (s, .fault { cause := cIllegal, addr := 0 })

/-- PSR.wr (R309). -/
def execPsrWrite (c : Ctl) (n : BitVec 13) (s : State) : Host.Outcome State Fault Refusal := firePsr (.psrWrite c n) n s
/-- PSR.wr of SPCTL (R346 to R348). -/
def execSpctlWrite (c : Ctl) (s : State) : Host.Outcome State Fault Refusal := firePsr (.spctlWrite c) 0x013 s
/-- PSR.wr of SPHOLD (R347, R350). -/
def execSpholdWrite (c : Ctl) (s : State) : Host.Outcome State Fault Refusal := firePsr (.spholdWrite c) 0x012 s
/-- PSR.wr of SPPT (R350). -/
def execSpptWrite (c : Ctl) (s : State) : Host.Outcome State Fault Refusal := firePsr (.spptWrite c) 0x011 s
/-- PSR.wr of QWD (R354). -/
def execQwdWrite (c : Ctl) (s : State) : Host.Outcome State Fault Refusal := firePsr (.qwdWrite c) 0x022 s
/-- PSR.wr of CTXA and CTXL (R392). -/
def execContextAreaWrite (c : Ctl) (len : Bool) (s : State) : Host.Outcome State Fault Refusal :=
  firePsr (.contextAreaWrite c len) (if len then 0x051 else 0x050) s
/-- PSR.wr of DBGCTL (R400). -/
def execDbgctlWrite (c : Ctl) (s : State) : Host.Outcome State Fault Refusal := firePsr (.dbgctlWrite c) 0x040 s

/-! ## The other system instructions: the operation awaits the commit (R308) -/

/-- Fires a system instruction. -/
def fireSys (i : Instr) (s : State) (op : In → SysOp) : Host.Outcome State Fault Refusal :=
  fireWith i s fun s x => (s, .done .null 0 [.sys (op x)])

/-- The task handle in slot A as a number, checked later (R307). -/
def aNat (x : In) : Nat := (tokWord x.a).toNat

/-- TRESUME (R310). -/
def execTresume (c : Ctl) (s : State) : Host.Outcome State Fault Refusal :=
  fireSys (.tresume c) s fun x => .tresume (aNat x) (tokWord x.b)
/-- TRESUME.same (R310). -/
def execTresumeSame (c : Ctl) (s : State) : Host.Outcome State Fault Refusal :=
  fireSys (.tresumeSame c) s fun x => .tresumeSame (aNat x)
/-- TLBINV.all (R311). -/
def execTlbinvAll (c : Ctl) (s : State) : Host.Outcome State Fault Refusal := fireSys (.tlbinvAll c) s fun _ => .tlbAll
/-- TLBINV.page (R311). -/
def execTlbinvPage (c : Ctl) (s : State) : Host.Outcome State Fault Refusal :=
  fireSys (.tlbinvPage c) s fun x => .tlbPage (tokWord x.a)
/-- TLBINV.space (R311). -/
def execTlbinvSpace (c : Ctl) (s : State) : Host.Outcome State Fault Refusal :=
  fireSys (.tlbinvSpace c) s fun x => .tlbSpace (tokWord x.a)
/-- CTXOP.save (R312). -/
def execCtxopSave (c : Ctl) (s : State) : Host.Outcome State Fault Refusal :=
  fireSys (.ctxopSave c) s fun x => .save (aNat x) (tokWord x.b)
/-- CTXOP.restore (R312). -/
def execCtxopRestore (c : Ctl) (s : State) : Host.Outcome State Fault Refusal :=
  fireSys (.ctxopRestore c) s fun x => .restore (aNat x) (tokWord x.b)
/-- CTXOP.kill (R312). -/
def execCtxopKill (c : Ctl) (s : State) : Host.Outcome State Fault Refusal := fireSys (.ctxopKill c) s fun x => .kill (aNat x)
/-- GLAUNCH (R313): a command, checked as SPAWN is. -/
def execGlaunch (c : Ctl) (o : CmdOpt) (s : State) : Host.Outcome State Fault Refusal :=
  fireCommand (.glaunch c o) s fun _ x => descAddr (tokWord x.a)
/-- BUDGET.set (R314). -/
def execBudgetSet (c : Ctl) (s : State) : Host.Outcome State Fault Refusal :=
  fireSys (.budgetSet c) s fun x => .budgetSet (aNat x) (tokWord x.b)
/-- BUDGET.add (R314). -/
def execBudgetAdd (c : Ctl) (s : State) : Host.Outcome State Fault Refusal :=
  fireSys (.budgetAdd c) s fun x => .budgetAdd (aNat x) (tokWord x.b)
/-- HALT (R315). -/
def execHalt (c : Ctl) (s : State) : Host.Outcome State Fault Refusal := fireSys (.halt c) s fun _ => .halt
/-- DBG.step (R316). -/
def execDbgStep (c : Ctl) (s : State) : Host.Outcome State Fault Refusal := fireSys (.dbgStep c) s fun x => .step (aNat x)
/-- DBG.brk (R316). -/
def execDbgBrk (c : Ctl) (s : State) : Host.Outcome State Fault Refusal :=
  fireSys (.dbgBrk c) s fun x => .brk (aNat x) (tokWord x.b)
/-- DBG.clrbrk (R316). -/
def execDbgClrbrk (c : Ctl) (s : State) : Host.Outcome State Fault Refusal :=
  fireSys (.dbgClrbrk c) s fun x => .clrbrk (aNat x)
/-- CACHE.l1inv (R317). -/
def execCacheL1inv (c : Ctl) (s : State) : Host.Outcome State Fault Refusal := fireSys (.cacheL1inv c) s fun x => .l1inv (aNat x)
/-- CACHE.icinv (R317). -/
def execCacheIcinv (c : Ctl) (s : State) : Host.Outcome State Fault Refusal := fireSys (.cacheIcinv c) s fun x => .icinv (aNat x)
/-- CACHE.l2wb (R317). -/
def execCacheL2wb (c : Ctl) (s : State) : Host.Outcome State Fault Refusal := fireSys (.cacheL2wb c) s fun x => .l2wb (tokWord x.a)

end Sys2Proof.Machine
end

