-- ==== Sys2Proof/Machine/SystemEffects.lean ====
section
/-!
DEFINITION. Sys2Proof/Machine/SystemEffects.lean: the deferred checks of system instructions and their effects at the commit
(R307 to R317, R346, R347, R350, R392, R396, R400).
-/
namespace Sys2Proof.Machine

/-! ## Privileged state registers (R346, R347, R392) -/

/-- A task of the space is placed or saved. -/
def State.spaceHasTask (s : State) (p : Nat) (space : BitVec 16) : Bool :=
  (s.gangs ++ s.saved.map Saved.gang).any fun g => g.part == p && g.space == space

/-- What keeps a space from being destroyed (R347). -/
def State.spaceBusy (s : State) (p : Nat) (space : BitVec 16) : Bool :=
  space == 0 || (s.queues.any fun q => s.partOfQueue q.num == p && q.space == space) || s.spaceHasTask p space
  || ((List.range 4).any fun d => s.partOfDie d == p && (s.die d).pools.any fun x => x.space == space)
  || (s.dbars.any fun b => b.members.any fun (e, sp_, _, _) => e == (s.part p).endp && sp_ == space)

/-- Two windows of units overlap. -/
def windowsMeet (a b : Word) : Bool :=
  decide (field a 13 8 ≠ 0 ∧ field b 13 8 ≠ 0 ∧ field a 5 0 < field b 5 0 + field b 13 8 ∧ field b 5 0 < field a 5 0 + field a 13 8)

/-- Non-zero thresholds in order. -/
def qwdOrdered (v : Word) : Bool :=
  let l := [field v 15 0, field v 31 16, field v 47 32].filter fun x => x != 0
  (l.zip (l.drop 1)).all fun (a, b) => decide (a ≤ b)

/-- The context area lies in HBM4E of the partition's dies, and no image or reservation stands in it (R392). -/
def State.areaOk (s : State) (p : Nat) (ctxa ctxl : Word) : Bool :=
  let base := field ctxa 39 12 * 4096
  let len := field ctxl 27 0 * 4096
  (s.usedUnits p).isEmpty &&
  (len == 0 ||
    (match hbmDie base, hbmDie (base + len - 1) with
     | some a, some b => a == b && (s.part p).dies.getLsbD a
     | _, _ => false))

/-- A PSR.wr on die d passes its checks. -/
def State.psrOk (s : State) (d n : Nat) (v : Word) : Bool :=
  let di := s.die d
  let pn := s.partOfDie d
  let p := s.part pn
  let valid := p.spaces.contains di.spsel
  v &&& ~~~psrBits n == 0 &&
  (match n with
   | 0x011 => valid
   | 0x012 => valid && decide (field v 5 0 + field v 13 8 ≤ 48) && di.sphold.all fun x => x.1 == di.spsel || !windowsMeet v x.2
   | 0x013 =>
     if bitAt v 0 then valid || decide (p.spaces.length < 256) else valid && !s.spaceBusy pn di.spsel
   | 0x020 => p.dies.getLsbD (field v 9 0 / 256)
   | 0x021 => !s.farQueue d n
   | 0x022 => !s.farQueue d n && qwdOrdered v
   | 0x050 => s.areaOk pn v p.ctxl
   | 0x051 => s.areaOk pn p.ctxa v
   | _ => true)

/-- Held children of a die are released in queue order, and may be placed (R400). -/
def State.releaseHeld (s : State) (d : Nat) : State :=
  let free (e : Entry) : Entry := if e.holdc = some d then { e with holdc := none, since := s.cycle } else e
  let s : State := { s with queues := s.queues.map fun q => { q with entries := q.entries.map free },
                            childq := s.childq.map fun c => if c.holdc = some d then { c with holdc := none } else c }
  s.askPass

/-- The effect of a PSR.wr on die d; RO registers and fields keep their values. What another supervisor core has done since the check may
leave the write no longer allowed: it then changes nothing (R348, R350, log 95). -/
def State.psrWrite (s : State) (d n : Nat) (v : Word) : State :=
  let di := s.die d
  let pn := s.partOfDie d
  if !s.psrOk d n v then s
  else
  match n with
  | 0x010 => s.onDie d fun di => { di with spsel := v.setWidth 16 }
  | 0x011 => s.onPart pn fun p => { p with sppt := assign di.spsel v p.sppt }
  | 0x012 => s.onDie d fun x => { x with sphold := assign di.spsel v x.sphold }
  | 0x013 => s.onPart pn fun p =>
      if bitAt v 0 then { p with spaces := if p.spaces.contains di.spsel then p.spaces else p.spaces ++ [di.spsel] }
      else { p with spaces := p.spaces.filter fun x => x != di.spsel }
  | 0x020 => s.onDie d fun di => { di with qsel := v.setWidth 10 }
  | 0x021 => { s with qbgt := assign di.qsel.toNat (v.setWidth 32) s.qbgt }
  | 0x022 => { s with qwd := assign di.qsel.toNat (v.setWidth 48) s.qwd }
  | 0x030 => s.onDie d fun di => { di with dupcnt := v.setWidth 32 }
  | 0x031 => s.onDie d fun di => { di with miscnt := v.setWidth 32 }
  | 0x040 =>
    let s := s.onDie d fun di => { di with dbgctl := v.setWidth 2 }
    if bitAt v 1 then s else s.releaseHeld d
  | 0x050 => s.onPart pn fun p => { p with ctxa := v }
  | 0x051 => s.onPart pn fun p => { p with ctxl := v }
  | _ => s

/-! ## Task handles (R307) -/

/-- The core of a handle on die d, if it holds a task. -/
def State.handle (s : State) (d h : Nat) : Option Nat :=
  if h < 256 ∧ (s.coreAt (256 * d + h)).hasTask then some (256 * d + h) else none

/-- Cores that A[8:0] of CACHE names (R317). -/
def cacheCores (d sel : Nat) : Option (List Nat) :=
  if sel < 256 then some [256 * d + sel]
  else if sel = 256 then some [1024 + d]
  else if sel = 511 then some ((1024 + d) :: (List.range 256).map fun i => 256 * d + i)
  else none

/-! ## Images at a virtual address (R312) -/

/-- The units of an image in the space of the supervisor. -/
def imageUnits (p : Nat) (k : AccKind) : Nat → Nat → State → State × Except XErr Units
  | 0, _, s => (s, .ok [])
  | n + 1, va, s =>
    match translate s p 0 va 4096 k false with
    | (s, .error e) => (s.uncorr s.core.id 0 e.cause e.addr, .error e)
    | (s, .ok ph) =>
      match imageUnits p k n (va + 4096) s with
      | (s, .error e) => (s, .error e)
      | (s, .ok us) => (s, .ok (ph :: us))

/-- A check that fails. -/
abbrev CheckErr := Option XErr
def illegalOp : CheckErr := some { cause := cIllegal, addr := 0 }
def passed : CheckErr := none

/-- What the homes of an image's halves have answered to the instruction at an index (R109). -/
def State.halvesOf (s : State) (idx : Nat) : Halves := fun k => ((s.core.frame.bind fun fr => fr.remoteOf idx k)).bind fun r => r.answer

/-- Units of an image, as its header says. -/
def imageCount (h : Memory) : Nat := max 1 (min 512 (ceilDiv (imgWord h 56).toNat 4096))

/-- The first half of some units that its home has not given. -/
def farErr (far : Halves) (va : Word) (us : Units) : Option XErr :=
  (us.zipIdx).findSome? fun (u, n) =>
    match u with
    | .remote _ _ => [2 * n, 2 * n + 1].findSome? fun k =>
        (far k).bind fun x => if x.1 = 0 then none else some { cause := x.1, addr := va + BitVec.ofNat 64 (2048 * k), rem := true }
    | _ => none

/-- The header unit of an image and then the rest of it, for the instruction at an index. -/
def State.readImage (s : State) (p idx : Nat) (va : Word) : State × Except XErr (Units × Img) :=
  let far := s.halvesOf idx
  match imageUnits p .load 1 va.toNat s with
  | (s, .error e) => (s, .error e)
  | (s, .ok u0) =>
    match farErr far va u0 with
    | some e => (s.uncorr s.core.id 0 e.cause e.addr, .error e)
    | none =>
      let (_, h) := getUnits 0 s.core.id far u0 0 { mem := [], bad := [] } s
      match imageUnits p .load (imageCount h.mem) va.toNat s with
      | (s, .error e) => (s, .error e)
      | (s, .ok us) =>
        match farErr far va us with
        | some e => (s.uncorr s.core.id 0 e.cause e.addr, .error e)
        | none =>
          let (s, img) := getUnits 0 s.core.id far us 0 { mem := [], bad := [] } s
          match img.bad with
          | [] => (s, .ok (us, img))
          | g :: _ => (s, .error { cause := cUncorr, addr := va + BitVec.ofNat 64 (32 * g) })

/-- The core awaits an image of its gang: its task has retired and it stands held for that gang (R32, R307; log 34). -/
def Core.awaits (c : Core) (img : Memory) : Bool :=
  match c.task with
  | none => false
  | some t => c.st == .held && imgWord img 8 == t.wid && field (imgWord img 16) 47 32 == t.space.toNat
      && field (imgWord img 16) 13 8 == t.rank && (List.range 8).all fun i => imgWord img (64 + 8 * i) == t.desc.words.getD i 0

/-! ## The deferred checks (R308) -/

/-- The check of the operation of an instruction on die d. -/
def State.sysCheck (s : State) (d idx : Nat) (op : SysOp) : State × CheckErr :=
  let need (h : Nat) (f : Core → Bool) : CheckErr :=
    match s.handle d h with | some id => if f (s.coreAt id) then passed else illegalOp | none => illegalOp
  let only (b : Bool) : CheckErr := if b then passed else illegalOp
  let p := s.partOfDie d
  match op with
  | .psr n v => (s, only (s.psrOk d n.toNat v))
  | .tresume h _ | .tresumeSame h => (s, need h fun c => c.st == .stopped)
  | .tlbAll | .halt => (s, passed)
  | .tlbPage va => (s, only (field va 63 57 == 0))
  | .tlbSpace sp_ => (s, only (field sp_ 63 16 == 0))
  | .save h a =>
    match s.handle d h with
    | none => (s, illegalOp)
    | some id =>
      let c := s.coreAt id
      match c.task with
      | none => (s, illegalOp)
      | some t =>
        if c.st != .stopped || field a 11 0 != 0 then (s, illegalOp)
        else
          match imageUnits p .store (ceilDiv (fullLen t.desc) 4096) a.toNat s with
          | (s, .error e) => (s, some e)
          | (s, .ok _) => (s, passed)
  | .restore h a =>
    if 256 ≤ h ∨ field a 11 0 ≠ 0 then (s, illegalOp)
    else
      match s.readImage p idx a with
      | (s, .error e) => (s, some e)
      | (s, .ok (_, img)) =>
        let c := s.coreAt (256 * d + h)
        match imageErr img.mem c.gsize with
        | some cause => (s, some { cause := cause, addr := 0 })
        | none => (s, only (c.awaits img.mem))
  | .kill h | .step h | .clrbrk h => (s, need h fun _ => true)
  | .budgetSet h v | .budgetAdd h v => (s, if field v 63 32 ≠ 0 then illegalOp else need h fun _ => true)
  | .brk h a => (s, if field a 4 0 ≠ 0 then illegalOp else need h fun c => decide (c.brk.length < 4))
  | .l1inv sel | .icinv sel => (s, only (cacheCores d sel).isSome)
  | .l2wb a => (s, only (if bitAt a 63 then field a 62 0 == 0 else field a 62 57 == 0))

/-! ## The effects (R308 step 4) -/

/-- Cached entries and templates that a form covers are gone (R311, R358). A block that is not bound, and has resolved an address in a space
that it covers, fires again: none of its accesses is performed by an old translation. -/
def State.tlbInv (s : State) (hitT : Tlb → Bool) (hitM : Tmpl → Bool) (hitC : Nat → BitVec 16 → Bool) : State :=
  let again (c : Core) : Core := if hitC (s.partOfCore c.id) c.space then { c with frame := c.frame.map Frame.replay, spec := [] } else c
  { s with tlb := s.tlb.filter fun t => !hitT t, tmpls := s.tmpls.filter fun t => !hitM t, core := again s.core, parked := s.parked.map again }

/-- Those of the page, of any size, that holds an address of a space (R311). -/
def State.tlbInvPage (s : State) (p : Nat) (space : BitVec 16) (va : Nat) : State :=
  s.tlbInv (fun t => t.part == p && t.space == space && decide (t.va ≤ va ∧ va < t.va + covers t.level))
    (fun t => t.part == p && t.space == space && t.entry.toNat / t.page == va / t.page) fun q x => q == p && x == space

/-- An operation changes every core of a list. -/
def State.onCores (s : State) (ids : List Nat) (f : Core → Core) : State := ids.foldl (fun s id => s.onCore id f) s

/-- A trap record is pending in the ring of die d: TP ≠ TC (R315). -/
def State.trapPending (s : State) (d : Nat) : Bool :=
  s.readWord (spKey (1024 + d) 0xF0000) != s.readWord (spKey (1024 + d) 0xF0008)

/-- The commit of a HALT: fetch stops unless something is pending (R315). -/
def State.haltCore (s : State) (id : Nat) : State :=
  let pending := s.trapPending (dieOfCore id) || (s.coreAt id).wake
  s.onCore id fun c => { c with wake := false, st := if pending then c.st else .halted }

/-- The number under which the context of the task that an image names is kept (log 18). -/
def imageTask (img : Memory) : Nat := (imgWord img 8).toNat * 2 ^ 64 + (imgWord img 16).toNat

/-- CTXOP.save: the full context goes to the image; the task stays stopped. -/
def State.saveTask (s : State) (p id : Nat) (a : Word) : State :=
  let c := s.coreAt id
  match c.task with
  | none => s
  | some t =>
    let (s, img) := s.imageOf c true
    match imageUnits p .store (ceilDiv (fullLen t.desc) 4096) a.toNat s with
    | (s, .error _) => s
    | (s, .ok us) => let s := putUnits img us 0 s; { s with shadows := assign (imageTask img.mem) c s.shadows }

/-- CTXOP.restore: the core holds a task again, stopped, and awaits TRESUME.same. -/
def State.restoreTask (s : State) (p idx id : Nat) (a : Word) : State :=
  match s.readImage p idx a with
  | (_, .error _) => s
  | (s', .ok (_, img)) =>
    let s : State := { s with tlb := s'.tlb, free := s'.free }
    let old := s.coreAt id
    match old.task with
    | none => s
    | some t =>
      let c := imageLoad img.mem ((lookup (imageTask img.mem) s.shadows).getD (Core.blank id))
      let s := s.loadFootprint id t.desc img
      let stop := match c.stop with | some l => l | none => ({ cause := cUser, resume := c.pc } : Stop).words c
      let s := s.putCore { c.testArmed with
        id := id, task := some t, st := .stopped, killed := false, stop := some stop, l1 := [], entry := [], icache := [], tmpl := none, view := [] }
      let s := if c.stop.isSome then s.requeueTrap id else s
      match s.entryOf t.launch with
      | some (q, e) => s.putQueue { q with entries := q.entries.map fun (x : Entry) => if x.id = e.id then { e with live := e.live + 1 } else x }
      | none => s

/-- Adds to a budget, saturating (R314). -/
def budgetSum (bgt : BitVec 32) (v : Word) : BitVec 32 := BitVec.ofNat 32 (min (bgt.toNat + field v 31 0) (2 ^ 32 - 1))

/-- The effect of the operation of an instruction of the supervisor core of die d. -/
def State.sysEffect (s : State) (d idx : Nat) (op : SysOp) : State :=
  let p := s.partOfDie d
  let on (h : Nat) (f : Nat → State) : State := match s.handle d h with | some id => f id | none => s
  match op with
  | .psr n v => s.psrWrite d n.toNat v
  | .tresume h a => on h fun id => if (s.coreAt id).st = .stopped then s.resumeCore id a else s
  | .tresumeSame h => on h fun id =>
      let c := s.coreAt id
      if c.st = .stopped then s.resumeCore id ((c.stop.getD []).getD 2 c.pc) else s
  | .tlbAll => s.tlbInv (fun _ => true) (fun _ => true) fun _ _ => true
  | .tlbPage va => s.tlbInvPage p (s.die d).spsel va.toNat
  | .tlbSpace w =>
    let sp_ : BitVec 16 := w.setWidth 16
    s.tlbInv (fun t => t.part == p && t.space == sp_) (fun t => t.part == p && t.space == sp_) fun q x => q == p && x == sp_
  | .save h a => on h fun id => s.saveTask p id a
  | .restore h a => if h < 256 then s.restoreTask p idx (256 * d + h) a else s
  | .kill h => on h s.killTask
  | .budgetSet h v => on h fun id => s.onCore id fun c => { c with r := { c.r with bgt := BitVec.ofNat 32 (field v 31 0) } }
  | .budgetAdd h v => on h fun id => s.onCore id fun c => { c with r := { c.r with bgt := budgetSum c.r.bgt v } }
  | .halt => s.haltCore (1024 + d)
  | .step h => on h fun id => s.onCore id fun c => { c with stepPend := true }
  | .brk h a => on h fun id => s.onCore id fun c => { c with brk := c.brk ++ [a] }
  | .clrbrk h => on h fun id => s.onCore id fun c => { c with brk := [] }
  | .l1inv sel => s.onCores ((cacheCores d sel).getD []) fun c => { c with l1 := [] }
  | .icinv sel => s.onCores ((cacheCores d sel).getD []) fun c => { c with icache := [], spec := [] }
  | .l2wb _ => s

/-- What a check has looked up and recorded, and nothing else of it. -/
def State.afterCheck (s view : State) : State :=
  { s with tlb := view.tlb, free := view.free,
           dies := s.dies.zipWith (fun (d x : Die) => { d with bbox := x.bbox, lost := x.lost }) view.dies }

/-- The checks of a block's operations in index order, each after the register writes and breakpoints before it. -/
def State.sysChecks (d : Nat) : List (Nat × SysOp) → State → State → State × Option (Nat × XErr)
  | [], _, s => (s, none)
  | (idx, op) :: l, view, s =>
    let (view, r) := view.sysCheck d idx op
    match r with
    | some e => (s.afterCheck view, some (idx, e))
    | none =>
      let next := match op with | .psr _ _ | .brk _ _ => view.sysEffect d idx op | _ => view
      State.sysChecks d l next (s.afterCheck view)

end Sys2Proof.Machine
end

