-- ==== Sys2Proof/Machine/Commit.lean ====
section
/-!
DEFINITION. Sys2Proof/Machine/Commit.lean: the binding point of a block with atomics (R53, R123), the deferred checks (R244, R308) and
the commit (R55 to R58, R397, R401, R402).
-/
namespace Sys2Proof.Machine

/-! ## Effects in order -/

/-- LSID of an effect of the memory step (R58 step 1). -/
def memLsid : Effect → Option Nat
  | .store l _ _ _ | .remote l _ _ _ | .door l _ _ _ _ | .atomic l _ _ _ _ _ _ _ | .bank l _ _ _ _ _ _ | .vjoin l | .fence l _ _ => some l
  | _ => none

/-- LSID of a barrier effect, applied after the memory step (R230). -/
def barLsid : Effect → Option Nat
  | .barInit l _ _ | .barArrive l _ => some l
  | _ => none

/-- LSID of a counter change: several CTRs of a block apply in LSID order (R232). -/
def ctrLsid : Effect → Option Nat
  | .ctr l _ _ _ _ => some l
  | _ => none

/-- LSID of what an MLDA loads into its tile (R259). -/
def tileLsid : Effect → Option Nat
  | .tile l _ _ => some l
  | _ => none

/-- The effects that have a key, by increasing key. -/
def effsBy (f : Effect → Option Nat) (l : List (Nat × Effect)) : List (Nat × (Nat × Effect)) :=
  l.foldl (fun acc x => match f x.2 with | some k => insertKey k x acc | none => acc) []

/-- The effects by increasing instruction index. -/
def byIndex (l : List (Nat × Effect)) : List (Nat × Effect) := l.foldl (fun acc x => insertKey x.1 x.2 acc) []

/-! ## Performing (R58 step 1) -/

/-- Value of an atomic that a task reads: an integer of 32 bits is sign-extended, the rest zero-extended (R226, R227). -/
def atomicWord (op : AtomOp) (w64 : Bool) (old : Nat) : Word :=
  if w64 then BitVec.ofNat 64 old
  else match op with
    | .amo .faddF32 | .amo .faddBf16x2 => BitVec.ofNat 64 old
    | _ => sext 32 (BitVec.ofNat 64 old)

/-- The new value of an atomic, none when it writes nothing. -/
def atomicNew (op : AtomOp) (w64 : Bool) (old : Nat) (operand : Word) : Option Nat :=
  let n := if w64 then 64 else 32
  match op with
  | .amo a => some (amoNew a w64 old operand.toNat)
  | .cas e => if old = e.toNat % 2 ^ n then some (operand.toNat % 2 ^ n) else none

/-- Sends the token of the instruction at `idx` to its targets. -/
def State.sendToken (s : State) (idx : Nat) (t : Tok) : State :=
  s.onFrame fun fr =>
    match fr.instr idx with
    | some i => { fr with slots := deliver t (targetsOf i) fr.slots }
    | none => fr

/-- An atomic at a home of this package: read and written in one step (R226, R227). In its own scratchpad it may come before a store through
the other view, with which it is unordered; that store's value then stays (R118, R124). -/
def State.doAtomic (s : State) (idx : Nat) (op : AtomOp) (w64 : Bool) (key : Nat) (operand : Word) (view : View) : State :=
  let n := if w64 then 8 else 4
  let keys := (List.range n).map (key + ·)
  let (s, hide) := (s.corrected key n).viewPick view keys
  let old := ofBytes (keys.map fun k => hideStores k hide s.core.view (cget (w := 8) s.mem k))
  let s := s.dropLine key
  let s := match atomicNew op w64 old operand with
    | some x =>
      let ws := byteWs key (bytesOf n x)
      (match view with
       | .other => s.storeLocal .other n ws
       | v => s.storeOwnWith v n ws (ws.filter fun b => s.core.clashes v b.key))
    | none => s
  s.sendToken idx (.s (atomicWord op w64 old))

/-- The ordering annotation of the instruction at `idx`: it is a release, an acquire, of a scope wider than the task (R120). -/
def Frame.releasesAt (fr : Frame) (idx : Nat) : Bool :=
  match (fr.instr idx).bind memfOf with | some m => m.ord.isRel && m.sc != .task | none => false
def Frame.acquiresAt (fr : Frame) (idx : Nat) : Bool :=
  match (fr.instr idx).bind memfOf with | some m => acquires m | none => false

/-- An effect that a release of the task precedes, or that is one: it waits until what the task has sent is performed (R120, R121, R135).
Packets wait at their sender instead. -/
def Frame.waitsAcks (fr : Frame) (x : Nat × Effect) : Bool :=
  match x.2 with
  | .store _ _ _ _ | .bank _ _ _ _ _ _ _ => fr.releasesAt x.1
  | .atomic _ (.here _) _ _ sc _ _ _ => sc || fr.releasesAt x.1
  | .fence _ k sc => sc != .task && (k == .wr || k == .ww || k == .all)
  | _ => false

/-- The request of an atomic at another endpoint. -/
def atomicReq (op : AtomOp) (w64 : Bool) (operand : Word) : ReqOp × List Byte :=
  let n := if w64 then 8 else 4
  match op with
  | .amo o => (ReqOp.amo o w64, bytesOf n operand.toNat)
  | .cas e => (ReqOp.cas w64, bytesOf n e.toNat ++ bytesOf n operand.toNat)

/-- The virtual address of the atomic at `idx`. -/
def atomicVa (fr : Frame) (idx : Nat) : Word :=
  (fr.effs.findSome? fun (i, e) => match e with | .atomic _ _ _ _ _ _ _ va => if i = idx then some va else none | _ => none).getD 0

/-- The fault of an atomic that is refused at another endpoint (R133, R383, R412). -/
def State.atomicFault (s : State) (fr : Frame) (x : Nat × BitVec 8) : State :=
  let va := atomicVa fr x.1
  (s.uncorr s.core.id s.core.space x.2 va).onFrame fun f =>
    { f with faults := f.faults ++
        [{ idx := x.1, lsid := (f.instr x.1).bind lsidOf, cause := x.2, addr := va, acc := 2, rem := true }] }

/-- One effect of the memory step, and whether it is done: a release waits for acknowledgements, an atomic at another endpoint for its reply.
One that gets none, or is refused, is a fault of the block where nothing of it has been performed (R109); after that, when the block can fault no
more (R53), it gives a free value (log 21). -/
def State.memEffect (s : State) (fr : Frame) (x : Nat × Effect) : State × Bool :=
  let me := s.myEndp s.core.id
  let svr := fsrSvr s.core.r
  if fr.waitsAcks x && !s.acksOf s.core.id then (s, false)
  else
    match x.2.rebase s.migs with
    | .store _ v ws vas => (s.storeLocal v (pieceLen ws vas) ws, true)
    | .remote _ endp rel pieces =>
      (pieces.foldl (fun s (addr, bs) =>
        s.send me endp (addr / 2 ^ 37 % 4) s.core.space rel svr s.core.id
          (.memReq (storeOp bs) (BitVec.ofNat 40 addr) bs.length (bs.map Prod.fst))) s, true)
    | .door _ endp rel number value => (s.send me endp 0 s.core.space rel svr s.core.id (.doorbell value number), true)
    | .bank _ op w64 signed key operand _ =>
      let n := if w64 then 8 else 4
      ((s.corrected key n).poke (byteWs key (bytesOf n (bankNew op w64 signed (s.readNat key n) operand.toNat))), true)
    | .vjoin _ => ({ s with core := { s.core with view := [] } }, true)
    | .atomic _ (.here key) op w64 sc operand view _ =>
      let s := s.doAtomic x.1 op w64 key operand view
      (if sc || fr.acquiresAt x.1 then s.dropL1 else s, true)
    | .atomic _ (.remote endp a) op w64 _ operand _ _ =>
      match fr.remoteOf x.1 1 with
      | none =>
        let (rop, data) := atomicReq op w64 operand
        (s.askRemote x.1 1 endp a.toNat (if w64 then 8 else 4) rop data (fr.releasesAt x.1), false)
      | some { answer := none, .. } => (s, false)
      | some { answer := some (cause, data), .. } =>
        if cause ≠ 0 ∧ fr.begun = false then
          ((s.atomicFault fr (x.1, cause)).onFrame fun f => { f with bound := false, announced := none }, false)
        else
        let (s, old) := if cause = 0 then (s, ofBytes (data.take (if w64 then 8 else 4))) else let (w, s) := s.drawWord; (s, w.toNat)
        let s := s.sendToken x.1 (.s (atomicWord op w64 (old % 2 ^ (if w64 then 64 else 32))))
        (if fr.acquiresAt x.1 then s.dropL1 else s, true)
    | _ => (s, true)

/-- An effect has been performed: it leaves the frame. -/
def State.dropEffect (s : State) (x : Nat × Effect) : State :=
  s.onFrame fun fr =>
    { fr with effs := fr.effs.erase x, begun := fr.begun || (match x.2 with | .fence _ _ _ | .vjoin _ => false | _ => true) }

/-- Performs effects in order up to the first that has to wait; what is performed leaves the frame. -/
def State.performList : List (Nat × Effect) → State → State
  | [], s => s.onFrame fun fr => { fr with performed := true }
  | x :: l, s =>
    match s.core.frame with
    | none => s
    | some fr =>
      match s.memEffect fr x with
      | (s, true) => State.performList l (s.dropEffect x)
      | (s, false) => s

/-- The effects of the memory step that are still to be performed, in LSID order. -/
def Frame.memList (fr : Frame) : List (Nat × Effect) := (effsBy memLsid fr.effs).map Prod.snd

/-- The memory step of the current core's frame, in LSID order, as far as it can go. -/
def State.memoryStep (s : State) : State :=
  match s.core.frame with
  | none => s
  | some fr => if fr.performed then s else State.performList fr.memList s

/-! ### Stores of a block one by one (R113, R115) -/

/-- A later store or atomic at some bytes may be performed before this pending effect. -/
def mayOvertake (fr : Frame) (keys : List Nat) (x : Nat × Effect) : Bool :=
  match x.2 with
  | .fence _ k sc => sc == .task || !(k == .ww || k == .all)
  | .vjoin _ | .atomic _ _ _ _ _ _ _ _ => false
  | e => !(keys.any fun k => (touches k e).isSome) && (fr.acquiresAt x.1 == false)

/-- What may be performed next, alone: the first effect, or, before those ahead of it, an effect that nothing orders behind them: whole, or one
piece of a store. A piece in an uncorrectable granule goes with the others (R384). -/
def State.loosePieces (s : State) (fr : Frame) : List ((Nat × Effect) × Option Nat) :=
  let l := fr.memList
  (l.zipIdx).flatMap fun (x, i) =>
    let first := decide (i = 0)
    if (fr.waitsAcks x && !(first && s.acksOf s.core.id)) || (!first && (effKeys x.2).isEmpty)
        || !((l.take i).all (mayOvertake fr (effKeys x.2))) then []
    else
      match x.2 with
      | .store _ _ ws vas =>
        let len := pieceLen ws vas
        ((List.range vas.length).filter fun j => !(((ws.drop (j * len)).take len).any fun b => s.bad b.key 1)).map fun j => (x, some j)
      | _ => [(x, none)]

/-- Performs the n-th of those, and leaves the rest pending. -/
def State.performPiece (s : State) (n : Nat) : State :=
  match s.core.frame with
  | none => s
  | some fr =>
    match (s.loosePieces fr)[n]? with
    | some ((idx, .store l v ws vas), some j) =>
      let len := pieceLen ws vas
      let left : Effect := .store l v (ws.take (j * len) ++ ws.drop ((j + 1) * len)) (vas.eraseIdx j)
      let now := (Effect.store l v ((ws.drop (j * len)).take len) [vas.getD j 0]).rebase s.migs
      let put (y : Nat × Effect) : List (Nat × Effect) :=
        if y = (idx, .store l v ws vas) then (if vas.length ≤ 1 then [] else [(idx, left)]) else [y]
      let s := s.onFrame fun fr => { fr with effs := fr.effs.flatMap put, begun := true }
      (match now with | .store _ v ws _ => s.storeLocal v len ws | _ => s)
    | some (x, _) =>
      (match s.memEffect fr x with
       | (s, true) => s.dropEffect x
       | (s, false) => s)
    | none => s

/-! ## The deferred checks -/

/-- The CHADVs of a block, in index order. -/
def advances (fr : Frame) : List (Nat × Bool × BitVec 4 × Nat) :=
  (byIndex fr.effs).filterMap fun (i, e) => match e with | .chadv p h n => some (i, p, h, n) | _ => none

/-- The index of the first CHADV whose check fails (R244). -/
def State.chadvFails (s : State) (fr : Frame) : Option Nat :=
  let l := advances fr
  (l.find? fun (_, p, h, _) =>
    match s.holdsRole s.core h p with
    | none => true
    | some (_, _, y) =>
      let sum := (l.filter fun (_, p', h', _) => p' == p && h' == h).foldl (fun n x => n + x.2.2.2) 0
      decide ((if p then y.free else y.filled) < sum)).map Prod.fst

/-- System operations of a block, in index order. -/
def sysOps (fr : Frame) : List (Nat × SysOp) :=
  (byIndex fr.effs).filterMap fun (i, e) => match e with | .sys op => some (i, op) | _ => none

/-- The block has deferred checks that have not been made. -/
def Frame.toCheck (fr : Frame) : Bool :=
  !fr.checked && fr.effs.any fun (_, e) => match e with | .chadv _ _ _ | .sys _ => true | _ => false

/-- Asks the homes for the halves of an image's units that lie at other endpoints. -/
def State.askHalves (s : State) (idx first : Nat) (us : Units) : State :=
  (us.zipIdx).foldl (fun s (u, i) =>
    match u with
    | .remote endp addr =>
      [2 * (first + i), 2 * (first + i) + 1].foldl (fun s k =>
        if match s.core.frame with | some fr => (fr.remoteOf idx k).isSome | none => true then s
        else s.askRemote idx k endp (addr + 2048 * (k % 2)) 2048 .load [] false) s
    | _ => s) s

/-- Asks for what a CTXOP.restore reads at other endpoints: its header unit, and then the rest (R109, R312). -/
def State.askImage (s : State) (x : Nat × SysOp) : State :=
  match x with
  | (idx, .restore _ a) =>
    let p := s.partOfCore s.core.id
    match imageUnits p .load 1 a.toNat s with
    | (_, .error _) => s
    | (_, .ok u0) =>
      let s := s.askHalves idx 0 u0
      if s.core.frame.any fun fr => fr.remotes.any fun r => r.idx == idx && r.answer.isNone then s
      else
        let (_, h) := getUnits 0 s.core.id (s.halvesOf idx) u0 0 { mem := [], bad := [] } s
        (match imageUnits p .load (imageCount h.mem) a.toNat s with
         | (_, .error _) => s
         | (_, .ok us) => s.askHalves idx 1 (us.drop 1))
  | _ => s

/-- Makes the deferred checks, once what they read at other endpoints has come: a failure is a fault of the instruction, otherwise the block is
checked (R53, R60, R308). -/
def State.deferred (s : State) (fr : Frame) : State :=
  let fault (s : State) (idx : Nat) (e : XErr) : State :=
    s.onFrame fun fr => { fr with faults := fr.faults ++
      [{ idx := idx, lsid := none, cause := e.cause, addr := e.addr, acc := 4, mal := e.mal, rem := e.rem, wue := e.wue }] }
  match s.chadvFails fr with
  | some idx => fault s idx { cause := cChannel, addr := 0 }
  | none =>
    let ops := sysOps fr
    let s := ops.foldl State.askImage s
    if s.core.frame.any fun f => f.remotes.any fun r => r.answer.isNone && ops.any fun x => x.1 == r.idx then s
    else
      match State.sysChecks (dieOfCore s.core.id) ops s s with
      | (s, some (idx, e)) => fault s idx e
      | (s, none) => s.onFrame fun fr => { fr with checked := true }

/-- The first guarded byte of a pending store, atomic or bank operation, with the kind of access (R133). -/
def State.guardHit (s : State) (e : Effect) : Option (Word × BitVec 3) :=
  match e.rebase s.migs with
  | .store _ _ ws vas =>
    let len := pieceLen ws vas
    let hits := (vas.zipIdx).filter fun (_, j) => ((ws.drop (j * len)).take len).any fun b => s.guarded s.core.space b.key 1
    (match hits with
     | [] => none
     | (a, _) :: l => some (BitVec.ofNat 64 (l.foldl (fun m x => min m x.1) a), 1))
  | .atomic _ (.here key) _ w64 _ _ _ va => if s.guarded s.core.space key (if w64 then 8 else 4) then some (va, 2) else none
  | .bank _ _ w64 _ key _ va => if s.guarded s.core.space key (if w64 then 8 else 4) then some (va, 1) else none
  | .sigStore ws =>
    (match (ws.map ByteW.key).filter fun k => s.guarded s.core.space k 1 with
     | [] => none
     | k :: l => some (BitVec.ofNat 64 ((l.foldl min k - spKey s.core.id 0) / 4 * 4), 4))
  | _ => none

/-- Instructions of the frame whose stores have come to lie in a guarded range since they fired fault (R133). -/
def State.guardFaults (s : State) (fr : Frame) : List FaultRec :=
  if s.guards.isEmpty then []
  else fr.effs.filterMap fun (idx, e) =>
    (s.guardHit e).map fun (a, acc) => { idx := idx, lsid := memLsid e, cause := cGuard, addr := a, acc := acc }

/-- A load behind a FENCE of the block is looked at again when the block is bound, in the step that performs the stores before the FENCE. -/
def Frame.fencedLoads (fr : Frame) : Bool := fr.watch.any Watch.fenced

/-- From here on the block can no longer be discarded: the checks hold still, nothing that it stores is guarded, and its loads saw what they
should. The block is bound, or has a fault, or fires again; a FENCE that its loads come after finds the earlier stores performed (R121). -/
def State.bindBlock (s : State) (fr : Frame) : State :=
  if fr.fencedLoads && !s.acksOf s.core.id then s
  else if !s.watched fr then s.fireAgain
  else
  let has := fr.effs.any fun (_, e) => match e with | .chadv _ _ _ | .sys _ => true | _ => false
  let s := s.onFrame fun f => { f with faults := f.faults ++ s.guardFaults fr }
  let s := if has then s.deferred fr else s
  s.onFrame fun f => if f.faults.isEmpty && (!has || f.checked) then { f with bound := true } else f

/-! ## The binding point (R53, R123) -/

/-- The instructions of a frame; a fetched frame holds no undecodable word. -/
def Frame.instrs (fr : Frame) : List Instr := (decodeAll fr.words).getD []

def Frame.holdsAtomic (fr : Frame) : Bool := fr.instrs.any isAtomic
def Frame.allFired (fr : Frame) : Bool := (List.range fr.words.length).all fun i => fr.fired.getLsbD i

/-- Every instruction outside the consumers of the atomics has fired. -/
def Frame.bindReady (fr : Frame) : Bool :=
  let r := atomicReach 0 fr.instrs []
  fr.holdsAtomic && (List.range fr.words.length).all fun i => fr.fired.getLsbD i || r.contains i

/-- Atomics of the frame at other endpoints. -/
def remoteAtomics (fr : Frame) : List (Nat × BitVec 9 × BitVec 40 × AtomOp × Bool × Word) :=
  (effsBy memLsid fr.effs).filterMap fun (_, i, e) =>
    match e with | .atomic _ (.remote endp a) op w64 _ operand _ _ => some (i, endp, a, op, w64, operand) | _ => none

def Frame.hasSc (fr : Frame) : Bool := fr.effs.any fun (_, e) => match e with | .atomic _ _ _ _ sc _ _ _ => sc | _ => false

/-- Asks, once for each atomic at another endpoint, whether it would be refused there (log 21). -/
def State.askAtomics (s : State) (fr : Frame) : State :=
  (remoteAtomics fr).foldl (fun s (idx, endp, a, _, w64, _) =>
    if (fr.remoteOf idx 0).isSome then s else s.askRemote idx 0 endp a.toNat (if w64 then 8 else 4) .check [] false) s

/-- The answers to these questions: outstanding, failed, or all there. -/
inductive Answers where
  | outstanding
  | failed (l : List (Nat × BitVec 8))
  | there

def atomicAnswers (fr : Frame) : Answers :=
  let l := (remoteAtomics fr).map fun x => (x.1, (fr.remoteOf x.1 0).bind fun r => r.answer)
  let bad := l.filterMap fun (i, r) => match r with | some (c, _) => if c = 0 then none else some (i, c) | none => none
  if l.any fun x => x.2.isNone then .outstanding else if bad.isEmpty then .there else .failed bad

/-- The current core's block has reached its binding point, but for what another core holds back (R53). -/
def State.mayBind (s : State) (fr : Frame) : Bool :=
  s.core.st == .running && !fr.performed && fr.faults.isEmpty && fr.bindReady && !fr.toCheck

/-- The binding: atomics at other endpoints are asked for, then the block is bound, or announced where it has SC atomics (R123). -/
def State.reachBinding (s : State) (fr : Frame) : State :=
  let s := s.askAtomics fr
  match atomicAnswers fr with
  | .outstanding => s
  | .failed l => l.foldl (fun s x => s.atomicFault fr x) s
  | .there =>
    (s.bindBlock fr).onFrame fun f => if f.bound && fr.hasSc then { f with announced := some (s.cycle / Config.scWindow) } else f

/-- Nothing keeps the memory step of a bound block from going on: it was not announced. -/
def State.runBound (s : State) : State :=
  match s.core.frame with
  | some fr => if fr.bound && fr.announced.isNone then s.memoryStep else s
  | none => s

/-- BINDING_POINT of the current core: its stores and atomics are performed in LSID order. A block with SC atomics is announced, and performed
when its window ends (R123). -/
def execBindingPoint (s : State) : Host.Outcome State Fault Refusal :=
  match s.core.frame with
  | none => .next s
  | some fr =>
    if s.core.st != .running || fr.performed || !fr.faults.isEmpty || !fr.bindReady then .next s
    else if fr.toCheck then .next (s.deferred fr)
    else if fr.bound then .next s.runBound
    else if s.heldBySup s.core.id then .next s
    else .next (s.reachBinding fr).runBound

/-- Cores whose announced blocks wait to be performed in a window that has ended, as (window, core). -/
def State.scWaiting (s : State) : List (Nat × Nat) :=
  s.allCores.filterMap fun c =>
    match c.frame with
    | some fr =>
      (match fr.announced with
       | some w => if !fr.performed && decide (w < s.cycle / Config.scWindow) then some (w, c.id) else none
       | none => none)
    | none => none

/-- Announced blocks of a partition whose window has ended, in window order and then by increasing core number: the SC order is one of each
partition (R123, R351). -/
def State.scOrder (s : State) (p : Nat) : List Nat :=
  ((s.scWaiting.filter fun x => s.partOfCore x.2 == p).foldl (fun acc (w, id) => insertKey (w * 4096 + id) id acc) []).map Prod.snd

/-- Performs announced blocks one after another; one that has to wait lets none overtake it. -/
def State.scStep : List Nat → State → State
  | [], s => s
  | id :: l, s =>
    let s := (s.switchTo id).memoryStep
    match s.core.frame with
    | some fr => if fr.performed then State.scStep l s else s
    | none => s

/-- SC_WINDOW_END: the announced blocks of each partition are performed in their order (R123). -/
def execScWindowEnd (s : State) : Host.Outcome State Fault Refusal :=
  let home := s.core.id
  .next (((List.range 4).foldl (fun s p => State.scStep (s.scOrder p) s) s).switchTo home)

/-! ## Registers (R58 step 2) -/

/-- One register effect of the current core. -/
def State.regEffect (s : State) (e : Effect) : State :=
  let reg (f : Regs → Regs) : State := { s with core := { s.core with r := f s.core.r } }
  match e with
  | .write cls r tok => reg fun x => writeReg x cls r tok
  | .ptb b v => reg fun r => { r with b := cput r.b b.toNat v }
  | .tdset td n v => reg fun r => { r with td := cput r.td (4 * td.toNat + n.toNat) v }
  | .sigCfg sl v => reg fun r => { r with sig := cput r.sig sl.toNat v }
  | .sigSet sl lo vals =>
    s.writeRecorded ((vals.zipIdx).flatMap fun (v, i) => byteWs (sigKey s.core.id sl (lo + i)) (bytesOf 4 v.toNat))
  | .sigPut sl vals => s.writeRecorded (vals.flatMap fun (q, v) => byteWs (sigKey s.core.id sl q) (bytesOf 4 v.toNat))
  | .chadv prod h n =>
    (match s.holdsRole s.core h prod with
     | some (o, oh, _) => s.advance o oh prod n
     | none => s)
  | .chbind f h a b =>
    let unbinds := f == .own && b == 0 && (match chanOf s.core h with | some x => x.own | none => false)
    let s := s.chbindApply s.core.id f h a b
    if unbinds then
      (s.core.e.cmds.filter fun m => m.chan == some h && m.slot.isNone && m.done == 0).foldl
        (fun s m => s.failCopy s.core.id m cChannel 0) s
    else s
  | _ => s

/-- A counter change: at gang scope the member's counter (R232). -/
def State.ctrEffect (s : State) (e : Effect) : State :=
  match e with
  | .ctr _ op k v (some rank) => s.onCore (s.core.member rank) fun c => c.ctrApply op k v
  | .ctr _ op k v none => { s with core := s.core.ctrApply op k v }
  | _ => s

def State.barEffect (s : State) (e : Effect) : State :=
  match e with
  | .barInit _ b n => s.onCore (s.core.member 0) fun c0 => setBar c0 b ({ barOf c0 b with count := n }.settle)
  | .barArrive _ b => s.arrive s.core.id b
  | _ => s

/-- The leaf that a committed block takes, none where a repeat block goes on to its next iteration (R56): a repeat block that chose leaf 0 takes
ZL once its count is 0. -/
def takenLeaf (r : Regs) (fr : Frame) : Option Nat :=
  let k := fr.leaf.getD 0
  if hRp fr.h0 && k == 0 then (if cget r.l (hLr fr.h0) = 0 then some (hZl fr.h1) else none) else some k

/-- The link of a CALL leaf that is taken (R55). -/
def linkOf (r : Regs) (fr : Frame) (k : Nat) : Regs :=
  if hKind fr.h1 k = 2 then { r with b := cput r.b 3 (nextSeq fr.start (hNi fr.h0)) } else r

/-- Step 2 of the commit. Signature slots take their values before any MLDA of the block (R293). -/
def State.registerStep (s : State) (fr : Frame) : State :=
  let l := byIndex fr.effs
  let s := l.foldl (fun s x => s.regEffect x.2) s
  let s := (effsBy tileLsid fr.effs).foldl (fun s x => match x.2.2 with | .tile _ _ ws => s.writeRecorded ws | _ => s) s
  let s := (effsBy ctrLsid fr.effs).foldl (fun s x => s.ctrEffect x.2.2) s
  let r := { s.core.r with fsr := orFlags s.core.r.fsr fr.flags }
  let r := if hRp fr.h0 then { r with l := cput r.l (hLr fr.h0) (cget r.l (hLr fr.h0) - 1) } else r
  { s with core := { s.core with r := match takenLeaf r fr with | some k => linkOf r fr k | none => r } }

/-! ## Commands (R58 step 3) -/

/-- The ARM that a command word feeds, if any (R234). -/
def feedsArm (fr : Frame) (idx : Nat) : Bool :=
  match fr.instr idx with
  | some i => (targetsOf i).any fun t => t.slot == .a && (match fr.instr t.idx.toNat with | some j => isArm j | none => false)
  | none => false

/-- What the block issues, in index order: each command with its ARM. A command whose ARM is null is dropped. -/
def Frame.toIssue (fr : Frame) : List (Nat × Effect) :=
  (byIndex fr.effs).filter fun (i, e) =>
    match e with
    | .cmd _ tk _ => !feedsArm fr i || fr.effs.any fun (_, a) => match a with | .arm t _ _ _ => t == tk | _ => false
    | _ => false

/-- Serials and tickets of the block's command words (R236): every command word takes its serial. -/
def State.takeSerials (s : State) (fr : Frame) : State :=
  let e := s.core.e
  let serial := [engCopy, engMatrix, engSig, engRoute, engColl, engLaunch].foldl (fun (c : Cells 16) x =>
    cput c x.toNat (cget c x.toNat + BitVec.ofNat 16 (countEng x fr.words))) e.serial
  let e := fr.toIssue.foldl (fun (e : Eng) (_, x) => match x with | .cmd _ tk _ => e.newTicket tk | _ => e) { e with serial := serial }
  { s with core := { s.core with e := e.forgetOld } }

/-- A command with the descriptors and SVR as they stand (R72, R246). -/
def cmdOf (r : Regs) (word : Word) (tk : Ticket) (arg : Word) : Cmd :=
  { word := word, tk := tk, svr := fsrSvr r, arg := arg, tda := getTd r (field word 27 22), tdb := getTd r (field word 21 16),
    tdc := getTd r (field word 15 10) }

/-- An armed command enters the table, or fires at once when its threshold is met (R234, R235). A release of it or of its ARM waits for the
packets below `upto` (R131). -/
def Core.enterArmed (c : Core) (m : Cmd) (rel : Bool) (k : BitVec 5) (th : BitVec 32) (upto : Nat) : Core :=
  let a : Armed := { k := k, th := th, cmd := { m with word := if rel then m.word ||| 1 else m.word }, upto := upto }
  if met (cget c.r.k k.toNat) th then { c with e := { c.e with fired := c.e.fired ++ [a] } }
  else { c with e := { c.e with armed := c.e.armed ++ [a] } }

/-- Issues commands until one finds no room, or is a release and has to wait for what the task has sent (R125); what is left. A command that
feeds two ARMs is entered once, under the ARM whose effect stands first (log 113). -/
def State.issueList (arms : List (Nat × Effect)) : List (Nat × Effect) → State → State × List (Nat × Effect)
  | [], s => (s, [])
  | (i, .cmd word tk arg) :: l, s =>
    let m := cmdOf s.core.r word tk arg
    match arms.findSome? fun (_, a) => match a with | .arm t rel k th => if t = tk then some (rel, k, th) else none | _ => none with
    | some (rel, k, th) => State.issueList arms l { s with core := s.core.enterArmed m rel k th s.port.nextTag }
    | none =>
      if s.core.hasRoom m.op && (!m.releases || s.acksOf s.core.id) then
        State.issueList arms l ((s.issueCmd s.core.id m).onFrame fun fr => { fr with issued := fr.issued ++ [tk] })
      else (s, (i, .cmd word tk arg) :: l)
  | _ :: l, s => State.issueList arms l s

/-! ## The leaf (R55, R56, R58 step 4) -/

inductive After where
  | go (pc : Word) (again : Bool)
  | retire
  | trap (code : Nat)

def leafOf (c : Core) (fr : Frame) (k : Nat) : After :=
  match hKind fr.h1 k with
  | 0 | 2 => .go (branchTo fr.start (hTarget fr.h2 fr.h3 k)) false
  | 1 => .go (cget c.r.b (hTarget fr.h2 fr.h3 k)) false
  | 3 => .retire
  | 4 => .trap (hTarget fr.h2 fr.h3 k)
  | _ => .go (nextSeq fr.start (hNi fr.h0)) false

/-- Where a committed block goes: a repeat block that chose leaf 0 runs again until its count is 0. -/
def afterBlock (c : Core) (fr : Frame) : After :=
  match takenLeaf c.r fr with
  | some k => leafOf c fr k
  | none => .go fr.start true

/-- Step 4: the budget, the leaf, and the stops tested at the boundary (R397, R401). `fr` is the committed frame. -/
def State.finishBlock (s : State) (fr : Frame) (next : After) : State :=
  let id := s.core.id
  let sup := isSup id
  let bgt := if sup then s.core.r.bgt else s.core.r.bgt - 1
  let due := if s.core.stepPend then some (((fr.issued.head?.map ticketWord).getD 0).toNat, fr.issued.length) else none
  let s : State := { s with core := { s.core with
    r := { s.core.r with bgt := bgt }, committed := s.core.committed + 1, lastQp := hQp fr.h0, frame := none } }
  let halts := fr.effs.any fun (_, e) => match e with | .sys .halt => true | _ => false
  if s.core.killed then s.endKilled id
  else if halts then
    State.haltCore { s with core := { s.core with pc := nextSeq fr.start (hNi fr.h0), inRepeat := false } } id
  else
    match next with
    | .retire =>
      let s : State := { s with core := { s.core with st := .ended, preempt := none, spec := [], inRepeat := false } }
      (s.onCore id fun c => c.cancelArmed none).leaveGroup id
    | .trap code =>
      let resume := nextSeq fr.start (hNi fr.h0)
      if !sup && bgt == 0 then
        { s with core := { s.core with stepDue := due, trapDue := some code } }.stopCore id { cause := cBudget, resume := resume }
      else { s with core := { s.core with stepDue := due } }.stopCore id { cause := cUser, resume := resume, addr := BitVec.ofNat 64 code }
    | .go pc again =>
      let s : State := { s with core := { s.core with pc := pc, inRepeat := again } }
      if !sup && bgt == 0 then { s with core := { s.core with stepDue := due } }.stopCore id { cause := cBudget, resume := pc }
      else
        match due with
        | some (tk, n) => { s with core := { s.core with stepPend := false } }.stopCore id { cause := cStep, resume := pc, ticket := tk, detail := n }
        | none => s

/-! ## The commit -/

/-- Issues what is left, and ends the commit once nothing waits for room. -/
def State.issueRest (s : State) (fr : Frame) : State :=
  let (s, rest) := State.issueList (fr.effs.filter fun (_, e) => match e with | .arm _ _ _ _ => true | _ => false)
    (byIndex (fr.effs.filter fun (_, e) => match e with | .cmd _ _ _ => true | _ => false)) s
  if rest.isEmpty then
    match s.core.frame with
    | some fr' => s.finishBlock fr' (afterBlock s.core fr')
    | none => s
  else
    s.onFrame fun f => { f with issuing := true, effs := rest ++ f.effs.filter fun (_, e) => match e with | .cmd _ _ _ => false | _ => true }

/-- Accesses that used translations of some spaces are still to be performed: those of bound blocks of other cores than `self`, and packets
(R311, log 22). -/
def State.stale (s : State) (self : Nat) (covers : Nat → BitVec 16 → Bool) : Bool :=
  (s.allCores.any fun c =>
    c.id != self && covers (s.partOfCore c.id) c.space &&
    match c.frame with
    | none => false
    | some f => f.bound && !f.performed && f.effs.any fun (_, e) => (memLsid e).isSome)
  || s.port.unacked.any fun o => o.isAccess && covers (s.partOfCore o.core) (pkSpace o.pkt)

/-- A TLBINV waits for the accesses that used a translation which it covers. -/
def State.tlbWaits (s : State) (op : SysOp) : Bool :=
  let covers (p : Nat) (space : BitVec 16) : Bool :=
    match op with
    | .tlbAll => true
    | .tlbSpace w => p == s.partOfCore s.core.id && space == w.setWidth 16
    | .tlbPage _ => p == s.partOfCore s.core.id && space == (s.die (dieOfCore s.core.id)).spsel
    | _ => false
  s.stale s.core.id covers

/-- A CTXOP.save waits until the engines of its task are drained or hold what a switch suspends (R74, R312). -/
def State.saveWaits (s : State) (op : SysOp) : Bool :=
  match op with
  | .save h _ => (match s.handle (dieOfCore s.core.id) h with | some id => !s.enginesRest (s.coreAt id) | none => false)
  | _ => false

/-- The system effects in index order, each after every access before it, and before every access after it (R308); whether all are done. -/
def State.sysStep : List (Nat × SysOp) → State → State × Bool
  | [], s => (s, true)
  | (idx, op) :: l, s =>
    if op = .halt then State.sysStep l s
    else if !s.acksOf s.core.id || s.tlbWaits op || s.saveWaits op then (s, false)
    else
      State.sysStep l (((s.sysEffect (dieOfCore s.core.id) idx op).onFrame fun f => { f with effs := f.effs.erase (idx, .sys op) }).dropL1)

/-- Releases that take effect after the memory step: they, and every system effect, wait for what the task has sent (R130, R308). -/
def lateRelease (i : Instr) : Bool :=
  isSystem i ||
  match i with
  | .ctrInc _ _ rel _ | .ctrAdd _ _ rel _ _ | .ctrSet _ _ rel _ | .ctrReset _ _ rel _ | .ctrResetKeep _ _ rel _ => rel
  | .chadv _ _ _ | .barArrive _ _ _ => true
  | _ => false

/-- Every condition of R57 but the deferred checks. -/
def Frame.complete? (fr : Frame) : Bool :=
  fr.leaf.isSome && fr.allFired && fr.faults.isEmpty && (fr.performed || !fr.holdsAtomic)

/-- Steps 1 (the barriers and signature stores), 2 and 3 of a commit whose stores and system effects are done. -/
def State.finishCommit (s : State) (fr : Frame) : State :=
  let s := (effsBy barLsid fr.effs).foldl (fun s x => s.barEffect x.2.2) s
  let s := (byIndex fr.effs).foldl (fun s x => match x.2 with | .sigStore ws => s.storeLocal .linear 4 ws | _ => s) s
  let s := (s.registerStep fr).takeSerials fr
  s.issueRest { fr with effs := fr.toIssue ++ fr.effs.filter fun (_, e) => match e with | .arm _ _ _ _ => true | _ => false }

/-- A bound block whose memory step is done goes on: the releases, the system effects and the rest (R58). -/
def State.commitBound (s : State) (fr : Frame) : State :=
  if (fr.effs.any fun x => match fr.instr x.1 with | some i => lateRelease i | none => false) && !s.acksOf s.core.id then s
  else
    match State.sysStep (sysOps fr) s with
    | (s, false) => s
    | (s, true) =>
      if fr.instrs.any isSystem && !s.acksOf s.core.id then s
      else match s.core.frame with | some fr => s.finishCommit fr | none => s

/-- The current core's block may be bound, and goes through its memory step. -/
def State.startCommit (s : State) (fr : Frame) : State :=
  let s := if fr.bound then s else s.bindBlock fr
  match s.core.frame with
  | some fr => if fr.bound then s.memoryStep else s
  | none => s

/-- The frame of the current core may begin or continue its commit. -/
def State.mayCommit (s : State) (fr : Frame) : Bool :=
  s.core.st == .running && !fr.issuing && fr.complete? && !fr.toCheck && (fr.bound || !s.heldBySup s.core.id)

/-- BLOCK_COMMIT of the current core (R57, R58). A block that a block of the supervisor holds does not pass its memory step (R308). -/
def execBlockCommit (s : State) : Host.Outcome State Fault Refusal :=
  match s.core.frame with
  | none => .next s
  | some fr =>
    if s.core.st != .running then .next s
    else if fr.issuing then .next (if s.heldBySup s.core.id then s else s.issueRest fr)
    else if !fr.complete? then .next s
    else if fr.toCheck then .next (s.deferred fr)
    else if !s.mayCommit fr then .next s
    else
      let s := s.startCommit fr
      match s.core.frame with
      | some fr => .next (if fr.performed && fr.bound && !s.heldBySup s.core.id then s.commitBound fr else s)
      | none => .next s

/-- The announced block of the current core is the next one to be performed (R123). -/
def State.nextWindow (s : State) : Bool := (s.scOrder (s.partOfCore s.core.id)).head? == some s.core.id

/-- A block whose memory step may begin, or has begun, performs one of its stores or atomics, or one piece of a store, alone (R115): the n-th
of those that may come next. -/
def State.performOne (s : State) (n : Nat) : State :=
  match s.core.frame with
  | none => s
  | some fr =>
    if fr.performed || (fr.fencedLoads && !fr.begun) then s
    else if fr.bound then (if fr.announced.isNone || s.nextWindow then s.performPiece n else s)
    else
      let s := if s.mayCommit fr then s.bindBlock fr
        else if s.mayBind fr && !s.heldBySup s.core.id then s.reachBinding fr else s
      match s.core.frame with
      | some f => if f.bound && f.announced.isNone then s.performPiece n else s
      | none => s

end Sys2Proof.Machine
end

