-- ==== Sys2Proof/Machine/Blocks.lean ====
section
/-!
DEFINITION. Sys2Proof/Machine/Blocks.lean: the fetch of a block (R42, R46, R55, R56, R155, R316, R401), the exit tree (R54), discards
and squashes (R59, R60), trap records in their ring (R378, R379), and the small events of a core (R119, R315).
-/
namespace Sys2Proof.Machine

/-! ## Reading code (R155) -/

/-- One word of code: a store reaches a word that the instruction cache or the launch template holds only once that is dropped
(R155, R358). -/
def State.fetchWord (s : State) (a key : Nat) : State × Word :=
  match lookup (a / 8) s.core.icache with
  | none =>
    let w := s.readWord key
    ({ s with core := { s.core with icache := ((a / 8, w) :: s.core.icache).take 8192 } }, w)
  | some old => (s, old)

def State.fetchWords (key a : Nat) : Nat → Nat → State → State × List Word
  | 0, _, s => (s, [])
  | n + 1, i, s =>
    let (s, w) := s.fetchWord (a + 8 * i) (key + 8 * i)
    let (s, ws) := State.fetchWords key a n (i + 1) s
    (s, w :: ws)

/-- Where 32 bytes of code lie: a supervisor core fetches from its scratchpad, and above it through space 0 (R420, log 12). -/
def State.codeAt (s : State) (a : Nat) : State × Except XErr Phys :=
  let c := s.core
  if isSup c.id && decide (a + 32 ≤ 0x100000) then (s, .ok (.here (spKey c.id a)))
  else
    match translateIn s [] (s.partOfCore c.id) c.space a 32 .fetch false with
    | (s, _, .ok (ph, cmp)) => (if cmp then s.usesUnit c.id 0x800 else s, .ok ph)
    | (s, _, .error e) => (s, .error e)

/-- The launch template has brought the four words of a line of the task's first block: it is read from them, and not from memory (R358). -/
def Core.templateLine (c : Core) (a : Nat) : Option (List Word) :=
  if c.entry.isEmpty then none else (List.range 4).mapM fun i => lookup (a / 8 + i) c.entry

/-- The words of n lines of 32 bytes from an address. -/
def State.fetchLines : Nat → Nat → State → State × Except XErr (List Word)
  | 0, _, s => (s, .ok [])
  | n + 1, a, s =>
    let (s, line) : State × Except XErr (List Word) :=
      match s.core.templateLine a with
      | some ws => (s, .ok ws)
      | none =>
        match s.codeAt a with
        | (s, .error e) => (s.uncorr s.core.id s.core.space e.cause e.addr, .error e)
        | (s, .ok (.here key)) =>
          if s.bad key 32 then
            (s.uncorr s.core.id s.core.space cUncorr (BitVec.ofNat 64 a), .error { cause := cUncorr, addr := BitVec.ofNat 64 a })
          else let (s, ws) := State.fetchWords key a 4 0 (s.corrected key 32); (s, .ok ws)
        | (s, .ok _) => (s, .error { cause := cRights, addr := BitVec.ofNat 64 a })
    match line with
    | .error e => (s, .error e)
    | .ok ws =>
      match State.fetchLines n (a + 32) s with
      | (s, .error e) => (s, .error e)
      | (s, .ok rest) => (s, .ok (ws ++ rest))

/-! ## BLOCK_FETCH -/

/-- The stop of a fetch that fails: the target is recorded and fetched again at the resume (R55, R380). -/
def fetchStop (pc : Word) (e : XErr) : Stop :=
  { cause := e.cause, resume := pc, addr := pc, acc := 3, mal := e.mal, rem := e.rem, wue := e.wue }

/-- The block at pc has been read: its check (R46), the zero-trip exit of a repeat block (R56, log 99), or its frame, the predicted one with
what has fired in it where there is one (R59). -/
def State.openBlock (s : State) (fr : Frame) : State :=
  let c := s.core
  if !blockOk fr.h0 fr.h1 fr.h2 fr.h3 fr.words then s.stopCore c.id { cause := cBlock, resume := c.pc, addr := c.pc }
  else
    let s : State := { s with core := { c with skipBrk := false, entry := [], spec := c.spec.drop 1, units := c.units ||| fr.units } }
    if hRp fr.h0 && !c.inRepeat && cget c.r.l (hLr fr.h0) == 0 then
      let s : State := { s with core := { s.core with r := linkOf c.r fr (hZl fr.h1) } }
      s.finishBlock fr (leafOf s.core fr (hZl fr.h1))
    else { s with core := { s.core with frame := some fr } }

/-- A block as a fetch reads it. -/
inductive Read where
  | block (fr : Frame)
  | malformed
  | failed (e : XErr)

/-- Reads the block at an address. -/
def State.readBlock (s : State) (pc : Word) : State × Read :=
  if field pc 4 0 ≠ 0 then (s, .failed { cause := cAlign, addr := pc })
  else
    match State.fetchLines 1 pc.toNat s with
    | (s, .error e) => (s, .failed e)
    | (s, .ok h) =>
      let (h0, h1, h2, h3) := (h.getD 0 0, h.getD 1 0, h.getD 2 0, h.getD 3 0)
      if !headerOk h0 h1 h2 h3 then (s, .malformed)
      else
        match State.fetchLines (ceilDiv (hNi h0) 4) (pc.toNat + 32) s with
        | (s, .error e) => (s, .failed e)
        | (s, .ok ws) => (s, .block (Frame.fresh pc h0 h1 h2 h3 (ws.take (hNi h0))))

/-- The block at pc becomes the non-speculative one: the first predicted frame if it is that block's and has been read (R59); every other
predicted frame but those behind it is squashed. -/
def State.fetchBlock (s : State) : State :=
  let pc := s.core.pc
  let id := s.core.id
  match s.core.spec with
  | (w, some fr) :: _ => if w = pc then s.openBlock fr else fresh { s with core := { s.core with spec := [] } } pc id
  | (w, none) :: _ => fresh (if w = pc then s else { s with core := { s.core with spec := [] } }) pc id
  | [] => fresh s pc id
where
  /-- The block is read now. -/
  fresh (s : State) (pc : Word) (id : Nat) : State :=
    match s.readBlock pc with
    | (s, .block fr) => s.openBlock fr
    | (s, .malformed) => s.stopCore id { cause := cBlock, resume := pc, addr := pc }
    | (s, .failed e) => s.stopCore id (fetchStop pc e)

/-- A successor is predicted: its block is read into a frame. What is wrong with it is held until it is fetched in its turn, and leaves no
record before (R59). -/
def State.predict (s : State) (w : Word) : State :=
  let held : State := { s with core := { s.core with spec := s.core.spec ++ [(w, none)] } }
  match s.readBlock w with
  | (t, .block fr) =>
    if blockOk fr.h0 fr.h1 fr.h2 fr.h3 fr.words then { t with core := { t.core with spec := t.core.spec ++ [(w, some fr)] } } else held
  | _ => held

/-- A breakpoint stands at pc and is tested (R316, R401). -/
def State.breaks (s : State) : Bool :=
  let c := s.core
  !isSup c.id && !c.inRepeat && !c.skipBrk && !(s.die (dieOfCore c.id)).dbgctl.getLsbD 0 && c.brk.contains c.pc

/-- A pre-emption request stops a task at its boundary: a block with QP = 1 has committed, the stop had to wait for the boundary, or the request
is PQUIET cycles old (R390). -/
def State.quiets (s : State) (c : Core) : Bool :=
  match c.preempt with
  | some t0 => c.lastQp || c.stopNow.isSome || decide (t0 + (s.part (s.partOfCore c.id)).pquiet ≤ s.cycle)
  | none => false

/-- BLOCK_FETCH of the current core: at a boundary the stops are tested, then the block is read. With a predicted address, one of the
three speculative frames takes a successor (R59). -/
def execBlockFetch (predicted : Option Word) (s : State) : Host.Outcome State Fault Refusal :=
  let c := s.core
  match predicted, c.frame with
  | some w, some _ => .next (if c.st = .running ∧ c.spec.length < 3 then s.predict w else s)
  | some _, none => .next s
  | none, some _ => .next s
  | none, none =>
    if c.st != .running || s.heldBySup c.id || s.tokensOut c then .next s
    else if c.killed then .next (s.endKilled c.id)
    else if !isSup c.id && c.r.bgt == 0 then .next (s.stopCore c.id { cause := cBudget, resume := c.pc })
    else
      match c.trapDue, c.stepDue with
      | some code, _ =>
        .next ({ s with core := { c with trapDue := none } }.stopCore c.id { cause := cUser, resume := c.pc, addr := BitVec.ofNat 64 code })
      | none, some (tk, n) =>
        .next ({ s with core := { c with stepPend := false, stepDue := none } }.stopCore c.id
          { cause := cStep, resume := c.pc, ticket := tk, detail := n })
      | none, none =>
        if s.breaks then .next (s.stopCore c.id { cause := cBreak, resume := c.pc, addr := c.pc })
        else if s.quiets c then .next { s with core := c.quiesce }
        else .next s.fetchBlock

/-! ## The exit tree (R54) -/

/-- The leaf that the tree selects from a node, none while a test on its path has not arrived; `fuel` bounds the depth. -/
def treeFrom (fr : Frame) : Nat → Nat → Option Nat
  | 0, _ => none
  | fuel + 1, n =>
    let x := hNode fr.h1 n
    match lookup (4 * 127 + nodeTest x) fr.slots with
    | none => none
    | some t =>
      let child := if tokTruth t then nodeTrue x else nodeFalse x
      if child < 4 then treeFrom fr fuel child else some (child - 8)

def Frame.chosen (fr : Frame) : Option Nat := if hNt fr.h0 = 0 then some 0 else treeFrom fr 4 0

/-- EXIT_TREE_DECIDE of the current core. -/
def execExitTreeDecide (s : State) : Host.Outcome State Fault Refusal :=
  match s.core.frame with
  | none => .next s
  | some fr =>
    if fr.leaf.isSome then .next s
    else
      match fr.chosen with
      | none => .next s
      | some k => .next (s.onFrame fun f => { f with leaf := some k })

/-! ## Squashes and discards (R59, R60) -/

/-- BLOCK_SQUASH: the speculative frames go; they have changed nothing. -/
def execBlockSquash (s : State) : Host.Outcome State Fault Refusal := .next { s with core := { s.core with spec := [] } }

/-- The fault that the record names: the lowest LSID, else the lowest index (R60). -/
def lowestFault : List FaultRec → Option FaultRec
  | [] => none
  | f :: l =>
    match lowestFault l with
    | none => some f
    | some g =>
      match f.lsid, g.lsid with
      | some a, some b => if b < a then some g else some f
      | some _, none => some f
      | none, some _ => some g
      | none, none => if g.idx < f.idx then some g else some f

def faultMask (l : List FaultRec) : BitVec 128 := l.foldl (fun m f => setBit m f.idx) 0

/-! ### What may still fire (R48, R57) -/

/-- The instruction that fires next: the lowest ready index. One that must come after others of lower LSID finds that when it fires, and
waits (R52, log 15). -/
def nextReady (fr : Frame) : Option (Nat × Instr) := (readyList fr).head?

/-- Instructions of a speculative block that fire ahead: those that compute from tokens and registers, descriptors, plain stores, which stay
pending, and, where `loads`, plain loads (R52, R59). -/
def firesAhead (loads : Bool) : Instr → Bool
  | .sread _ _ | .spawn _ _ | .trap _ _ => false
  | .ld _ _ m _ | .vld _ _ m _ | .vlds _ _ m _ | .vgath _ _ m _ | .tld _ _ m _ => loads && !m.ord.isAcq
  | .st _ _ _ _ | .vst _ _ _ _ | .vsts _ _ _ _ | .vscat _ _ _ _ | .tdset _ _ _ | .tdget _ _ _ => true
  | i => (lsidOf i).isNone && (engOf i).isNone && !isSystem i && (ctlOf i).isSome &&
    (match i with
     | .arm _ _ _ | .chbindOwn _ _ | .chbindProd _ _ | .chbindCons _ _ | .chwait _ _ _ | .chadv _ _ _ | .copyw _ | .copywTest _ | .mwait _
     | .mwaitTest _ | .collw _ | .collwTest _ | .sigcfg _ _ | .sigid _ _ | .sigstep _ _ | .sigjoin _ _ _ _ | .siglog _ _ _ | .sigexp _ _ _
     | .siginv _ _ _ | .sigscl _ _ | .sigmovCv _ _ | .sigmovVc _ _ | .sigmovSs _ _ | .sigmovSl _ _ => false
     | _ => true)

/-- A repeat block that finds its count 0 at its arrival does not run (R56). -/
def Frame.zeroTrip (fr : Frame) (again : Bool) (r : Regs) : Bool := hRp fr.h0 && !again && cget r.l (hLr fr.h0) == 0

/-- The registers after a block in which everything has fired without fault and whose leaf is chosen, or that does not run: what its commit
will leave (R59), and whether another iteration of it follows. -/
def Frame.after (fr : Frame) (again : Bool) (r : Regs) : Option (Regs × Bool) :=
  if fr.zeroTrip again r then some (linkOf r fr (hZl fr.h1), false)
  else
    match fr.leaf, fr.chosen with
    | none, none => none
    | l, k =>
      if !fr.allFired || !fr.faults.isEmpty || fr.issuing then none
      else
        let fr := { fr with leaf := some (l.getD (k.getD 0)) }
        let r := (byIndex fr.effs).foldl (fun r x => match x.2 with
          | .write cls reg tok => writeReg r cls reg tok
          | .ptb b v => { r with b := cput r.b b.toNat v }
          | .tdset td n v => { r with td := cput r.td (4 * td.toNat + n.toNat) v }
          | _ => r) r
        let r := { r with fsr := orFlags r.fsr fr.flags }
        let r := if hRp fr.h0 then { r with l := cput r.l (hLr fr.h0) (cget r.l (hLr fr.h0) - 1) } else r
        some (match takenLeaf r fr with | some k => (linkOf r fr k, false) | none => (r, true))

/-- The stores of a block that are still to be performed, in the order in which they will be (R58, R304). -/
def Frame.storesLeft (fr : Frame) : List (Nat × Effect) :=
  (fr.memList.filter fun x => (storeLsid x.2).isSome)
  ++ (byIndex fr.effs).filter fun x => match x.2 with | .sigStore _ => true | _ => false

/-- A load of a later block may be performed before this one commits: nothing of it that a load comes after is still to be done (R52, R120,
R121, R123, R124, R308). -/
def Frame.letsLoads (fr : Frame) : Bool :=
  fr.effs.all fun (_, e) =>
    match e with
    | .fence _ _ _ | .vjoin _ | .atomic _ _ _ _ _ _ _ _ | .sys _ | .cmd _ _ _ | .arm _ _ _ _ => false
    | _ => true

/-- Registers as the predecessors of a speculative block will leave them, their pending stores in order, and whether its loads may be
performed. The first of them is under way, and the others are arrived at unless they iterate. -/
def aheadOf : List Frame → Bool → Regs → Option (Regs × List (Nat × Effect) × Bool)
  | [], _, r => some (r, [], true)
  | fr :: l, again, r =>
    match fr.after again r with
    | none => none
    | some (r', more) =>
      match aheadOf l more r' with
      | none => none
      | some (r'', prior, ok) =>
        some (if fr.zeroTrip again r then (r'', prior, ok) else (r'', fr.storesLeft ++ prior, ok && fr.letsLoads))

/-! ## Trap records (R378, R379) -/

/-- TRAP_RECORD_WRITE: the oldest record that waits enters the ring of its die's supervisor, if there is room. -/
def execTrapRecordWrite (die : BitVec 2) (s : State) : Host.Outcome State Fault Refusal :=
  let d := die.toNat
  let sup := 1024 + d
  match (s.die d).trapq with
  | [] => .next s
  | (id, ws) :: rest =>
    let tp := s.readWord (spKey sup 0xF0000)
    let tc := s.readWord (spKey sup 0xF0008)
    if tp - tc = 1023 then .next s
    else
      let base := spKey sup (0xF0000 + 64 * (1 + tp.toNat % 1023))
      let words := (ws ++ List.replicate 7 0).take 7 ++ [tp]
      let s := (s.noted (spKey sup 0xF0000) 16).poke ((words.zipIdx).flatMap fun (w, i) => byteWs (base + 8 * i) (bytesOf 8 w.toNat))
      let s := s.poke (byteWs (spKey sup 0xF0000) (bytesOf 8 (tp + 1).toNat))
      let s := s.onDie d fun di => { di with trapq := rest }
      .next (s.onCore id fun c =>
        match c.stop with
        | some l => if l.take 7 = ws then { c with stop := some (l.take 7 ++ [tp]) } else c
        | none => c)

/-! ## A core's other events -/

/-- L1_LINE_EXPIRY: a line is dropped (R107, R119). -/
def execL1LineExpiry (line : Nat) (s : State) : Host.Outcome State Fault Refusal :=
  .next { s with core := { s.core with l1 := s.core.l1.filter fun l => l.line != line } }

/-- HALT_WAKE: something pending ends a HALT (R315). -/
def execHaltWake (s : State) : Host.Outcome State Fault Refusal :=
  .next (if s.core.st = .halted ∧ (s.core.wake ∨ s.trapPending (dieOfCore s.core.id)) then { s with core := { s.core with st := .running } }
    else s)

end Sys2Proof.Machine
end

