-- ==== Sys2Proof/Machine/Switch.lean ====
section
/-!
DEFINITION. Sys2Proof/Machine/Switch.lean: gangs that are switched out (R389 to R393, R399), moved (R368, R369), killed or fenced by the
watchdog (R366, R367), and domain-barrier timeouts (R399).
-/
namespace Sys2Proof.Machine

/-! ## Pre-emption (R389, R390) -/

/-- PQUIET_EXPIRY: tasks whose request is PQUIET cycles old, or whose stop had to wait, stop now; one whose block must commit, or that is held or
at a boundary, stops at its boundary (R390, R401). -/
def execPquietExpiry (gang : Nat) (s : State) : Host.Outcome State Fault Refusal :=
  match s.gangAt gang with
  | none => .next s
  | some g =>
    let due (c : Core) : Bool :=
      match c.preempt with
      | some t0 => c.st == .running && (c.stopNow.isSome || decide (t0 + (s.part g.part).pquiet ≤ s.cycle))
      | none => false
    let stop (c : Core) : Core :=
      if c.frame.isSome && !c.mustCommit && !s.heldBySup c.id then c.quiesce else { c with stopNow := some (c.stopNow.getD false) }
    .next (g.ranks.foldl (fun s id => s.onCore id fun c => if due c then stop c else c) s)

/-! ## Switch-out (R391 to R393) -/

/-- The task does not run, and its engines are drained or hold what a switch suspends (R393). -/
def State.ready? (s : State) (c : Core) : Bool :=
  (match c.st with | .quiet | .stopped | .fenced => !c.killed | .held => true | _ => false) && s.enginesRest c

/-- Every member of the gang may be switched out or moved, and no block of the supervisor names one (R308). -/
def State.gangReady (s : State) (g : Gang) : Bool := g.ranks.all fun id => s.ready? (s.coreAt id) && !s.heldBySup id

/-- The context of a member as it is kept: nothing of a frame or a cache. Away from a fenced core its task is one that has retired (R367). -/
def Core.context (c : Core) : Core :=
  { c with frame := none, spec := [], l1 := [], entry := [], icache := [], tmpl := none, view := [], preempt := none, stopNow := none,
           st := if c.st = .fenced then .held else c.st }

/-- Writes the image of a member into its units of the context area; the units it needs. -/
def State.writeMember (s : State) (c : Core) (base : Nat) : State × Nat :=
  match c.task with
  | none => (s, 0)
  | some t =>
    let light := c.st == .quiet && c.light
    let n := ceilDiv (if light then lightLen else fullLen t.desc) 4096
    let (s, img) := s.imageOf c (!light)
    (putUnits img ((List.range n).map fun u => Phys.here (base + 4096 * u)) 0 s, n)

/-- Saves the members in rank order: their contexts, and the units that their images keep. -/
def State.saveMembers (g : Gang) : List (Nat × Nat) → State → State × List (Core × (Nat × Nat))
  | [], s => (s, [])
  | (id, rank) :: l, s =>
    let c := (s.coreAt id).context
    let (u, _) := g.area.getD rank (0, 0)
    let (s, n) := s.writeMember c ((s.part g.part).ctxBase + 4096 * u)
    let s := s.rehome id (savedId g.id rank)
    let s := match c.task with
      | some t => if c.st = .held then s else s.absenceTokens (savedId g.id rank) t true
      | none => s
    let (s, rest) := State.saveMembers g l s
    (s, (c, (u, n)) :: rest)

/-- GANG_SWITCH_OUT: every member has stopped and its engines are drained or suspended: the images are written, the cores released,
and the gang becomes a resumption candidate (R391). -/
def execGangSwitchOut (gang : Nat) (s : State) : Host.Outcome State Fault Refusal :=
  match s.gangAt gang with
  | none => .next s
  | some g =>
    if g.request.isNone || !g.target.isEmpty || !s.gangReady g then .next s
    else
      let (s, l) := State.saveMembers g g.ranks.zipIdx s
      let g' := { g with area := l.map Prod.snd, time := g.time + (s.cycle - g.since), request := none, due := 0 }
      let v : Saved := { gang := g', since := s.cycle, ep := Desc_.prio g.desc, target := none, cores := l.map Prod.fst }
      .next (State.freeCores { s with gangs := s.gangs.filter fun x => x.id != g.id, saved := s.saved ++ [v] } g.cores).askPass

/-! ## Moves (R368, R369) -/

/-- A member holds an open pool. -/
def State.poolsHeld (s : State) (g : Gang) : Bool := (s.die g.die).pools.any fun p => g.ranks.contains p.core

/-- The gang's die-affinity group has other live gangs. -/
def State.groupLives (s : State) (g : Gang) : Bool :=
  match Desc_.group g.desc (Desc_.widOf g.desc g.gidx 0) with
  | none => false
  | some x => (s.gangs ++ s.saved.map Saved.gang).any fun h =>
      h.launch == g.launch && h.id != g.id && Desc_.group h.desc (Desc_.widOf h.desc h.gidx 0) == some x

/-- The cores that a move may take: whole free regions, or free cores of one region, of one permitted die (R33, R363). -/
def State.moveOk (s : State) (g : Gang) (cores : List Nat) : Bool :=
  let n := Desc_.gangSize g.desc
  match cores with
  | [] => false
  | c0 :: _ =>
    let d := dieOfCore c0
    let shape :=
      if Desc_.plc g.desc = 0 then
        decide (cores.length = 8 * ceilDiv n 8) && (cores.zipIdx).all fun (id, i) => id % 8 == i % 8 && (i % 8 == 0 || cores.getD (i - 1) 0 + 1 == id)
      else decide (cores.length = n) && (cores.zip (cores.drop 1)).all fun (a, b) => decide (a < b ∧ a / 8 = b / 8)
    let fixed := (s.poolsHeld g) || s.groupLives g
    shape && cores.all (fun id => decide (id < 1024) && dieOfCore id == d && s.isFree id && !s.takenRegion 0 d (regionOf id))
      && noDup cores && (s.part g.part).dies.getLsbD d
      && (Desc_.dmask g.desc == 0 || (BitVec.ofNat 4 (Desc_.dmask g.desc)).getLsbD d) && (!fixed || d == g.die)

/-- One member is copied to its new core, which has the footprint's bytes, with what ECC cannot correct among them, and nothing else of
the old one (R368, R383). -/
def State.moveMember (s : State) (g : Gang) (old new : Nat) (cores : List Nat) : State :=
  let c := s.coreAt old
  match c.task with
  | none => s
  | some t =>
    let part (s : State) (lo to_ n : Nat) : State :=
      let (s, bad) := s.readCopied lo n t.space old
      s.writeCopied to_ n (moved s.mem lo n to_) bad
    let s := part s (spKey old 0) (spKey new 0) (4096 * Desc_.spk t.desc)
    let s := part s (accKey old 0) (accKey new 0) (65536 * Desc_.acc t.desc)
    let c' : Core := { c.context with id := new, task := some { t with cores := cores } }
    let c' := match c'.st with
      | .quiet => { c'.testArmed with st := .running }
      | .stopped => c'.testArmed
      | _ => c'
    let s := (s.putCore c').rehome old new
    let s := if c'.st = .stopped then s.requeueTrap new else s
    let on (f : Forward) : Forward := if f.gang = g.id ∧ f.space = t.space ∧ f.wid = t.wid then { f with to_ := new } else f
    { s with forwards := s.forwards.map on ++
        [{ core := old, space := t.space, wid := t.wid, to_ := new, gang := g.id, since := s.cycle, num := s.port.nextTag }] }

/-- The members of a gang whose move is given up run on. -/
def State.resumeAll (s : State) (g : Gang) : State :=
  g.ranks.foldl (fun s id =>
    s.onCore id fun c => { c with preempt := none, stopNow := none, st := if c.st = .quiet then .running else c.st })
    (s.putGang { g with request := none, target := [] })

/-- GANG_MIGRATION: the request stops the gang; once it stands, its context and footprint move core to core, and it resumes there. -/
def execGangMigration (gang : Nat) (cores : List Nat) (s : State) : Host.Outcome State Fault Refusal :=
  match s.gangAt gang with
  | none => .next s
  | some g =>
    if g.request.isNone then
      .next (if s.moveOk g cores then (s.putGang { g with request := some s.cycle, target := cores }).requestAll g else s)
    else if g.target != cores || cores.isEmpty || !s.gangReady g then .next s
    else if !s.moveOk g cores then .next (s.resumeAll g)
    else
      let n := Desc_.gangSize g.desc
      let d := dieOfCore (cores.headD 0)
      let ranks := cores.take n
      let s := (g.ranks.zip ranks).foldl (fun s (old, new) => s.moveMember g old new ranks) s
      let s := s.holdIdle (cores.drop n)
      .next (((s.putGang { g with cores := cores, die := d, request := none, target := [] }).noteGroup g d).freeCores g.cores).askPass

/-! ## The watchdog (R366, R367) -/

/-- A stage that a comparison found due acts once. -/
def State.takeStage (s : State) (gang stage : Nat) : Option (Gang × State) :=
  match s.gangAt gang with
  | none => none
  | some g =>
    if g.due = stage then
      let g' := { g with due := 0, stages := g.stages ||| (1 : BitVec 3) <<< (stage - 1) }
      some (g', s.putGang g')
    else none

/-- WATCHDOG_PREEMPT: stage 1. -/
def execWatchdogPreempt (gang : Nat) (s : State) : Host.Outcome State Fault Refusal :=
  match s.takeStage gang 1 with
  | none => .next s
  | some (g, s) => .next (s.requestSwitch g).1

/-- WATCHDOG_KILL: stage 2. -/
def execWatchdogKill (gang : Nat) (s : State) : Host.Outcome State Fault Refusal :=
  match s.takeStage gang 2 with
  | none => .next s
  | some (g, s) =>
    let s := g.ranks.foldl (fun s id => s.killSoon id) s
    .next ((s.blackBox g.die 0x06 g.space 0xFF (BitVec.ofNat 64 g.id) 2).report
      { part := g.part, code := 0x06, space := g.space, addr := BitVec.ofNat 64 g.id, detail := 2 })

/-- A core goes out of service; its task is discarded and counts as retired (R367), for the completion of its launch once what it wrote is
performed (R37). -/
def State.fenceCore (s : State) (id : Nat) : State :=
  let c := s.coreAt id
  match c.task with
  | none => s
  | some t =>
    if !c.hasTask then s
    else
      let late := !s.quietPort id
      let s := (s.noteKilled c).onCore id fun c =>
        let c := { c with e := { c.e with armed := c.e.armed ++ c.e.fired, fired := [] } }
        let c := c.cancelArmed none
        { c with st := .fenced, frame := none, spec := [], stop := none, preempt := none, stopNow := none, killed := late,
                 e := { c.e with cmds := [] } }
      let s := s.onDie (dieOfCore id) fun d => { d with leaveQ := d.leaveQ.filter fun q => q.core != id }
      let orphan (x : Child) : Child := if x.core = id then { x with core := 4096 } else x
      let s : State := { s with guards := s.guards.filter fun g => g.core != id, childq := s.childq.map orphan }
      let s := s.blackBox (dieOfCore id) 0x06 t.space (coreOnDie id) (BitVec.ofNat 64 t.gang) 3
      let s := (s.retireMember t id).releaseGang t.gang
      if late then s else s.taskGone t id

/-- WATCHDOG_FENCE: stage 3, once no block of the supervisor names a member (R308). -/
def execWatchdogFence (gang : Nat) (s : State) : Host.Outcome State Fault Refusal :=
  match s.takeStage gang 3 with
  | none => .next s
  | some (g, s') =>
    .next (if g.ranks.any s.heldBySup then s else (g.ranks.foldl (fun s id => s.fenceCore id) s').askPass)

/-! ## Domain-barrier timeouts (R399) -/

/-- Cycles that the DBTO clock of a barrier has run. -/
def DBar.clock (b : DBar) (now : Nat) : Nat := b.counted + (match b.since with | some t => now - t | none => 0)

/-- The die on which a member of a domain barrier runs, or ran when it was switched out. -/
def State.memberDie (s : State) (p : Nat) (m : BitVec 16 × BitVec 10 × Word) : Option Nat :=
  let is (c : Core) : Bool := match c.task with | some t => t.part == p && t.space == m.1 && t.queue == m.2.1 && t.wid == m.2.2 | none => false
  match s.allCores.find? is with
  | some c => some (dieOfCore c.id)
  | none => (s.saved.find? fun v => v.gang.part == p && v.cores.any is).map fun v => v.gang.die

/-- A notice for the supervisor core of a member: that of its die, or of every die of the partition for one that has not been placed (R399,
log 111). -/
def State.wakeMember (s : State) (p : Nat) (m : BitVec 16 × BitVec 10 × Word) (bar : BitVec 9) : State :=
  let ds := match s.memberDie p m with | some d => [d] | none => (List.range 4).filter fun d => s.partOfDie d == p
  ds.foldl (fun s d => s.tellSup d { part := p, code := 0x09, space := m.1, addr := bar.setWidth 64, detail := 0 }) s

/-- DBTO_EXPIRY at the home of a barrier: an event, and a notice to the host and to the members' supervisors; the members wait on. -/
def execDbtoExpiry (bar : BitVec 9) (s : State) : Host.Outcome State Fault Refusal :=
  match s.dbars.find? fun b => b.bar == bar && (s.partOfEndp b.home).isSome && !b.fired && b.dbto != 0 && b.since.isSome
      && decide (4096 * b.dbto ≤ b.clock s.cycle) with
  | none => .next s
  | some b =>
    let p := (s.partOfEndp b.home).getD 0
    let d := ((List.range 4).find? fun d => s.partOfDie d == p).getD 0
    let s := s.onDbar bar b.home fun b => { b with fired := true }
    let s := s.blackBox d 0x09 0 0xFF (bar.setWidth 64) 0
    let s := s.report { part := p, code := 0x09, space := 0, addr := bar.setWidth 64, detail := 0 }
    .next ((b.members.zipIdx).foldl (fun s ((e, m), n) =>
      match s.partOfEndp e with
      | some q => s.wakeMember q m bar
      | none => s.send b.home e 0 m.1 false false (1024 + d) (.expired bar n)) s)

end Sys2Proof.Machine
end

