-- ==== Sys2Proof/Machine/Fabric.lean ====
section
/-!
DEFINITION. Sys2Proof/Machine/Fabric.lean: packets that arrive (R265, R274 to R284, R289, R356, R398, R399, R403 to R414), resends and
links (R408, R409).
-/
namespace Sys2Proof.Machine

/-! ## What a packet may be (R403 to R407) -/

/-- The class arguments fit the class (R406): a status is 0 or a cause of R381, a reason a check of R25 or a DETAIL of R237. -/
def bodyOk : Body → Bool
  | .memReq op _ size data =>
    (match op with
     | .load => decide (1 ≤ size ∧ size ≤ 4032) && data.isEmpty
     | .store => decide (1 ≤ size ∧ size ≤ 4032) && data.length == size
     | .storeBits mask => decide (1 ≤ size ∧ size ≤ 4032) && data.length == size && mask.length == size
     | .check => (size == 4 || size == 8) && data.isEmpty
     | .amo _ w64 => size == (if w64 then 8 else 4) && data.length == size
     | .cas w64 => size == (if w64 then 8 else 4) && data.length == 2 * size)
  | .reply _ cause _ _ => decide (cause.toNat ≤ 0x14)
  | .refusal _ (.reject r) => decide (r ≤ 0x14) || r == 0x84 || r == 0x85 || r == 0x88
  | .launch _ desc => desc.length == 8
  | _ => true

/-- Flits that the body takes, where the spec gives its layout. -/
def bodyFlits (b : Body) (n : Nat) : Bool :=
  match b with
  | .memReq _ _ _ data => n == ceilDiv data.length 64
  | .launch _ _ | .host (.writeIngress _ _ _) | .host (.writeDoorbell _ _ _) => n == 1
  | .doorbell _ _ => n == 0
  | _ => true

/-- PH4 and PH5 say what the body says, in the fields that the spec gives the class (R406, R414, R430). -/
def argsOk (p : Packet) : Bool :=
  let same (hi lo : Nat) : Bool := field p.ph4 hi lo == field p.body.ph4 hi lo
  match p.body with
  | .launch _ _ => same 9 0
  | .doorbell _ _ => same 63 32 && same 23 0
  | .host (.writeIngress _ _ _) | .host (.writeDoorbell _ _ _) => p.ph4 == p.body.ph4 && p.ph5 == p.body.ph5
  | .host _ => same 63 56
  | _ => true

/-- Only a packet of a collective is combined along its route (R405). -/
def accOk (p : Packet) : Bool :=
  match p.body with
  | .chunk _ _ _ _ _ _ _ more _ _ => field p.ph2 7 0 == 3 || more.isEmpty
  | _ => field p.ph2 7 0 != 3

/-- Well-formed where it is delivered: the current hop is a delivery, the last one exactly at NHOP 1 (R407). -/
def packetOk (p : Packet) : Bool :=
  let op := field p.ph2 7 0
  let nhop := field p.ph0 35 32
  field p.ph0 63 60 == 0xC && field p.ph0 59 56 == classOf p.body && field p.ph0 7 0 == 0
  && (pkRel p || pkRseq p == 0) && p.ph6 == 0 && p.ph7 == 0
  && (match op with | 1 => nhop == 1 | 2 => decide (2 ≤ nhop) | 3 => decide (1 ≤ nhop) | _ => false)
  && (decide (classOf p.body = 0) || decide (4 ≤ classOf p.body ∧ classOf p.body ≤ 7) || pkDie p == 0)
  && field p.ph0 13 8 == p.flits && bodyOk p.body && bodyFlits p.body p.flits && argsOk p && accOk p
  && (match p.body with | .launch _ _ | .host _ => Config.isOwner (pkDst p) (pkSrc p) | _ => true)

/-- The copy that a DLVF or ACC hop sends onward: one entry popped (R405). -/
def onward (p : Packet) (b : Body) : Option Packet :=
  if field p.ph2 7 0 = 2 ∨ (field p.ph2 7 0 = 3 ∧ 1 < field p.ph0 35 32) then
    some { p with ph0 := p.ph0 - BitVec.ofNat 64 (2 ^ 32), ph1 := p.ph1 >>> 8, ph2 := p.ph2 >>> 8, body := b }
  else none

/-! ## The ingress table (R412) -/

/-- The entry of lowest index that matches. -/
def lowestEntry {α : Type} (ok : α → Bool) (l : List (Nat × α)) : Option α :=
  ((l.filter fun x => ok x.2).foldl (fun (best : Option (Nat × α)) x =>
    match best with
    | some b => if x.1 < b.1 then some x else some b
    | none => some x) none).map Prod.snd

/-- Source and space of a packet fit an entry; an owner host matches the space 0xFFFF. -/
def Ingress.fits (e : Ingress) (p : Packet) : Bool :=
  e.sep == pkSrc p && e.ssp == (if Config.isOwner (pkDst p) (pkSrc p) then 0xFFFF else pkSpace p)

/-- The local space of a dispatch, return, control or collective packet. -/
def State.localSpace (s : State) (pn : Nat) (p : Packet) : Option (BitVec 16) :=
  if pkSrc p = pkDst p then some (pkSpace p)
  else (lowestEntry (fun e => e.fits p) (s.part pn).ingress).map Ingress.lsp

/-- Every task of the space has been killed by a queue error: what arrives for one is refused without retry (R418, R419). -/
def State.halted (s : State) (pn : Nat) (space : BitVec 16) : Bool := (s.part pn).hlt.contains space

/-- Counts a discarded duplicate on a die (R281, R346). -/
def State.countDup (s : State) (die : Nat) : State := s.onDie die fun d => { d with dupcnt := satSucc d.dupcnt }

/-- The die of the task that issued the DSPAT of a serial (R281). -/
def Part.sourceDie (p : Part) (space : BitVec 16) (serial : BitVec 32) : Option Nat :=
  (p.sources.find? fun x => x.1 == space && x.2.1 == serial).map fun x => x.2.2

/-- A return with no DSPAT that awaits it is counted on the die of its source (R281). -/
def State.dupReturn (s : State) (pn : Nat) (space : BitVec 16) (serial : BitVec 32) : State :=
  match (s.part pn).sourceDie space serial with
  | some d => s.countDup d
  | none => s

/-- A row, return or contribution that its sender sends again after it has been performed is a duplicate (R266, R281). -/
def State.countRepeat (s : State) (pn : Nat) (p : Packet) : State :=
  match p.body, s.localSpace pn p with
  | .row _ _ _ _ _ _ _ _ _ _ _ _, some _ | .chunk _ _ _ _ _ _ _ _ _ _, some _ => s.countDup (pkDie p)
  | .ret serial _ _ _ _ _ _, some sp_ => s.dupReturn pn sp_ serial
  | _, _ => s

/-! ## Where a packet is bound (R369, R413, R419) -/

/-- The task that a doorbell entry names: its core, a retry while it is switched out or moving, or nothing. -/
def State.doorTask (s : State) (pn : Nat) (e : DoorEnt) : Option (Option Nat) :=
  let mine (t : Ident) : Bool := t.part == pn && t.space == e.lsp && t.wid == e.wid
  match (s.gangs.flatMap Gang.ranks).find? fun id =>
      (s.coreAt id).hasTask && !(s.coreAt id).killed && (match (s.coreAt id).task with | some t => mine t | none => false) with
  | some id => some (if (s.coreAt id).st = .quiet then none else some id)
  | none =>
    if s.saved.any fun v => v.cores.any fun c => c.st != .held && (match c.task with | some t => mine t | none => false) then some none
    else none

/-- The command of a task with a number: its core, a retry while the task is switched out or stopping, a task that is being killed (R419), or
nothing. -/
inductive Found where
  | at_ (id : Nat) (m : Cmd)
  | later
  | killed
  | gone

def State.findCmd (s : State) (pn : Nat) (space : BitVec 16) (hit : Core → Cmd → Bool) : Found :=
  let mine (c : Core) : Bool := match c.task with | some t => t.part == pn && t.space == space | none => false
  let live (c : Core) (m : Cmd) : Bool := m.fin.isNone && hit c m
  match s.allCores.findSome? fun c => if mine c then (c.e.cmds.find? (live c)).map fun m => (c, m) else none with
  | some (c, m) => if c.killed then .killed else if c.st = .quiet then .later else .at_ c.id m
  | none => if s.saved.any fun v => v.cores.any fun c => mine c && c.e.cmds.any (live c) then .later else .gone

/-- The core of the task for which a packet between two agents of one endpoint is bound. -/
def State.boundFor (s : State) (pn : Nat) (p : Packet) : Option Nat :=
  let cmd (hit : Core → Cmd → Bool) : Option Nat :=
    (s.localSpace pn p).bind fun sp_ => match s.findCmd pn sp_ hit with | .at_ id _ => some id | _ => none
  match p.body with
  | .row serial _ _ _ _ _ _ _ _ _ _ _ | .marker serial _ _ _ _ | .poolReq serial _ _ _ _ =>
    (s.localSpace pn p).bind fun sp_ => (s.poolAt (pkDie p) sp_ serial).map Pool.core
  | .ret serial _ _ _ _ _ _ | .retMarker serial _ _ _ => cmd fun _ m => m.op == 0x84 && rSerial m.w1 == serial
  | .poolGrant _ _ _ sender tk => cmd fun c m => c.key == sender && m.tk == tk
  | .chunk cser _ dst _ _ _ _ _ _ _ => cmd fun _ m => m.op == 0x87 && cSer m.w1 == cser && cRank m.w0 == dst
  | .doorbell _ number => (lookup number.toNat (s.part pn).doors).bind fun e => (s.doorTask pn e).getD none
  | _ => none

/-! ## Reception (R407, R409, R410) -/

/-- What the performance of a packet gives. -/
inductive Verdict where
  /-- performed: the status and the data of the reply, and whether the access was forwarded -/
  | done (s : State) (cause : BitVec 8) (data : List Byte) (fwd : Bool := false)
  /-- refused with retry: nothing has happened -/
  | retry
  /-- its performance waits for requests that it makes at other endpoints, or for its turn: it is neither performed nor refused -/
  | wait (s : State)
  | nak (hint : Nat)
  /-- refused without retry -/
  | reject (s : State) (reason : Nat)

/-- A queue error of a space of a partition, contained in the next frame (R418). -/
def State.queueError (s : State) (pn : Nat) (space : BitVec 16) (queue : BitVec 10) (src : BitVec 9) (addr : Word) (cause : BitVec 8) :
    State :=
  { s with qerrs := s.qerrs ++ [{ part := pn, space := space, queue := queue, src := src, addr := addr, cause := cause }] }

/-- The lowest die of a partition. -/
def State.firstDie (s : State) (p : Nat) : Nat := ((List.range 4).find? fun d => s.partOfDie d == p).getD 0

/-- A malformed packet is dropped, counted and recorded; of a launch, a host command or an owner host it is a queue error (R407). -/
def State.dropMalformed (s : State) (p : Packet) : State :=
  let cls := classOf p.body
  let src := pkSrc p
  match s.partOfEndp (pkDst p) with
  | some pn =>
    let s := (s.onPart pn fun x => { x with drops := x.drops + 1 }).blackBox (s.firstDie pn) 0x04 (pkSpace p) 0xFF (src.setWidth 64) cls
    let q : BitVec 10 := match p.body with | .launch q _ => q | _ => 0
    if cls = 2 ∨ cls = 8 ∨ Config.isOwner (pkDst p) src then s.queueError pn (pkSpace p) q src (bodyPlace p.body) 0 else s
  | none => State.blackBox { s with port := { s.port with drops := s.port.drops + 1 } } 0 0x04 (pkSpace p) 0xFF (src.setWidth 64) cls

def pairOf (p : Packet) : BitVec 9 × BitVec 9 := (pkDst p, pkSrc p)

/-- The answer to a performed packet is remembered, with those to the 4,095 before it of its source (R409). -/
def State.remember (s : State) (pair : BitVec 9 × BitVec 9) (tag : BitVec 32) (b : Body) : State :=
  let same (x : ((BitVec 9 × BitVec 9) × BitVec 32) × Body) : Bool := x.1.1 == pair
  let old := s.port.performed
  { s with port := { s.port with performed := ((pair, tag), b) :: (((old.filter same).take 4095) ++ old.filter fun x => !same x) } }

/-- A packet takes its turn in the order of releases: the next one is due (R410). -/
def State.passRelease (s : State) (p : Packet) : State :=
  { s with port := { s.port with
      rseqIn := if pkRel p then assign (pairOf p) (((lookup (pairOf p) s.port.rseqIn).getD 0) + 1) s.port.rseqIn else s.port.rseqIn,
      early := s.port.early.filter fun x => x != p } }

/-- A performed packet: its answer is remembered, and the next release is due. -/
def State.notePerformed (s : State) (p : Packet) (b : Body) : State := (s.remember (pairOf p) (pkTag p) b).passRelease p

/-- Answers a packet of another endpoint. -/
def State.answer (s : State) (p : Packet) (b : Body) : State := s.send (pkDst p) (pkSrc p) 0 (pkSpace p) false false 1024 b

/-- After a failed step of the bring-up every packet is answered with a refusal that names the step; none is after step 1 (R420). -/
def State.bootRefuses (s : State) (p : Packet) : Option State :=
  s.bootFail.map fun k => if k = 1 then s else s.answer p (.refusal (pkTag p) (.reject k))

/-- A pool ends: its open ticket is FAULT, and later packets are refused (R265, R277). -/
def State.failPool (s : State) (die : Nat) (x : Pool) (detail : BitVec 8) : State :=
  (s.failAt x.core x.tk detail).putPool die { x with st := .failed, why := detail }

/-- The command that sent a packet ends FAULT when its packet is refused without retry; a refused grant, the BPERM that opened the pool (R265,
R277, R289, R412). -/
def State.failSender (s : State) (p : Packet) (reason : Nat) : State :=
  let d := BitVec.ofNat 8 reason
  match p.body with
  | .row _ _ _ _ _ _ _ _ _ _ c k | .ret _ _ _ _ _ c k | .retMarker _ _ c k | .chunk _ _ _ _ _ _ _ _ c k | .poolReq _ _ _ c k
  | .marker _ _ _ c k => s.failAt c k d
  | .poolGrant serial die _ _ _ =>
    match s.poolAt die.toNat (pkSpace p) serial with
    | some x => s.failPool die.toNat x d
    | none => s
  | _ => s

/-- The task and the command that sent a routing or collective packet. -/
def senderOf : Body → Option (Nat × Ticket)
  | .row _ _ _ _ _ _ _ _ _ _ c k | .ret _ _ _ _ _ c k | .retMarker _ _ c k | .chunk _ _ _ _ _ _ _ _ c k | .poolReq _ _ _ c k
  | .marker _ _ _ c k => some (c, k)
  | _ => none

/-- Of a routing or collective packet: a refusal without retry names a DETAIL, and code 0x00 is none (R237, R381). -/
def needsDetail (b : Body) : Bool := decide (4 ≤ classOf b ∧ classOf b ≤ 7) && (match b with | .poolGrant _ _ _ _ _ => true | _ => (senderOf b).isSome)

/-- The command that would send a refused packet again has ended: it is not sent again (R275, R281). A contribution to a collective goes on
to be sent, whatever has become of its own COLL: its member has still to receive it (R266, R289). -/
def State.senderGone (s : State) (b : Body) : Bool :=
  match b, senderOf b with
  | .chunk _ _ _ _ _ _ _ _ _ _, _ => false
  | _, none => false
  | _, some (c, k) =>
    match if 65536 ≤ c then s.taskAt c else some c with
    | some id => ((s.coreAt id).cmdOf k).isNone
    | none => !(s.saved.any fun v => v.gang.id == (c - 65536) / 64 &&
        (match v.cores[(c - 65536) % 64]? with | some x => (x.cmdOf k).isSome | none => false))

/-- The core of the task that sent a packet within a partition, or one of the partition's lowest die. -/
def State.senderCore (s : State) (pn : Nat) (p : Packet) : Nat :=
  (if p.task < 65536 then if p.task < 1024 then none else some p.task else s.taskAt p.task).getD (256 * s.firstDie pn)

/-- A packet to its own endpoint waits for earlier ones: a release for those of its task and for earlier releases (R410); one for a task that
has moved, for those of its task that are bound for the same core (R369). -/
def State.ownEarlier (s : State) (pn : Nat) (p : Packet) : Bool :=
  let before := (s.port.net.takeWhile fun q => q != p).filter fun q => pkDst q == pkDst p
  (pkRel p && before.any fun q => pkRel q || q.task == p.task)
  || (match s.boundFor pn p with
      | some id => (s.forwards.any fun f => f.to_ == id) && before.any fun q => q.task == p.task && s.boundFor pn q == some id
      | none => false)

/-- What a member adds to a packet of its collective that goes on along an ACC route: its own contribution to the same elements, for the
member of the next rank (R95, R405, log 16). -/
def State.combined (s : State) (pn : Nat) (p : Packet) : Option Body :=
  match p.body with
  | .chunk cser src dst agree fmt off vals more c k =>
    if field p.ph2 7 0 = 3 then
      (s.localSpace pn p).bind fun sp_ =>
        match s.findCmd pn sp_ fun _ m => m.op == 0x87 && m.started && cSer m.w1 == cser && cRank m.w0 == dst with
        | .at_ _ m =>
          ((List.range vals.length).mapM fun i => m.itemOf dst (off + i)).map fun mine =>
            .chunk cser src (dst + 1) agree fmt off vals (more ++ [(dst, mine)]) c k
        | _ => none
    else some p.body
  | b => some b

/-- The onward copy of a packet that has been performed, or refused without retry where it is not combined (R405). -/
def State.sendOn (s : State) (p : Packet) (b : Option Body) : State :=
  match b.bind (onward p) with
  | some q => { s with port := { s.port with outbox := q :: s.port.outbox } }
  | none => s

/-- RECEPTION: a packet reaches its endpoint. Between two agents of one endpoint it must be on its way in `net`; from another
endpoint it may be any packet. It is checked, performed at most once, in release order, and answered. -/
def State.receive (s : State) (p : Packet) (f : State → Nat → Verdict) : State :=
  match s.bootRefuses p, s.partOfEndp (pkDst p) with
  | some t, _ => t
  | none, none => s.dropMalformed p
  | none, some pn =>
    let expected := (lookup (pairOf p) s.port.rseqIn).getD 0
    if pkSrc p = pkDst p then
      if !s.port.net.contains p || s.ownEarlier pn p then s
      else
        let off (s : State) : State := { s with port := { s.port with net := s.port.net.erase p } }
        match f s pn with
        | .done s' _ _ _ => (off s').notePerformed p (.reply (pkTag p) 0 [] false)
        | .reject s' r =>
          (((off s').lostPacket (s.senderCore pn p) p r).failSender p r).notePerformed p (.refusal (pkTag p) (.reject r))
        | .wait s' => s'
        | _ => if s.senderGone p.body then off s else s
    else if !packetOk p then s.dropMalformed p
    else
      match lookup (pairOf p, pkTag p) s.port.performed with
      | some b => (s.countRepeat pn p).answer p b
      | none =>
        if pkRel p && pkRseq p != expected then
          if (pkRseq p - expected).msb || s.port.early.contains p then s
          else { s with port := { s.port with early := s.port.early ++ [p] } }
        else
          match f s pn with
          | .done s' cause data fwd =>
            ((s'.sendOn p (s.combined pn p)).notePerformed p (.reply (pkTag p) cause data fwd)).answer p (.reply (pkTag p) cause data fwd)
          | .reject s' r =>
            ((if field p.ph2 7 0 = 2 then s'.sendOn p (some p.body) else s').notePerformed p (.refusal (pkTag p) (.reject r))).answer p
              (.refusal (pkTag p) (.reject r))
          | .nak h => s.answer p (.refusal (pkTag p) (.nak h))
          | .retry => s.answer p (.refusal (pkTag p) .retry)
          | .wait s' => s'

/-! ## Memory requests (R109, R412) -/

/-- The bytes lie in memory of the partition's dies (R370). -/
def State.localBytes (s : State) (pn a n : Nat) : Bool :=
  match hbmDie a, hbmDie (a + n - 1), holdDie a, holdDie (a + n - 1) with
  | some x, some y, _, _ => x == y && (s.part pn).dies.getLsbD x
  | _, _, some x, some y => x == y && (s.part pn).dies.getLsbD x
  | _, _, _, _ => false

/-- Rights that a request needs: load, store. -/
def reqRights : ReqOp → Bool × Bool
  | .load => (true, false)
  | .store | .storeBits _ => (false, true)
  | .check | .amo _ _ | .cas _ => (true, true)

/-- A memory request performed as an access of the local space, each byte where it stands while its page moves: the reply to an atomic that the
old home has forwarded says so (R109, R133, R383, R386, R388, R412). -/
def State.doRequest (s : State) (pn : Nat) (p : Packet) (op : ReqOp) (addr : BitVec 40) (size : Nat) (data : List Byte) : Verdict :=
  let a := addr.toNat
  let (r, w) := reqRights op
  let ok (e : Ingress) : Bool :=
    e.fits p && decide (e.frame * 65536 ≤ a ∧ a + size ≤ (e.frame + e.count) * 65536) && (!r || e.r) && (!w || e.w)
  match lowestEntry ok (s.part pn).ingress with
  | none => .reject s cRights.toNat
  | some e =>
    let keys := (List.range size).map fun i => migKey s.migs (a + i)
    let key := keys.headD 0
    if !s.localBytes pn a size then .reject s cRights.toNat
    else if keys.any fun k => s.guarded e.lsp k 1 then .reject s cGuard.toNat
    else
      let lost := r && keys.any fun k => s.bad k 1
      let s :=
        if lost then s.blackBox (dieOfKey key) 0x02 e.lsp 0xFF (BitVec.ofNat 64 a) 0
        else if r then ((keys.map (· / 32)).eraseDups).foldl (fun s g => s.corrected (g * 32) 32) s else s
      let old : List Byte := keys.map fun k => cget (w := 8) s.mem k
      let whole (bs : List Byte) : List ByteW := (keys.zip bs).map fun (k, x) => { key := k, val := x }
      if lost then .done s cUncorr []
      else
        match op with
        | .load => .done s 0 old
        | .check => .done s 0 []
        | .store => .done (s.poke (whole data)) 0 []
        | .storeBits mask => .done (s.poke ((keys.zip (data.zip mask)).map fun (k, x, b) => { key := k, val := x, mask := b })) 0 []
        | .amo o w64 => .done (s.poke (whole (bytesOf size (amoNew o w64 (ofBytes old) (ofBytes data))))) 0 old (key != a)
        | .cas _ =>
          let n := data.length / 2
          .done (if old = data.take n then s.poke (whole (data.drop n)) else s) 0 old (key != a)

/-- MEMORY_REQUEST. -/
def execMemoryRequest (p : Packet) (s : State) : Host.Outcome State Fault Refusal :=
  match p.body with
  | .memReq op addr size data => .next (s.receive p fun s pn => s.doRequest pn p op addr size data)
  | _ => .next s

/-! ## Replies and refusals (R406, R409, R411) -/

/-- The answer reaches the access of a core, or of one of its commands, that waits for it. -/
def Core.answered (c : Core) (dst : BitVec 9) (tag : BitVec 32) (cause : BitVec 8) (data : List Byte) : Core :=
  let set (r : Remote) : Remote := if r.dst = dst ∧ r.tag = tag ∧ r.answer.isNone then { r with answer := some (cause, data) } else r
  let fill (a : Ask) : Ask := if a.dst = dst ∧ a.tag = tag ∧ a.answer.isNone then { a with answer := some (cause, data) } else a
  let cmd (m : Cmd) : Cmd := if m.asks.isEmpty then m else { m with asks := m.asks.map fill }
  let e : Eng := { c.e with cmds := c.e.cmds.map cmd }
  { c with e := e, frame := c.frame.map fun fr => { fr with remotes := fr.remotes.map set } }

def State.answerRemote (s : State) (dst : BitVec 9) (tag : BitVec 32) (cause : BitVec 8) (data : List Byte) : State :=
  let fix (c : Core) : Core := c.answered dst tag cause data
  { s with core := fix s.core, parked := s.parked.map fix, saved := s.saved.map fun v => { v with cores := v.cores.map fix } }

/-- Something waits for the answer to a request. -/
def Core.asked (c : Core) (dst : BitVec 9) (tag : BitVec 32) : Bool :=
  (match c.frame with | some fr => fr.remotes.any fun r => r.dst == dst && r.tag == tag | none => false)
  || c.e.cmds.any fun m => m.asks.any fun a => a.dst == dst && a.tag == tag

/-- REPLY: an outstanding packet is answered (R409). -/
def execReply (p : Packet) (s : State) : Host.Outcome State Fault Refusal :=
  match p.body with
  | .reply tag cause data _ =>
    .next (match s.bootRefuses p with
      | some t => t
      | none =>
        if (s.partOfEndp (pkDst p)).isNone || !packetOk p then s.dropMalformed p
        else
          match s.port.unacked.find? fun o => o.src == pkDst p && o.dst == pkSrc p && o.tag == tag with
          | none => s
          | some _ => (s.answerRemote (pkSrc p) tag cause data).acked (pkDst p) (pkSrc p) tag)
  | _ => .next s

/-- A packet is given up: refused without retry, or unacknowledged after its resends (R109, R411). A DONE add that is refused for rights is a
queue error of the launch's space (R37, R418). -/
def State.giveUp (s : State) (o : Out) (reason : Nat) (refused : Bool) : State :=
  let cause : BitVec 8 := if !refused then cUncorr else if reason = 9 then cGuard else if reason = 8 then cUncorr else cRights
  let s := match o.done, o.pkt.body with
    | some (q, a), _ => s.queueError ((s.partOfEndp o.src).getD 0) (pkSpace o.pkt) q o.src a cause
    | none, .memReq _ _ _ _ =>
      if (s.allCores ++ s.saved.flatMap Saved.cores).any fun c => c.asked o.dst o.tag
      then s.answerRemote o.dst o.tag cause []
      else s.lostPacket o.core o.pkt reason
    | none, _ => if refused then (s.lostPacket o.core o.pkt reason).failSender o.pkt reason else s.lostPacket o.core o.pkt reason
  s.acked o.src o.dst o.tag

/-- DSPATs of this package that sent the packet with a tag to an endpoint: an aborted pool tells them so (R284). -/
def State.failDspats (s : State) (endp : BitVec 9) (tag : BitVec 32) (detail : BitVec 8) : State :=
  let hit (m : Cmd) : Bool :=
    m.op == 0x84 && m.fin.isNone && m.tags.contains tag && (m.slot.isSome || m.pend.any fun x => x.1 == endp.toNat)
  let s := s.allCores.foldl (fun s c => (c.e.cmds.filter hit).foldl (fun s m => s.failCmd c.id m detail m.done) s) s
  let fixC (c : Core) : Core :=
    (c.e.cmds.filter hit).foldl (fun c m => c.endSaved m stFault detail m.done) c
  { s with saved := s.saved.map fun v => { v with cores := v.cores.map fixC } }

/-- REFUSAL: a NAK, a retry or a reject is applied to the packet whose tag it names. -/
def execRefusal (p : Packet) (s : State) : Host.Outcome State Fault Refusal :=
  match p.body with
  | .refusal tag why =>
    .next (match s.bootRefuses p with
      | some t => t
      | none =>
        if (s.partOfEndp (pkDst p)).isNone || !packetOk p then s.dropMalformed p
        else
          match s.port.unacked.find? fun o => o.src == pkDst p && o.dst == pkSrc p && o.tag == tag, why with
          | none, .reject r => if r = 0 then s else s.failDspats (pkSrc p) tag (BitVec.ofNat 8 r)
          | none, _ => s
          | some o, .reject r => if r = 0 ∧ needsDetail o.pkt.body then s.dropMalformed p else s.giveUp o r true
          | some o, _ =>
            if s.senderGone o.pkt.body then s.acked o.src o.dst o.tag else
            let again (x : Out) : Out := if x = o then { o with sent := s.cycle, resends := 0 } else x
            { s with port := { s.port with unacked := s.port.unacked.map again } })
  | _ => .next s

/-! ## Launches and doorbells (R356, R413, R414) -/

/-- HOST_LAUNCH: a launch that is not accepted for another reason than a full queue or a halted space is a queue error; its address is ENTRY, its
cause the number of the check (R414, R418, log 17). -/
def execHostLaunch (p : Packet) (s : State) : Host.Outcome State Fault Refusal :=
  match p.body with
  | .launch q words =>
    .next (s.receive p fun s pn =>
      let d := Desc.ofWords words
      let err (k : Nat) : State := s.queueError pn (pkSpace p) q (pkSrc p) d.l3 (BitVec.ofNat 8 k)
      match descErr (s.part pn).dies d with
      | some k => .reject (err k) k
      | none =>
        match s.queueAt q with
        | none => .reject (err 0) 0
        | some x =>
          if s.partOfQueue q ≠ pn ∨ x.space ≠ pkSpace p then .reject (err 0) 0
          else if (s.part pn).hlt.contains x.space then .reject s 0
          else if 64 ≤ x.entries.length then .nak x.hint
          else .done (s.enterLaunch q d none).askPass 0 [])
  | _ => .next s

/-- DOORBELL: the value is added to the counter of the named task, as one event (R39, R413). -/
def execDoorbell (p : Packet) (s : State) : Host.Outcome State Fault Refusal :=
  match p.body with
  | .doorbell value number =>
    .next (s.receive p fun s pn =>
      let entry := if number.toNat < 4096 then lookup number.toNat (s.part pn).doors else none
      match entry with
      | none => .reject s cRights.toNat
      | some e =>
        if e.sep ≠ pkSrc p ∨ e.ssp ≠ pkSpace p then .reject s cRights.toNat
        else
          match s.doorTask pn e with
          | none => .reject s 0
          | some none => .retry
          | some (some id) => .done (s.onCore id fun c => c.addCounter e.k value) 0 [])
  | _ => .next s

/-! ## SVR mismatches (R265) -/

/-- A packet of the wrong SVR is counted on its die, and for the receiving task where it has not gone. -/
def State.svrMissOn (s : State) (die core : Nat) : State :=
  (if core = 4096 then s else s.onCore core fun c => { c with svrRej := c.svrRej + 1 }).onDie die fun d => { d with miscnt := satSucc d.miscnt }

def State.svrMiss (s : State) (core : Nat) : State := s.svrMissOn (dieOfCore core) core

/-- Takes a part of a command of core `id` that an arriving packet needs: done, the packet goes on with `f`; faulted, with `bad`; while the
part waits for other endpoints the packet waits too. -/
def State.packetPart {α : Type} (s : State) (id : Nat) (m : Cmd) (r : Prog α) (bad : State → BitVec 8 → State)
    (f : State → α → Verdict) : Verdict :=
  match r with
  | (s', .ok x) => f s' x
  | (s', .error (.err e)) => .done (bad s' (detailOf e.cause)) 0 []
  | (_, .error (.need l)) => .wait (if l.isEmpty then s else s.askCmd id m l)

/-! ## Pools (R274 to R282) -/

/-- A packet for a serial that is not open: the first from a source that an aborted pool has not told is refused with 0x12 (R284); a row of
a released serial is a duplicate, and a marker of one changes nothing (R281); anything else is retried. -/
def State.noPool (s : State) (die : Nat) (space : BitVec 16) (serial : BitVec 32) (p : Packet) : Verdict :=
  let src := (pkSrc p).toNat
  let here (x : BitVec 16 × BitVec 32 × List Nat) : Bool := x.1 == space && x.2.1 == serial && x.2.2.contains src
  let released := (s.releasedOf die space).contains serial
  let told (x : BitVec 16 × BitVec 32 × List Nat) : BitVec 16 × BitVec 32 × List Nat :=
    if here x then (x.1, x.2.1, x.2.2.filter fun e => e != src) else x
  match p.body with
  | .row _ _ _ _ _ _ _ _ _ _ _ _ | .marker _ _ _ _ _ =>
    if (s.die die).aborted.any here then
      .reject (s.onDie die fun d => { d with aborted := d.aborted.map told }) cChannel.toNat
    else if !released then .retry
    else .done (match p.body with | .row _ _ _ _ _ _ _ _ _ _ _ _ => s.countDup die | _ => s) 0 []
  | _ => .retry

/-- What every packet for a pool meets first: a serial that is not open, a task that is switched out, a pool that has failed, the wrong
SVR (R265, R266, R281). -/
def State.atPool (s : State) (pn : Nat) (p : Packet) (serial : BitVec 32) (f : State → Nat → Pool → Verdict) : Verdict :=
  let die := pkDie p
  match s.localSpace pn p with
  | none => .reject s 0x85
  | some sp_ =>
    if s.halted pn sp_ then .reject s cChannel.toNat else
    match s.poolAt die sp_ serial with
    | none => s.noPool die sp_ serial p
    | some x =>
      if 65536 ≤ x.core ∨ (s.coreAt x.core).st = .quiet then .retry
      else if x.st = .failed then .reject (if x.why = cFormat then s.svrMissOn die x.core else s) x.why.toNat
      else if pkSvr p ≠ x.svr then .reject ((s.svrMissOn die x.core).failPool die x cFormat) cFormat.toNat
      else f s die x

/-- The sender is bound for the pool; `tag` is that of its last packet. -/
def Pool.note (x : Pool) (p : Packet) (sender : Nat) (tk : Ticket) : Pool :=
  { x with bound := (pkSrc p, sender, tk, pkTag p) :: x.bound.filter fun b => !(b.1 == pkSrc p && b.2.1 == sender && b.2.2.1 == tk) }

/-- Requests of the sources in increasing endpoint order. -/
def insertReq (r : Nat × List (Nat × Nat) × Nat × Ticket) : List (Nat × List (Nat × Nat) × Nat × Ticket) →
    List (Nat × List (Nat × Nat) × Nat × Ticket)
  | [] => [r]
  | x :: l => if r.1 < x.1 then r :: x :: l else x :: insertReq r l

/-- Grants of one local expert: from row `row` on, with `g` rows given. -/
def grantExpert (l cap area : Nat) : List (Nat × List (Nat × Nat) × Nat × Ticket) → Nat → Nat → List (Nat × Nat × Nat × Nat) →
    Nat × Nat × List (Nat × Nat × Nat × Nat)
  | [], row, g, acc => (row, g, acc)
  | r :: rs, row, g, acc =>
    let want := (lookup l r.2.1).getD 0
    let n := min want (min (cap - g) (area - row))
    grantExpert l cap area rs (row + n) (g + n) (if (lookup l r.2.1).isSome then acc ++ [(r.1, l, row, n)] else acc)

/-- Grants of the local experts in order, given their CAP, from a row on, with G[l] (R276). -/
def grantAll (x : Pool) (area : Nat) : List (Nat × Nat) → Nat → List (Nat × Nat × Nat × Nat) × List Nat
  | [], _ => ([], [])
  | (l, cap) :: ls, row =>
    let (row, g, acc) := grantExpert l cap area x.reqs row 0 []
    let (gs, tot) := grantAll x area ls row
    (acc ++ gs, g :: tot)

/-- The grants of a pool that has all its requests, with the grant table written. -/
def State.grantsOf (s : State) (c : Core) (m : Cmd) (x : Pool) : Prog (List (Nat × Nat × Nat × Nat)) :=
  Prog.andThen (Prog.each (fun l s => s.policyRow c m x.policy l) (List.range x.e) s) fun ps s =>
    let (gs, tot) := grantAll x (tRows x.area) ((ps.zipIdx).map fun (p, l) => (l, p.cap)) 0
    Prog.andThen (State.putRow c m x.grantTd 0 0 tot s) fun _ s => (s, .ok gs)

/-- Grants go out to every source. -/
def State.sendGrants (s : State) (die : Nat) (x : Pool) : State :=
  x.reqs.foldl (fun s (src, _, key, tk) =>
    let mine := x.grants.filterMap fun (e, l, r, n) => if e = src then some (l, r, n) else none
    s.send (s.myEndp x.core) (BitVec.ofNat 9 src) die x.space true x.svr x.core
      (.poolGrant x.serial (BitVec.ofNat 2 die) mine key tk) (some x.tk)) s

/-- POOL_REQUEST (R274, R275): with the NSRC-th, grants are fixed, written and sent; a request that comes after it is refused (log 116). -/
def execPoolRequest (p : Packet) (s : State) : Host.Outcome State Fault Refusal :=
  match p.body with
  | .poolReq serial _ wants sender tk =>
    .next (s.receive p fun s pn => s.atPool pn p serial fun s die x =>
      let src := (pkSrc p).toNat
      let c := s.coreAt x.core
      match c.cmdOf x.tk with
      | none => .reject s cIllegal.toNat
      | some m =>
        if x.st ≠ .opened ∨ x.reqs.any fun r => r.1 == src then .reject s cIllegal.toNat
        else
          let x := { x with reqs := insertReq (src, wants, sender, tk) x.reqs }
          if x.reqs.length < x.nsrc then .done (s.putPool die x) 0 []
          else
            s.packetPart x.core m (s.grantsOf c m x) (fun s d => s.failPool die x d) fun s gs =>
              let x := { x with st := .granted, grants := gs }
              .done (((s.putPool die x).putCmd x.core { m with asks := [] }).sendGrants die x) 0 [])
  | _ => .next s

/-- Header words of a berth (R279, R282): with SEL, the choices among the carried scores. -/
def Pool.headerWords (x : Pool) (src i : Nat) (weight : BitVec 32) (scores : List (BitVec 64 × Ty × Int)) : List Nat :=
  let val (v : BitVec 64 × Ty × Int) : FVal :=
    let t : Td := { w0 := BitVec.ofNat 64 (v.2.1.code.toNat * 2 ^ 58 + (v.2.2 % 256).toNat * 2 ^ 44) }
    elemValue t x.svr v.1.toNat none
  let c := x.k + x.kx
  let n := min c scores.length
  let sel := if x.sel then
      (selectionWords n (scores.map val)).1 ++ (List.range (c - n)).flatMap fun _ => [0xFFFFFFFF, 0x7FC00000]
    else []
  [src, i, weight.toNat, 1] ++ sel

/-- Pieces that write consecutive elements of a row of a table; outside the extents nothing is written. -/
def rowStores (d : Td) (r j : Nat) (xs : List Nat) : List (Piece × List (Byte × Byte)) :=
  (xs.zipIdx).flatMap fun (x, i) => let (i0, i1) := tileIdx d r (j + i); if inExtents d i0 i1 0 then elemStore d i0 i1 0 x else []

/-- Pieces that write scale bytes of a row, from a block on. -/
def scaleStores (d : Td) (r b : Nat) (xs : List Byte) : List (Piece × List (Byte × Byte)) :=
  (xs.zipIdx).flatMap fun (x, i) =>
    let (i0, i1) := tileIdx d r (32 * (b + i))
    if inExtents d i0 i1 0 then (scaleAddr d i0 i1 0).toList.map fun a => ({ addr := a, size := 1 }, [(x, 0xFF)]) else []

/-- Part of a row, from element `off` on, is written into its berth, and with the last part its header; each place is checked before
any is written (R278, R279). -/
def State.writeBerth (s : State) (c : Core) (m : Cmd) (x : Pool) (berth off : Nat) (codes : List Nat) (scales : List Byte)
    (header : List Nat) : Prog Unit :=
  let pad := if scales.isEmpty then [] else List.replicate (32 * scales.length - codes.length) 0
  let row := rowStores x.area berth off (codes ++ pad) ++ scaleStores x.area berth (off / 32) scales
  let head := rowStores x.header berth 0 header
  Prog.andThen (s.agentResolve c (tdSp x.header) .store (head.map Prod.fst)) fun _ s =>
    Prog.andThen (s.agentWrite c m (tdSp x.area) row) fun _ s => s.agentWrite c m (tdSp x.header) head

/-- DISPATCH_ROW (R277 to R282): a row counts once all its packets have arrived (R406). -/
def execDispatchRow (p : Packet) (s : State) : Host.Outcome State Fault Refusal :=
  match p.body with
  | .row serial i weight berth fmt codes scales scores off parts sender tk =>
    .next (s.receive p fun s pn => s.atPool pn p serial fun s die x =>
      let src := (pkSrc p).toNat
      let x := x.note p sender tk
      let c := s.coreAt x.core
      if x.rows.contains (src, i) || x.some_.contains (src, i, off) then .done ((s.putPool die x).countDup die) 0 []
      else if fmt ≠ tdFmt x.area then .reject (s.failPool die x cDesc) cDesc.toNat
      else if !(x.grants.any fun (e, _, r, n) => e == src && decide (r ≤ berth ∧ berth < r + n)) then .reject (s.putPool die x) cIllegal.toNat
      else
        match c.cmdOf x.tk with
        | none => .reject s cIllegal.toNat
        | some m =>
          let have_ := (x.some_.filter fun r => r.1 == src && r.2.1 == i).length + 1
          let last := decide (parts ≤ have_)
          let header := if last then x.headerWords src i weight scores else []
          s.packetPart x.core m (s.writeBerth c m x berth off codes scales header) (fun s d => s.failPool die x d) fun s _ =>
            let x := if last then { x with rows := x.rows ++ [(src, i)], some_ := x.some_.filter fun r => !(r.1 == src && r.2.1 == i) }
              else { x with some_ := (src, i, off) :: x.some_ }
            .done ((s.putCmd x.core { m with asks := [] }).settlePool die x) 0 [])
  | _ => .next s

/-! ## At the source of a dispatch (R275, R280, R283) -/

/-- A kill has ended the command of a serial (R419). -/
def State.wasKilled (s : State) (pn : Nat) (space : BitVec 16) (op : BitVec 8) (serial : BitVec 32) (rank : Nat) : Bool :=
  (s.part pn).killed.contains (space, op, serial, rank)

/-- A command of a task of a space that a packet of the other SVR has ended: its core (R265). -/
def State.svrEnded (s : State) (pn : Nat) (space : BitVec 16) (hit : Ticket × BitVec 32 → Bool) : Option Nat :=
  let mine (c : Core) : Bool := match c.task with | some t => t.part == pn && t.space == space | none => false
  (s.allCores.find? fun c => mine c && c.e.svrFail.any hit).map Core.id

/-- A request or a DSPAT ends by a packet of the other SVR; later packets for it are refused alike (R265). -/
def State.failSvr (s : State) (id : Nat) (m : Cmd) : State :=
  let note (e : Eng) : Eng := { e with svrFail := (m.tk, rSerial m.w1) :: e.svrFail }
  (((s.svrMiss id).failCmd id m cFormat m.done)).onCore id fun c => { c with e := note c.e }

/-- POOL_GRANT at a request's source: the permit of every expert of the pool, none where the pool grants none. -/
def execPoolGrant (p : Packet) (s : State) : Host.Outcome State Fault Refusal :=
  match p.body with
  | .poolGrant serial die grants sender tk =>
    .next (s.receive p fun s pn =>
      match s.localSpace pn p with
      | none => .reject s 0x85
      | some sp_ =>
        match s.findCmd pn sp_ fun c m => c.key == sender && m.tk == tk && m.op == 0x83 with
        | .later => .retry
        | .killed => .reject s cChannel.toNat
        | .gone =>
          (match s.svrEnded pn sp_ fun x => x == (tk, serial) with
           | some id => .reject (s.svrMiss id) cFormat.toNat
           | none => if s.wasKilled pn sp_ 0x83 serial 0 then .reject s cChannel.toNat else .done s 0 [])
        | .at_ id m =>
          let pool := ((pkSrc p).toNat, die.toNat)
          if pkSvr p ≠ m.svr then .reject (s.failSvr id m) cFormat.toNat
          else if !m.pend.contains pool then .done s 0 []
          else
            let rows := (List.range (rE m.w0)).filterMap fun e =>
              if (m.counts.getD (3 * e) 0, m.counts.getD (3 * e + 1) 0) = pool then
                match grants.find? fun g => g.1 == m.counts.getD (3 * e + 2) 0 with
                | some g => some (e, [g.2.1, g.2.2])
                | none => some (e, [0, 0])
              else none
            .done (s.putCmd id { m with got := m.got ++ rows, pend := m.pend.filter fun x => x != pool }) 0 [])
  | _ => .next s

/-- The DSPAT of a serial in a local space. A return that no DSPAT awaits is discarded and counted (R281). -/
def State.atDspat (s : State) (pn : Nat) (p : Packet) (serial : BitVec 32) (f : State → Nat → Cmd → Verdict) : Verdict :=
  match s.localSpace pn p with
  | none => .reject s 0x85
  | some sp_ =>
    if s.halted pn sp_ then .reject s cChannel.toNat else
    match s.findCmd pn sp_ fun _ m => m.op == 0x84 && rSerial m.w1 == serial with
    | .later => .retry
    | .killed => .reject s cChannel.toNat
    | .gone =>
      (match s.svrEnded pn sp_ fun x => x.1.eng == engRoute && x.2 == serial with
       | some id => .reject (s.svrMiss id) cFormat.toNat
       | none =>
         if s.wasKilled pn sp_ 0x84 serial 0 then .reject s cChannel.toNat
         else .done (match p.body with | .ret _ _ _ _ _ _ _ => s.dupReturn pn sp_ serial | _ => s) 0 [])
    | .at_ id m => if pkSvr p ≠ m.svr then .reject (s.failSvr id m) cFormat.toNat else f s id m

/-- The parts of return i in order, once all have arrived. -/
def joinParts (i parts : Nat) (l : List Share) : Option (List Nat) :=
  let mine := l.filter fun x => x.src == i
  if mine.length < parts then none
  else
    let n := (mine.map fun x => x.off + x.items.length).foldl max 0
    some ((List.range n).map fun j => (mine.findSome? fun x => if x.off ≤ j then (x.items[j - x.off]?).map fun y => y.1.toNat else none).getD 0)

/-- The code that keeps a returned value in an element of TDZ, whose value is 2^SCB times that of its code (R67). -/
def returnCode (d : Td) (svr : Bool) (x : Nat) : Nat × Flags :=
  if tdScb d = 0 then (x, 0) else roundF .f32 svr .rne (storeQuot d (f32V x) none)

/-- A return that is whole is kept in its row of TDZ, and a token whose rows have all returned gets its output row (R283). -/
def State.keepReturn (s : State) (c : Core) (m : Cmd) (i : Nat) (xs : List Nat) : Prog Cmd :=
  let kept := xs.map (returnCode m.tdz m.svr)
  Prog.andThen (State.putRow c m m.tdz i 0 (kept.map Prod.fst) s) fun _ s =>
    s.finishToken c { m with got := m.got ++ [(i, xs)], parts := m.parts.filter fun x => x.src != i,
                             flags := kept.foldl (fun f x => f ||| x.2) m.flags } (i / rK m.w0)

/-- RETURN_ROW: one packet of a return (R283, R406). -/
def execReturnRow (p : Packet) (s : State) : Host.Outcome State Fault Refusal :=
  match p.body with
  | .ret serial i vals off parts _ _ =>
    .next (s.receive p fun s pn => s.atDspat pn p serial fun s id m =>
      if !m.sent.contains i || (lookup i m.got).isSome || m.parts.any fun x => x.src == i && x.off == off then
        .done (s.countDup (dieOfCore id)) 0 []
      else
        let part : Share := { src := i, off := off, items := vals.map fun v => (v.setWidth 64, some 0) }
        match joinParts i parts (part :: m.parts) with
        | none => .done (s.putCmd id { m with parts := part :: m.parts }) 0 []
        | some xs =>
          s.packetPart id m (s.keepReturn (s.coreAt id) m i xs) (fun s d => s.failCmd id m d m.done) fun s m =>
            .done (s.putCmd id { m with asks := [] }) 0 [])
  | _ => .next s

/-- CLOSING_MARKER: of a source at a pool, or of a pool at a source. -/
def execClosingMarker (p : Packet) (s : State) : Host.Outcome State Fault Refusal :=
  match p.body with
  | .marker serial _ n sender tk =>
    .next (s.receive p fun s pn => s.atPool pn p serial fun s die x =>
      let x := x.note p sender tk
      .done (s.settlePool die { x with markers := assign (pkSrc p).toNat n x.markers }) 0 [])
  | .retMarker serial die _ _ =>
    .next (s.receive p fun s pn => s.atDspat pn p serial fun s id m =>
      .done (s.putCmd id { m with pend := m.pend.filter fun x => x != ((pkSrc p).toNat, die.toNat) }) 0 [])
  | _ => .next s

/-! ## Collectives (R265, R289) -/

/-- A member's COLL ends FAULT; later packets of its serial are refused alike. -/
def State.failColl (s : State) (id : Nat) (m : Cmd) (detail : BitVec 8) : State :=
  let note (e : Eng) : Eng := { e with collFail := (cSer m.w1, detail) :: e.collFail }
  (s.failCmd id m detail m.outs.length).onCore id fun c => { c with e := note c.e }

/-- A packet for a COLL that is not in flight at its member: refused as the one that ended it, or as one for a killed task, and otherwise
retried (R265, R289, R419). -/
def State.noColl (s : State) (pn : Nat) (space : BitVec 16) (cser : BitVec 32) (rank : Nat) : Verdict :=
  let failed := s.allCores.findSome? fun c =>
    match c.task with
    | some t => if t.part = pn ∧ t.space = space then (lookup cser c.e.collFail).map fun d => (c.id, d) else none
    | none => none
  match failed with
  | some (id, d) => .reject (if d = cFormat then s.svrMiss id else s) d.toNat
  | none => if s.wasKilled pn space 0x87 cser rank then .reject s cChannel.toNat else .retry

/-- COLLECTIVE_CHUNK: part of a member's contribution arrives. -/
def execCollectiveChunk (p : Packet) (s : State) : Host.Outcome State Fault Refusal :=
  match p.body with
  | .chunk cser src dst agree fmt off vals more _ _ =>
    .next (s.receive p fun s pn =>
      match s.localSpace pn p with
      | none => .reject s 0x85
      | some sp_ =>
        if s.halted pn sp_ then .reject s cChannel.toNat else
        match s.findCmd pn sp_ fun _ m => m.op == 0x87 && m.started && cSer m.w1 == cser && cRank m.w0 == dst with
        | .later => .retry
        | .killed => .reject s cChannel.toNat
        | .gone => s.noColl pn sp_ cser dst
        | .at_ id m =>
          if pkSvr p ≠ m.svr then .reject ((s.svrMiss id).failColl id m cFormat) cFormat.toNat
          else if agree ≠ m.agree m.counts ∨ fmt ≠ tdFmt m.tda then .reject (s.failColl id m cDesc) cDesc.toNat
          else if m.parts.any fun x => x.src == src && x.off == off then .done (s.countDup (dieOfCore id)) 0 []
          else
            let all : List Share := { src := src, off := off, items := vals } :: more.map fun (r, v) => { src := r, off := off, items := v }
            let new := all.filter fun y => !m.parts.any fun x => x.src == y.src && x.off == y.off
            .done (s.putCmd id { m with parts := m.parts ++ new }) 0 [])
  | _ => .next s

/-! ## Domain barriers (R398, R399) -/

/-- An arrival of a member at the home; the DBTO clock runs from the first of a phase. -/
def DBar.arrive (b : DBar) (now member : Nat) : DBar :=
  { b with arrivals := member :: b.arrivals, since := match b.since with | some t => some t | none => if b.absent.isEmpty then some now else none }

/-- A phase completes when the arrivals reach the members, and no absent member is missing. -/
def DBar.full (b : DBar) : Bool := decide (b.members.length ≤ b.arrivals.length) && b.absent.all fun m => b.arrivals.contains m

/-- BARRIER_PHASE_COMPLETE at a home: the members' endpoints learn of it. -/
def State.settleDbar (s : State) (bar home : BitVec 9) : State :=
  match s.dbars.find? fun b => b.bar == bar && b.home == home with
  | none => s
  | some b =>
    if !b.full then s
    else
      let ph := b.phase + 1
      let s := s.onDbar bar home fun b => { b with arrivals := [], phase := ph, counted := 0, since := none, fired := false }
      let others := (b.members.map Prod.fst).foldl (fun (l : List (BitVec 9)) e => if e = home ∨ l.contains e then l else l ++ [e]) []
      others.foldl (fun s e => s.send home e 0 0 true false 1024 (.phase bar 0 ph.toNat)) s

/-- DOMAIN_BARRIER_ARRIVAL: a member's arrival at the home, the home's word that a phase completed or that its timeout has expired, or a member's
that it has retired (R398, R399). -/
def execDomainBarrierArrival (p : Packet) (s : State) : Host.Outcome State Fault Refusal :=
  match p.body with
  | .arrival bar member =>
    .next (s.receive p fun s _ =>
      match s.dbars.find? fun b => b.bar == bar && b.home == pkDst p with
      | none => .reject s 0
      | some b =>
        if b.members.length ≤ member then .reject s 0
        else .done ((s.onDbar bar (pkDst p) fun b => b.arrive s.cycle member).settleDbar bar (pkDst p)) 0 [])
  | .phase bar _ ph =>
    .next (s.receive p fun s _ => .done (s.onDbar bar (pkSrc p) fun b => { b with phase := BitVec.ofNat 32 ph }) 0 [])
  | .retired bar home member => .next (s.receive p fun s _ => .done (s.onDbar bar home fun b => b.retire member).endDbars 0 [])
  | .expired bar member =>
    .next (s.receive p fun s pn =>
      match (s.dbars.find? fun b => b.bar == bar && b.home == pkSrc p).bind fun b => b.members[member]? with
      | some (_, m) => .done (s.wakeMember pn m bar) 0 []
      | none => .done s 0 [])
  | _ => .next s

/-- ABSENCE_TOKEN_ARRIVAL: the home marks a member absent or present. -/
def execAbsenceTokenArrival (p : Packet) (s : State) : Host.Outcome State Fault Refusal :=
  match p.body with
  | .absence bar member standing =>
    .next (s.receive p fun s _ =>
      .done ((s.onDbar bar (pkDst p) fun b => b.absence s.cycle member standing).settleDbar bar (pkDst p)) 0 [])
  | _ => .next s

/-! ## Forwarding entries (R369) -/

/-- Cycles of 16 harbour-controller frames (R369, R416). -/
def forwardLife : Nat := 16 * 2048

/-- A forwarding entry goes: what was sent to the old core for its task and has not arrived is undeliverable, for want of the entry (R369, R411,
log 17). -/
def State.endForward (s : State) (f : Forward) : State :=
  let late (p : Packet) : Bool :=
    (pkTag p - BitVec.ofNat 32 f.num).msb
    && (match s.partOfEndp (pkDst p) with | some pn => s.boundFor pn p == some f.to_ | none => false)
  let s' := (s.port.net.filter late).foldl (fun s p => s.undeliverable f.core (pkSpace p) (pkDst p) (bodyPlace p.body) cNotPresent.toNat) s
  { s' with port := { s'.port with net := s'.port.net.filter fun p => !late p }, forwards := s'.forwards.filter fun x => x != f }

/-- FORWARD_ENTRY_EXPIRY: old entries of a core go. -/
def execForwardEntryExpiry (core : Nat) (s : State) : Host.Outcome State Fault Refusal :=
  .next ((s.forwards.filter fun f => f.core == core && decide (f.since + forwardLife ≤ s.cycle)).foldl State.endForward s)

/-! ## Resends and links (R408, R409, R411) -/

/-- PACKET_RESEND: a packet unacknowledged after ETO cycles goes out again; after seven resends it is given up. -/
def execPacketResend (dst : BitVec 9) (tag : BitVec 32) (s : State) : Host.Outcome State Fault Refusal :=
  match s.port.unacked.find? fun o => o.dst == dst && o.tag == tag with
  | none => .next s
  | some o =>
    let eto := (s.part ((s.partOfEndp o.src).getD 0)).eto
    if o.held || decide (s.cycle < o.sent + eto) then .next s
    else if Config.maxResend ≤ o.resends then .next (s.giveUp o 0 false)
    else
      let again (x : Out) : Out := if x = o then { o with sent := s.cycle, resends := o.resends + 1 } else x
      .next { s with port := { s.port with unacked := s.port.unacked.map again, outbox := s.routed o.pkt :: s.port.outbox } }

/-- Replays that have failed in a row on the link of a port. -/
def Port.failures (x : Port) (port : Nat) : Nat := (lookup port x.replays).getD 0

/-- LINK_DOWN: a link on which 16 replays in a row have failed is taken down, and the harbour controller records it. -/
def execLinkDown (port : BitVec 4) (s : State) : Host.Outcome State Fault Refusal :=
  let n := port.toNat
  .next (if s.port.links.getLsbD n && decide (16 ≤ s.port.failures n) then
      State.blackBox { s with port := { s.port with links := s.port.links &&& ~~~((1 : BitVec 16) <<< n), replays := unassign n s.port.replays } }
        0 0x07 0 0xFF (port.setWidth 64) 0
    else s)

/-- LINK_REPLAY: flits are sent again on one link, which works or fails (a free choice); nothing above the link sees it. -/
def execLinkReplay (port : BitVec 4) (s : State) : Host.Outcome State Fault Refusal :=
  let n := port.toNat
  .next (if s.port.links.getLsbD n then
      let (good, s) := s.drawBit
      { s with port := { s.port with replays := if good then unassign n s.port.replays else assign n (s.port.failures n + 1) s.port.replays } }
    else s)

end Sys2Proof.Machine
end

