-- ==== Sys2Proof/Machine/FpScalar.lean ====
section
/-!
DEFINITION. Sys2Proof/Machine/FpScalar.lean: the scalar floating-point majors 0x20 to 0x29 (R185 to R193). The functions on codes
serve the vector lanes as well.
-/
namespace Sys2Proof.Machine

/-- A scalar input of a format as an exact value (R157, R185). -/
def fval (t : Ty) (w : Word) : FVal := decodeF t false (w.toNat % 2 ^ t.width)

/-- A result code as a token. -/
def codeWord (r : Nat × Flags) : Word × Flags := (BitVec.ofNat 64 r.1, r.2)

/-- Sum and difference (R186). -/
def faddC (t : Ty) (rm : Rm) (a b : FVal) : Nat × Flags := roundWith t rm (addV rm a b)
def fsubC (t : Ty) (rm : Rm) (a b : FVal) : Nat × Flags := roundWith t rm (addV rm a b.negate)
def fmulC (t : Ty) (rm : Rm) (a b : FVal) : Nat × Flags := roundWith t rm (mulV a b)

/-- Fused multiply-adds (R187). -/
def ffmaC (t : Ty) (rm : Rm) (k : FmaKind) (a b c : FVal) : Nat × Flags :=
  match k with
  | .fma => roundWith t rm (fmaV rm a b c)
  | .fms => roundWith t rm (fmaV rm a b c.negate)
  | .fnma => roundWith t rm (fmaV rm a.negate b c)

/-- Quotient and root (R188). -/
def fdivC (t : Ty) (rm : Rm) (a b : FVal) : Nat × Flags := roundWithS t rm (divV a b)
def fsqrtC (t : Ty) (rm : Rm) (a : FVal) : Nat × Flags := roundWithS t rm (sqrtV a)

/-- −0 is ordered below +0 (R189). -/
def ltOrdered (a b : FVal) : Bool :=
  let c := cmpV a b
  c < 0 || (c == 0 && a.sign && !b.sign)

/-- Smaller or larger operand (R189). -/
def fminmaxC (t : Ty) (op : FMinMax) (a b : FVal) : Nat × Flags :=
  let fl := snanFlag [a, b]
  let pick (max : Bool) : FVal := if ltOrdered a b != max then a else b
  let x : FVal :=
    match op with
    | .min => if a.isNan || b.isNan then .nan false else pick false
    | .max => if a.isNan || b.isNan then .nan false else pick true
    | .minnum => if a.isNan then (if b.isNan then .nan false else b) else if b.isNan then a else pick false
    | .maxnum => if a.isNan then (if b.isNan then .nan false else b) else if b.isNan then a else pick true
  ((roundF t false .rne x).1, fl)

/-- Comparison (R190). -/
def fcmpC (op : FcmpOp) (a b : FVal) : Bool × Flags :=
  let un := a.isNan || b.isNan
  let sn := snanFlag [a, b]
  match op with
  | .eq => (!un && cmpV a b == 0, sn)
  | .ne => (un || cmpV a b != 0, sn)
  | .lt => (!un && decide (cmpV a b < 0), if un then fNV else 0)
  | .le => (!un && decide (cmpV a b ≤ 0), if un then fNV else 0)
  | .un => (un, sn)

/-- Classes of FCLASS (R192): the bit number. -/
def fclassBit (t : Ty) (a : FVal) : Nat :=
  match a with
  | .inf s => if s then 0 else 7
  | .nan sg => if sg then 8 else 9
  | .fin s m _ =>
    if m = 0 then (if s then 3 else 4)
    else if m < 2 ^ (layoutOf t).fb then (if s then 2 else 5)
    else (if s then 1 else 6)

/-- Rounding to an integral value (R193). -/
def frintC (t : Ty) (rm : Rm) (a : FVal) : Nat × Flags :=
  match a with
  | .fin s m e =>
    let (n, inexact) := roundGrid s m e false 0 rm
    ((roundF t false .rne (.fin s n 0)).1, if inexact then fNX else 0)
  | .nan _ => (canonNan t, snanFlag [a])
  | x => roundF t false .rne x

def rintMode (m : RintMode) (fsr : Rm) : Rm :=
  match m with
  | .fsr => fsr
  | .rne => .rne
  | .rtz => .rtz
  | .rup => .rup
  | .rdn => .rdn

/-- A scalar integer result: sign-extended for .i types, zero-extended for .n types. -/
def intCodeWord (t : Ty) (r : Nat) : Word :=
  if t.isSigned then sext t.width (BitVec.ofNat 64 r) else zext t.width (BitVec.ofNat 64 r)

/-- FCVT (R191). -/
def fcvtW (t : Ty) (fromInt : Bool) (ty : Ty) (svr : Bool) (rm : Rm) (a : Word) : Word × Flags :=
  if fromInt then codeWord (roundF t false rm (FVal.ofInt (intVal ty a.toNat)))
  else if ty.isInt then
    let x := fval t a
    let (r, fl) := roundInt ty rm x
    (intCodeWord ty r, fl)
  else codeWord (roundF ty svr rm (fval t a))

/-- One, two and three operands of one format. -/
def fireFp (i : Instr) (s : State) (g : Rm → Word → Word → Word → Word × Flags) : Host.Outcome State Fault Refusal :=
  fireScalar i s fun r x => g (fsrRm r) (tokWord x.a) (tokWord x.b) (tokWord x.c)

/-- FADD (R186). -/
def execFadd (c : Ctl) (t : Ty) (s : State) : Host.Outcome State Fault Refusal :=
  fireFp (.fadd c t) s fun rm a b _ => codeWord (faddC t rm (fval t a) (fval t b))

/-- FSUB (R186). -/
def execFsub (c : Ctl) (t : Ty) (s : State) : Host.Outcome State Fault Refusal :=
  fireFp (.fsub c t) s fun rm a b _ => codeWord (fsubC t rm (fval t a) (fval t b))

/-- FMUL (R186). -/
def execFmul (c : Ctl) (t : Ty) (s : State) : Host.Outcome State Fault Refusal :=
  fireFp (.fmul c t) s fun rm a b _ => codeWord (fmulC t rm (fval t a) (fval t b))

/-- FFMA, FFMS, FNMA (R187). -/
def execFfma (c : Ctl) (t : Ty) (k : FmaKind) (s : State) : Host.Outcome State Fault Refusal :=
  fireFp (.ffma c t k) s fun rm a b d => codeWord (ffmaC t rm k (fval t a) (fval t b) (fval t d))

/-- FDIV (R188). -/
def execFdiv (c : Ctl) (t : Ty) (s : State) : Host.Outcome State Fault Refusal :=
  fireFp (.fdiv c t) s fun rm a b _ => codeWord (fdivC t rm (fval t a) (fval t b))

/-- FSQRT (R188). -/
def execFsqrt (c : Ctl) (t : Ty) (s : State) : Host.Outcome State Fault Refusal :=
  fireFp (.fsqrt c t) s fun rm a _ _ => codeWord (fsqrtC t rm (fval t a))

/-- FMINMAX (R189). -/
def execFminmax (c : Ctl) (t : Ty) (op : FMinMax) (s : State) : Host.Outcome State Fault Refusal :=
  fireFp (.fminmax c t op) s fun _ a b _ => codeWord (fminmaxC t op (fval t a) (fval t b))

/-- FCMP (R190). -/
def execFcmp (c : Ctl) (t : Ty) (op : FcmpOp) (s : State) : Host.Outcome State Fault Refusal :=
  fireFp (.fcmp c t op) s fun _ a b _ => let (r, fl) := fcmpC op (fval t a) (fval t b); truthWith r fl

/-- FCVT (R191): SVR governs the FP8 destinations (R84). -/
def execFcvt (c : Ctl) (t : Ty) (fromInt : Bool) (ty : Ty) (s : State) : Host.Outcome State Fault Refusal :=
  fireScalar (.fcvt c t fromInt ty) s fun r x => fcvtW t fromInt ty (fsrSvr r) (fsrRm r) (tokWord x.a)

/-- FCLASS (R192). -/
def execFclass (c : Ctl) (t : Ty) (s : State) : Host.Outcome State Fault Refusal :=
  fireFp (.fclass c t) s fun _ a _ _ => (BitVec.ofNat 64 (2 ^ fclassBit t (fval t a)), 0)

/-- FRINT (R193). -/
def execFrint (c : Ctl) (t : Ty) (mode : RintMode) (s : State) : Host.Outcome State Fault Refusal :=
  fireFp (.frint c t mode) s fun rm a _ _ => codeWord (frintC t (rintMode mode rm) (fval t a))

end Sys2Proof.Machine
end

