-- ==== Sys2Proof/Machine/Harbour.lean ====
section
/-!
DEFINITION. Sys2Proof/Machine/Harbour.lean: the harbour controller: its commands (R351, R385, R398, R414, R415, R419, R427, R430), its
frame (R354, R386, R387, R416 to R418, R423), scrubbing (R425), and resets (R420, R421).
-/
namespace Sys2Proof.Machine

/-! ## Statuses and answers (R414; codes log 17) -/

def hcDone : Nat := 0
def hcRefused : Nat := 1
def hcBusy : Nat := 2
/-- Why a migration is refused (R385): no valid leaf of TYPE 00 at level 0; a Hold frame; MIG ≠ 00; the new frame; 16 in progress. -/
def hcLeaf : Nat := 3
def hcHold : Nat := 4
def hcMoving : Nat := 5
def hcFrame : Nat := 6
def hcFull : Nat := 7

/-- What a command does, and its status; a refused command changes nothing. -/
abbrev HcRes := State × Nat

def refusedCmd (s : State) : HcRes := (s, hcRefused)

/-- A command whose effect is `t` when `ok` holds. -/
def onlyIf (ok : Bool) (s t : State) : HcRes := if ok then (t, hcDone) else refusedCmd s

/-- A command that comes with no tag to answer is answered by a report with 0x80 + its code, and the status; after a failed bring-up nothing
is performed (R414, R420). -/
def State.answerEvent (s : State) (part : Nat) (code : BitVec 8) (r : HcRes) : State :=
  if s.bootFail.isSome then s
  else r.1.report { part := part, code := 0x80 ||| code, space := 0, addr := 0, detail := BitVec.ofNat 32 r.2 }

/-! ## Queues (R355, R414, R419) -/

/-- Create queue. -/
def State.createQueue (s : State) (p : Nat) (q : BitVec 10) (space : BitVec 16) : HcRes :=
  onlyIf ((s.part p).dies.getLsbD (q.toNat / 256) && (s.queueAt q).isNone && (s.part p).spaces.contains space && space != 0) s
    { s with queues := s.queues ++ [{ num := q, space := space, entries := [] }] }

/-- Destroy queue: refused unless it is empty. -/
def State.destroyQueue (s : State) (p : Nat) (q : BitVec 10) : HcRes :=
  match s.queueAt q with
  | none => refusedCmd s
  | some x => onlyIf (s.partOfQueue q == p && x.entries.isEmpty) s { s with queues := s.queues.filter fun y => y.num != q }

/-- The queues of a space lose their entries, without DONE adds. -/
def State.emptyQueues (s : State) (p : Nat) (space : BitVec 16) : State :=
  let clear (q : Queue) : Queue := if s.partOfQueue q.num = p ∧ q.space = space then { q with entries := [] } else q
  { s with queues := s.queues.map clear }

/-- Resume space: its queues are emptied and HLT is cleared (R419). -/
def State.resumeSpace (s : State) (p : Nat) (space : BitVec 16) : HcRes :=
  onlyIf ((s.part p).hlt.contains space) s
    ((s.emptyQueues p space).onPart p fun x => { x with hlt := x.hlt.filter fun y => y != space })

/-! ## Parameters and partitions -/

/-- Set AGEI, STARVE, PQUIET or ETO, each in its range (R360, R390, R409). -/
def State.setParam (s : State) (p : Nat) (which : BitVec 2) (v : Nat) : HcRes :=
  let x := s.part p
  match which with
  | 0 => onlyIf (decide (256 ≤ v ∧ v ≤ 2 ^ 20 ∧ v ≤ x.starve)) s (s.onPart p fun x => { x with agei := v })
  | 1 => onlyIf (decide (x.agei ≤ v)) s (s.onPart p fun x => { x with starve := v })
  | 2 => onlyIf (decide (v ≤ 2 ^ 20)) s (s.onPart p fun x => { x with pquiet := v })
  | _ => onlyIf (decide (1 ≤ v)) s (s.onPart p fun x => { x with eto := v })

/-- A partition on other dies: its root tables and its context area do not lie on dies that it has given away (R351, R392). -/
def Part.onDies (x : Part) (dies : BitVec 4) (endp : BitVec 9) : Part :=
  let area := mapped dies x.ctxa.toNat
  { x with dies := dies, endp := endp, sppt := x.sppt.filter fun y => mapped dies (field y.2 39 12 * 4096),
           ctxa := if area then x.ctxa else 0, ctxl := if area then x.ctxl else 0 }

/-- Set partitions: a partition number for each die, an endpoint number for each partition; refused while any queue of the
package holds a launch (R351). -/
def State.setPartitions (s : State) (part : List Nat) (endp : List (BitVec 9)) : HcRes :=
  let diesOf (k : Nat) : BitVec 4 := BitVec.ofNat 4 (((List.range 4).map fun d => if part.getD d 0 = k then 2 ^ d else 0).foldl (· + ·) 0)
  let used := (List.range 4).filter fun k => diesOf k != 0
  let ok := part.length == 4 && part.all (fun k => decide (k < 4)) && endp.length == 4 && noDup (used.map fun k => endp.getD k 0)
    && s.queues.all fun q => q.entries.isEmpty
  let make (k : Nat) : Part :=
    if diesOf k = 0 then Part.absent
    else
      let base := if (s.part k).dies = 0 then Part.reset else s.part k
      base.onDies (diesOf k) (endp.getD k 0)
  let t : State := { s with parts := (List.range 4).map make, tlb := [], tmpls := [] }
  onlyIf ok s { t with queues := s.queues.filter fun q => (t.part (t.partOfQueue q.num)).spaces.contains q.space }

/-! ## Table entries (R430) -/

/-- The entry index, when the header's other bits are zero. -/
def tableIndex (ph4 ph5 : Word) : Option Nat := if field ph4 55 12 = 0 ∧ ph5 = 0 then some (field ph4 11 0) else none

/-- EW0 without its fields reads zero, and EW3 to EW7 are zero. -/
def entryZeros (ew : List Word) : Bool :=
  ew.length == 8 && field (ew.getD 0 0) 62 57 == 0 && field (ew.getD 0 0) 15 5 == 0 && (ew.drop 3).all fun w => w == 0

def ewSep (ew : List Word) : BitVec 9 := BitVec.ofNat 9 (field (ew.getD 0 0) 56 48)
def ewSsp (ew : List Word) : BitVec 16 := BitVec.ofNat 16 (field (ew.getD 0 0) 47 32)
def ewLsp (ew : List Word) : BitVec 16 := BitVec.ofNat 16 (field (ew.getD 0 0) 31 16)

/-- Write one ingress entry. -/
def State.writeIngress (s : State) (p : Nat) (ph4 ph5 : Word) (ew : List Word) : HcRes :=
  match tableIndex ph4 ph5 with
  | none => refusedCmd s
  | some n =>
    let w0 := ew.getD 0 0
    let ok := decide (n < 64) && entryZeros ew && field w0 4 2 == 0 && field (ew.getD 1 0) 63 24 == 0
      && field (ew.getD 2 0) 63 25 == 0 && (s.part p).spaces.contains (ewLsp ew)
    let e : Ingress :=
      { sep := ewSep ew, ssp := ewSsp ew, lsp := ewLsp ew, frame := field (ew.getD 1 0) 23 0, count := field (ew.getD 2 0) 24 0,
        r := bitAt w0 0, w := bitAt w0 1 }
    onlyIf ok s (s.onPart p fun x => { x with ingress := if bitAt w0 63 then assign n e x.ingress else unassign n x.ingress })

/-- Write one doorbell entry. -/
def State.writeDoor (s : State) (p : Nat) (ph4 ph5 : Word) (ew : List Word) : HcRes :=
  match tableIndex ph4 ph5 with
  | none => refusedCmd s
  | some n =>
    let w0 := ew.getD 0 0
    let ok := entryZeros ew && ew.getD 2 0 == 0 && (s.part p).spaces.contains (ewLsp ew)
    let e : DoorEnt := { sep := ewSep ew, ssp := ewSsp ew, lsp := ewLsp ew, wid := ew.getD 1 0, k := BitVec.ofNat 5 (field w0 4 0) }
    onlyIf ok s (s.onPart p fun x => { x with doors := if bitAt w0 63 then assign n e x.doors else unassign n x.doors })

/-! ## Domain barriers and migrations -/

/-- Configure a domain barrier, or remove it with no members (R398). -/
def State.setDbar (s : State) (bar home : BitVec 9) (dbto : Nat) (members : List (BitVec 9 × BitVec 16 × BitVec 10 × Word)) : HcRes :=
  let rest := s.dbars.filter fun b => !(b.bar == bar && b.home == home)
  let b : DBar :=
    { bar := bar, home := home, dbto := dbto, members := members, arrivals := [], phase := 0, absent := [], retired := [],
      counted := 0, since := none, fired := false }
  onlyIf (decide (448 ≤ bar.toNat)) s { s with dbars := if members.isEmpty then rest else rest ++ [b] }

/-- A leaf with another frame and MIG field. -/
def leafMig (leaf : Word) (frame : BitVec 24) (mig : Nat) : Word :=
  (leaf &&& ~~~(mask64 39 16 ||| mask64 12 11)) ||| BitVec.ofNat 64 (frame.toNat * 2 ^ 16 + mig * 2 ^ 11)

/-- What keeps a page from being moved, by its leaf and the new frame (R385). -/
def State.migrationErr (s : State) (p : Nat) (va : Word) (frame : BitVec 24) (leaf : Word) (level : Nat) : Option Nat :=
  let home := hbmDie (field leaf 39 16 * 65536)
  let lo := hbmDie (frame.toNat * 65536)
  let frameOk := match lo with | some d => hbmDie (frame.toNat * 65536 + 65535) == lo && lo != home && (s.part p).dies.getLsbD d | none => false
  if 2 ^ 57 ≤ va.toNat ∨ level ≠ 0 ∨ field leaf 7 6 ≠ 0 then some hcLeaf
  else if home.isNone then some hcHold
  else if field leaf 12 11 ≠ 0 then some hcMoving
  else if !frameOk then some hcFrame
  else if 16 ≤ (s.migs.filter fun m => m.part == p).length then some hcFull
  else none

/-- Stores a leaf of a page that moves: `key` is where its table stood before that moved itself (R386). -/
def State.storeLeaf (s : State) (key : Nat) (frame : BitVec 24) (mig : Nat) : State :=
  let k := migKey s.migs key
  (s.noted k 8).poke (byteWs k (bytesOf 8 (leafMig (s.readWord k) frame mig).toNat))

/-- Migrate a page: accepted unless R385 refuses it, and then the requester learns why; the leaf is then MIG 01. -/
def State.migratePage (s : State) (p : Nat) (space : BitVec 16) (va : Word) (frame : BitVec 24) : HcRes :=
  let s := if (s.part p).rootOk space then s.walkCorrected 4 p space va.toNat va (field ((s.part p).root space) 39 12 * 4096) else s
  match walk s p space va.toNat va with
  | .error e => (if e.cause = cUncorr then s.blackBox (s.firstDie p) 0x02 space 0xFF va 0 else s, hcLeaf)
  | .ok (leaf, level, key) =>
    match s.migrationErr p va frame leaf level with
    | some why => (s, why)
    | none =>
      let old := BitVec.ofNat 24 (field leaf 39 16)
      let at_ := migBack s.migs key
      let m : Mig := { part := p, space := space, va := va, leaf := at_, old := old, new := frame, copied := 0, switched := false }
      (State.storeLeaf { s with migs := s.migs ++ [m] } at_ old 1, hcBusy)

/-- Request pre-emption of a gang of the partition. -/
def State.hostPreempt (s : State) (p gang : Nat) : HcRes :=
  match s.gangAt gang with
  | none => refusedCmd s
  | some g =>
    if g.part ≠ p then refusedCmd s
    else
      let (s, ok) := s.requestSwitch g
      (s, if ok then hcBusy else hcRefused)

/-- Freeze: event 0x0A in each black box, then every clock stops, and the package's links are down for others (R427). -/
def State.freeze (s : State) : State :=
  let s := (List.range 4).foldl (fun s d => s.blackBox d 0x0A 0 0xFF 0 0) s
  { s with frozen := true, port := { s.port with links := 0 } }

/-- Work of the harbour controller that a freeze leaves undone. -/
def State.unfrozen (s : State) (f : State → State) : State := if s.frozen then s else f s

/-- The bytes of a black box from an event on, oldest first, as far as one packet holds them (log 17). -/
def Die.boxBytes (d : Die) (first : Nat) : List Byte :=
  (((d.bbox.drop first).take 126).flatMap fun e => [e.bb0, e.bb1, e.bb2, e.bb3]).flatMap fun w => bytesOf 8 w.toNat

/-! ## Commands -/

/-- Performs a command for a partition: the state, the status, and the result that its reply carries. -/
def State.hostCmd (s : State) (p : Nat) (c : HostCmd) : State × Nat × List Byte :=
  let plain (r : HcRes) : State × Nat × List Byte := (r.1, r.2, [])
  match c with
  | .createQueue q space => plain (s.createQueue p q space)
  | .destroyQueue q => plain (s.destroyQueue p q)
  | .resumeSpace space => plain (s.resumeSpace p space)
  | .setParam which v => plain (s.setParam p which v)
  | .setPartitions part endp => plain (s.setPartitions part endp)
  | .writeIngress a b ew => plain (s.writeIngress p a b ew)
  | .writeDoorbell a b ew => plain (s.writeDoor p a b ew)
  | .domainBarrier bar home dbto ms => plain (s.setDbar bar home dbto ms)
  | .migratePage space va frame => plain (s.migratePage p space va frame)
  | .preempt gang => plain (s.hostPreempt p gang)
  | .readBlackBox d first => if (s.part p).dies.getLsbD d.toNat then (s, hcDone, (s.die d.toNat).boxBytes first) else (s, hcRefused, [])
  | .freeze => plain (s.freeze, hcDone)

/-- CREATE_QUEUE. -/
def execCreateQueue (part : BitVec 2) (queue : BitVec 10) (space : BitVec 16) (s : State) : Host.Outcome State Fault Refusal :=
  .next (s.answerEvent part.toNat 0x01 (s.createQueue part.toNat queue space))

/-- DESTROY_QUEUE. -/
def execDestroyQueue (part : BitVec 2) (queue : BitVec 10) (s : State) : Host.Outcome State Fault Refusal :=
  .next (s.answerEvent part.toNat 0x02 (s.destroyQueue part.toNat queue))

/-- RESUME_SPACE. -/
def execResumeSpace (part : BitVec 2) (space : BitVec 16) (s : State) : Host.Outcome State Fault Refusal :=
  .next (s.answerEvent part.toNat 0x03 (s.resumeSpace part.toNat space))

/-- SET_PARTITION_PARAMETER. -/
def execSetPartitionParameter (part which : BitVec 2) (value : Nat) (s : State) : Host.Outcome State Fault Refusal :=
  .next (s.answerEvent part.toNat 0x04 (s.setParam part.toNat which value))

/-- SET_PARTITIONS. -/
def execSetPartitions (part : List Nat) (endp : List (BitVec 9)) (s : State) : Host.Outcome State Fault Refusal :=
  .next (s.answerEvent 0 0x05 (s.setPartitions part endp))

/-- WRITE_INGRESS_ENTRY. -/
def execWriteIngressEntry (part : BitVec 2) (ph4 ph5 : Word) (ew : List Word) (s : State) : Host.Outcome State Fault Refusal :=
  .next (s.answerEvent part.toNat 0x06 (s.writeIngress part.toNat ph4 ph5 ew))

/-- WRITE_DOORBELL_ENTRY. -/
def execWriteDoorbellEntry (part : BitVec 2) (ph4 ph5 : Word) (ew : List Word) (s : State) : Host.Outcome State Fault Refusal :=
  .next (s.answerEvent part.toNat 0x07 (s.writeDoor part.toNat ph4 ph5 ew))

/-- CONFIGURE_DOMAIN_BARRIER. -/
def execConfigureDomainBarrier (part : BitVec 2) (bar home : BitVec 9) (dbto : Nat)
    (members : List (BitVec 9 × BitVec 16 × BitVec 10 × Word)) (s : State) : Host.Outcome State Fault Refusal :=
  .next (s.answerEvent part.toNat 0x08 (s.setDbar bar home dbto members))

/-- MIGRATE_PAGE. -/
def execMigratePage (part : BitVec 2) (space : BitVec 16) (va : Word) (frame : BitVec 24) (s : State) :
    Host.Outcome State Fault Refusal :=
  .next (s.answerEvent part.toNat 0x09 (s.migratePage part.toNat space va frame))

/-- READ_BLACK_BOX: the reply carries each event; here each is a report with its address and its detail. -/
def execReadBlackBox (die : BitVec 2) (s : State) : Host.Outcome State Fault Refusal :=
  let p := s.partOfDie die.toNat
  let rep (e : Event) : Report :=
    { part := p, code := BitVec.ofNat 8 (field e.bb1 63 48), space := BitVec.ofNat 16 (field e.bb1 47 32), addr := e.bb2,
      detail := BitVec.ofNat 32 (field e.bb3 31 0) }
  .next (s.answerEvent p 0x0B ({ s with reports := s.reports ++ (s.die die.toNat).bbox.map rep }, hcDone))

/-- REQUEST_PREEMPTION of a gang. -/
def execRequestPreemption (gang : Nat) (s : State) : Host.Outcome State Fault Refusal :=
  let p := match s.gangAt gang with | some g => g.part | none => 0
  .next (s.answerEvent p 0x0A (s.hostPreempt p gang))

/-- FREEZE, at its arrival. -/
def execFreeze (s : State) : Host.Outcome State Fault Refusal := .next (if s.bootFail.isSome then s else s.freeze)

/-- RING_COMMAND_SUBMIT: the supervisor has written an entry and added 1 to RP; `cmd` is what the entry says, whose layout the
spec leaves open (R415, log 17). A freeze does not wait for a frame (R427). -/
def execRingCommandSubmit (die : BitVec 2) (cmd : HostCmd) (s : State) : Host.Outcome State Fault Refusal :=
  let d := die.toNat
  let sup := 1024 + d
  let given := (s.readWord (spKey sup 0xE0000) - s.readWord (spKey sup 0xE0008)).toNat
  .next (if (s.die d).ring.length < given then
      let s := s.noted (spKey sup 0xE0000) 16
      (match cmd with
       | .freeze => s.freeze
       | _ => s.onDie d fun x => { x with ring := x.ring ++ [cmd] })
    else s)

/-! ## The frame (R416) -/

/-- A harbour-controller packet to a host. -/
def State.tell (s : State) (p : Nat) (dst : BitVec 9) (b : Body) : State := s.send (s.part p).endp dst 0 0 false false 1024 b

/-- A command's reply, kept for a repetition of its packet (R409, R414). -/
def State.hostReply (s : State) (p : Nat) (x : BitVec 9 × BitVec 32 × HostCmd) (st : Nat) (data : List Byte) : State :=
  let b : Body := .reply x.2.1 (BitVec.ofNat 8 st) data false
  (s.remember ((s.part p).endp, x.1) x.2.1 b).tell p x.1 b

/-- How far a command that is answered when it completes has come: the lines that a migration has copied. -/
def State.progress (s : State) (p : Nat) : HostCmd → List Byte
  | .migratePage space va _ =>
    match s.migs.find? fun m => m.part == p && m.space == space && m.va == va with | some m => bytesOf 2 m.copied | none => []
  | _ => []

/-- A packet of CLASS 1000 arrives: its command enters the queue of 256, and a freeze takes place at once (R403, R409, R415, R427). A repeated
packet is performed no second time; while its command is under way it is answered busy. -/
def State.hostArrive (s : State) (p : Packet) : State :=
  match p.body with
  | .host cmd =>
    s.receive p fun s pn =>
      let mine (y : BitVec 9 × BitVec 32 × HostCmd) : Bool := y.1 == pkSrc p && y.2.1 == pkTag p
      let x := s.part pn
      if x.pending.any mine then .wait (s.answer p (.reply (pkTag p) (BitVec.ofNat 8 hcBusy) (s.progress pn cmd) false))
      else if x.hostq.any mine then .wait s
      else if cmd = .freeze then .wait s.freeze
      else if x.hostq.length < 256 then
        .wait ((s.onPart pn fun x => { x with hostq := x.hostq ++ [(pkSrc p, pkTag p, cmd)] }).passRelease p)
      else .retry
  | _ => s

/-- QUEUE_ERROR_CONTAIN (R418): the queues of the space lose their entries first, so that no task which is killed here completes one. -/
def State.contain (s : State) (e : QErr) : State :=
  let p := e.part
  let exists_ := (s.part p).spaces.contains e.space
  let gone := (s.saved.filter fun v => v.gang.part == p && v.gang.space == e.space).map fun v => v.gang.id
  let mine (core : Nat) : Bool := if core < 65536 then s.partOfCore core == p else gone.contains ((core - 65536) / 64)
  let s := if exists_ then s.onPart p fun x => { x with hlt := if x.hlt.contains e.space then x.hlt else x.hlt ++ [e.space] } else s
  let s := s.emptyQueues p e.space
  let s := (s.gangs.filter fun g => g.part == p && g.space == e.space).foldl
    (fun s g => g.ranks.foldl (fun s id => s.killSoon id) s) s
  let s := (s.saved.filter fun v => gone.contains v.gang.id).foldl
    (fun s v => v.cores.foldl (fun s c => match c.task with | some t => (s.noteKilled c).retireMember t c.id | none => s) s) s
  let s : State := { s with saved := s.saved.filter fun v => !gone.contains v.gang.id }
  let s := (List.range 4).foldl (fun s d =>
    if s.partOfDie d = p then ((s.die d).pools.filter fun x => x.space == e.space).foldl (fun s x => s.abortPool d x) s else s) s
  let s : State := { s with guards := s.guards.filter fun g => !(g.space == e.space && mine g.core) }
  let detail := e.cause.toNat + e.queue.toNat * 2 ^ 8 + e.src.toNat * 2 ^ 18
  let dies := (List.range 4).filter fun d => s.partOfDie d == p
  let s := s.blackBox (dies.headD 0) 0x05 e.space 0xFF e.addr detail
  let r : Report := { part := p, code := 0x05, space := e.space, addr := e.addr, detail := BitVec.ofNat 32 detail }
  (dies.foldl (fun s d => s.tellSup d r) s).report r

/-- A command of the host queue is performed and answered; commands 0x09 and 0x0A are answered when they complete, and 0x0C is not. -/
def State.serveHost (s : State) (p : Nat) (x : BitVec 9 × BitVec 32 × HostCmd) : State :=
  s.unfrozen fun s =>
    let (s, st, data) := s.hostCmd p x.2.2
    if st = hcBusy then s.onPart p fun y => { y with pending := y.pending ++ [x] } else s.unfrozen fun s => s.hostReply p x st data

/-- The first 16 commands of a partition's queue: four for each of the four firmware cores. -/
def State.serveQueue (s : State) (p : Nat) : State :=
  let l := (s.part p).hostq.take 16
  l.foldl (fun s x => s.serveHost p x) (s.onPart p fun y => { y with hostq := y.hostq.drop 16 })

/-- The command is done: its migration is over, or its gang is no longer resident. -/
def State.finished (s : State) (p : Nat) : HostCmd → Bool
  | .migratePage space va _ => !(s.migs.any fun m => m.part == p && m.space == space && m.va == va)
  | .preempt gang => (s.gangAt gang).isNone
  | _ => true

/-- Long commands that have completed are answered. -/
def State.answerPending (s : State) (p : Nat) : State :=
  let done := (s.part p).pending.filter fun x => s.finished p x.2.2
  let s := s.onPart p fun y => { y with pending := y.pending.filter fun x => !s.finished p x.2.2 }
  done.foldl (fun s x => s.hostReply p x hcDone []) s

/-- The reply to entry n of the ring of die d is written over it: the status with the entry's number as its TAG, and then the result (R414, R415;
layout log 17). -/
def State.ringReply (s : State) (d : Nat) (n : Word) (st : Nat) (data : List Byte) : State :=
  let head := bytesOf 4 st ++ bytesOf 4 n.toNat ++ data.take 56
  let (bs, s) := s.drawBytes (64 - head.length)
  s.poke (byteWs (spKey (1024 + d) (0xE0000 + 64 * (1 + n.toNat % 255))) (head ++ bs))

/-- One command of the ring of die d: its reply is written, and RC rises by 1; commands 0x09 and 0x0A are answered busy, and again when they
complete (R414, R415). -/
def State.serveRing (s : State) (d : Nat) : State :=
  match (s.die d).ring with
  | [] => s
  | cmd :: rest =>
    s.unfrozen fun s =>
      let sup := 1024 + d
      let p := s.partOfDie d
      let s := s.noted (spKey sup 0xE0008) 8
      let rc := s.readWord (spKey sup 0xE0008)
      let (s, st, data) := (s.onDie d fun x => { x with ring := rest }).hostCmd p cmd
      s.unfrozen fun s =>
        let s := if st = hcBusy then s.onDie d fun x => { x with pending := x.pending ++ [(rc, cmd)] } else s
        let s := s.ringReply d rc st (if st = hcBusy then s.progress p cmd else data)
        let s := s.poke (byteWs (spKey sup 0xE0008) (bytesOf 8 (rc + 1).toNat))
        s.onCore sup fun c => { c with wake := true }

/-- Long commands of the ring of die d that have completed: the reply stands over the entry, unless the supervisor has used the entry again,
and the supervisor is told (R414, log 17). -/
def State.ringPending (s : State) (d : Nat) : State :=
  let p := s.partOfDie d
  let done := (s.die d).pending.filter fun x => s.finished p x.2
  let s := s.onDie d fun y => { y with pending := y.pending.filter fun x => !s.finished p x.2 }
  done.foldl (fun s x =>
    let s := if (s.readWord (spKey (1024 + d) 0xE0000) - x.1).toNat ≤ 255 then s.ringReply d x.1 hcDone [] else s
    s.tellSup d { part := p, code := BitVec.ofNat 8 (0x80 + x.2.code), space := 0, addr := x.1, detail := BitVec.ofNat 32 hcDone }) s

/-- Thresholds of the stages of a queue's watchdog, in cycles (R346). -/
def State.thresholds (s : State) (q : BitVec 10) : List Nat :=
  let w : BitVec 64 := ((lookup q.toNat s.qwd).getD 0).setWidth 64
  [field w 15 0, field w 31 16, field w 47 32].map fun n => 4096 * n

/-- WATCHDOG_COMPARE: the lowest stage that has been reached and has not acted is due (R354). -/
def State.watchdogDue (s : State) (g : Gang) : Nat :=
  let time := g.time + (s.cycle - g.since)
  match (s.thresholds g.queue).zipIdx.find? fun (th, i) => th != 0 && decide (th ≤ time) && !g.stages.getLsbD i with
  | some (_, i) => i + 1
  | none => 0

def State.compareWatchdogs (s : State) : State :=
  let due (g : Gang) : Gang := { g with due := s.watchdogDue g }
  { s with gangs := s.gangs.map due }

/-- MIGRATION_LINE_COPY: one line moves to its new home, with what of it is uncorrectable; what ECC corrects in it, or cannot, is recorded
(R383, R387, R424). -/
def State.copyLine (s : State) (old new l : Nat) : State :=
  let a := old * 65536 + 128 * l
  let b := new * 65536 + 128 * l
  let drop (c : Core) : Core := if c.l1.any (fun x => x.line == b / 128) then { c with l1 := c.l1.filter fun x => x.line != b / 128 } else c
  let bad := (s.badGran.filter fun g => decide (a ≤ g * 32 ∧ g * 32 < a + 128)).map fun g => g - a / 32
  let s := (s.noted a 128).writeCopied b 128 (moved s.mem a 128 b) bad
  { s with core := drop s.core, parked := s.parked.map drop }

/-- 32 lines of a migration; after the last, the new leaf is stored with MIG 10 (R386). -/
def State.copyLines (s : State) (m : Mig) : State :=
  if m.switched then s
  else
    let n := min 512 (m.copied + 32)
    let s := (List.range (n - m.copied)).foldl (fun s i => s.copyLine m.old.toNat m.new.toNat (m.copied + i)) s
    let m' : Mig := { m with copied := n, switched := decide (n = 512) }
    let s : State := { s with migs := s.migs.map fun x => if x = m then m' else x }
    if n = 512 then s.storeLeaf m.leaf m.new 2 else s

/-- Up to four migrations of the pages at home on die d. -/
def State.copyPages (s : State) (d : Nat) : State :=
  ((s.migs.filter fun m => !m.switched && hbmDie (m.old.toNat * 65536) == some d).take 4).foldl (fun s m => s.copyLines m) s

/-- DLIM_ADJUST (R423). -/
def dlimNext (watts dlim : Nat) : Nat :=
  if 2200 < watts then max 64 (dlim - 32) else if watts < 2100 then min 1024 (dlim + 16) else dlim

/-- HC_FRAME: the fixed slots of one frame, on all four firmware cores. Host commands that came before their turn in the order of releases are
looked at again (R410). -/
def execHcFrame (watts : Nat) (s : State) : Host.Outcome State Fault Refusal :=
  if s.cycle < s.frames || s.bootFail.isSome then .next s
  else
    let s : State := { s with frames := s.frames + 2048 }
    let errs := s.qerrs
    let s := errs.foldl (fun s e => s.contain e) { s with qerrs := [] }
    let s := (s.port.early.filter fun p => classOf p.body == 8).foldl (fun s p => s.hostArrive p) s
    let s := (List.range 4).foldl (fun s p => (s.serveQueue p).unfrozen fun s => s.answerPending p) s
    let s := (List.range 4).foldl (fun s d => ((((s.serveRing d).serveRing d).serveRing d).serveRing d).unfrozen fun s => s.ringPending d) s
    .next (s.unfrozen fun s =>
      let s := (List.range 4).foldl (fun s d => s.copyPages d) s.compareWatchdogs
      { s with dies := s.dies.map fun d => { d with dlim := dlimNext watts d.dlim } })

/-! ## The end of a migration (R386) -/

/-- Parts of a range before, in and after the old frame; the middle one moves. -/
def moveRange (old new : Nat) (r : Nat × Nat) : List (Nat × Nat) :=
  let lo := old * 65536
  let hi := lo + 65536
  let e := r.1 + r.2
  ([(r.1, min e lo - r.1), (max r.1 lo - lo + new * 65536, min e hi - max r.1 lo), (max r.1 hi, e - max r.1 hi)]).filter
    fun x => x.2 != 0

/-- What names bytes of the old frame of a move names them in the new one: ranges of the GUARD table, and leaves of pages that move. -/
def State.moveFrame (s : State) (m : Mig) : State :=
  let key (k : Nat) : Nat := if k / 65536 = m.old.toNat then m.new.toNat * 65536 + k % 65536 else k
  let guard (g : Guard) : Guard := { g with keys := g.keys.flatMap (moveRange m.old.toNat m.new.toNat), hit := g.hit.map key }
  { s with guards := s.guards.map guard, migs := (s.migs.filter fun x => x != m).map fun x => { x with leaf := key x.leaf } }

/-- MIGRATION_DONE: the harbour controller's TLBINV of the page has completed, and MIG := 00 is stored. It completes once no access
translated to the old frame is still to be performed (R311, log 22). -/
def execMigrationDone (part : BitVec 2) (space : BitVec 16) (va : Word) (s : State) : Host.Outcome State Fault Refusal :=
  match s.migs.find? fun m => m.part == part.toNat && m.space == space && m.va == va && m.switched with
  | none => .next s
  | some m =>
    .next (if s.stale 4096 fun p x => p == m.part && x == space then s
      else ((s.tlbInvPage m.part space va.toNat).storeLeaf m.leaf m.new 0).moveFrame m)

/-! ## Scrubbing (R425) -/

/-- SCRUB_VISIT: a granule is read and corrected in place; what cannot be corrected is left and recorded. -/
def execScrubVisit (granule : Nat) (s : State) : Host.Outcome State Fault Refusal :=
  let d := dieOfKey (granule * 32)
  let a := BitVec.ofNat 64 (granule * 32)
  let s1 : State := if s.softGran.contains granule then
      State.blackBox { s with softGran := s.softGran.filter fun g => g != granule } d 0x01 0 0xFF a 0
    else s
  .next (if s.badGran.contains granule then s1.blackBox d 0x02 0 0xFF a 0 else s1)

/-! ## Resets (R420, R421) -/

/-- The supervisor image in the scratchpads of the supervisor cores of some dies. -/
def loadImages (image : List Byte) (m : Memory) (dies : List Nat) : Memory :=
  dies.foldl (fun m d => mwrite m (spKey (1024 + d) 0) (image.take 0x100000)) m

/-- The supervisor image starts with its root in SPPT of space 0, whose other bits read zero (R346). -/
def Part.started (root : Word) (p : Part) : Part := { p with sppt := [(0, root &&& psrBits 0x011)] }

/-- A physical address of HBM4E, which no reset clears. -/
def inHbm (k : Nat) : Bool := (hbmDie k).isSome

/-- COLD_RESET: every SRAM is zero, the black boxes are empty, one partition of four dies stands, and the supervisors start (R420).
When a step fails, the later ones are not taken, nothing is started, and packets are refused with its number: up to the third the SRAMs and the
black boxes stay as they are (log 81), and before the fourth has succeeded there is no partition. -/
def execColdReset (image : List Byte) (root : Word) (fails : Option (BitVec 3)) (s : State) : Host.Outcome State Fault Refusal :=
  let z := State.reset
  let cleared := match fails with | some k => decide (3 < k.toNat) | none => true
  let keep (k : Nat) : Bool := !cleared || inHbm k
  let box (d : Die) : Die := if cleared then Die.reset else { Die.reset with bbox := d.bbox, lost := d.lost }
  let base : State :=
    { z with mem := s.mem.filter fun c => keep c.1, badGran := s.badGran.filter fun g => keep (g * 32),
             softGran := s.softGran.filter fun g => keep (g * 32), dies := (List.range 4).map fun d => box (s.die d),
             reports := s.reports, shadows := s.shadows, free := s.free, agenda := s.agenda, nextId := s.nextId, turn := false,
             port := { z.port with outbox := s.port.outbox } }
  match fails with
  | none =>
    .next { base with mem := loadImages image base.mem (List.range 4), parts := z.parts.map fun p => if p.dies = 0 then p else p.started root }
  | some k =>
    .next { base with core := Core.blank 1024, parked := [],
                      parts := if k.toNat ≤ 4 then z.parts.map fun _ => Part.absent else z.parts, bootFail := some k.toNat }

/-- A byte of an SRAM of the partition's dies. -/
def State.sramOf (s : State) (p k : Nat) : Bool := !inHbm k && s.partOfDie (dieOfKey k) == p

/-- WARM_RESET of one partition: its tasks, pools, ranges, barriers and fences go, its queues are empty, its SRAMs are zero but for the black
boxes, and it starts again; HBM4E and the other partitions are untouched (R421), and so is what its port remembers of packets that have
been performed and of the order of releases, which other endpoints go by (log 98). -/
def execWarmReset (part : BitVec 2) (image : List Byte) (root : Word) (s : State) : Host.Outcome State Fault Refusal :=
  let p := part.toNat
  let old := s.part p
  if old.dies = 0 || s.bootFail.isSome then .next s
  else
    let mineDie (d : Nat) : Bool := s.partOfDie d == p
    let mineCore (id : Nat) : Bool := mineDie (dieOfCore id)
    let fresh (c : Core) : Core := if mineCore c.id then (if isSup c.id then Core.supervisor (c.id - 1024) else Core.blank c.id) else c
    let dies := (List.range 4).filter mineDie
    let restart (d : Die) : Die := { Die.reset with bbox := d.bbox, lost := d.lost }
    let gone := (s.saved.filter fun v => v.gang.part == p).map fun v => v.gang.id
    let mineKey (core : Nat) : Bool := if core < 65536 then mineCore core else gone.contains ((core - 65536) / 64)
    let own (e : BitVec 9) : Bool := e == old.endp
    let mem : Memory := s.mem.filter fun c => !s.sramOf p c.1
    let members (b : DBar) : DBar :=
      { b with retired := (List.range b.members.length).filter fun n =>
          b.retired.contains n || (match b.members[n]? with | some x => own x.1 | none => false) }
    .next { s with
      core := fresh s.core, parked := s.parked.map fresh,
      mem := loadImages image mem dies,
      dies := s.dies.zipIdx.map fun (d, i) => if mineDie i then restart d else d,
      parts := setAt s.parts p (Part.started root { Part.reset with dies := old.dies, endp := old.endp, spaces := old.spaces, drops := old.drops }),
      queues := s.queues.map fun q => if s.partOfQueue q.num = p then { q with entries := [] } else q,
      qbgt := s.qbgt.filter fun x => s.partOfDie (x.1 / 256) != p,
      qwd := s.qwd.filter fun x => s.partOfDie (x.1 / 256) != p,
      childq := s.childq.filter fun c => s.partOfQueue c.queue != p,
      tmpls := s.tmpls.filter fun t => t.part != p,
      gangs := s.gangs.filter fun g => g.part != p,
      saved := s.saved.filter fun v => v.gang.part != p,
      forwards := s.forwards.filter fun f => !mineCore f.core,
      migs := s.migs.filter fun m => m.part != p,
      dbars := ((s.dbars.filter fun b => !own b.home).map members).filter fun b => decide (b.retired.length < b.members.length),
      guards := s.guards.filter fun g => !mineKey g.core,
      tlb := s.tlb.filter fun t => t.part != p,
      qerrs := s.qerrs.filter fun e => e.part != p,
      badGran := s.badGran.filter fun g => !s.sramOf p (g * 32),
      softGran := s.softGran.filter fun g => !s.sramOf p (g * 32),
      port := { s.port with
        net := s.port.net.filter fun x => !own (pkSrc x),
        unacked := s.port.unacked.filter fun o => !own o.src,
        early := s.port.early.filter fun x => !own (pkDst x) } }

end Sys2Proof.Machine
end

