-- ==== Sys2Proof/Machine/IntScalar.lean ====
section
/-!
DEFINITION. Sys2Proof/Machine/IntScalar.lean: the scalar integer majors 0x10 to 0x1F (R157, R166, R173 to R184).
-/
namespace Sys2Proof.Machine

/-- W in bits. -/
def bitsOf (w : Bool) : Nat := if w then 64 else 32

/-- Deliver(r) of the low W bits (R157). -/
def deliverInt (f : IForm) (r : Nat) : Word :=
  if f.w then BitVec.ofNat 64 r
  else if f.n then zext 32 (BitVec.ofNat 64 r)
  else sext 32 (BitVec.ofNat 64 r)

/-- A W-bit input: signed when N = 0, natural when N = 1 (R173). -/
def intOf (f : IForm) (x : Word) : Int :=
  let n := bitsOf f.w
  if f.n then ((x.toNat % 2 ^ n : Nat) : Int) else toSigned n x.toNat

/-- The input's bits. -/
def natOf (w : Bool) (x : Word) : Nat := x.toNat % 2 ^ bitsOf w

/-- The integer type of a form. -/
def tyOf (f : IForm) : Ty :=
  match f.w, f.n with
  | false, false => .i32
  | false, true => .n32
  | true, false => .i64
  | true, true => .n64

/-- The signed form of a width. -/
def plainForm (w : Bool) : IForm := { w := w, n := false }

/-- An exact result, wrapped or clamped (R174). -/
def sumResult (f : IForm) (sat : Bool) (x : Int) : Word × Flags :=
  if sat then let (r, fl) := satInt (tyOf f) x; (deliverInt f r, fl) else (deliverInt f (wrap (bitsOf f.w) x), 0)

/-- Two scalar inputs, the second possibly an immediate. -/
def fireInt2 (i : Instr) (imm : Option (BitVec 13)) (s : State) (g : Word → Word → Word × Flags) :
    Host.Outcome State Fault Refusal :=
  fireScalar i s fun _ x => g (tokWord x.a) (bWord imm x.b)

/-- ADD (R174). -/
def execAdd (c : Ctl) (f : IForm) (sat : Bool) (imm : Option (BitVec 13)) (s : State) : Host.Outcome State Fault Refusal :=
  fireInt2 (.add c f sat imm) imm s fun a b => sumResult f sat (intOf f a + intOf f b)

/-- SUB (R174). -/
def execSub (c : Ctl) (f : IForm) (sat : Bool) (imm : Option (BitVec 13)) (s : State) : Host.Outcome State Fault Refusal :=
  fireInt2 (.sub c f sat imm) imm s fun a b => sumResult f sat (intOf f a - intOf f b)

/-- MUL (R175). -/
def mulWord (f : IForm) (hi : Bool) (a b : Word) : Word :=
  let p := intOf f a * intOf f b
  let n := bitsOf f.w
  deliverInt f (if hi then wrap n (p / (2 ^ n : Nat)) else wrap n p)

def execMul (c : Ctl) (f : IForm) (hi : Bool) (imm : Option (BitVec 13)) (s : State) : Host.Outcome State Fault Refusal :=
  fireInt2 (.mul c f hi imm) imm s fun a b => (mulWord f hi a b, 0)

/-- DIV (R176): truncation toward zero; the remainder takes the dividend's sign. -/
def divWord (f : IForm) (rem : Bool) (a b : Word) : Word :=
  let n := bitsOf f.w
  let x := intOf f a
  let y := intOf f b
  if y = 0 then deliverInt f (if rem then natOf f.w a else 2 ^ n - 1)
  else deliverInt f (wrap n (if rem then Int.tmod x y else Int.tdiv x y))

def execDiv (c : Ctl) (f : IForm) (rem : Bool) (imm : Option (BitVec 13)) (s : State) : Host.Outcome State Fault Refusal :=
  fireInt2 (.div c f rem imm) imm s fun a b => (divWord f rem a b, 0)

/-- The bitwise results in W bits (R177). -/
def bitWord (w : Bool) (r : Word) : Word := deliverInt (plainForm w) (natOf w r)

def execAnd (c : Ctl) (w : Bool) (imm : Option (BitVec 13)) (s : State) : Host.Outcome State Fault Refusal :=
  fireInt2 (.and c w imm) imm s fun a b => (bitWord w (a &&& b), 0)

def execOr (c : Ctl) (w : Bool) (imm : Option (BitVec 13)) (s : State) : Host.Outcome State Fault Refusal :=
  fireInt2 (.or c w imm) imm s fun a b => (bitWord w (a ||| b), 0)

def execXor (c : Ctl) (w : Bool) (imm : Option (BitVec 13)) (s : State) : Host.Outcome State Fault Refusal :=
  fireInt2 (.xor c w imm) imm s fun a b => (bitWord w (a ^^^ b), 0)

def execAndn (c : Ctl) (w : Bool) (imm : Option (BitVec 13)) (s : State) : Host.Outcome State Fault Refusal :=
  fireInt2 (.andn c w imm) imm s fun a b => (bitWord w (a &&& ~~~b), 0)

/-- A shift of a w-bit lane by c < w (R178). -/
def shiftNat (op : ShiftOp) (w a c : Nat) : Nat :=
  match op with
  | .shl => a * 2 ^ c % 2 ^ w
  | .shr => a % 2 ^ w / 2 ^ c
  | .sra => wrap w (toSigned w a / (2 ^ c : Nat))
  | .rol => a % 2 ^ w * 2 ^ c % 2 ^ w + a % 2 ^ w / 2 ^ (w - c)

/-- SHIFT (R178). -/
def shiftWord (w : Bool) (op : ShiftOp) (a b : Word) : Word :=
  let n := bitsOf w
  deliverInt (plainForm w) (shiftNat op n (natOf w a) (b.toNat % n))

def execShift (c : Ctl) (w : Bool) (op : ShiftOp) (imm : Option (BitVec 13)) (s : State) :
    Host.Outcome State Fault Refusal :=
  fireInt2 (.shift c w op imm) imm s fun a b => (shiftWord w op a b, 0)

/-- Zero bits above the highest one of a w-bit value (R180). -/
def clzNat (w a : Nat) : Nat := if a = 0 then w else w - 1 - Nat.log2 a
/-- Zero bits below the lowest one. -/
def ctzNat (w a : Nat) : Nat := ((List.range w).find? fun i => a.testBit i).getD w
def popNat (w a : Nat) : Nat := ((List.range w).filter fun i => a.testBit i).length
def revNat (w a : Nat) : Nat := (List.range w).foldl (fun r i => if a.testBit i then r + 2 ^ (w - 1 - i) else r) 0

/-- BITF (R179, R180); the control word is B, or C for INS. -/
def bitfWord (w : Bool) (op : BitfOp) (a b c : Word) : Word :=
  let n := bitsOf w
  let x := natOf w a
  let ctl := match op with | .ins => c | _ => b
  let pos := field ctl 5 0
  let len := if n ≤ pos then 0 else min (field ctl 12 6) (n - pos)
  let out (r : Nat) : Word := deliverInt (plainForm w) r
  match op with
  | .extz => out (x / 2 ^ pos % 2 ^ len)
  | .exts => out (if len = 0 then 0 else wrap n (toSigned len (x / 2 ^ pos)))
  | .ins => out (if len = 0 then x else x - x / 2 ^ pos % 2 ^ len * 2 ^ pos + b.toNat % 2 ^ len * 2 ^ pos)
  | .clz => out (clzNat n x)
  | .ctz => out (ctzNat n x)
  | .popc => out (popNat n x)
  | .brev => out (revNat n x)

def execBitf (c : Ctl) (w : Bool) (op : BitfOp) (imm : Option (BitVec 13)) (s : State) : Host.Outcome State Fault Refusal :=
  fireScalar (.bitf c w op imm) s fun _ x => (bitfWord w op (tokWord x.a) (bWord imm x.b) (tokWord x.c), 0)

/-- MINMAX (R181). -/
def minmaxWord (f : IForm) (max : Bool) (a b : Word) : Word :=
  let less := decide (intOf f a < intOf f b)
  deliverInt f (natOf f.w (if less != max then a else b))

def execMinmax (c : Ctl) (f : IForm) (max : Bool) (imm : Option (BitVec 13)) (s : State) :
    Host.Outcome State Fault Refusal :=
  fireInt2 (.minmax c f max imm) imm s fun a b => (minmaxWord f max a b, 0)

/-- ICMP (R182). -/
def icmpWord (f : IForm) (op : IcmpOp) (a b : Word) : Word :=
  match op with
  | .eq => b2w (natOf f.w a == natOf f.w b)
  | .ne => b2w (natOf f.w a != natOf f.w b)
  | .lt => b2w (decide (intOf f a < intOf f b))
  | .le => b2w (decide (intOf f a ≤ intOf f b))

def execIcmp (c : Ctl) (f : IForm) (op : IcmpOp) (imm : Option (BitVec 13)) (s : State) : Host.Outcome State Fault Refusal :=
  fireInt2 (.icmp c f op imm) imm s fun a b => (icmpWord f op a b, 0)

/-- ADDR (R183). -/
def execAddr (c : Ctl) (sh : BitVec 3) (off : BitVec 13) (s : State) : Host.Outcome State Fault Refusal :=
  fireScalar (.addr c sh off) s fun _ x => (tokWord x.a + (tokWord x.b <<< sh.toNat) + imm64 off, 0)

/-- ADDI (R166). -/
def execAddi (c : Ctl) (w : Bool) (imm : BitVec 32) (s : State) : Host.Outcome State Fault Refusal :=
  fireScalar (.addi c w imm) s fun _ x => (bitWord w (tokWord x.a + imm.signExtend 64), 0)

/-- EXT (R184). -/
def extWord (f : IForm) (sz : ExtSize) (a : Word) : Word :=
  deliverInt f (if f.n then zext sz.bits a else sext sz.bits a).toNat

def execExt (c : Ctl) (f : IForm) (sz : ExtSize) (s : State) : Host.Outcome State Fault Refusal :=
  fireScalar (.ext c f sz) s fun _ x => (extWord f sz (tokWord x.a), 0)

end Sys2Proof.Machine
end

