-- ==== Sys2Proof/Machine/Routing.lean ====
section
/-!
DEFINITION. Sys2Proof/Machine/Routing.lean: the routing, dispatch and collective commands as they fire, and their wait, majors 0x80 to
0x89 (R262 to R264, R286). What a command does stands with its events.
-/
namespace Sys2Proof.Machine

/-- A command of the Pilot or the Lighter has no check when it fires: its descriptors and record are read at issue (R263). -/
def fireRoute (i : Instr) (s : State) : Host.Outcome State Fault Refusal := fireCommand i s fun _ _ => .ok 0

/-- RGRP (R271). -/
def execRgrp (c : Ctl) (tda tdb tdc : BitVec 6) (o : CmdOpt) (s : State) : Host.Outcome State Fault Refusal :=
  fireRoute (.rgrp c tda tdb tdc o) s
/-- RTOPK (R272). -/
def execRtopk (c : Ctl) (tda tdb tdc : BitVec 6) (o : CmdOpt) (s : State) : Host.Outcome State Fault Refusal :=
  fireRoute (.rtopk c tda tdb tdc o) s
/-- RBIN (R273). -/
def execRbin (c : Ctl) (tda tdb tdc : BitVec 6) (o : CmdOpt) (s : State) : Host.Outcome State Fault Refusal :=
  fireRoute (.rbin c tda tdb tdc o) s
/-- BPERM in its request role (R275). -/
def execBpermRequest (c : Ctl) (tda tdb tdc : BitVec 6) (o : CmdOpt) (s : State) : Host.Outcome State Fault Refusal :=
  fireRoute (.bpermRequest c tda tdb tdc o) s
/-- BPERM in its open role (R276). -/
def execBpermOpen (c : Ctl) (tda tdb tdc : BitVec 6) (o : CmdOpt) (s : State) : Host.Outcome State Fault Refusal :=
  fireRoute (.bpermOpen c tda tdb tdc o) s
/-- DSPAT (R277). -/
def execDspat (c : Ctl) (tda tdb tdc : BitVec 6) (o : CmdOpt) (s : State) : Host.Outcome State Fault Refusal :=
  fireRoute (.dspat c tda tdb tdc o) s
/-- CMBN (R280). -/
def execCmbn (c : Ctl) (tda tdb tdc : BitVec 6) (o : CmdOpt) (s : State) : Host.Outcome State Fault Refusal :=
  fireRoute (.cmbn c tda tdb tdc o) s
/-- BREL (R284). -/
def execBrel (c : Ctl) (tdc : BitVec 6) (o : CmdOpt) (s : State) : Host.Outcome State Fault Refusal :=
  fireRoute (.brel c tdc o) s
/-- EXPLD (R285). -/
def execExpld (c : Ctl) (tda tdb tdc : BitVec 6) (o : CmdOpt) (s : State) : Host.Outcome State Fault Refusal :=
  fireRoute (.expld c tda tdb tdc o) s
/-- COLL.ar (R287). -/
def execCollAr (c : Ctl) (tda tdb tdc : BitVec 6) (o : CmdOpt) (s : State) : Host.Outcome State Fault Refusal :=
  fireRoute (.collAr c tda tdb tdc o) s
/-- COLL.rs (R288). -/
def execCollRs (c : Ctl) (tda tdb tdc : BitVec 6) (o : CmdOpt) (s : State) : Host.Outcome State Fault Refusal :=
  fireRoute (.collRs c tda tdb tdc o) s
/-- COLL.ag (R287). -/
def execCollAg (c : Ctl) (tda tdb tdc : BitVec 6) (o : CmdOpt) (s : State) : Host.Outcome State Fault Refusal :=
  fireRoute (.collAg c tda tdb tdc o) s
/-- COLL.a2a (R287). -/
def execCollA2a (c : Ctl) (tda tdb tdc : BitVec 6) (o : CmdOpt) (s : State) : Host.Outcome State Fault Refusal :=
  fireRoute (.collA2a c tda tdb tdc o) s
/-- COLL.bc (R287). -/
def execCollBc (c : Ctl) (tda tdb tdc : BitVec 6) (o : CmdOpt) (s : State) : Host.Outcome State Fault Refusal :=
  fireRoute (.collBc c tda tdb tdc o) s
/-- COLL.op (R287). -/
def execCollOp (c : Ctl) (tda tdb tdc : BitVec 6) (o : CmdOpt) (s : State) : Host.Outcome State Fault Refusal :=
  fireRoute (.collOp c tda tdb tdc o) s

/-- The observed command's record has MMT = 1 and its status would be FAULT with DETAIL 0x0A (R264). -/
def mismatchTraps (s : State) (w : Word) : Bool :=
  match ticketOf w with
  | none => false
  | some tk =>
    s.core.e.tickets.any fun x => x.tk == tk && x.mmt && statusSt x.st == stFault && field x.st 55 48 == 0x0A

/-- COLLW and its test (R264). -/
def fireCollw (i : Instr) (test : Bool) (s : State) : Host.Outcome State Fault Refusal :=
  match s.core.frame with
  | none => .fault .noFrame
  | some fr =>
    if mismatchTraps s (tokWord ((fr.slot fr.cur .a).getD .null)) then
      fireWith i s fun s _ => (s, .fault { cause := cFormat, addr := 0 })
    else fireTicket i [engRoute, engColl] test s

/-- COLLW (R264). -/
def execCollw (c : Ctl) (s : State) : Host.Outcome State Fault Refusal := fireCollw (.collw c) false s
/-- COLLW.test (R264). -/
def execCollwTest (c : Ctl) (s : State) : Host.Outcome State Fault Refusal := fireCollw (.collwTest c) true s

end Sys2Proof.Machine
end

