-- ==== Sys2Proof/Machine/NumTrans.lean ====
section
/-!
DEFINITION. Sys2Proof/Machine/NumTrans.lean: correctly rounded 2^a and log2 a (R198). A value that is not exact is irrational, so
it is bracketed between two fixed-point bounds, and the bracket is narrowed until both ends round to one code.
-/
namespace Sys2Proof.Machine

/-- A lower bound of ln 2 × 2^p, less than 2 below it: the sum of 2^p ÷ (k 2^k) with 16 guard bits. -/
def ln2Fixed (p : Nat) : Nat :=
  let q := p + 16
  (((List.range q).foldl (fun a k => a + 2 ^ q / ((k + 1) * 2 ^ (k + 1))) 0) / 2 ^ 16) - 1

/-- Terms of e^x, x = X ÷ 2^p: the sum of floors. -/
def expSum (p x : Nat) : Nat → Nat → Nat → Nat → Nat
  | 0, _, _, acc => acc
  | n + 1, k, t, acc => let t' := t * x / (k * 2 ^ p); expSum p x n (k + 1) t' (acc + t')

/-- Bounds of 2^f × 2^p for a fraction f in [fl, fl + 1) ÷ 2^p. -/
def exp2Bounds (p fl : Nat) : Nat × Nat :=
  let x := fl * ln2Fixed p / 2 ^ p
  let n := p / 3 + 8
  let lo := expSum p x n 1 (2 ^ p) (2 ^ p)
  (lo, min (lo + 4 * n + 32) (2 ^ (p + 1)))

/-- Sum of z^(2k+1) ÷ (2k+1), z = Z ÷ 2^p, by floors. -/
def atanhSum (p z2 : Nat) : Nat → Nat → Nat → Nat → Nat
  | 0, _, _, acc => acc
  | n + 1, k, t, acc => atanhSum p z2 n (k + 1) (t * z2 / 2 ^ p) (acc + t / (2 * k + 1))

/-- Bounds of log2(m ÷ 2^l) × 2^p for m ÷ 2^l in [1, 2). -/
def log2Bounds (p m l : Nat) : Nat × Nat :=
  let z := (m - 2 ^ l) * 2 ^ p / (m + 2 ^ l)
  let n := p / 3 + 4
  let s := 2 * atanhSum p (z * z / 2 ^ p) n 0 z 0
  let ln2 := ln2Fixed p
  (s * 2 ^ p / (ln2 + 4), min ((s + 8 * n + 8) * 2 ^ p / ln2 + 1) (2 ^ p))

/-- The code of a value strictly between lo × 2^e and hi × 2^e when both ends agree. -/
def roundBetween (t : Ty) (rm : Rm) (neg : Bool) (lo hi : Nat) (e : Int) : Option (Nat × Flags) :=
  if lo = 0 then none
  else
    let a := roundS t false rm (.fin neg lo e) true
    let b := roundS t false rm (.fin neg (hi - 1) e) true
    if a = b then some a else none

/-- The first bracket that decides; the last bracket's lower end serves when none does (log 24). -/
def firstSome {α : Type} (f : Nat → Option α) (dflt : α) : List Nat → α
  | [] => dflt
  | p :: ps => match f p with | some x => x | none => firstSome f dflt ps

/-- Working precisions of the brackets. -/
def precisions (t : Ty) : List Nat := match t with | .f64 => [160, 288, 544] | _ => [112, 224, 416]

/-- Round(2^a, t, rm) (R198). -/
def exp2R (t : Ty) (rm : Rm) (a : FVal) : Nat × Flags :=
  match a with
  | .nan _ => (canonNan t, snanFlag [a])
  | .inf s => roundF t false rm (if s then .fin false 0 0 else .inf false)
  | .fin s m e =>
    if m = 0 then roundF t false rm (.fin false 1 0)
    else if floorLog2 m e ≥ 12 then roundS t false rm (.fin false 1 (if s then -4096 else 4096)) false
    else
      let v := if s then -(m : Int) else m
      if 0 ≤ e ∨ m % 2 ^ (-e).toNat = 0 then
        roundF t false rm (.fin false 1 (if 0 ≤ e then v * 2 ^ e.toNat else v / 2 ^ (-e).toNat))
      else
        firstSome (fun p =>
          let x := if 0 ≤ e + p then v * 2 ^ (e + p).toNat else v / (2 ^ (-(e + p)).toNat : Nat)
          let i := x / (2 ^ p : Nat)
          let (lo, hi) := exp2Bounds p (x % (2 ^ p : Nat)).toNat
          roundBetween t rm false lo hi (i - p)) (canonNan t, fNX) (precisions t)

/-- Round(log2 a, t, rm) (R198). -/
def log2R (t : Ty) (rm : Rm) (a : FVal) : Nat × Flags :=
  match a with
  | .nan _ => (canonNan t, snanFlag [a])
  | .inf s => if s then (canonNan t, fNV) else roundF t false rm (.inf false)
  | .fin s m e =>
    if m = 0 then ((roundF t false rm (.inf true)).1, fDZ)
    else if s then (canonNan t, fNV)
    else
      let l := Nat.log2 m
      let k := e + l
      if m = 2 ^ l then roundF t false rm (FVal.ofInt k)
      else
        firstSome (fun p =>
          let (a, b) := log2Bounds p m l
          let lo := k * (2 ^ p : Nat) + a
          let hi := k * (2 ^ p : Nat) + b
          if 0 < lo then roundBetween t rm false lo.toNat hi.toNat (-(p : Int))
          else if hi < 0 then roundBetween t rm true (-hi).toNat (-lo).toNat (-(p : Int))
          else none) (canonNan t, fNX) (precisions t)

end Sys2Proof.Machine
end

