-- ==== Sys2Proof/Machine/Vector.lean ====
section
/-!
DEFINITION. Sys2Proof/Machine/Vector.lean: vector arithmetic, comparisons, masks, lane moves and reductions, majors 0x30 to 0x49
(R196 to R211).
-/
namespace Sys2Proof.Machine

/-- A lane code as an exact value. -/
def flane (t : Ty) (x : Nat) : FVal := decodeF t false x

/-! ## Floating-point lanes (R197, R198) -/

def fireF1 (i : Instr) (t : Ty) (s : State) (f : Rm → FVal → Nat × Flags) : Host.Outcome State Fault Refusal :=
  firePure i s fun r x => map1 t.width x.lm x.a fun a => f (fsrRm r) (flane t a)

def fireF2 (i : Instr) (t : Ty) (s : State) (f : Rm → FVal → FVal → Nat × Flags) : Host.Outcome State Fault Refusal :=
  firePure i s fun r x => map2 t.width x.lm x.a x.b fun a b => f (fsrRm r) (flane t a) (flane t b)

/-- VADD. -/
def execVadd (c : Ctl) (t : Ty) (s : State) : Host.Outcome State Fault Refusal := fireF2 (.vadd c t) t s (faddC t)
/-- VSUB. -/
def execVsub (c : Ctl) (t : Ty) (s : State) : Host.Outcome State Fault Refusal := fireF2 (.vsub c t) t s (fsubC t)
/-- VMUL. -/
def execVmul (c : Ctl) (t : Ty) (s : State) : Host.Outcome State Fault Refusal := fireF2 (.vmul c t) t s (fmulC t)
/-- VFMA, VFMS, VNFMA. -/
def execVfma (c : Ctl) (t : Ty) (k : FmaKind) (s : State) : Host.Outcome State Fault Refusal :=
  firePure (.vfma c t k) s fun r x => map3 t.width x.lm x.a x.b x.c fun a b d =>
    ffmaC t (fsrRm r) k (flane t a) (flane t b) (flane t d)
/-- VDIV. -/
def execVdiv (c : Ctl) (t : Ty) (s : State) : Host.Outcome State Fault Refusal := fireF2 (.vdiv c t) t s (fdivC t)
/-- VSQRT. -/
def execVsqrt (c : Ctl) (t : Ty) (s : State) : Host.Outcome State Fault Refusal := fireF1 (.vsqrt c t) t s (fsqrtC t)
/-- VRSQ (R198). -/
def execVrsq (c : Ctl) (t : Ty) (s : State) : Host.Outcome State Fault Refusal :=
  fireF1 (.vrsq c t) t s fun rm a => roundWithS t rm (rsqrtV a)
/-- VRCP (R198). -/
def execVrcp (c : Ctl) (t : Ty) (s : State) : Host.Outcome State Fault Refusal :=
  fireF1 (.vrcp c t) t s fun rm a => fdivC t rm (.fin false 1 0) a
/-- VEXP2 (R198). -/
def execVexp2 (c : Ctl) (t : Ty) (s : State) : Host.Outcome State Fault Refusal := fireF1 (.vexp2 c t) t s (exp2R t)
/-- VLOG2 (R198). -/
def execVlog2 (c : Ctl) (t : Ty) (s : State) : Host.Outcome State Fault Refusal := fireF1 (.vlog2 c t) t s (log2R t)
/-- VMINMAX. -/
def execVminmax (c : Ctl) (t : Ty) (op : FMinMax) (s : State) : Host.Outcome State Fault Refusal :=
  fireF2 (.vminmax c t op) t s fun _ => fminmaxC t op

/-! ## Sign operations and integer lanes (R199 to R202) -/

/-- A float lane with its sign replaced; a NaN gives the canonical quiet NaN (R199). -/
def signLane (t : Ty) (neg : Bool → Bool) (a : Nat) : Nat × Flags :=
  let x := flane t a
  if x.isNan then (canonNan t, snanFlag [x])
  else
    let h := 2 ^ (t.width - 1)
    (a % h + (if neg (a.testBit (t.width - 1)) then h else 0), 0)

/-- VABS (R199). -/
def execVabs (c : Ctl) (t : Ty) (s : State) : Host.Outcome State Fault Refusal :=
  firePure (.vabs c t) s fun _ x => map1 t.width x.lm x.a fun a =>
    if t.isInt then ((intVal t a).natAbs % 2 ^ t.width, 0) else signLane t (fun _ => false) a

/-- VNEG (R199). -/
def execVneg (c : Ctl) (t : Ty) (s : State) : Host.Outcome State Fault Refusal :=
  firePure (.vneg c t) s fun _ x => map1 t.width x.lm x.a fun a =>
    if t.isInt then (wrap t.width (-(intVal t a)), 0) else signLane t (fun b => !b) a

/-- Lane results of VIARITH (R200). -/
def viLane (t : Ty) (op : VIOp) (a b : Nat) : Nat × Flags :=
  let w := t.width
  let x := intVal t a
  let y := intVal t b
  match op with
  | .add => (wrap w (x + y), 0)
  | .sub => (wrap w (x - y), 0)
  | .mul => (wrap w (x * y), 0)
  | .mulhi => (wrap w (x * y / (2 ^ w : Nat)), 0)
  | .addsat => satInt t (x + y)
  | .subsat => satInt t (x - y)
  | .min => (if y < x then b else a, 0)
  | .max => (if x < y then b else a, 0)

/-- VIARITH (R200). -/
def execViarith (c : Ctl) (t : Ty) (op : VIOp) (imm : Option (BitVec 13)) (s : State) : Host.Outcome State Fault Refusal :=
  firePure (.viarith c t op imm) s fun _ x => map2 t.width x.lm x.a (bVec t.width imm x.b) (viLane t op)

/-- Lane results of VLOGIC (R201). -/
def logicLane (w : Nat) (op : VLogicOp) (a b : Nat) : Nat :=
  let x := BitVec.ofNat w a
  let y := BitVec.ofNat w b
  match op with
  | .and => (x &&& y).toNat
  | .or => (x ||| y).toNat
  | .xor => (x ^^^ y).toNat
  | .andn => (x &&& ~~~y).toNat
  | .not => (~~~x).toNat

/-- VLOGIC (R201). -/
def execVlogic (c : Ctl) (t : Ty) (op : VLogicOp) (imm : Option (BitVec 13)) (s : State) :
    Host.Outcome State Fault Refusal :=
  firePure (.vlogic c t op imm) s fun _ x =>
    if op = .not then map1 t.width x.lm x.a fun a => (logicLane t.width op a 0, 0)
    else map2 t.width x.lm x.a (bVec t.width imm x.b) fun a b => (logicLane t.width op a b, 0)

/-- VSHIFT (R202). -/
def execVshift (c : Ctl) (t : Ty) (op : ShiftOp) (imm : Option (BitVec 13)) (s : State) : Host.Outcome State Fault Refusal :=
  firePure (.vshift c t op imm) s fun _ x => map2 t.width x.lm x.a (bVec t.width imm x.b) fun a b =>
    (shiftNat op t.width a (b % t.width), 0)

/-! ## Compare, select and mask (R203 to R206) -/

/-- The relation of one lane (R203). -/
def cmpLane (t : Ty) (op : FcmpOp) (a b : Nat) : Bool × Flags :=
  if t.isInt then
    (match op with
     | .eq => a == b
     | .ne => a != b
     | .lt => decide (intVal t a < intVal t b)
     | .le => decide (intVal t a ≤ intVal t b)
     | .un => false, 0)
  else fcmpC op (flane t a) (flane t b)

/-- VCMP (R203). -/
def execVcmp (c : Ctl) (t : Ty) (op : FcmpOp) (imm : Option (BitVec 13)) (s : State) : Host.Outcome State Fault Refusal :=
  firePure (.vcmp c t op imm) s fun _ x =>
    let b := bVec t.width imm x.b
    let l := (List.range (laneCount t.width)).map fun j =>
      if laneOk t.width x.lm j then
        match laneOf t.width x.a j, laneOf t.width b j with
        | some p, some q => cmpLane t op p q
        | _, _ => (false, 0)
      else (false, 0)
    (.m (packMask t.width (l.map Prod.fst)), orAll (l.map Prod.snd))

/-- VSEL (R204). -/
def execVsel (c : Ctl) (t : Ty) (s : State) : Host.Outcome State Fault Refusal :=
  firePure (.vsel c t) s fun _ x =>
    ofLanes t.width ((List.range (laneCount t.width)).map fun j =>
      if laneOk t.width x.lm j then
        match laneOf t.width x.b j, laneOf t.width x.c j with
        | some p, some q => some (if laneOk t.width (tokMask x.a) j then p else q, 0)
        | _, _ => none
      else none)

/-- MASKOP (R205). -/
def maskResult (w : Nat) (op : MaskOp) (a b : Tok) : Tok :=
  let n := laneCount w
  let at_ (t : Tok) (j : Nat) : Bool := laneOk w (tokMask t) j
  let each (f : Nat → Bool) : Tok := .m (packMask w ((List.range n).map f))
  match op with
  | .mand => each fun j => at_ a j && at_ b j
  | .mor => each fun j => at_ a j || at_ b j
  | .mxor => each fun j => at_ a j != at_ b j
  | .mnot => each fun j => !at_ a j
  | .mpopc => .s (BitVec.ofNat 64 ((List.range n).filter (at_ a)).length)
  | .mfirst => .s (BitVec.ofNat 64 (((List.range n).find? (at_ a)).getD n))
  | .mfromi => each fun j => decide (j < (tokWord a).toNat)

def execMaskop (c : Ctl) (t : Ty) (op : MaskOp) (s : State) : Host.Outcome State Fault Refusal :=
  firePure (.maskop c t op) s fun _ x => (maskResult t.width op x.a x.b, 0)

/-- VIOTA (R206). -/
def execViota (c : Ctl) (t : Ty) (m : Bool) (s : State) : Host.Outcome State Fault Refusal :=
  firePure (.viota c t m) s fun _ x =>
    ofLanes t.width ((List.range (laneCount t.width)).map fun j =>
      if laneOk t.width x.lm j then
        some (if m then ((List.range j).filter fun k => laneOk t.width (tokMask x.a) k).length else j, 0)
      else none)

/-! ## Moving lanes (R207 to R209) -/

/-- VBCAST (R207). -/
def execVbcast (c : Ctl) (t : Ty) (s : State) : Host.Outcome State Fault Refusal :=
  firePure (.vbcast c t) s fun _ x =>
    ofLanes t.width ((List.range (laneCount t.width)).map fun j =>
      if laneOk t.width x.lm j then some ((tokWord x.a).toNat % 2 ^ t.width, 0) else none)

/-- VEXTR (R207): null when the lane is a lane null or masked. -/
def execVextr (c : Ctl) (t : Ty) (imm : Option (BitVec 13)) (s : State) : Host.Outcome State Fault Refusal :=
  firePure (.vextr c t imm) s fun _ x =>
    let j := (bWord imm x.b).toNat % laneCount t.width
    match if laneOk t.width x.lm j then laneOf t.width x.a j else none with
    | some v => (.s (laneWord t v), 0)
    | none => (.null, 0)

/-- VINS (R207): the other lanes keep A's value and validity. -/
def execVins (c : Ctl) (t : Ty) (imm : Option (BitVec 13)) (s : State) : Host.Outcome State Fault Refusal :=
  firePure (.vins c t imm) s fun _ x =>
    let w := t.width
    let n := laneCount w
    let j := (tokWord x.c).toNat % n
    let lane : Vec := BitVec.ofNat 2048 ((2 ^ w - 1) * 2 ^ (w * j))
    let v : Vec := BitVec.ofNat 2048 ((bWord imm x.b).toNat % 2 ^ w * 2 ^ (w * j))
    let ok := tokValid x.a ||| packMask w ((List.range n).map fun k => k == j)
    (.v ((tokVec x.a &&& ~~~lane) ||| v) (ok &&& packMask w ((List.range n).map fun k => laneOk w x.lm k)), 0)

/-- VPERM (R208). -/
def execVperm (c : Ctl) (t : Ty) (two : Bool) (imm : Option (BitVec 13)) (s : State) : Host.Outcome State Fault Refusal :=
  firePure (.vperm c t two imm) s fun _ x =>
    let w := t.width
    let n := laneCount w
    let idx := if two then x.c else bVec w imm x.b
    ofLanes w ((List.range n).map fun j =>
      if laneOk w x.lm j then
        match laneOf w idx j with
        | none => none
        | some k =>
          let r := if two then
              (let k := k % (2 * n); if k < n then laneOf w x.a k else laneOf w x.b (k - n))
            else laneOf w x.a (k % n)
          r.map fun v => (v, 0)
      else none)

/-- VSLIDE (R209). -/
def execVslide (c : Ctl) (t : Ty) (down : Bool) (imm : Option (BitVec 13)) (s : State) : Host.Outcome State Fault Refusal :=
  firePure (.vslide c t down imm) s fun _ x =>
    let w := t.width
    let n := laneCount w
    let k := (bWord imm x.b).toNat
    ofLanes w ((List.range n).map fun j =>
      if laneOk w x.lm j then
        (if down then (if j + k < n then laneOf w x.a (j + k) else none)
         else (if k ≤ j then laneOf w x.a (j - k) else none)).map fun v => (v, 0)
      else none)

/-! ## Reductions (R92, R93, R210, R211) -/

/-- The combining operation of a reduction. -/
def redOp (t : Ty) (rm : Rm) (op : RedOp) (a b : Nat) : Nat × Flags :=
  if t.isInt then
    match op with
    | .add => viLane t .add a b
    | .min => viLane t .min a b
    | .max => viLane t .max a b
    | .and => (logicLane t.width .and a b, 0)
    | .or => (logicLane t.width .or a b, 0)
    | .xor => (logicLane t.width .xor a b, 0)
  else
    match op with
    | .min => fminmaxC t .min (flane t a) (flane t b)
    | .max => fminmaxC t .max (flane t a) (flane t b)
    | _ => faddC t rm (flane t a) (flane t b)

/-- The identity of a reduction (R92). -/
def redId (t : Ty) (op : RedOp) : Nat :=
  if t.isInt then
    match op with
    | .add | .or | .xor => 0
    | .and => 2 ^ t.width - 1
    | .min => wrap t.width (intMax t)
    | .max => wrap t.width (intMin t)
  else
    match op with
    | .min => infCode t
    | .max => signed t true (infCode t)
    | _ => signed t true 0

/-- Lanes with the identity in place of nulls and masked lanes. -/
def redLanes (w : Nat) (lm : Mask) (a : Tok) (id : Nat) : List Nat :=
  (List.range (laneCount w)).map fun j => if laneOk w lm j then (laneOf w a j).getD id else id

/-- VRED (R210). -/
def execVred (c : Ctl) (t : Ty) (op : RedOp) (s : State) : Host.Outcome State Fault Refusal :=
  firePure (.vred c t op) s fun r x =>
    let (v, fl) := treeSum (redOp t (fsrRm r) op) (redLanes t.width x.lm x.a (redId t op))
    (.s (laneWord t v), fl)

/-- VSCAN (R210). -/
def execVscan (c : Ctl) (t : Ty) (op : RedOp) (s : State) : Host.Outcome State Fault Refusal :=
  firePure (.vscan c t op) s fun r x =>
    let f := redOp t (fsrRm r) op
    let (ls, fl) := treeLevels f 8 (redLanes t.width x.lm x.a (redId t op))
    let (v, fl') := ofLanes t.width ((List.range (laneCount t.width)).map fun j =>
      if laneOk t.width x.lm j && (laneOf t.width x.a j).isSome then some (prefixOf f ls j) else none)
    (v, fl ||| fl')

/-- VDOT (R211). -/
def execVdot (c : Ctl) (t : Ty) (s : State) : Host.Outcome State Fault Refusal :=
  firePure (.vdot c t) s fun r x =>
    let rm := fsrRm r
    let ps := (List.range (laneCount t.width)).map fun j =>
      if laneOk t.width x.lm j then
        match laneOf t.width x.a j, laneOf t.width x.b j with
        | some a, some b => fmulC t rm (flane t a) (flane t b)
        | _, _ => (redId t .add, 0)
      else (redId t .add, 0)
    let (v, fl) := treeSum (redOp t rm .add) (ps.map Prod.fst)
    (.s (laneWord t v), fl ||| orAll (ps.map Prod.snd))

end Sys2Proof.Machine
end

