-- ==== Sys2Proof/Machine/VectorCvt.lean ====
section
/-!
DEFINITION. Sys2Proof/Machine/VectorCvt.lean: width and format changes of vectors, majors 0x4A to 0x4E (R212 to R217).
-/
namespace Sys2Proof.Machine

/-- One lane of a conversion between lane types (R212). -/
def cvtLane (t d : Ty) (rm : Rm) (a : Nat) : Nat × Flags :=
  if t.isInt then (if d.isInt then satInt d (intVal t a) else roundF d false rm (FVal.ofInt (intVal t a)))
  else if d.isInt then roundInt d rm (decodeF t false a)
  else roundF d false rm (decodeF t false a)

/-- VCVT (R212). -/
def execVcvt (c : Ctl) (t : Ty) (ty : Ty) (s : State) : Host.Outcome State Fault Refusal :=
  firePure (.vcvt c t ty) s fun r x =>
    ofLanes ty.width ((List.range (laneCount ty.width)).map fun j =>
      if laneOk ty.width x.lm j && decide (j < laneCount t.width) then
        (laneOf t.width x.a j).map (cvtLane t ty (fsrRm r))
      else none)

/-- Integer type of the same signedness at another width. -/
def intTy (signed : Bool) (w : Nat) : Ty :=
  match w with
  | 8 => if signed then .i8 else .n8
  | 16 => if signed then .i16 else .n16
  | 32 => if signed then .i32 else .n32
  | _ => if signed then .i64 else .n64

/-- VPACK (R213). -/
def execVpack (c : Ctl) (t : Ty) (sat : Bool) (s : State) : Host.Outcome State Fault Refusal :=
  firePure (.vpack c t sat) s fun _ x =>
    let w := t.width
    let n := laneCount w
    let h := w / 2
    ofLanes h ((List.range (2 * n)).map fun j =>
      if laneOk h x.lm j then
        (if j < n then laneOf w x.a j else laneOf w x.b (j - n)).map fun v =>
          if sat then satInt (intTy t.isSigned h) (intVal t v) else (v % 2 ^ h, 0)
      else none)

/-- VUNPK (R213). -/
def execVunpk (c : Ctl) (t : Ty) (hi : Bool) (s : State) : Host.Outcome State Fault Refusal :=
  firePure (.vunpk c t hi) s fun _ x =>
    let w := t.width
    let n := laneCount w
    ofLanes (2 * w) ((List.range (n / 2)).map fun j =>
      if laneOk (2 * w) x.lm j then
        (laneOf w x.a (if hi then n / 2 + j else j)).map fun v => (wrap (2 * w) (intVal t v), 0)
      else none)

/-- The lanes of block b that are present, with their numbers. -/
def mxBlock (t : Ty) (lm : Mask) (a : Tok) (b : Nat) : List (Nat × FVal) :=
  ((List.range 32).map fun i => 32 * b + i).filterMap fun j =>
    if laneOk t.width lm j then (laneOf t.width a j).map fun v => (j, decodeF t false v) else none

/-- Scale of each block, with the flags of MXScale (R89, R215). -/
def mxScales (t : Ty) (f : MxFmt) (svr : Bool) (lm : Mask) (a : Tok) : List (Nat × Flags) :=
  (List.range (laneCount t.width / 32)).map fun b => mxScale f svr ((mxBlock t lm a b).map Prod.snd)

/-- VQMX (R215): the codes of a block whose scale is 0xFF are free values (R89, log 26). -/
def execVqmx (c : Ctl) (t : Ty) (fmt : MxFmt) (scl : Bool) (s : State) : Host.Outcome State Fault Refusal :=
  fireWith (.vqmx c t fmt scl) s fun s x =>
    let svr := fsrSvr s.core.r
    let n := laneCount t.width
    let scales := mxScales t fmt svr x.lm x.a
    let sfl := orAll (scales.map Prod.snd)
    if scl then
      let v : Vec := BitVec.ofNat 2048 (packNat 8 (scales.map Prod.fst))
      (s, .done (.v v (packMask 16 ((List.range 128).map fun g => decide (g < n / 64)))) sfl [])
    else
      let free := s.free
      let codes : List Lane := (List.range n).map fun j =>
        match if laneOk t.width x.lm j then laneOf t.width x.a j else none with
        | none => none
        | some v =>
          match (scales.getD (j / 32) (0, 0)).1 with
          | 0xFF => some ((Config.freeByte (free + j)).toNat % 2 ^ fmt.ty.width, 0)
          | sc => some (mxElem fmt svr sc (decodeF t false v))
      let img := codeImage fmt.ty.width (codes.map fun x => x.map Prod.fst)
      let fl := orAll (codes.map fun x => match x with | some (_, f) => f | none => 0)
      ({ s with free := free + n }, .done img (sfl ||| fl) [])

/-- VDQMX (R216). -/
def execVdqmx (c : Ctl) (t : Ty) (fmt : MxFmt) (s : State) : Host.Outcome State Fault Refusal :=
  firePure (.vdqmx c t fmt) s fun r x =>
    let svr := fsrSvr r
    ofLanes t.width ((List.range (laneCount t.width)).map fun j =>
      if laneOk t.width x.lm j then
        match codeAt fmt.ty.width x.a j, codeAt 8 x.b (j / 32) with
        | some v, some sc =>
          if sc = 0xFF then some (canonNan t, 0)
          else some (roundF t false (fsrRm r) ((decodeF fmt.ty svr v).scale ((sc : Int) - 127)))
        | _, _ => none
      else none)

/-- VQT (R217). -/
def execVqt (c : Ctl) (t : Ty) (op : VqtOp) (s : State) : Host.Outcome State Fault Refusal :=
  firePure (.vqt c t op) s fun r x =>
    let n := laneCount t.width
    let put (d : Ty) : Tok × Flags :=
      let codes : List Lane := (List.range n).map fun j =>
        (if laneOk t.width x.lm j then laneOf t.width x.a j else none).map fun v =>
          roundF d (fsrSvr r) (fsrRm r) (decodeF t false v)
      (codeImage d.width (codes.map fun x => x.map Prod.fst),
       orAll (codes.map fun x => match x with | some (_, f) => f | none => 0))
    let get (d : Ty) : Tok × Flags :=
      ofLanes t.width ((List.range n).map fun j =>
        if laneOk t.width x.lm j then
          (codeAt d.width x.a j).map fun v => ((roundF t false .rne (decodeF d false v)).1, 0)
        else none)
    match op with
    | .toT8 => put .t8
    | .toT6 => put .t6
    | .fromT8 => get .t8
    | .fromT6 => get .t6

end Sys2Proof.Machine
end

