-- ==== Sys2Proof/Machine/Waits.lean ====
section
/-!
DEFINITION. Sys2Proof/Machine/Waits.lean: an instruction that waits looks again (R57): ticket, counter, barrier and channel waits, the
busy tiles of R246 and R293, loads behind lower LSIDs (R52) or whose remote replies were outstanding (R109), and an ARM behind earlier ones
(R234); and the discard of a block in which nothing more can fire (R60).
-/
namespace Sys2Proof.Machine

/-- Fires the instruction that waits once more: it completes, faults or goes on waiting. -/
def retryWait (i : Instr) (s : State) : Host.Outcome State Fault Refusal :=
  match i with
  | .ctrwait c l sc k => execCtrwait c l sc k s
  | .barWait c l b => execBarWait c l b s
  | .barSync c l b => execBarSync c l b s
  | .chwait c p h => execChwait c p h s
  | .copyw c => execCopyw c s
  | .mwait c => execMwait c s
  | .collw c => execCollw c s
  | .arm c r k => execArm c r k s
  | .ld c t m d => execLd c t m d s
  | .vld c t m d => execVld c t m d s
  | .vlds c t m d => execVlds c t m d s
  | .vgath c t m d => execVgath c t m d s
  | .tld c t m td => execTld c t m td s
  | .tst c t m td => execTst c t m td s
  | .fence c k l sc => execFence c k l sc s
  | .vjoin c l => execVjoin c l s
  | .mlda c l sc acq td tile => execMlda c l sc acq td tile s
  | .msta c l sc td tile => execMsta c l sc td tile s
  | .sigid c x => execSigid c x s
  | .sigstep c x => execSigstep c x s
  | .sigjoin c x y z => execSigjoin c x y z s
  | .siglog c x y => execSiglog c x y s
  | .sigexp c x y => execSigexp c x y s
  | .siginv c x y => execSiginv c x y s
  | .sigscl c x => execSigscl c x s
  | .sigmovCv c x => execSigmovCv c x s
  | .sigmovVc c x => execSigmovVc c x s
  | .sigmovSs c x => execSigmovSs c x s
  | .sigmovSl c x => execSigmovSl c x s
  | _ => .next s

/-- WAIT_SATISFIED: the instruction at `idx` of the current core's frame, which waits, looks again. -/
def execWaitSatisfied (idx : BitVec 7) (s : State) : Host.Outcome State Fault Refusal :=
  match s.core.frame with
  | none => .next s
  | some fr =>
    if s.core.st != .running || !fr.waiting.getLsbD idx.toNat then .next s
    else
      match fr.instr idx.toNat with
      | none => .next s
      | some i => retryWait i (s.onFrame fun f => { f with cur := idx.toNat })

/-- The instruction that waits would wait no more. -/
def State.waitsNoMore (s : State) (fr : Frame) (idx : Nat) : Bool :=
  fr.waiting.getLsbD idx &&
    (match execWaitSatisfied (BitVec.ofNat 7 idx) s with
     | .next t => (match t.core.frame with | some f => !f.waiting.getLsbD idx | none => true)
     | _ => false)

/-- The first instruction that waits and would wait no more; a load that would go early comes after every other (R52, R60). -/
def State.satisfied (s : State) (fr : Frame) : Option Nat :=
  let early (idx : Nat) : Bool := match (fr.instr idx).bind lsidOf with | some l => fr.goesEarly idx l | none => false
  match (List.range fr.words.length).find? fun idx => !early idx && s.waitsNoMore fr idx with
  | some idx => some idx
  | none => (List.range fr.words.length).find? fun idx => early idx && s.waitsNoMore fr idx

/-- A load that waits for a reply is still under way (R60, R109). -/
def Frame.underWay (fr : Frame) : Bool := fr.remotes.any fun r => r.answer.isNone && fr.waiting.getLsbD r.idx

/-- BLOCK_DISCARD of the current core: nothing more of the faulted block can fire (R60, R61, R379). -/
def execBlockDiscard (s : State) : Host.Outcome State Fault Refusal :=
  match s.core.frame with
  | none => .next s
  | some fr =>
    match lowestFault fr.faults with
    | none => .next s
    | some f =>
      if s.core.st != .running || fr.issuing || fr.bound || (nextReady fr).isSome || (s.satisfied fr).isSome || fr.underWay
          || s.heldBySup s.core.id then .next s
      else if !(fr.watch.filter Watch.early).all (s.watchOk fr) then .next s.fireAgain
      else
        .next (s.stopCore s.core.id
          { cause := f.cause, resume := fr.start, addr := f.addr, acc := f.acc.toNat, lsid := f.lsid, fidx := f.idx,
            mask := faultMask fr.faults, mal := f.mal, rem := f.rem, wue := f.wue })

end Sys2Proof.Machine
end

