-- ==== Sys2Proof/Machine/Dispatch.lean ====
section
/-!
DEFINITION. Sys2Proof/Machine/Dispatch.lean: one arm for each constructor of Instr, each one call of its meaning.
-/
namespace Sys2Proof.Machine

def exec (i : Instr) (s : State) : Host.Outcome State Fault Refusal :=
  match i with
  | .read c cls reg => Sys2Proof.Machine.execRead c cls reg s
  | .write c cls reg => Sys2Proof.Machine.execWrite c cls reg s
  | .fan c => Sys2Proof.Machine.execFan c s
  | .null c => Sys2Proof.Machine.execNull c s
  | .nullIsn c => Sys2Proof.Machine.execNullIsn c s
  | .const c k imm => Sys2Proof.Machine.execConst c k imm s
  | .ptb c b => Sys2Proof.Machine.execPtb c b s
  | .widf c lvl k => Sys2Proof.Machine.execWidf c lvl k s
  | .sread c sel => Sys2Proof.Machine.execSread c sel s
  | .spawn c o => Sys2Proof.Machine.execSpawn c o s
  | .trap c code => Sys2Proof.Machine.execTrap c code s
  | .add c f sat imm => Sys2Proof.Machine.execAdd c f sat imm s
  | .sub c f sat imm => Sys2Proof.Machine.execSub c f sat imm s
  | .mul c f hi imm => Sys2Proof.Machine.execMul c f hi imm s
  | .div c f rem imm => Sys2Proof.Machine.execDiv c f rem imm s
  | .and c w imm => Sys2Proof.Machine.execAnd c w imm s
  | .or c w imm => Sys2Proof.Machine.execOr c w imm s
  | .xor c w imm => Sys2Proof.Machine.execXor c w imm s
  | .andn c w imm => Sys2Proof.Machine.execAndn c w imm s
  | .shift c w op imm => Sys2Proof.Machine.execShift c w op imm s
  | .bitf c w op imm => Sys2Proof.Machine.execBitf c w op imm s
  | .minmax c f max imm => Sys2Proof.Machine.execMinmax c f max imm s
  | .icmp c f op imm => Sys2Proof.Machine.execIcmp c f op imm s
  | .sel c imm => Sys2Proof.Machine.execSel c imm s
  | .addr c sh off => Sys2Proof.Machine.execAddr c sh off s
  | .addi c w imm => Sys2Proof.Machine.execAddi c w imm s
  | .ext c f sz => Sys2Proof.Machine.execExt c f sz s
  | .fadd c t => Sys2Proof.Machine.execFadd c t s
  | .fsub c t => Sys2Proof.Machine.execFsub c t s
  | .fmul c t => Sys2Proof.Machine.execFmul c t s
  | .ffma c t k => Sys2Proof.Machine.execFfma c t k s
  | .fdiv c t => Sys2Proof.Machine.execFdiv c t s
  | .fsqrt c t => Sys2Proof.Machine.execFsqrt c t s
  | .fminmax c t op => Sys2Proof.Machine.execFminmax c t op s
  | .fcmp c t op => Sys2Proof.Machine.execFcmp c t op s
  | .fcvt c t fromInt ty => Sys2Proof.Machine.execFcvt c t fromInt ty s
  | .fclass c t => Sys2Proof.Machine.execFclass c t s
  | .frint c t mode => Sys2Proof.Machine.execFrint c t mode s
  | .vadd c t => Sys2Proof.Machine.execVadd c t s
  | .vsub c t => Sys2Proof.Machine.execVsub c t s
  | .vmul c t => Sys2Proof.Machine.execVmul c t s
  | .vfma c t k => Sys2Proof.Machine.execVfma c t k s
  | .vdiv c t => Sys2Proof.Machine.execVdiv c t s
  | .vsqrt c t => Sys2Proof.Machine.execVsqrt c t s
  | .vrsq c t => Sys2Proof.Machine.execVrsq c t s
  | .vrcp c t => Sys2Proof.Machine.execVrcp c t s
  | .vexp2 c t => Sys2Proof.Machine.execVexp2 c t s
  | .vlog2 c t => Sys2Proof.Machine.execVlog2 c t s
  | .vminmax c t op => Sys2Proof.Machine.execVminmax c t op s
  | .vabs c t => Sys2Proof.Machine.execVabs c t s
  | .vneg c t => Sys2Proof.Machine.execVneg c t s
  | .viarith c t op imm => Sys2Proof.Machine.execViarith c t op imm s
  | .vlogic c t op imm => Sys2Proof.Machine.execVlogic c t op imm s
  | .vshift c t op imm => Sys2Proof.Machine.execVshift c t op imm s
  | .vcmp c t op imm => Sys2Proof.Machine.execVcmp c t op imm s
  | .vsel c t => Sys2Proof.Machine.execVsel c t s
  | .maskop c t op => Sys2Proof.Machine.execMaskop c t op s
  | .viota c t m => Sys2Proof.Machine.execViota c t m s
  | .vbcast c t => Sys2Proof.Machine.execVbcast c t s
  | .vextr c t imm => Sys2Proof.Machine.execVextr c t imm s
  | .vins c t imm => Sys2Proof.Machine.execVins c t imm s
  | .vperm c t two imm => Sys2Proof.Machine.execVperm c t two imm s
  | .vslide c t down imm => Sys2Proof.Machine.execVslide c t down imm s
  | .vred c t op => Sys2Proof.Machine.execVred c t op s
  | .vscan c t op => Sys2Proof.Machine.execVscan c t op s
  | .vdot c t => Sys2Proof.Machine.execVdot c t s
  | .vcvt c t ty => Sys2Proof.Machine.execVcvt c t ty s
  | .vqmx c t fmt scl => Sys2Proof.Machine.execVqmx c t fmt scl s
  | .vdqmx c t fmt => Sys2Proof.Machine.execVdqmx c t fmt s
  | .vqt c t op => Sys2Proof.Machine.execVqt c t op s
  | .vpack c t sat => Sys2Proof.Machine.execVpack c t sat s
  | .vunpk c t hi => Sys2Proof.Machine.execVunpk c t hi s
  | .ld c t m disp => Sys2Proof.Machine.execLd c t m disp s
  | .st c t m disp => Sys2Proof.Machine.execSt c t m disp s
  | .vld c t m disp => Sys2Proof.Machine.execVld c t m disp s
  | .vst c t m disp => Sys2Proof.Machine.execVst c t m disp s
  | .vlds c t m disp => Sys2Proof.Machine.execVlds c t m disp s
  | .vsts c t m disp => Sys2Proof.Machine.execVsts c t m disp s
  | .vgath c t m disp => Sys2Proof.Machine.execVgath c t m disp s
  | .vscat c t m disp => Sys2Proof.Machine.execVscat c t m disp s
  | .tld c t m td => Sys2Proof.Machine.execTld c t m td s
  | .tst c t m td => Sys2Proof.Machine.execTst c t m td s
  | .pref c l2 m disp => Sys2Proof.Machine.execPref c l2 m disp s
  | .vjoin c lsid => Sys2Proof.Machine.execVjoin c lsid s
  | .amo c op sc w64 m disp => Sys2Proof.Machine.execAmo c op sc w64 m disp s
  | .cas c sc w64 m disp => Sys2Proof.Machine.execCas c sc w64 m disp s
  | .fence c k lsid sc => Sys2Proof.Machine.execFence c k lsid sc s
  | .barInit c lsid b => Sys2Proof.Machine.execBarInit c lsid b s
  | .barArrive c lsid b => Sys2Proof.Machine.execBarArrive c lsid b s
  | .barWait c lsid b => Sys2Proof.Machine.execBarWait c lsid b s
  | .barSync c lsid b => Sys2Proof.Machine.execBarSync c lsid b s
  | .bkop c op t m disp => Sys2Proof.Machine.execBkop c op t m disp s
  | .ctrInc c lsid rel k => Sys2Proof.Machine.execCtrInc c lsid rel k s
  | .ctrAdd c lsid rel gang k => Sys2Proof.Machine.execCtrAdd c lsid rel gang k s
  | .ctrSet c lsid rel k => Sys2Proof.Machine.execCtrSet c lsid rel k s
  | .ctrReset c lsid rel k => Sys2Proof.Machine.execCtrReset c lsid rel k s
  | .ctrResetKeep c lsid rel k => Sys2Proof.Machine.execCtrResetKeep c lsid rel k s
  | .ctrRead c lsid k => Sys2Proof.Machine.execCtrRead c lsid k s
  | .ctrwait c lsid sc k => Sys2Proof.Machine.execCtrwait c lsid sc k s
  | .arm c rel k => Sys2Proof.Machine.execArm c rel k s
  | .chbindOwn c h => Sys2Proof.Machine.execChbindOwn c h s
  | .chbindProd c h => Sys2Proof.Machine.execChbindProd c h s
  | .chbindCons c h => Sys2Proof.Machine.execChbindCons c h s
  | .chwait c prod h => Sys2Proof.Machine.execChwait c prod h s
  | .chadv c prod h => Sys2Proof.Machine.execChadv c prod h s
  | .copy c tda tdb o => Sys2Proof.Machine.execCopy c tda tdb o s
  | .copyCh c tda tdb h o => Sys2Proof.Machine.execCopyCh c tda tdb h o s
  | .copyw c => Sys2Proof.Machine.execCopyw c s
  | .copywTest c => Sys2Proof.Machine.execCopywTest c s
  | .tdset c td n => Sys2Proof.Machine.execTdset c td n s
  | .tdget c td n => Sys2Proof.Machine.execTdget c td n s
  | .mzero c tile o => Sys2Proof.Machine.execMzero c tile o s
  | .mma c tb tda tdb tile o => Sys2Proof.Machine.execMma c tb tda tdb tile o s
  | .mmag c tb tda tdb tile o => Sys2Proof.Machine.execMmag c tb tda tdb tile o s
  | .gmma c tda tdb tdc tile o => Sys2Proof.Machine.execGmma c tda tdb tdc tile o s
  | .mlda c lsid sc acq td tile => Sys2Proof.Machine.execMlda c lsid sc acq td tile s
  | .msta c lsid sc td tile => Sys2Proof.Machine.execMsta c lsid sc td tile s
  | .mwait c => Sys2Proof.Machine.execMwait c s
  | .mwaitTest c => Sys2Proof.Machine.execMwaitTest c s
  | .rgrp c tda tdb tdc o => Sys2Proof.Machine.execRgrp c tda tdb tdc o s
  | .rtopk c tda tdb tdc o => Sys2Proof.Machine.execRtopk c tda tdb tdc o s
  | .rbin c tda tdb tdc o => Sys2Proof.Machine.execRbin c tda tdb tdc o s
  | .bpermRequest c tda tdb tdc o => Sys2Proof.Machine.execBpermRequest c tda tdb tdc o s
  | .bpermOpen c tda tdb tdc o => Sys2Proof.Machine.execBpermOpen c tda tdb tdc o s
  | .dspat c tda tdb tdc o => Sys2Proof.Machine.execDspat c tda tdb tdc o s
  | .cmbn c tda tdb tdc o => Sys2Proof.Machine.execCmbn c tda tdb tdc o s
  | .brel c tdc o => Sys2Proof.Machine.execBrel c tdc o s
  | .expld c tda tdb tdc o => Sys2Proof.Machine.execExpld c tda tdb tdc o s
  | .collAr c tda tdb tdc o => Sys2Proof.Machine.execCollAr c tda tdb tdc o s
  | .collRs c tda tdb tdc o => Sys2Proof.Machine.execCollRs c tda tdb tdc o s
  | .collAg c tda tdb tdc o => Sys2Proof.Machine.execCollAg c tda tdb tdc o s
  | .collA2a c tda tdb tdc o => Sys2Proof.Machine.execCollA2a c tda tdb tdc o s
  | .collBc c tda tdb tdc o => Sys2Proof.Machine.execCollBc c tda tdb tdc o s
  | .collOp c tda tdb tdc o => Sys2Proof.Machine.execCollOp c tda tdb tdc o s
  | .collw c => Sys2Proof.Machine.execCollw c s
  | .collwTest c => Sys2Proof.Machine.execCollwTest c s
  | .sigcfg c slot => Sys2Proof.Machine.execSigcfg c slot s
  | .sigid c slot => Sys2Proof.Machine.execSigid c slot s
  | .sigstep c slot => Sys2Proof.Machine.execSigstep c slot s
  | .sigstrm c tda slot o => Sys2Proof.Machine.execSigstrm c tda slot o s
  | .sigjoin c x y z => Sys2Proof.Machine.execSigjoin c x y z s
  | .siglog c x y => Sys2Proof.Machine.execSiglog c x y s
  | .sigexp c x y => Sys2Proof.Machine.execSigexp c x y s
  | .siginv c x y => Sys2Proof.Machine.execSiginv c x y s
  | .sigscl c slot => Sys2Proof.Machine.execSigscl c slot s
  | .sigmovCv c slot => Sys2Proof.Machine.execSigmovCv c slot s
  | .sigmovVc c slot => Sys2Proof.Machine.execSigmovVc c slot s
  | .sigmovSs c slot => Sys2Proof.Machine.execSigmovSs c slot s
  | .sigmovSl c slot => Sys2Proof.Machine.execSigmovSl c slot s
  | .psrRead c n => Sys2Proof.Machine.execPsrRead c n s
  | .psrWrite c n => Sys2Proof.Machine.execPsrWrite c n s
  | .spctlWrite c => Sys2Proof.Machine.execSpctlWrite c s
  | .spholdWrite c => Sys2Proof.Machine.execSpholdWrite c s
  | .spptWrite c => Sys2Proof.Machine.execSpptWrite c s
  | .qwdWrite c => Sys2Proof.Machine.execQwdWrite c s
  | .contextAreaWrite c len => Sys2Proof.Machine.execContextAreaWrite c len s
  | .dbgctlWrite c => Sys2Proof.Machine.execDbgctlWrite c s
  | .tresume c => Sys2Proof.Machine.execTresume c s
  | .tresumeSame c => Sys2Proof.Machine.execTresumeSame c s
  | .tlbinvAll c => Sys2Proof.Machine.execTlbinvAll c s
  | .tlbinvPage c => Sys2Proof.Machine.execTlbinvPage c s
  | .tlbinvSpace c => Sys2Proof.Machine.execTlbinvSpace c s
  | .ctxopSave c => Sys2Proof.Machine.execCtxopSave c s
  | .ctxopRestore c => Sys2Proof.Machine.execCtxopRestore c s
  | .ctxopKill c => Sys2Proof.Machine.execCtxopKill c s
  | .glaunch c o => Sys2Proof.Machine.execGlaunch c o s
  | .budgetSet c => Sys2Proof.Machine.execBudgetSet c s
  | .budgetAdd c => Sys2Proof.Machine.execBudgetAdd c s
  | .halt c => Sys2Proof.Machine.execHalt c s
  | .dbgStep c => Sys2Proof.Machine.execDbgStep c s
  | .dbgBrk c => Sys2Proof.Machine.execDbgBrk c s
  | .dbgClrbrk c => Sys2Proof.Machine.execDbgClrbrk c s
  | .cacheL1inv c => Sys2Proof.Machine.execCacheL1inv c s
  | .cacheIcinv c => Sys2Proof.Machine.execCacheIcinv c s
  | .cacheL2wb c => Sys2Proof.Machine.execCacheL2wb c s
  | .blockFetch predicted => Sys2Proof.Machine.execBlockFetch predicted s
  | .exitTreeDecide => Sys2Proof.Machine.execExitTreeDecide s
  | .bindingPoint => Sys2Proof.Machine.execBindingPoint s
  | .blockCommit => Sys2Proof.Machine.execBlockCommit s
  | .blockSquash => Sys2Proof.Machine.execBlockSquash s
  | .blockDiscard => Sys2Proof.Machine.execBlockDiscard s
  | .trapRecordWrite die => Sys2Proof.Machine.execTrapRecordWrite die s
  | .waitSatisfied idx => Sys2Proof.Machine.execWaitSatisfied idx s
  | .taskRetire => Sys2Proof.Machine.execTaskRetire s
  | .l1LineExpiry line => Sys2Proof.Machine.execL1LineExpiry line s
  | .armedCommandFire => Sys2Proof.Machine.execArmedCommandFire s
  | .matrixCommandStart t => Sys2Proof.Machine.execMatrixCommandStart t s
  | .matrixCommandComplete t => Sys2Proof.Machine.execMatrixCommandComplete t s
  | .sigstrmComplete t => Sys2Proof.Machine.execSigstrmComplete t s
  | .copySlotTake t => Sys2Proof.Machine.execCopySlotTake t s
  | .copyChunkWrite t => Sys2Proof.Machine.execCopyChunkWrite t s
  | .copyComplete t => Sys2Proof.Machine.execCopyComplete t s
  | .routingCommandComplete t => Sys2Proof.Machine.execRoutingCommandComplete t s
  | .dspatComplete t => Sys2Proof.Machine.execDspatComplete t s
  | .cmbnComplete t => Sys2Proof.Machine.execCmbnComplete t s
  | .collComplete t => Sys2Proof.Machine.execCollComplete t s
  | .childLaunchEntry t => Sys2Proof.Machine.execChildLaunchEntry t s
  | .haltWake => Sys2Proof.Machine.execHaltWake s
  | .scWindowEnd => Sys2Proof.Machine.execScWindowEnd s
  | .leaveGrant die => Sys2Proof.Machine.execLeaveGrant die s
  | .templateFill space entry => Sys2Proof.Machine.execTemplateFill space entry s
  | .candidateAgeing => Sys2Proof.Machine.execCandidateAgeing s
  | .candidateStarve => Sys2Proof.Machine.execCandidateStarve s
  | .memoryRequest p => Sys2Proof.Machine.execMemoryRequest p s
  | .reply p => Sys2Proof.Machine.execReply p s
  | .refusal p => Sys2Proof.Machine.execRefusal p s
  | .hostLaunch p => Sys2Proof.Machine.execHostLaunch p s
  | .doorbell p => Sys2Proof.Machine.execDoorbell p s
  | .dispatchRow p => Sys2Proof.Machine.execDispatchRow p s
  | .returnRow p => Sys2Proof.Machine.execReturnRow p s
  | .collectiveChunk p => Sys2Proof.Machine.execCollectiveChunk p s
  | .poolRequest p => Sys2Proof.Machine.execPoolRequest p s
  | .poolGrant p => Sys2Proof.Machine.execPoolGrant p s
  | .closingMarker p => Sys2Proof.Machine.execClosingMarker p s
  | .domainBarrierArrival p => Sys2Proof.Machine.execDomainBarrierArrival p s
  | .absenceTokenArrival p => Sys2Proof.Machine.execAbsenceTokenArrival p s
  | .packetResend dst tag => Sys2Proof.Machine.execPacketResend dst tag s
  | .linkDown port => Sys2Proof.Machine.execLinkDown port s
  | .linkReplay port => Sys2Proof.Machine.execLinkReplay port s
  | .createQueue part queue space => Sys2Proof.Machine.execCreateQueue part queue space s
  | .destroyQueue part queue => Sys2Proof.Machine.execDestroyQueue part queue s
  | .resumeSpace part space => Sys2Proof.Machine.execResumeSpace part space s
  | .setPartitionParameter part which value => Sys2Proof.Machine.execSetPartitionParameter part which value s
  | .setPartitions part endp => Sys2Proof.Machine.execSetPartitions part endp s
  | .writeIngressEntry part ph4 ph5 ew => Sys2Proof.Machine.execWriteIngressEntry part ph4 ph5 ew s
  | .writeDoorbellEntry part ph4 ph5 ew => Sys2Proof.Machine.execWriteDoorbellEntry part ph4 ph5 ew s
  | .configureDomainBarrier part bar home dbto members => Sys2Proof.Machine.execConfigureDomainBarrier part bar home dbto members s
  | .migratePage part space va frame => Sys2Proof.Machine.execMigratePage part space va frame s
  | .requestPreemption gang => Sys2Proof.Machine.execRequestPreemption gang s
  | .readBlackBox die => Sys2Proof.Machine.execReadBlackBox die s
  | .freeze => Sys2Proof.Machine.execFreeze s
  | .ringCommandSubmit die cmd => Sys2Proof.Machine.execRingCommandSubmit die cmd s
  | .hcFrame watts => Sys2Proof.Machine.execHcFrame watts s
  | .watchdogPreempt gang => Sys2Proof.Machine.execWatchdogPreempt gang s
  | .watchdogKill gang => Sys2Proof.Machine.execWatchdogKill gang s
  | .watchdogFence gang => Sys2Proof.Machine.execWatchdogFence gang s
  | .migrationDone part space va => Sys2Proof.Machine.execMigrationDone part space va s
  | .pquietExpiry gang => Sys2Proof.Machine.execPquietExpiry gang s
  | .gangSwitchOut gang => Sys2Proof.Machine.execGangSwitchOut gang s
  | .dbtoExpiry bar => Sys2Proof.Machine.execDbtoExpiry bar s
  | .gangMigration gang cores => Sys2Proof.Machine.execGangMigration gang cores s
  | .forwardEntryExpiry core => Sys2Proof.Machine.execForwardEntryExpiry core s
  | .scrubVisit granule => Sys2Proof.Machine.execScrubVisit granule s
  | .coldReset image root fails => Sys2Proof.Machine.execColdReset image root fails s
  | .warmReset part image root => Sys2Proof.Machine.execWarmReset part image root s

end Sys2Proof.Machine
end

