-- ==== Sys2Proof/Machine/Policy.lean ====
section
/-!
DEFINITION. Sys2Proof/Machine/Policy.lean: which happening the next step is (log 3). The agenda, plain data of the state, says it; where it
is empty, the current core goes on: a ready instruction fires, else the first event of a fixed list that changes anything takes place,
else the next core becomes the current one, as it does at each block boundary. A step of the current core takes a cycle; what the agenda says takes
place in the same cycle, but for its ticks, each of which ends the cycle (log 4).
-/
namespace Sys2Proof.Machine

/-- What the next step does. -/
inductive Choice where
  /-- the instruction of the frame or the event, in the given state -/
  | run (i : Instr) (s : State)
  | idle (s : State)
  | stop (f : Fault)

/-- An event changes the state. -/
def State.moves (s : State) (i : Instr) : Bool :=
  match exec i s with
  | .next t => decide (t ≠ s)
  | _ => false

/-- The event in which a packet that has come arrives (R406). -/
def arrivalOf (p : Packet) : Instr :=
  match p.body with
  | .memReq _ _ _ _ => .memoryRequest p
  | .reply _ _ _ _ => .reply p
  | .refusal _ _ => .refusal p
  | .launch _ _ => .hostLaunch p
  | .doorbell _ _ => .doorbell p
  | .row _ _ _ _ _ _ _ _ _ _ _ _ => .dispatchRow p
  | .ret _ _ _ _ _ _ _ => .returnRow p
  | .retMarker _ _ _ _ | .marker _ _ _ _ _ => .closingMarker p
  | .chunk _ _ _ _ _ _ _ _ _ _ => .collectiveChunk p
  | .poolReq _ _ _ _ _ => .poolRequest p
  | .poolGrant _ _ _ _ _ => .poolGrant p
  | .arrival _ _ | .phase _ _ _ | .retired _ _ _ | .expired _ _ => .domainBarrierArrival p
  | .absence _ _ _ => .absenceTokenArrival p
  | .host _ => .haltWake

/-- Events that a command of the current core may be ready for. -/
def ticketEvents (t : Ticket) : List Instr :=
  [.copySlotTake t, .copyChunkWrite t, .copyComplete t, .matrixCommandStart t, .matrixCommandComplete t, .sigstrmComplete t,
   .routingCommandComplete t, .dspatComplete t, .cmbnComplete t, .collComplete t, .childLaunchEntry t]

/-- Events of the current core, in the order in which they are looked for. -/
def State.coreEvents (s : State) : List Instr :=
  [.exitTreeDecide, .blockDiscard, .bindingPoint, .blockCommit, .taskRetire, .haltWake, .armedCommandFire, .blockFetch none]
  ++ (s.core.e.cmds.flatMap fun m => ticketEvents m.tk)
  ++ (s.core.l1.filter fun l => decide (l.fill + Config.l1Life ≤ s.cycle)).map fun l => .l1LineExpiry l.line

/-- Events of the package, in the order in which they are looked for. -/
def State.packageEvents (s : State) : List Instr :=
  (s.gangs.flatMap fun g =>
    (match g.due with | 1 => [.watchdogPreempt g.id] | 2 => [.watchdogKill g.id] | 3 => [.watchdogFence g.id] | _ => [])
    ++ (if g.request.isSome then
          [if g.target.isEmpty then .gangSwitchOut g.id else .gangMigration g.id g.target, .pquietExpiry g.id]
        else []))
  ++ [.scWindowEnd, .leaveGrant 0, .leaveGrant 1, .leaveGrant 2, .leaveGrant 3, .trapRecordWrite 0, .trapRecordWrite 1,
      .trapRecordWrite 2, .trapRecordWrite 3]
  ++ (s.childq.map fun c => .childLaunchEntry c.tk)
  ++ (s.port.net.map arrivalOf) ++ (s.port.early.map arrivalOf)
  ++ (s.allCands.map fun c => .templateFill c.space c.desc.l3)
  ++ [.candidateAgeing, .candidateStarve]
  ++ (s.migs.map fun m => .migrationDone (BitVec.ofNat 2 m.part) m.space m.va)
  ++ (s.dbars.map fun b => .dbtoExpiry b.bar)
  ++ (s.forwards.map fun f => .forwardEntryExpiry f.core)
  ++ (s.port.unacked.map fun o => .packetResend o.dst o.tag)
  ++ (s.port.replays.filterMap fun x => if 16 ≤ x.2 then some (.linkDown (BitVec.ofNat 4 x.1)) else none)

/-- Cores that may have something to do. -/
def Core.active (c : Core) : Bool :=
  match c.st with
  | .running | .stopped | .quiet | .ended | .halted => true
  | .fenced => c.killed
  | _ => false

/-- The active core after the current one in increasing order, back to the lowest after the highest. -/
def State.nextCore (s : State) : Nat :=
  let l := s.parked.filter Core.active
  match l.find? fun c => decide (s.core.id < c.id) with
  | some c => c.id
  | none => match l with | c :: _ => c.id | [] => s.core.id

/-- The next core's turn. -/
def State.giveWay (s : State) : State := { s.switchTo s.nextCore with turn := false }

/-- Takes the first event that changes anything, or gives way to the next core. -/
def State.firstEvent (s : State) (l : List Instr) : Choice :=
  match l.find? s.moves with
  | some i => .run i { s with turn := true }
  | none => .idle s.giveWay

/-- What goes on when no instruction is ready: a frame of the harbour controller that is due, a satisfied wait, an event. -/
def State.goOn (s : State) : Choice :=
  if decide (s.frames ≤ s.cycle) && s.bootFail.isNone then
    let (w, s) := s.drawWord
    .run (.hcFrame w.toNat) s
  else
    match s.core.frame with
    | none => s.firstEvent (if s.turn then s.packageEvents else s.coreEvents ++ s.packageEvents)
    | some fr =>
      match s.satisfied fr with
      | some idx => .run (.waitSatisfied (BitVec.ofNat 7 idx)) s
      | none =>
        if fr.words.any fun w => match decode w with | .ok _ => false | .error _ => true then .stop .undecoded
        else s.firstEvent (s.coreEvents ++ s.packageEvents)

/-- The instruction of the current core that is ready to fire. -/
def State.ready (s : State) : Option (Nat × Instr) :=
  match s.core.frame with
  | none => none
  | some fr => if s.core.st = .running then nextReady fr else none

/-- The k-th speculative block of the current core fires an instruction, over what its predecessors, which have all fired, will leave. Nothing
of it is seen until the block is fetched in its turn: a fault, or what it would wait for, is found then (R59). -/
def State.fireAhead (s : State) (k : Nat) : State :=
  match s.core.frame, s.core.spec[k]?, (s.core.spec.take k).mapM Prod.snd with
  | some f0, some (w, some fr), some between =>
    match aheadOf (f0 :: between) true s.core.r with
    | none => s
    | some (r, prior, loads) =>
      match (readyList fr).find? fun x => firesAhead loads x.2 with
      | none => s
      | some (idx, i) =>
        match exec i { s with core := { s.core with r := r, units := 0, frame := some { fr with cur := idx, prior := prior } } } with
        | .next t =>
          match t.core.frame with
          | some f =>
            if s.core.st = .running ∧ f.fired.getLsbD idx ∧ f.faults.isEmpty ∧ t.port = s.port then
              { s with tlb := t.tlb, free := t.free, dies := t.dies,
                       core := { s.core with l1 := t.core.l1, view := t.core.view,
                                             spec := s.core.spec.set k (w, some { f with prior := [], units := f.units ||| t.core.units }) } }
            else s
          | none => s
        | _ => s
  | _, _, _ => s

/-- The cycle ends, with its placement pass and its leave, and n cycles pass (R362, R422, log 4). -/
def State.endCycle (s : State) (n : Nat) : State := { s.closeCycle with cycle := s.cycle + n }

/-- What the next step is. -/
def pick (s : State) : Choice :=
  let now : State := s.endCycle 1
  if s.frozen then
    match s.agenda with
    | .event (.coldReset image root fails) :: rest => .run (.coldReset image root fails) { s with agenda := rest }
    | _ => .stop .frozen
  else
    match s.agenda with
    | [] =>
      match s.ready with
      | some (idx, i) => .run i (now.onFrame fun fr => { fr with cur := idx })
      | none => now.goOn
    | a :: rest =>
      let s : State := { s with agenda := rest }
      match a with
      | .core id => .idle (s.switchTo id)
      | .event i => if (ctlOf i).isNone then .run i s else .idle s
      | .tick n => .idle (s.endCycle n)
      | .perform n => .idle (s.performOne n)
      | .ahead k => .idle (s.fireAhead k)
      | .host p => .idle (s.hostArrive p)

end Sys2Proof.Machine
end

