-- ==== Sys2Proof/Machine/Step.lean ====
section
/-!
DEFINITION. Sys2Proof/Machine/Step.lean: one step of the package, and the state in which the next step fires a given word.
-/
namespace Sys2Proof.Machine

/-- One step: the policy says what happens next, and that instruction or event has its meaning. -/
def step (s : State) : Host.Outcome State Fault Refusal :=
  match pick s with
  | .run i s' => exec i s'
  | .idle s' => .next s'
  | .stop f => .fault f

/-- A token of each slot of instruction 0, so that any word may fire: data tokens of the kind it needs, P selecting it. -/
def typedSlots (i : Instr) : List (Nat × Tok) :=
  let tok (n : Need) (p : Tok) : Tok :=
    match n with
    | .k .v => .v 0 (BitVec.allOnes 128)
    | .k .m => .m (BitVec.allOnes 128)
    | _ => p
  let p : Tok := match ctlOf i with
    | some c => (match c.pm with | .ifFalse => .s 0 | _ => .s 1)
    | none => .s 1
  [(0, tok (needOf i .a) (.s 0)), (1, tok (needOf i .b) (.s 0)), (2, tok (needOf i .c) (.s 0)), (3, tok (needOf i .p) p)]

def Frame.withSlots (fr : Frame) (l : List (Nat × Tok)) : Frame := { fr with slots := l }

/-- `s` with the word standing alone in the current core's frame, its slots filled (log 8). -/
def State.withFetchWord (s : State) (_nbits w : Nat) : State :=
  let word := BitVec.ofNat 64 w
  let slots := match decode word with | .ok i => typedSlots i | .error _ => []
  { s with
    agenda := []
    core := { s.core with
      st := .running
      frame := some (Frame.fresh s.core.pc 0 0 0 0 [word] |>.withSlots slots) } }

end Sys2Proof.Machine
end

