-- ==== Sys2Proof/Laws/Cells.lean ====
section
/-!
SUPPORT. Sys2Proof/Laws/Cells.lean: the laws of sparse storage: what a read gives after a write, and that every operation on memory
keeps the canonical form (log 1).
-/
namespace Sys2Proof.Machine

/-! ## The canonical form -/

theorem cellsFrom_mono {w : Nat} {lo lo' : Nat} (h : lo' ≤ lo) : {l : Cells w} → cellsFrom lo l = true → cellsFrom lo' l = true
  | [], _ => rfl
  | (k, x) :: l, hl => by
    simp only [cellsFrom, Bool.and_eq_true, decide_eq_true_eq] at hl ⊢
    exact ⟨⟨Nat.le_trans h hl.1.1, hl.1.2⟩, hl.2⟩

theorem cget_below {w : Nat} {k : Nat} : {lo : Nat} → {l : Cells w} → cellsFrom lo l = true → k < lo → cget l k = 0
  | _, [], _, _ => rfl
  | lo, (k', x) :: l, hl, hk => by
    simp only [cellsFrom, Bool.and_eq_true, decide_eq_true_eq] at hl
    rw [cget, if_neg (by omega)]
    exact cget_below hl.2 (by omega)

theorem cellsFrom_cput {w : Nat} (k : Nat) (v : BitVec w) : {lo : Nat} → {l : Cells w} → lo ≤ k → cellsFrom lo l = true →
    cellsFrom lo (cput l k v) = true
  | lo, [], hk, _ => by
    rw [cput]; split
    · rfl
    · simp_all [cellsFrom]
  | lo, (k', x) :: l, hk, hl => by
    simp only [cellsFrom, Bool.and_eq_true, decide_eq_true_eq] at hl
    rw [cput]
    split
    · split
      · simp_all [cellsFrom]
      · simp only [cellsFrom, Bool.and_eq_true, decide_eq_true_eq]
        exact ⟨⟨hk, by simpa using ‹¬v = 0›⟩, ⟨⟨by omega, hl.1.2⟩, hl.2⟩⟩
    · split
      · subst k'
        split
        · exact cellsFrom_mono (by omega) hl.2
        · simp only [cellsFrom, Bool.and_eq_true, decide_eq_true_eq]
          exact ⟨⟨hk, by simpa using ‹¬v = 0›⟩, hl.2⟩
      · simp only [cellsFrom, Bool.and_eq_true, decide_eq_true_eq]
        exact ⟨hl.1, cellsFrom_cput k v (by omega) hl.2⟩

theorem cellsFrom_filter {w : Nat} (p : Nat × BitVec w → Bool) : {lo : Nat} → {l : Cells w} → cellsFrom lo l = true →
    cellsFrom lo (l.filter p) = true
  | _, [], _ => rfl
  | lo, (k, x) :: l, hl => by
    simp only [cellsFrom, Bool.and_eq_true, decide_eq_true_eq] at hl
    rw [List.filter_cons]
    split
    · simp only [cellsFrom, Bool.and_eq_true, decide_eq_true_eq]
      exact ⟨hl.1, cellsFrom_filter p hl.2⟩
    · exact cellsFrom_mono (by omega) (cellsFrom_filter p hl.2)

theorem cellsFrom_raise {w : Nat} {b : Nat} : {lo : Nat} → {l : Cells w} → cellsFrom lo l = true → (∀ x ∈ l, b ≤ x.1) → cellsFrom b l = true
  | _, [], _, _ => rfl
  | lo, (k, x) :: l, hl, hb => by
    simp only [cellsFrom, Bool.and_eq_true, decide_eq_true_eq] at hl ⊢
    exact ⟨⟨hb _ (List.mem_cons_self ..), hl.1.2⟩, hl.2⟩

theorem cellsFrom_append {w : Nat} {b : Nat} {l' : Cells w} (h' : cellsFrom b l' = true) : {lo : Nat} → {l : Cells w} → lo ≤ b →
    cellsFrom lo l = true → (∀ x ∈ l, x.1 < b) → cellsFrom lo (l ++ l') = true
  | _, [], hlo, _, _ => cellsFrom_mono hlo h'
  | lo, (k, x) :: l, _, hl, hb => by
    have hk := hb (k, x) (List.mem_cons_self ..)
    simp only [List.cons_append, cellsFrom, Bool.and_eq_true, decide_eq_true_eq] at hl ⊢
    exact ⟨hl.1, cellsFrom_append h' hk hl.2 fun y hy => hb y (List.mem_cons_of_mem _ hy)⟩

/-- The entries of a stretch of n bytes from `lo` on. -/
theorem cellsFrom_range {f : Nat → Byte} {lo : Nat} : (n i : Nat) →
    cellsFrom (w := 8) (lo + i) ((List.range' i n).filterMap fun j => if f j = 0 then none else some (lo + j, f j)) = true
  | 0, _ => rfl
  | n + 1, i => by
    have ih := cellsFrom_range (f := f) (lo := lo) n (i + 1)
    rw [List.range'_succ, List.filterMap_cons]
    by_cases h : f i = 0
    · simp only [h, if_true]
      exact cellsFrom_mono (by omega) ih
    · simp only [h, if_false, cellsFrom, Bool.and_eq_true, decide_eq_true_eq, bne_iff_ne]
      exact ⟨⟨Nat.le_refl _, h⟩, ih⟩

/-! ## Reading after writing -/

theorem cget_cput_same {w : Nat} (k : Nat) (v : BitVec w) : {lo : Nat} → {l : Cells w} → cellsFrom lo l = true →
    cget (cput l k v) k = v
  | _, [], _ => by
    rw [cput]; split
    · simp_all [cget]
    · simp [cget]
  | lo, (k', x) :: l, hl => by
    have hl' := hl
    simp only [cellsFrom, Bool.and_eq_true, decide_eq_true_eq] at hl'
    rw [cput]
    split
    · split
      · rw [cget, if_neg (by omega), cget_below hl'.2 (by omega)]; exact (‹v = 0›).symm
      · simp [cget]
    · split
      · split
        · subst k'; rw [cget_below hl'.2 (by omega)]; exact (‹v = 0›).symm
        · simp [cget]
      · rw [cget, if_neg (by omega)]
        exact cget_cput_same k v hl'.2

theorem cget_cput_other {w : Nat} {k k' : Nat} (v : BitVec w) (h : k ≠ k') : (l : Cells w) → cget (cput l k v) k' = cget l k'
  | [] => by rw [cput]; split <;> simp [cget, h]
  | (j, x) :: l => by
    rw [cput]
    split
    · split
      · rfl
      · rw [cget, if_neg h]
    · split
      · subst j
        split
        · rw [cget, if_neg h]
        · rw [cget, if_neg h, cget, if_neg h]
      · rw [cget, cget, cget_cput_other v h l]

/-! ## Memory -/

theorem Memory.wf_cput {m : Memory} (k : Nat) (b : Byte) (h : Memory.wf m = true) : Memory.wf (cput (w := 8) m k b) = true :=
  cellsFrom_cput k b (Nat.zero_le _) h

theorem Memory.wf_filter {m : Memory} (p : Nat × Byte → Bool) (h : Memory.wf m = true) : Memory.wf (m.filter p) = true :=
  cellsFrom_filter p h

theorem Memory.wf_mmerge {m : Memory} (b : ByteW) (h : Memory.wf m = true) : Memory.wf (mmerge m b) = true :=
  Memory.wf_cput _ _ h

theorem Memory.wf_mmerges {ws : List ByteW} : {m : Memory} → Memory.wf m = true → Memory.wf (ws.foldl mmerge m) = true := by
  induction ws with
  | nil => exact id
  | cons b ws ih => exact fun h => ih (Memory.wf_mmerge b h)

theorem Memory.wf_mwrite {bs : List Byte} : {m : Memory} → {k : Nat} → Memory.wf m = true → Memory.wf (mwrite m k bs) = true := by
  induction bs with
  | nil => exact id
  | cons b bs ih => exact fun h => ih (Memory.wf_cput _ _ h)

theorem Memory.wf_mclear {m : Memory} (lo n : Nat) (h : Memory.wf m = true) : Memory.wf (mclear m lo n) = true :=
  Memory.wf_filter _ h

theorem Memory.wf_mfill {m : Memory} (lo n : Nat) (f : Nat → Byte) (h : Memory.wf m = true) : Memory.wf (mfill m lo n f) = true := by
  have hr := cellsFrom_range (f := f) (lo := lo) n 0
  rw [← List.range_eq_range'] at hr
  have hhi : cellsFrom (w := 8) (lo + n) (m.filter fun c => decide (lo + n ≤ c.1)) = true :=
    cellsFrom_raise (cellsFrom_filter _ h) fun x hx => by simpa using (List.mem_filter.1 hx).2
  have hmid : cellsFrom (w := 8) lo (((List.range n).filterMap fun i => if f i = 0 then none else some (lo + i, f i))
      ++ m.filter fun c => decide (lo + n ≤ c.1)) = true := by
    refine cellsFrom_append hhi (by omega) hr fun x hx => ?_
    obtain ⟨i, hi, he⟩ := List.mem_filterMap.1 hx
    have := List.mem_range.1 hi
    split at he
    · cases he
    · cases he; simpa using this
  rw [mfill, List.append_assoc]
  exact cellsFrom_append hmid (Nat.zero_le _) (cellsFrom_filter _ h) fun x hx => by simpa using (List.mem_filter.1 hx).2

theorem Memory.wf_putCells {l : List (Nat × Byte)} : {m : Memory} → Memory.wf m = true → Memory.wf (putCells m l) = true := by
  induction l with
  | nil => exact id
  | cons x l ih => exact fun h => ih (Memory.wf_cput _ _ h)

theorem State.wf_writeBytes {s : State} (ws : List ByteW) (h : Memory.wf s.mem = true) : Memory.wf (s.writeBytes ws).mem = true := by
  unfold State.writeBytes
  dsimp only
  split
  · exact Memory.wf_mmerges h
  · exact Memory.wf_mmerges h

/-- A byte write leaves every other byte as it was. -/
theorem mmerge_other {m : Memory} {b : ByteW} {k : Nat} (h : b.key ≠ k) : cget (w := 8) (mmerge m b) k = cget (w := 8) m k :=
  cget_cput_other _ h m

theorem mmerges_other {k : Nat} {ws : List ByteW} : {m : Memory} → (∀ b ∈ ws, b.key ≠ k) →
    cget (w := 8) (ws.foldl mmerge m) k = cget (w := 8) m k := by
  induction ws with
  | nil => intros; rfl
  | cons b ws ih =>
    intro m h
    rw [List.foldl_cons, ih fun x hx => h x (List.mem_cons_of_mem _ hx), mmerge_other (h b (List.mem_cons_self ..))]

/-- A write of bytes leaves every byte it does not name (R384 included). -/
theorem State.writeBytes_other {s : State} {ws : List ByteW} {k : Nat} (h : ∀ b ∈ ws, b.key ≠ k) :
    cget (w := 8) (s.writeBytes ws).mem k = cget (w := 8) s.mem k := by
  unfold State.writeBytes
  dsimp only
  split
  · exact mmerges_other h
  · exact mmerges_other fun b hb => h b (List.mem_filter.mp hb).1

end Sys2Proof.Machine
end

