-- ==== Sys2Proof/Safety.lean ====
section
/-!
DEFINITION. Sys2Proof/Safety.lean: the terms in which claims are made: what a safe step is, when an instruction of a block fires, and
what its completion is.
-/
namespace Sys2Proof

/-- The step goes on. -/
def SafeStep (s : Machine.State) : Prop := ∃ s', Machine.step s = .next s'

namespace Machine

/-- Slot P selects the instruction under lane mask `lm`: always, by a true or a zero scalar, or by the lane mask of LP (R48, R50, R136). -/
def Selects (c : Ctl) (p : Option Tok) (lm : Mask) : Prop :=
  match c.pm with
  | .always => if c.lp then p = some (.m lm) else lm = BitVec.allOnes 128
  | .ifTrue => lm = BitVec.allOnes 128 ∧ ∃ w, p = some (.s w) ∧ w ≠ 0
  | .ifFalse => lm = BitVec.allOnes 128 ∧ p = some (.s 0)

/-- Slot `sl` gives token `t`: one that the instruction takes has arrived and is no null, unless the instruction looks at nulls
itself (R48, R49); a slot that it does not take is empty. -/
def Holds (fr : Frame) (i : Instr) (sl : Slot) (t : Tok) : Prop :=
  if needOf i sl = .no then fr.slot fr.cur sl = none ∧ t = .null
  else fr.slot fr.cur sl = some t ∧ (seesNulls i = true ∨ t ≠ .null)

/-- Instruction `i` stands at the current index of the core's frame, has not fired, and fires with the tokens `x` (R47 to R50); a
system instruction stands on a supervisor core (R306), and no supervisor core holds an instruction of a unit it lacks (R16). -/
structure Fires (i : Instr) (s : State) (fr : Frame) (x : In) : Prop where
  frame : s.core.frame = some fr
  unfired : fr.fired.getLsbD fr.cur = false
  selected : ∃ c, ctlOf i = some c ∧ Selects c (fr.slot fr.cur .p) x.lm
  a : Holds fr i .a x.a
  b : Holds fr i .b x.b
  c : Holds fr i .c x.c
  privileged : isSystem i = true → isSup s.core.id = true
  present : notOnSupervisor i = true → isSup s.core.id = false

/-- The state in which the current instruction `i` has fired with result `tok`, flags `fl` and pending effects `effs`, and nothing
else has changed but the record of the units used (R395). -/
def State.firedWith (s : State) (i : Instr) (tok : Tok) (fl : Flags) (effs : List Effect) : State :=
  (s.markUnits (unitBits s.core.r i)).onFrame fun fr => fr.complete fr.cur (targetsOf i) tok fl effs

/-- The state in which the current instruction `i` has faulted with cause `cause` and address `addr`, and nothing else (R60). -/
def State.faultedWith (s : State) (i : Instr) (cause : BitVec 8) (addr : Word) : State :=
  s.onFrame fun fr => fr.recordFault i { cause := cause, addr := addr }

/-- The state in which the atomic `i` has fired with effects `effs`: its token comes at the binding point (R53). -/
def State.pendsWith (s : State) (i : Instr) (effs : List Effect) : State :=
  (s.markUnits (unitBits s.core.r i)).onFrame fun fr => fr.complete fr.cur [] .null 0 effs

/-- The state in which the current instruction `i` waits (R57). -/
def State.waitsAt (s : State) (i : Instr) : State :=
  (s.markUnits (unitBits s.core.r i)).onFrame fun fr => { fr with waiting := setBit fr.waiting fr.cur }

/-- The value of an integer operand in a form: W bits, signed when N = 0 and natural when N = 1 (R173). -/
def operand (f : IForm) (x : Word) : Int :=
  match f.w, f.n with
  | true, false => x.toInt
  | true, true => x.toNat
  | false, false => (x.setWidth 32).toInt
  | false, true => (x.setWidth 32).toNat

/-- Deliver(r): the low W bits of r; a 32-bit result is sign-extended when N = 0 and zero-extended when N = 1 (R157). -/
def delivered (f : IForm) (r : Int) : Word :=
  match f.w, f.n with
  | true, _ => BitVec.ofInt 64 r
  | false, false => (BitVec.ofInt 32 r).signExtend 64
  | false, true => (BitVec.ofInt 32 r).setWidth 64

/-- The bounds of an integer form (R174). -/
def formMin (f : IForm) : Int := if f.n then 0 else -(2 ^ (bitsOf f.w - 1) : Nat)
def formMax (f : IForm) : Int := if f.n then (2 ^ bitsOf f.w : Nat) - 1 else (2 ^ (bitsOf f.w - 1) : Nat) - 1

/-- Nothing stands between a load of the own scratchpad and its bytes: no GUARD range, no check-bit error, no pending effect of the
block or of a predecessor, no earlier reading of the line by a later load, no view without a VJOIN (R52, R118, R124, R133, R383). -/
structure Quiet (s : State) (fr : Frame) : Prop where
  guards : s.guards = []
  bad : s.badGran = []
  soft : s.softGran = []
  views : s.core.view = []
  effs : fr.effs = []
  prior : fr.prior = []
  snaps : fr.snaps = []

/-- No instruction of lower LSID that a load at `lsid` comes after is still to fire (R52, R120 to R124). -/
def Unbarred (fr : Frame) (lsid : BitVec 5) : Prop := fr.loadWaits fr.cur lsid.toNat = false

/-- The state in which the lines that later loads have read are kept in the frame for the loads of lower LSID still to fire (R118). -/
def State.snapped (s : State) (l : List Snap) : State := s.onFrame fun f => { f with snaps := l }

/-- Addresses with a size that lie whole and aligned inside the scratchpad footprint (R99, R100, R105). -/
def InFootprint (c : Core) (n : Nat) (l : List Nat) : Prop := ∀ a ∈ l, a % n = 0 ∧ a + n ≤ c.footprint

/-- Where an address of an on-chip space of the current core leads, and through which view (R99 to R105). -/
def onChip (s : State) (spc : Space) (a : Nat) : Nat × View :=
  let rank := a / 2 ^ 20
  match spc with
  | .sw => (spKey s.core.id (swz a s.core.swzkey), .swizzled)
  | .nb => (spKey (s.core.member rank) (a % 2 ^ 20), if rank = s.core.rank then .linear else .other)
  | .sb => (holdKey (dieOfCore s.core.id) (((s.die (dieOfCore s.core.id)).window s.core.space).1 + a), .other)
  | _ => (spKey s.core.id a, .linear)

/-- Addresses with a size that lie whole and aligned inside an on-chip space (R99, R100, R105). -/
def OnChip (s : State) (spc : Space) (n : Nat) (l : List Nat) : Prop :=
  ∀ a ∈ l, a % n = 0 ∧
    (match spc with
     | .nb => a < 2 ^ 26 ∧ isSup s.core.id = false ∧ a / 2 ^ 20 < s.core.gsize ∧ a % 2 ^ 20 + n ≤ s.core.footprint
     | .sb => a + n ≤ ((s.die (dieOfCore s.core.id)).window s.core.space).2
     | _ => a + n ≤ s.core.footprint)

/-- A walk from the table at an address and a level reads an entry at a level: every entry before it is valid and a well-formed pointer (R371,
R372, R374). -/
inductive WalkMeets (s : State) (dies : BitVec 4) (va : Nat) : Nat → Nat → Word → Nat → Prop where
  | here (table level : Nat) : WalkMeets s dies va table level (s.readWord (table + 8 * vaIndex level va)) level
  | next (table level : Nat) (e : Word) (l : Nat) :
      (s.readWord (table + 8 * vaIndex (level + 1) va)).getLsbD 0 = true →
      (s.readWord (table + 8 * vaIndex (level + 1) va)).getLsbD 1 = false →
      badPointer dies (level + 1) (s.readWord (table + 8 * vaIndex (level + 1) va)) = false →
      WalkMeets s dies va (field (s.readWord (table + 8 * vaIndex (level + 1) va)) 39 8 * 256) level e l →
      WalkMeets s dies va table (level + 1) e l

/-- A global access of n bytes of the current core lies aligned in a page whose walk ends at a well-formed leaf; no entry is cached, no page
moves, and no check-bit error lies anywhere (R97, R371 to R376). -/
structure Mapped (s : State) (va n : Nat) (leaf : Word) (level : Nat) : Prop where
  aligned : va % n = 0
  inside : va + n ≤ 2 ^ 57
  tlb : s.tlb = []
  migs : s.migs = []
  bad : s.badGran = []
  soft : s.softGran = []
  root : (s.part (s.partOfCore s.core.id)).rootOk s.core.space = true
  walk : WalkMeets s (s.part (s.partOfCore s.core.id)).dies va
    (field ((s.part (s.partOfCore s.core.id)).root s.core.space) 39 12 * 4096) 4 leaf level
  valid : leaf.getLsbD 0 = true
  isLeaf : leaf.getLsbD 1 = true
  good : badLeaf (s.part (s.partOfCore s.core.id)).dies (s.part (s.partOfCore s.core.id)).endp level leaf = false

/-- The physical address that a leaf gives for a virtual one: its frame and the page offset (R371). -/
def frameAddr (leaf : Word) (level va : Nat) : Nat := field leaf 39 16 * 65536 + va % pageSize level

/-- All that software can see, but the frame of the current core, is as before: only caches and the record of units may differ. -/
def State.SeenSame (s t : State) : Prop :=
  t.mem = s.mem ∧ t.parked = s.parked ∧ t.dies = s.dies ∧ t.parts = s.parts ∧ t.port = s.port ∧ t.guards = s.guards ∧ t.gangs = s.gangs
  ∧ t.cycle = s.cycle ∧ t.agenda = s.agenda ∧ t.free = s.free
  ∧ t.core = { s.core with frame := t.core.frame, l1 := t.core.l1, units := t.core.units }

/-- A vector token whose lane j of w bits is `f j`, a lane null where `f j` is none or the lane mask clears the lane (R50, R194, R196). -/
def LanesAre (w : Nat) (lm : Mask) (tok : Tok) (f : Nat → Option Nat) : Prop :=
  (∃ v ok, tok = .v v ok) ∧ ∀ j < laneCount w, laneOf w tok j = if laneOk w lm j then f j else none

/-- A mask token whose lane j of w bits is `f j` in every bit of the lane (R64). -/
def MaskIs (w : Nat) (tok : Tok) (f : Nat → Bool) : Prop :=
  ∃ m : Mask, tok = .m m ∧ ∀ g < 128, m.getLsbD g = f (16 * g / w)

/-- An instruction fires with a result of which `P` holds, and with no pending effect. -/
def Gives (s : State) (i : Instr) (P : Tok → Prop) : Prop :=
  ∃ tok fl, exec i s = .next (s.firedWith i tok fl []) ∧ P tok

/-- A load fires with a result of which `P` holds; nothing else changes but the lines kept for loads of lower LSID, where one is still to
fire (R118). -/
def Loads (s : State) (fr : Frame) (i : Instr) (lsid : BitVec 5) (P : Tok → Prop) : Prop :=
  ∃ tok fl l, exec i s = .next ((s.snapped l).firedWith i tok fl []) ∧ P tok
    ∧ (fr.loadsLeft fr.cur lsid.toNat = false → l = fr.snaps)

/-- Node i of level k of the fixed tree over values: level 0 holds the values, each higher node combines its two lower ones (R92). -/
def treeNode (f : Nat → Nat → Nat) (t : Nat → Nat) : Nat → Nat → Nat
  | 0, i => t i
  | k + 1, i => f (treeNode f t k (2 * i)) (treeNode f t k (2 * i + 1))

/-- The integer that a lane of an integer type holds. -/
def laneInt (t : Ty) (p : Nat) : Int := if t.isSigned then (BitVec.ofNat t.width p).toInt else (p : Int)

/-- An integer as a lane of a type, modulo 2^w. -/
def laneMod (t : Ty) (r : Int) : Nat := (BitVec.ofInt t.width r).toNat

/-- An integer clamped to the bounds of a lane type. -/
def laneClamp (t : Ty) (r : Int) : Nat :=
  let w := t.width
  laneMod t (if t.isSigned then max (-(2 ^ (w - 1) : Nat)) (min ((2 ^ (w - 1) : Nat) - 1) r) else max 0 (min ((2 ^ w : Nat) - 1) r))

/-- A lane of two operands: a lane null where one of them is. -/
def lane2 (a b : Option Nat) (f : Nat → Nat → Nat) : Option Nat :=
  match a, b with
  | some p, some q => some (f p q)
  | _, _ => none

/-- The block in the current core's frame is complete and nothing holds its commit back: every instruction has fired without a fault, a leaf
is chosen, its deferred checks have passed, no store lies in a guarded range, nothing that a load saw is looked at again, a
release finds everything acknowledged, and no kill, step or atomic takes part (R57, R120, R133). -/
structure Commits (s : State) (fr : Frame) : Prop where
  running : s.core.st = .running
  frame : s.core.frame = some fr
  leaf : fr.leaf.isSome = true
  fired : fr.allFired = true
  faults : fr.faults = []
  atomics : fr.holdsAtomic = false
  unbound : fr.bound = false
  performed : fr.performed = false
  issuing : fr.issuing = false
  checked : fr.toCheck = false
  watch : fr.watch = []
  guards : s.guardFaults fr = []
  acks : s.acksOf s.core.id = true ∨ fr.instrs.any isSystem = false ∧
    ∀ x ∈ fr.effs, fr.waitsAcks x = false ∧ ∀ i, fr.instr x.1 = some i → lateRelease i = false
  held : s.heldBySup s.core.id = false
  killed : s.core.killed = false
  step : s.core.stepPend = false

/-- The event ends the command with ticket `tk` of the current core: it leaves its engine, and its ticket is final (R237). -/
def Ends (s : State) (tk : Ticket) (i : Instr) : Prop :=
  ∃ t, exec i s = .next t ∧ t.core.cmdOf tk = none
    ∧ ∀ w, s.core.e.status tk = some w → ∃ w', t.core.e.status tk = some w' ∧ field w' 63 62 ≠ 0

/-- The elements of a tensor that a command reads at some indices lie, where they are inside the extents, whole and with their scale bytes in
the scratchpad footprint of the current core, and nothing is guarded there or has a check-bit error (R67, R99, R133, R383). -/
structure Near (s : State) (d : Td) (l : List (Nat × Nat × Nat)) : Prop where
  guards : s.guards = []
  bad : s.badGran = []
  soft : s.softGran = []
  space : tdSp d = .sp
  inside : ∀ i ∈ l, inExtents d i.1 i.2.1 i.2.2 = true → ∀ p ∈ elemAll d i.1 i.2.1 i.2.2,
    p.addr % p.size = 0 ∧ p.addr + p.size ≤ s.core.footprint

/-- A packet that is no release reaches its endpoint, partition `pn`, to be performed there: from an agent of the endpoint itself, on its way
in `net` in its turn, or from another endpoint, well-formed, for this endpoint alone, and for the first time (R405 to R410). -/
def State.Reaches (s : State) (p : Packet) (pn : Nat) : Prop :=
  s.bootFail = none ∧ s.partOfEndp (pkDst p) = some pn ∧ pkRel p = false
  ∧ ((pkSrc p = pkDst p ∧ p ∈ s.port.net ∧ s.ownEarlier pn p = false)
    ∨ (pkSrc p ≠ pkDst p ∧ packetOk p = true ∧ onward p p.body = none ∧ lookup (pairOf p, pkTag p) s.port.performed = none))

/-- A request to stop reaches the running members of a gang: one whose last committed block has QP = 1, and whose block can be discarded, stands
at once, the others at their next boundary that allows it (R389, R390). -/
def Asked (s : State) (ranks : List Nat) (t : State) : Prop :=
  ∀ i ∈ ranks, (s.coreAt i).st = .running → (s.coreAt i).preempt = none →
    if (s.coreAt i).lastQp = true ∧ (s.coreAt i).frame ≠ none ∧ (s.coreAt i).mustCommit = false ∧ s.heldBySup i = false then
      (t.coreAt i).st = .quiet ∧ (t.coreAt i).light = true ∧ (t.coreAt i).frame = none ∧ (t.coreAt i).r = (s.coreAt i).r
    else (t.coreAt i).preempt = some s.cycle ∧ (t.coreAt i).st = .running ∧ (t.coreAt i).frame = (s.coreAt i).frame

/-- The packet has been performed: its tag is remembered, and another endpoint is answered with `data` (R409). -/
def Answered (p : Packet) (data : List Byte) (t : State) : Prop :=
  (lookup (pairOf p, pkTag p) t.port.performed).isSome = true
  ∧ (pkSrc p ≠ pkDst p → ∃ q, t.port.outbox.head? = some q ∧ ∃ fwd, q.body = .reply (pkTag p) 0 data fwd)

/-- The instruction or event goes on to a state of which `P` holds. -/
def Reach (s : State) (i : Instr) (P : State → Prop) : Prop := ∃ t, exec i s = .next t ∧ P t

end Machine
end Sys2Proof
end

