-- ==== Sys2Proof/Certificates/Slice0/Obligations.lean ====
section
/-!
DEFINITION. Sys2Proof/Certificates/Slice0/Obligations.lean: the statements for the provers. Each is about the machine, for every state
and operand; none is about a program. `Fires i s fr x` says that instruction i of the frame fr fires with the tokens x, and
`firedWith` is the state in which it has fired and nothing else has changed (Safety.lean).
-/
open Sys2Proof Sys2Proof.Machine

/-! ## Encoding -/

/-- The words that the worked block of 09 writes out, and one word of every other family written bit by bit from R136 to R153, decode to
the instructions they stand for. -/
def Obligations.WordsDecode : Prop :=
  -- READ G8 -> 1.a, 2.a and the rest of the block `cvt`
  decode 0x0100812080080000#64 = .ok (.read ⟨.always, false, some ⟨1, .a⟩, some ⟨2, .a⟩⟩ .g 8)
  ∧ decode 0x03008320D0000000#64 = .ok (.fan ⟨.always, false, some ⟨3, .a⟩, some ⟨3, .b⟩⟩)
  ∧ decode 0x2990840000000000#64 = .ok (.frint ⟨.always, false, some ⟨4, .a⟩, none⟩ .f32 .rtz)
  ∧ decode 0x26A085C000000000#64 = .ok (.fcmp ⟨.always, false, some ⟨5, .p⟩, none⟩ .f32 .un)
  ∧ decode 0x2780850002000000#64 = .ok (.fcvt ⟨.always, false, some ⟨5, .a⟩, none⟩ .f32 false .i32)
  ∧ decode 0x0204000000090000#64 = .ok (.write ⟨.ifFalse, false, none, none⟩ .g 9)
  -- ADD.sat.n32, format G: OP, FN = W N 00s, PM, LP, T0 = 1|idx 2|slot b, T1 = 0, TY, IMM13 = −1, IB = 1, zero
  ∧ decode (0x10#8 ++ 0b01001#5 ++ 0b00#2 ++ 0#1 ++ (1#1 ++ 2#7 ++ 0b01#2) ++ 0#10 ++ 0#4 ++ 0x1FFF#13 ++ 1#1 ++ 0#10)
      = .ok (.add ⟨.always, false, some ⟨2, .b⟩, none⟩ ⟨false, true⟩ true (some 0x1FFF))
  -- VADD.bf16 under a lane mask
  ∧ decode (0x30#8 ++ 0#5 ++ 0b00#2 ++ 1#1 ++ (1#1 ++ 7#7 ++ 0b00#2) ++ 0#10 ++ 9#4 ++ 0#13 ++ 0#1 ++ 0#10)
      = .ok (.vadd ⟨.always, true, some ⟨7, .a⟩, none⟩ .bf16)
  -- LD.i32 in .sp at L3, format M: OP, FN, PM, LP, T0, LSID, SP, SC, OR, DISP = −4, TY
  ∧ decode (0x50#8 ++ 0#5 ++ 0b00#2 ++ 0#1 ++ (1#1 ++ 9#7 ++ 0b10#2) ++ 3#5 ++ 1#3 ++ 0#3 ++ 0#2 ++ 0xFFFFC#20 ++ 2#5)
      = .ok (.ld ⟨.always, false, some ⟨9, .c⟩, none⟩ .i32 ⟨3, .sp, .task, .rlx⟩ 0xFFFFC)
  -- CTR.read K5 at L1: word bits [9:5] = k
  ∧ decode (0x65#8 ++ 5#5 ++ 0b00#2 ++ 0#1 ++ (1#1 ++ 4#7 ++ 0b00#2) ++ 1#5 ++ 0#3 ++ 0#3 ++ 0#2 ++ (0#15 ++ 5#5) ++ 0#5)
      = .ok (.ctrRead ⟨.always, false, some ⟨4, .a⟩, none⟩ 1 5)
  -- MMA of TD1 and TD2 into tile 3, counted by K7, format A: T1, TDA, TDB, TDC, XF = tile, KN, CNT, REL
  ∧ decode (0x73#8 ++ 0#5 ++ 0b00#2 ++ 0#1 ++ 0#10 ++ 0#10 ++ 1#6 ++ 2#6 ++ 0#6 ++ 3#3 ++ 7#5 ++ 1#1 ++ 0#1)
      = .ok (.mma ⟨.always, false, none, none⟩ false 1 2 3 ⟨some 7, false⟩)
  -- BREL of TD4 with .REL
  ∧ decode (0x86#8 ++ 0#5 ++ 0b00#2 ++ 0#1 ++ 0#10 ++ 0#10 ++ 0#6 ++ 0#6 ++ 4#6 ++ 0#3 ++ 0#5 ++ 0#1 ++ 1#1)
      = .ok (.brel ⟨.always, false, none, none⟩ 4 ⟨none, true⟩)
  -- SIGID S2
  ∧ decode (0x91#8 ++ 0#5 ++ 0b00#2 ++ 0#1 ++ 0#10 ++ 0#10 ++ 0#4 ++ 2#13 ++ 0#1 ++ 0#10)
      = .ok (.sigid ⟨.always, false, none, none⟩ 2)
  -- PSR.wr of SPCTL
  ∧ decode (0xF0#8 ++ 1#5 ++ 0b00#2 ++ 0#1 ++ 0#10 ++ 0#10 ++ 0#4 ++ 0x013#13 ++ 0#1 ++ 0#10)
      = .ok (.spctlWrite ⟨.always, false, none, none⟩)

/-- Every well-formed instruction word has an encoding, and decoding that word gives the instruction back with every operand. BPERM's
open role has the word of its request role: which of the two a command plays is said by its control record (R275, log 14). -/
def Obligations.EncodeRoundTrip : Prop :=
  ∀ i : Instr, i.wellFormed = true → (ctlOf i).isSome = true →
    ∃ w, encode i = some w ∧
      decode w = .ok (match i with | .bpermOpen c a b d o => .bpermRequest c a b d o | i => i)

/-- No two words decode to one instruction, and no bit of a word is dropped: a word that decodes is the encoding of what it decodes to,
and what it decodes to is well formed. -/
def Obligations.DecodeRoundTrip : Prop :=
  ∀ (w : Word) (i : Instr), decode w = .ok i → encode i = some w ∧ i.wellFormed = true

/-! ## Steps -/

/-- A step fires the decoded instruction: with nothing on the agenda and an instruction of the running frame ready, the word at its index
decodes to it, and the step is the meaning of that instruction there, one cycle later. The end of a cycle changes the number of the cycle
alone where no event has called for a placement pass and no leave was asked for in the cycle; else the pass and the grants of leave
close it (R362, R422, log 4). -/
def Obligations.StepFiresReady : Prop :=
  ∀ (s : State) (fr : Frame) (idx : Nat) (i : Instr),
    s.frozen = false → s.agenda = [] → s.core.st = .running → s.core.frame = some fr → nextReady fr = some (idx, i) →
    decode (fr.words.getD idx 0) = .ok i ∧ idx < fr.words.length
    ∧ step s = exec i ((s.endCycle 1).onFrame fun f => { f with cur := idx })
    ∧ (s.endCycle 1).cycle = s.cycle + 1 ∧ (s.endCycle 1).passDue = false
    ∧ (s.passDue = false → (∀ d < 4, ∀ q ∈ (s.die d).leaveQ, q.cycle ≠ s.cycle) →
        step s = exec i { s with cycle := s.cycle + 1, core := { s.core with frame := some { fr with cur := idx } } })

/-- The instruction that fires next is the lowest ready one: an instruction whose slots are filled and which does not wait is ready, and no
instruction of a lower index is. One that must come after others of lower LSID fires too, finds that out and waits (R48, R52, log 15). -/
def Obligations.NextReadyIsLowest : Prop :=
  (∀ (fr : Frame) (idx : Nat) (i : Instr),
    idx < fr.words.length → decode (fr.words.getD idx 0) = .ok i → fr.waiting.getLsbD idx = false → slotsReady fr idx i = true →
    ∃ k j, nextReady fr = some (k, j) ∧ k ≤ idx)
  ∧ ∀ (fr : Frame) (k : Nat) (j : Instr), nextReady fr = some (k, j) →
      k < fr.words.length ∧ decode (fr.words.getD k 0) = .ok j ∧ fr.waiting.getLsbD k = false ∧ slotsReady fr k j = true
      ∧ ∀ k' < k, ∀ j', decode (fr.words.getD k' 0) = .ok j' → fr.waiting.getLsbD k' = true ∨ slotsReady fr k' j' = false

/-- A step performs the event that the agenda names, in the same cycle; a tick of the agenda ends the cycle. The agenda is the model's own
account of who moves next, and its counting of cycles is log 4's (log 3, log 4). A package whose clocks have stopped takes no step but a cold
reset (R427, R420). -/
def Obligations.EventAndFrozenSteps : Prop :=
  (∀ (s : State) (i : Instr) (l : List Agent),
     s.frozen = false → s.agenda = .event i :: l → ctlOf i = none →
     step s = exec i { s with agenda := l })
  ∧ (∀ (s : State) (l : List Agent), s.frozen = false →
     (∀ n, s.agenda = .tick n :: l → step s = .next { (State.closeCycle { s with agenda := l }) with cycle := s.cycle + n })
     ∧ (∀ id, s.agenda = .core id :: l → step s = .next (State.switchTo { s with agenda := l } id)))
  ∧ (∀ s : State, s.frozen = true →
      (∀ (image : List Byte) (root : Word) (fails : Option (BitVec 3)) (l : List Agent),
        s.agenda = .event (.coldReset image root fails) :: l → step s = exec (.coldReset image root fails) { s with agenda := l })
      ∧ ((∀ (image : List Byte) (root : Word) (fails : Option (BitVec 3)) (l : List Agent),
          s.agenda ≠ .event (.coldReset image root fails) :: l) → step s = .fault .frozen))

/-! ## Scalar integer instructions -/

/-- ADDI (R166): format I, OP 0x1E, FN = W 0 000, SUB zero, IMM32 = n; the result is A plus the sign-extended immediate modulo 2^W, sign-extended
when W = 0, and no flag is set. -/
def Obligations.AddiAdds : Prop :=
  (∀ (c : Ctl) (w : Bool) (imm : BitVec 32) (x : Word), encode (.addi c w imm) = some x →
    x.extractLsb' 56 8 = 0x1E#8 ∧ x.extractLsb' 51 5 = (if w then 0b10000#5 else 0b00000#5)
    ∧ x.extractLsb' 32 6 = 0#6 ∧ x.extractLsb' 0 32 = imm)
  ∧ ∀ (c : Ctl) (w : Bool) (imm : BitVec 32) (s : State) (fr : Frame) (x : In), Fires (.addi c w imm) s fr x →
      exec (.addi c w imm) s
        = .next (s.firedWith (.addi c w imm) (.s (delivered ⟨w, false⟩ ((tokWord x.a).toInt + imm.toInt))) 0 [])

/-- ADDR (R183): format G, OP 0x1D, FN = 1 0 sss, IMM13 = off, IB = 0; the result is a + (b << s) + SignExt(off) modulo 2^64, and neither
a fault nor a flag is raised. -/
def Obligations.AddrForms : Prop :=
  (∀ (c : Ctl) (sh : BitVec 3) (off : BitVec 13) (x : Word), encode (.addr c sh off) = some x →
    x.extractLsb' 56 8 = 0x1D#8 ∧ x.extractLsb' 51 5 = 0b10#2 ++ sh ∧ x.extractLsb' 11 13 = off ∧ x.extractLsb' 10 1 = 0#1)
  ∧ ∀ (c : Ctl) (sh : BitVec 3) (off : BitVec 13) (s : State) (fr : Frame) (x : In), Fires (.addr c sh off) s fr x →
      exec (.addr c sh off) s
        = .next (s.firedWith (.addr c sh off)
            (.s (BitVec.ofInt 64 ((tokWord x.a).toNat + (tokWord x.b).toNat * 2 ^ sh.toNat + off.toInt))) 0 [])

/-- AND, OR, XOR and ANDN (R177): format G, OP 0x14 to 0x17, FN = W 0 000; bit k of the W-bit result is the operation on bits k of the
operands, and a 32-bit result is sign-extended. -/
def Obligations.BitwiseResults : Prop :=
  (∀ (c : Ctl) (w : Bool) (imm : Option (BitVec 13)) (x : Word),
    (encode (.and c w imm) = some x → x.extractLsb' 56 8 = 0x14#8 ∧ x.extractLsb' 51 5 = (if w then 0b10000#5 else 0#5))
    ∧ (encode (.or c w imm) = some x → x.extractLsb' 56 8 = 0x15#8 ∧ x.extractLsb' 51 5 = (if w then 0b10000#5 else 0#5))
    ∧ (encode (.xor c w imm) = some x → x.extractLsb' 56 8 = 0x16#8 ∧ x.extractLsb' 51 5 = (if w then 0b10000#5 else 0#5))
    ∧ (encode (.andn c w imm) = some x → x.extractLsb' 56 8 = 0x17#8 ∧ x.extractLsb' 51 5 = (if w then 0b10000#5 else 0#5)))
  ∧ ∀ (c : Ctl) (w : Bool) (imm : Option (BitVec 13)) (i : Instr) (g : Bool → Bool → Bool),
      ((i = .and c w imm ∧ g = fun a b => a && b) ∨ (i = .or c w imm ∧ g = fun a b => a || b)
        ∨ (i = .xor c w imm ∧ g = fun a b => a ^^ b) ∨ (i = .andn c w imm ∧ g = fun a b => a && !b)) →
      ∀ (s : State) (fr : Frame) (x : In), Fires i s fr x →
        ∃ r : Word, exec i s = .next (s.firedWith i (.s r) 0 [])
          ∧ ∀ k < 64, r.getLsbD k =
              let k' := if w then k else min k 31
              g ((tokWord x.a).getLsbD k') ((bWord imm x.b).getLsbD k')

/-- MINMAX (R181): OP 0x1A, FN = W N 000 or W N 001; the comparison is signed when N = 0 and natural when N = 1, and the result is the
selected operand's W bits. -/
def Obligations.MinmaxSelects : Prop :=
  (∀ (c : Ctl) (f : IForm) (max : Bool) (imm : Option (BitVec 13)) (x : Word), encode (.minmax c f max imm) = some x →
    x.extractLsb' 56 8 = 0x1A#8 ∧ x.getLsbD 55 = f.w ∧ x.getLsbD 54 = f.n ∧ x.extractLsb' 51 3 = (if max then 1#3 else 0#3))
  ∧ ∀ (c : Ctl) (f : IForm) (imm : Option (BitVec 13)) (s : State) (fr : Frame) (x : In),
      (Fires (.minmax c f false imm) s fr x →
        exec (.minmax c f false imm) s = .next (s.firedWith (.minmax c f false imm)
          (.s (delivered f (min (operand f (tokWord x.a)) (operand f (bWord imm x.b))))) 0 []))
      ∧ (Fires (.minmax c f true imm) s fr x →
        exec (.minmax c f true imm) s = .next (s.firedWith (.minmax c f true imm)
          (.s (delivered f (max (operand f (tokWord x.a)) (operand f (bWord imm x.b))))) 0 []))

/-- ADD and SUB (R173, R174): the exact sum or difference, wrapped modulo 2^W without a flag; the .sat form clamps it to the bounds of the
form and sets QSAT when it clamps, or traps where QSAT is enabled; a block whose atomic has been performed can no longer trap (R53), and only
sets the flag there (log 97). -/
def Obligations.AddSubResults : Prop :=
  ∀ (c : Ctl) (f : IForm) (sat : Bool) (imm : Option (BitVec 13)) (i : Instr) (g : Int → Int → Int),
    ((i = .add c f sat imm ∧ g = fun a b => a + b) ∨ (i = .sub c f sat imm ∧ g = fun a b => a - b)) →
    ∀ (s : State) (fr : Frame) (x : In), Fires i s fr x →
      let r := g (operand f (tokWord x.a)) (operand f (bWord imm x.b))
      (sat = false ∨ (formMin f ≤ r ∧ r ≤ formMax f) → exec i s = .next (s.firedWith i (.s (delivered f r)) 0 []))
      ∧ (sat = true → r < formMin f → fsrEnables s.core.r &&& fQSAT = 0 ∨ fr.bound = true →
          exec i s = .next (s.firedWith i (.s (delivered f (formMin f))) fQSAT []))
      ∧ (sat = true → formMax f < r → fsrEnables s.core.r &&& fQSAT = 0 ∨ fr.bound = true →
          exec i s = .next (s.firedWith i (.s (delivered f (formMax f))) fQSAT []))
      ∧ (sat = true → r < formMin f ∨ formMax f < r → fsrEnables s.core.r &&& fQSAT ≠ 0 → fr.bound = false →
          exec i s = .next ((s.markUnits (unitBits s.core.r i)).faultedWith i cFpTrap 0))

/-- MUL and DIV (R175, R176): the low or the high half of the exact product, and the quotient truncated toward zero with the remainder of
the dividend's sign; a division by zero gives all ones and the dividend. -/
def Obligations.MulDivResults : Prop :=
  ∀ (c : Ctl) (f : IForm) (imm : Option (BitVec 13)) (s : State) (fr : Frame) (x : In),
    let a := operand f (tokWord x.a)
    let b := operand f (bWord imm x.b)
    (Fires (.mul c f false imm) s fr x →
      exec (.mul c f false imm) s = .next (s.firedWith (.mul c f false imm) (.s (delivered f (a * b))) 0 []))
    ∧ (Fires (.mul c f true imm) s fr x →
      exec (.mul c f true imm) s
        = .next (s.firedWith (.mul c f true imm) (.s (delivered f (a * b / (2 ^ bitsOf f.w : Nat)))) 0 []))
    ∧ (Fires (.div c f false imm) s fr x →
      exec (.div c f false imm) s
        = .next (s.firedWith (.div c f false imm) (.s (delivered f (if b = 0 then -1 else Int.tdiv a b))) 0 []))
    ∧ (Fires (.div c f true imm) s fr x →
      exec (.div c f true imm) s
        = .next (s.firedWith (.div c f true imm) (.s (delivered f (if b = 0 then a else Int.tmod a b))) 0 []))

/-- SHIFT, ICMP and EXT (R178, R182, R184): the count is the low 6 or 5 bits of b; SHL, SHR, SRA and ROL say each result bit; ICMP gives 1
or 0; EXT extends the low 8, 16 or 32 bits. -/
def Obligations.ShiftCompareExtend : Prop :=
  (∀ (c : Ctl) (w : Bool) (op : ShiftOp) (imm : Option (BitVec 13)) (s : State) (fr : Frame) (x : In),
    Fires (.shift c w op imm) s fr x →
    let n := bitsOf w
    let cnt := (bWord imm x.b).toNat % n
    let a (k : Nat) : Bool := (tokWord x.a).getLsbD k
    ∃ r : Word, exec (.shift c w op imm) s = .next (s.firedWith (.shift c w op imm) (.s r) 0 [])
      ∧ ∀ k < 64, r.getLsbD k =
          let k := min k (n - 1)
          match op with
          | .shl => decide (cnt ≤ k) && a (k - cnt)
          | .shr => decide (k + cnt < n) && a (k + cnt)
          | .sra => a (min (k + cnt) (n - 1))
          | .rol => a ((k + n - cnt) % n))
  ∧ (∀ (c : Ctl) (f : IForm) (op : IcmpOp) (imm : Option (BitVec 13)) (s : State) (fr : Frame) (x : In),
    Fires (.icmp c f op imm) s fr x → (op = .eq ∨ op = .ne → f.n = false) →
    let a := operand f (tokWord x.a)
    let b := operand f (bWord imm x.b)
    exec (.icmp c f op imm) s = .next (s.firedWith (.icmp c f op imm)
      (.s (match op with
        | .eq => if a = b then 1 else 0
        | .ne => if a = b then 0 else 1
        | .lt => if a < b then 1 else 0
        | .le => if a ≤ b then 1 else 0)) 0 []))
  ∧ ∀ (c : Ctl) (f : IForm) (sz : ExtSize) (s : State) (fr : Frame) (x : In),
    Fires (.ext c f sz) s fr x →
    let low := (tokWord x.a).setWidth sz.bits
    exec (.ext c f sz) s
      = .next (s.firedWith (.ext c f sz) (.s (delivered f (if f.n then (low.toNat : Int) else low.toInt))) 0 [])

/-- BITF (R179, R180): the bits of an extracted field, of an inserted one, the counts of CLZ, CTZ and POPC, and BREV's reversal. -/
def Obligations.BitFieldResults : Prop :=
  ∀ (c : Ctl) (w : Bool) (op : BitfOp) (imm : Option (BitVec 13)) (s : State) (fr : Frame) (x : In),
    Fires (.bitf c w op imm) s fr x →
    let n := bitsOf w
    let ctl := if op = .ins then tokWord x.c else bWord imm x.b
    let pos := field ctl 5 0
    let len := if n ≤ pos then 0 else min (field ctl 12 6) (n - pos)
    let a (k : Nat) : Bool := (tokWord x.a).getLsbD k
    let zeros (p : Nat → Bool) (m : Nat) : Prop := ∀ k < m, p k = false
    ∃ r : Word, exec (.bitf c w op imm) s = .next (s.firedWith (.bitf c w op imm) (.s r) 0 [])
      ∧ match op with
        | .extz => ∀ k < 64, r.getLsbD k = (let k := min k (n - 1); decide (k < len) && a (pos + k))
        | .exts => ∀ k < 64, r.getLsbD k = (let k := min k (n - 1); decide (len ≠ 0) && a (pos + min k (len - 1)))
        | .ins => ∀ k < 64, r.getLsbD k = (let k := min k (n - 1);
            if pos ≤ k ∧ k < pos + len then (bWord imm x.b).getLsbD (k - pos) else a k)
        | .clz => r.toNat ≤ n ∧ zeros (fun k => a (n - 1 - k)) r.toNat ∧ (r.toNat < n → a (n - 1 - r.toNat) = true)
        | .ctz => r.toNat ≤ n ∧ zeros a r.toNat ∧ (r.toNat < n → a r.toNat = true)
        | .popc => r.toNat = ((List.range n).filter fun k => a k).length
        | .brev => ∀ k < 64, r.getLsbD k = (let k := min k (n - 1); a (n - 1 - k))

/-! ## Tokens, constants and registers -/

/-- CONST (R165): format I, OP 0x05, FN zero, SUB 0, 1 or 2, IMM32 = n; the result is the sign-extended, the zero-extended or the shifted
immediate.
FAN copies its token, SEL passes the token that its condition chooses and gives null for a null condition, NULL gives null for any
token, and NULL.isn gives 1 for a null and 0 otherwise; under a lane mask the granules that the mask clears become invalid
(R50, R162, R163, R164). -/
def Obligations.ConstFanSelNull : Prop :=
  ((∀ (c : Ctl) (k : ConstKind) (imm : BitVec 32) (x : Word), encode (.const c k imm) = some x →
     x.extractLsb' 56 8 = 0x05#8 ∧ x.extractLsb' 51 5 = 0#5
     ∧ x.extractLsb' 32 6 = (match k with | .i => 0#6 | .n => 1#6 | .hi => 2#6) ∧ x.extractLsb' 0 32 = imm)
   ∧ ∀ (c : Ctl) (k : ConstKind) (imm : BitVec 32) (s : State) (fr : Frame) (x : In), Fires (.const c k imm) s fr x →
       exec (.const c k imm) s = .next (s.firedWith (.const c k imm)
         (.s (match k with | .i => BitVec.ofInt 64 imm.toInt | .n => BitVec.ofNat 64 imm.toNat | .hi => imm ++ 0#32)) 0 []))
  ∧ (let masked (t : Tok) (lm : Mask) : Tok := match t with | .v v ok => .v v (ok &&& lm) | t => t
   ∀ (c : Ctl) (s : State) (fr : Frame) (x : In),
     (Fires (.fan c) s fr x → exec (.fan c) s = .next (s.firedWith (.fan c) (masked x.a x.lm) 0 []))
     ∧ (Fires (.null c) s fr x → exec (.null c) s = .next (s.firedWith (.null c) .null 0 []))
     ∧ (Fires (.nullIsn c) s fr x →
         exec (.nullIsn c) s = .next (s.firedWith (.nullIsn c) (.s (if x.a = .null then 1 else 0)) 0 []))
     ∧ (∀ imm : Option (BitVec 13), Fires (.sel c imm) s fr x →
         let b : Tok := match imm with | some n => .s (n.signExtend 64) | none => x.b
         (x.a = .null → exec (.sel c imm) s = .next (s.firedWith (.sel c imm) .null 0 []))
         ∧ (∀ w, x.a = .s w → exec (.sel c imm) s
             = .next (s.firedWith (.sel c imm) (masked (if w = 0 then x.c else b) x.lm) 0 []))))

/-- A null in a data slot passes on as a null and nothing else happens, and so does an instruction whose predicate is a scalar that does
not select it or a null: for every instruction word but SEL, NULL and NULL.isn (R48, R49, R159).
An instruction whose slots are not all filled does not fire: the state stays as it is (R48). -/
def Obligations.NullsAndWaits : Prop :=
  (∀ (i : Instr) (c : Ctl) (s : State) (fr : Frame),
     ctlOf i = some c → s.core.frame = some fr → fr.fired.getLsbD fr.cur = false →
     ((seesNulls i = false ∧ (∃ lm, Selects c (fr.slot fr.cur .p) lm)
         ∧ (∀ sl ∈ [Slot.a, Slot.b, Slot.c], needOf i sl ≠ .no → (fr.slot fr.cur sl).isSome = true)
         ∧ ∃ sl ∈ [Slot.a, Slot.b, Slot.c], needOf i sl ≠ .no ∧ fr.slot fr.cur sl = some .null)
       ∨ (c.pm = .ifTrue ∧ (fr.slot fr.cur .p = some (.s 0) ∨ fr.slot fr.cur .p = some .null))
       ∨ (c.pm = .ifFalse ∧ ((∃ w, w ≠ 0 ∧ fr.slot fr.cur .p = some (.s w)) ∨ fr.slot fr.cur .p = some .null))) →
     exec i s = .next (s.onFrame fun f => f.complete fr.cur (targetsOf i) .null 0 []))
  ∧ (∀ (i : Instr) (s : State) (fr : Frame), (ctlOf i).isSome = true → s.core.frame = some fr →
     (fr.fired.getLsbD fr.cur = true ∨ slotsReady fr fr.cur i = false) → exec i s = .next s)

/-- READ delivers the committed register: G0 is zero, L is zero-extended, a vector has every lane valid; TDGET, CTR.read and PSR.rd deliver
theirs (R51, R63, R160, R232, R248, R309). -/
def Obligations.ReadsRegisters : Prop :=
  ∀ (c : Ctl) (s : State) (fr : Frame) (x : In),
    (∀ reg : BitVec 8, Fires (.read c .g reg) s fr x → exec (.read c .g reg) s
        = .next (s.firedWith (.read c .g reg) (.s (if reg = 0 then 0 else cget s.core.r.g reg.toNat)) 0 []))
    ∧ (∀ reg : BitVec 8, Fires (.read c .v reg) s fr x → exec (.read c .v reg) s
        = .next (s.firedWith (.read c .v reg) (.v (cget s.core.r.v reg.toNat) (BitVec.allOnes 128)) 0 []))
    ∧ (∀ reg : BitVec 8, Fires (.read c .m reg) s fr x → exec (.read c .m reg) s
        = .next (s.firedWith (.read c .m reg) (.m (cget s.core.r.m reg.toNat)) 0 []))
    ∧ (∀ reg : BitVec 8, Fires (.read c .b reg) s fr x → exec (.read c .b reg) s
        = .next (s.firedWith (.read c .b reg) (.s (cget s.core.r.b reg.toNat)) 0 []))
    ∧ (∀ reg : BitVec 8, Fires (.read c .l reg) s fr x → exec (.read c .l reg) s
        = .next (s.firedWith (.read c .l reg) (.s (BitVec.ofNat 64 (cget s.core.r.l reg.toNat).toNat)) 0 []))
    ∧ (∀ reg : BitVec 8, Fires (.read c .fsr reg) s fr x → exec (.read c .fsr reg) s
        = .next (s.firedWith (.read c .fsr reg) (.s s.core.r.fsr) 0 []))
    ∧ (∀ (td : BitVec 6) (n : BitVec 2), Fires (.tdget c td n) s fr x → exec (.tdget c td n) s
        = .next (s.firedWith (.tdget c td n) (.s (cget s.core.r.td (4 * td.toNat + n.toNat))) 0 []))
    ∧ (∀ lsid k : BitVec 5, Fires (.ctrRead c lsid k) s fr x → exec (.ctrRead c lsid k) s
        = .next (s.firedWith (.ctrRead c lsid k) (.s (BitVec.ofNat 64 (cget s.core.r.k k.toNat).toNat)) 0 []))
    ∧ (∀ n : BitVec 13, Fires (.psrRead c n) s fr x →
        (n = 0x010 → exec (.psrRead c n) s
          = .next (s.firedWith (.psrRead c n) (.s (BitVec.ofNat 64 (s.die (s.core.id - 1024)).spsel.toNat)) 0 []))
        ∧ (n = 0x040 → exec (.psrRead c n) s
          = .next (s.firedWith (.psrRead c n) (.s (BitVec.ofNat 64 (s.die (s.core.id - 1024)).dbgctl.toNat)) 0 []))
        ∧ (n = 0x050 → exec (.psrRead c n) s
          = .next (s.firedWith (.psrRead c n) (.s (s.part (s.partOfDie (s.core.id - 1024))).ctxa) 0 []))
        ∧ (psrRead s (s.core.id - 1024) n.toNat = none → exec (.psrRead c n) s
          = .next ((s.markUnits (unitBits s.core.r (.psrRead c n))).faultedWith (.psrRead c n) cIllegal 0)))

/-- WIDF gives field k of the WID, zero-extended, and the WID without its fields below k; a field from NF on reads as zero (R26, R168). SREAD
gives the special state of a task by its selector, and an unlisted selector raises Illegal Operand (R73, R169). -/
def Obligations.WidfAndSpecialState : Prop :=
  (∀ (c : Ctl) (k : BitVec 3) (s : State) (fr : Frame) (x : In) (t : Ident), s.core.task = some t →
     let nf := Desc_.nf t.desc
     let width (j : Nat) : Nat := field t.desc.l1 (7 * j + 6) (7 * j)
     let off := ((List.range (min k.toNat nf)).map width).sum
     nf ≤ 6 → k.toNat < 7 →
     (k.toNat < 6 → Fires (.widf c false k) s fr x → exec (.widf c false k) s = .next (s.firedWith (.widf c false k)
         (.s (if k.toNat < nf then BitVec.ofNat 64 (t.wid.toNat / 2 ^ off % 2 ^ width k.toNat) else 0)) 0 []))
     ∧ (Fires (.widf c true k) s fr x → exec (.widf c true k) s = .next (s.firedWith (.widf c true k)
         (.s (BitVec.ofNat 64 (t.wid.toNat / 2 ^ off))) 0 [])))
  ∧ (∀ (c : Ctl) (sel : BitVec 8) (s : State) (fr : Frame) (x : In) (t : Ident),
      Fires (.sread c sel) s fr x → s.core.task = some t → s.core.id < 1024 →
      let gives (w : Word) : Prop := exec (.sread c sel) s = .next (s.firedWith (.sread c sel) (.s w) 0 [])
      let num (n : Nat) : Prop := gives (BitVec.ofNat 64 n)
      (sel = 0x00 → gives t.wid) ∧ (sel = 0x01 → num t.rank) ∧ (sel = 0x02 → num t.gsize) ∧ (sel = 0x03 → num t.gidx)
      ∧ (sel = 0x04 → num s.core.id) ∧ (sel = 0x05 → num (s.core.id / 256)) ∧ (sel = 0x06 → num (s.core.id % 256 / 8))
      ∧ (sel = 0x07 → num (s.core.id % 8)) ∧ (sel = 0x08 → num s.core.r.bgt.toNat) ∧ (sel = 0x09 → num (field t.desc.l0 15 0))
      ∧ (sel = 0x0A → gives t.desc.l4) ∧ (sel = 0x0B → num (4096 * field t.desc.l5 8 0)) ∧ (sel = 0x0C → num (field t.desc.l5 12 9))
      ∧ (sel = 0x0D → num s.cycle) ∧ (sel = 0x0E → gives s.core.committed) ∧ (sel = 0x0F → num s.core.e.busyTiles.toNat) ∧ (sel = 0x10 →
        gives s.core.leaveWaits)
      ∧ (sel = 0x11 → gives s.core.svrRej)
      ∧ (0x11 < sel.toNat → exec (.sread c sel) s
          = .next ((s.markUnits (unitBits s.core.r (.sread c sel))).faultedWith (.sread c sel) cIllegal 0)))

/-! ## Scalar floating point -/

/-- Every scalar floating-point instruction completes with a scalar result when no trap is enabled, and a floating-point result lies in the
low bits of its format (R157, R185). -/
def Obligations.FpCompletes : Prop :=
  ∀ (i : Instr) (c : Ctl) (t : Ty) (s : State) (fr : Frame) (x : In), t.isFL = true → i.wellFormed = true →
    (i = .fadd c t ∨ i = .fsub c t ∨ i = .fmul c t ∨ (∃ k, i = .ffma c t k) ∨ i = .fdiv c t ∨ i = .fsqrt c t
      ∨ (∃ op, i = .fminmax c t op) ∨ (∃ op, i = .fcmp c t op) ∨ (∃ fi ty, i = .fcvt c t fi ty) ∨ i = .fclass c t
      ∨ (∃ m, i = .frint c t m)) →
    Fires i s fr x → fsrEnables s.core.r = 0 →
    ∃ (w : Word) (fl : Flags), exec i s = .next (s.firedWith i (.s w) fl [])
      ∧ ((∀ ty, i ≠ .fcvt c t false ty) → w.toNat < 2 ^ t.width)

/-- A NaN operand of FADD, FSUB, FMUL, FDIV, FSQRT or FRINT gives the canonical quiet NaN, and sets NV only when it signals,
or traps where NV is enabled and the block may still fault (R53, log 97) (R78, R185, R186, R188, R193). -/
def Obligations.FpNaN : Prop :=
  ∀ (i : Instr) (c : Ctl) (t : Ty) (s : State) (fr : Frame) (x : In), t.isFL = true → Fires i s fr x →
    let isNan (w : Word) : Prop := 2 ^ (layoutOf t).eb * 2 ^ (layoutOf t).fb - 2 ^ (layoutOf t).fb < w.toNat % 2 ^ (t.width - 1)
    let signals (w : Word) : Prop := isNan w ∧ w.getLsbD ((layoutOf t).fb - 1) = false
    let two := i = .fadd c t ∨ i = .fsub c t ∨ i = .fmul c t ∨ i = .fdiv c t
    let one := i = .fsqrt c t ∨ ∃ m, i = .frint c t m
    let a := tokWord x.a
    let b := tokWord x.b
    let sig := signals a ∨ (two ∧ signals b)
    ((two ∧ (isNan a ∨ isNan b)) ∨ (one ∧ isNan a)) →
    (¬sig → exec i s = .next (s.firedWith i (.s (BitVec.ofNat 64 (canonNan t))) 0 []))
    ∧ (sig → fsrEnables s.core.r &&& fNV = 0 ∨ fr.bound = true → exec i s = .next (s.firedWith i (.s (BitVec.ofNat 64 (canonNan t))) fNV []))
    ∧ (sig → fsrEnables s.core.r &&& fNV ≠ 0 → fr.bound = false →
        exec i s = .next ((s.markUnits (unitBits s.core.r i)).faultedWith i cFpTrap 0))

/-- The sign of an exact zero sum or difference (R86): +0, in RDN −0, unless both operands are zeros of one sign.
FDIV of a finite non-zero dividend by a zero (R188): an infinity of the XOR sign and DZ, and FP Trap when DZ is enabled
(R72, R185, R381); a block whose atomic has been performed only sets the flag (R53, log 97). -/
def Obligations.ZeroSumsAndDivision : Prop :=
  (∀ (c : Ctl) (t : Ty) (sub : Bool) (s : State) (fr : Frame) (x : In), t.isFL = true →
     let i : Instr := if sub then .fsub c t else .fadd c t
     Fires i s fr x →
     let h := t.width - 1
     let mag (w : Word) : Nat := w.toNat % 2 ^ h
     let sa := (tokWord x.a).getLsbD h
     let sb := (tokWord x.b).getLsbD h != sub
     let zero (neg : Bool) : Tok := .s (BitVec.ofNat 64 (if neg then 2 ^ h else 0))
     mag (tokWord x.a) = mag (tokWord x.b) → mag (tokWord x.a) < infCode t →
     (sa ≠ sb → exec i s = .next (s.firedWith i (zero (fsrRm s.core.r == .rdn)) 0 []))
     ∧ (sa = sb → mag (tokWord x.a) = 0 → exec i s = .next (s.firedWith i (zero sa) 0 [])))
  ∧ (∀ (c : Ctl) (t : Ty) (s : State) (fr : Frame) (x : In), t.isFL = true → Fires (.fdiv c t) s fr x →
     let h := t.width - 1
     let mag (w : Word) : Nat := w.toNat % 2 ^ h
     let neg := (tokWord x.a).getLsbD h != (tokWord x.b).getLsbD h
     0 < mag (tokWord x.a) → mag (tokWord x.a) < infCode t → mag (tokWord x.b) = 0 →
     (fsrEnables s.core.r &&& fDZ = 0 ∨ fr.bound = true → exec (.fdiv c t) s = .next (s.firedWith (.fdiv c t)
         (.s (BitVec.ofNat 64 (infCode t + (if neg then 2 ^ h else 0)))) fDZ []))
     ∧ (fsrEnables s.core.r &&& fDZ ≠ 0 → fr.bound = false →
         exec (.fdiv c t) s = .next ((s.markUnits (unitBits s.core.r (.fdiv c t))).faultedWith (.fdiv c t) cFpTrap 0)))

/-- FCLASS (R192): OP 0x28; the one bit of the operand's class, by its sign, exponent and fraction, and no flag.
FCMP (R190): unordered operands compare as the table says and set NV as it says; two codes without sign compare as numbers, and −0
equals +0. -/
def Obligations.FclassFcmp : Prop :=
  ((∀ (c : Ctl) (t : Ty) (x : Word), encode (.fclass c t) = some x → x.extractLsb' 56 8 = 0x28#8 ∧ x.extractLsb' 51 3 = 0#3)
   ∧ ∀ (c : Ctl) (t : Ty) (s : State) (fr : Frame) (x : In), t.isFL = true → Fires (.fclass c t) s fr x →
       let l := layoutOf t
       let w := tokWord x.a
       let neg := w.getLsbD (t.width - 1)
       let e := w.toNat / 2 ^ l.fb % 2 ^ l.eb
       let f := w.toNat % 2 ^ l.fb
       let bit := if e = 2 ^ l.eb - 1 then
           (if f = 0 then (if neg then 0 else 7) else if f < 2 ^ (l.fb - 1) then 8 else 9)
         else if e = 0 then (if f = 0 then (if neg then 3 else 4) else (if neg then 2 else 5))
         else (if neg then 1 else 6)
       exec (.fclass c t) s = .next (s.firedWith (.fclass c t) (.s (BitVec.ofNat 64 (2 ^ bit))) 0 []))
  ∧ (∀ (c : Ctl) (t : Ty) (op : FcmpOp) (s : State) (fr : Frame) (x : In), t.isFL = true → Fires (.fcmp c t op) s fr x →
     fsrEnables s.core.r = 0 →
     let h := 2 ^ (t.width - 1)
     let a := (tokWord x.a).toNat % 2 ^ t.width
     let b := (tokWord x.b).toNat % 2 ^ t.width
     let isNan (n : Nat) : Prop := infCode t < n % h
     let signals (n : Nat) : Prop := isNan n ∧ n.testBit ((layoutOf t).fb - 1) = false
     let gives (r : Bool) (nv : Prop) : Prop :=
       ∃ fl : Flags, (fl = fNV ∨ fl = 0) ∧ (fl = fNV ↔ nv)
         ∧ exec (.fcmp c t op) s = .next (s.firedWith (.fcmp c t op) (.s (if r then 1 else 0)) fl [])
     ((isNan a ∨ isNan b) → gives (op == .ne || op == .un) ((op = .lt ∨ op = .le) ∨ signals a ∨ signals b))
     ∧ (a ≤ infCode t → b ≤ infCode t →
         gives (match op with | .eq => a == b | .ne => a != b | .lt => decide (a < b) | .le => decide (a ≤ b) | .un => false) False)
     ∧ ((a = 0 ∨ a = h) → (b = 0 ∨ b = h) → gives (op == .eq || op == .le) False))

/-! ## Vectors and masks -/

/-- The floating-point vector instructions give each lane the code that the scalar instruction gives for the lane's operands; a lane that
the mask clears or of which an operand is a lane null is a lane null (R196, R197, R198, R199). -/
def Obligations.VecFloatLanes : Prop :=
  ∀ (c : Ctl) (t : Ty) (s : State) (fr : Frame) (x : In), t.isFL = true → fsrEnables s.core.r = 0 →
    let w := t.width
    let rm := fsrRm s.core.r
    let a (j : Nat) : Option Nat := laneOf w x.a j
    let v (p : Nat) : FVal := decodeF t false p
    let gives1 (i : Instr) (f : FVal → Nat × Flags) : Prop :=
      Fires i s fr x → Gives s i fun tok => LanesAre w x.lm tok fun j => (a j).map fun p => (f (v p)).1
    let gives2 (i : Instr) (f : FVal → FVal → Nat × Flags) : Prop :=
      Fires i s fr x → Gives s i fun tok => LanesAre w x.lm tok fun j => lane2 (a j) (laneOf w x.b j) fun p q => (f (v p) (v q)).1
    gives2 (.vadd c t) (faddC t rm) ∧ gives2 (.vsub c t) (fsubC t rm) ∧ gives2 (.vmul c t) (fmulC t rm)
    ∧ gives2 (.vdiv c t) (fdivC t rm) ∧ (∀ op, gives2 (.vminmax c t op) (fminmaxC t op))
    ∧ gives1 (.vsqrt c t) (fsqrtC t rm) ∧ gives1 (.vrcp c t) (fdivC t rm (.fin false 1 0))
    ∧ gives1 (.vrsq c t) (fun p => roundWithS t rm (rsqrtV p)) ∧ gives1 (.vexp2 c t) (exp2R t rm) ∧ gives1 (.vlog2 c t) (log2R t rm)
    ∧ (∀ k, Fires (.vfma c t k) s fr x → Gives s (.vfma c t k) fun tok => LanesAre w x.lm tok fun j =>
        match a j, laneOf w x.b j, laneOf w x.c j with
        | some p, some q, some r => some (ffmaC t rm k (v p) (v q) (v r)).1
        | _, _, _ => none)

/-- VABS and VNEG of a float lane that is no NaN change its sign bit alone, of an integer lane they give the magnitude or the negation
modulo 2^w; VIARITH, VLOGIC and VSHIFT give each lane its operation (R199, R200, R201, R202). -/
def Obligations.VecIntLanes : Prop :=
  ∀ (c : Ctl) (t : Ty) (s : State) (fr : Frame) (x : In), fsrEnables s.core.r = 0 →
    let w := t.width
    let a (j : Nat) : Option Nat := laneOf w x.a j
    let b (imm : Option (BitVec 13)) (j : Nat) : Option Nat :=
      match imm with | some n => some (laneMod t n.toInt) | none => laneOf w x.b j
    let z := laneInt t
    let gives (i : Instr) (f : Nat → Option Nat) : Prop := Fires i s fr x → Gives s i fun tok => LanesAre w x.lm tok f
    (t.isFL = true → (∀ j p, a j = some p → p % 2 ^ (w - 1) ≤ infCode t) →
      gives (.vabs c t) (fun j => (a j).map fun p => p % 2 ^ (w - 1))
      ∧ gives (.vneg c t) (fun j => (a j).map fun p => p ^^^ 2 ^ (w - 1)))
    ∧ (t.isIL = true →
      gives (.vabs c t) (fun j => (a j).map fun p => laneMod t ((z p).natAbs : Int))
      ∧ gives (.vneg c t) (fun j => (a j).map fun p => laneMod t (-(z p)))
      ∧ (∀ op imm, gives (.viarith c t op imm) fun j => lane2 (a j) (b imm j) fun p q =>
          match op with
          | .add => laneMod t (z p + z q)
          | .sub => laneMod t (z p - z q)
          | .mul => laneMod t (z p * z q)
          | .mulhi => laneMod t (z p * z q / (2 ^ w : Nat))
          | .addsat => laneClamp t (z p + z q)
          | .subsat => laneClamp t (z p - z q)
          | .min => laneMod t (min (z p) (z q))
          | .max => laneMod t (max (z p) (z q)))
      ∧ (∀ op imm, op ≠ .not → gives (.vlogic c t op imm) fun j => lane2 (a j) (b imm j) fun p q =>
          match op with
          | .and => p &&& q
          | .or => p ||| q
          | .xor => p ^^^ q
          | _ => p &&& (2 ^ w - 1 - q))
      ∧ gives (.vlogic c t .not none) (fun j => (a j).map fun p => 2 ^ w - 1 - p)
      ∧ (∀ op imm, gives (.vshift c t op imm) fun j => lane2 (a j) (b imm j) fun p q =>
          let n := q % w
          match op with
          | .shl => p * 2 ^ n % 2 ^ w
          | .shr => p / 2 ^ n
          | .sra => (BitVec.ofInt w ((BitVec.ofNat w p).toInt / (2 ^ n : Nat))).toNat
          | .rol => (p * 2 ^ n + p / 2 ^ (w - n)) % 2 ^ w))

/-- VCMP sets all bits of a lane's mask alike, and clears them where the mask or an operand lane is null; VSEL takes each lane from the
chosen operand; MASKOP works lane by lane; VIOTA numbers the lanes, or counts the mask's lanes below (R64, R203, R204, R205, R206). -/
def Obligations.VecMasks : Prop :=
  ∀ (c : Ctl) (t : Ty) (s : State) (fr : Frame) (x : In), t.isLT = true → fsrEnables s.core.r = 0 →
    let w := t.width
    let n := laneCount w
    let on (tok : Tok) (j : Nat) : Bool := laneOk w (tokMask tok) j
    (∀ op imm, t.isIL = true → op ≠ .un → Fires (.vcmp c t op imm) s fr x → Gives s (.vcmp c t op imm) fun tok => MaskIs w tok fun j =>
        laneOk w x.lm j &&
        match laneOf w x.a j, (match imm with | some k => some (laneMod t k.toInt) | none => laneOf w x.b j) with
        | some p, some q =>
          let a := laneInt t p
          let b := laneInt t q
          (match op with | .eq => decide (a = b) | .ne => decide (a ≠ b) | .lt => decide (a < b) | .le => decide (a ≤ b) | .un => false)
        | _, _ => false)
    ∧ (∀ op, t.isFL = true → Fires (.vcmp c t op none) s fr x → Gives s (.vcmp c t op none) fun tok => MaskIs w tok fun j =>
        laneOk w x.lm j &&
        match laneOf w x.a j, laneOf w x.b j with
        | some p, some q => (fcmpC op (decodeF t false p) (decodeF t false q)).1
        | _, _ => false)
    ∧ (Fires (.vsel c t) s fr x → Gives s (.vsel c t) fun tok => LanesAre w x.lm tok fun j =>
        lane2 (laneOf w x.b j) (laneOf w x.c j) fun p q => if on x.a j then p else q)
    ∧ (∀ op (f : Bool → Bool → Bool),
        ((op = .mand ∧ f = fun p q => p && q) ∨ (op = .mor ∧ f = fun p q => p || q) ∨ (op = .mxor ∧ f = fun p q => p ^^ q)
          ∨ (op = .mnot ∧ f = fun p _ => !p)) →
        Fires (.maskop c t op) s fr x → Gives s (.maskop c t op) fun tok => MaskIs w tok fun j => f (on x.a j) (on x.b j))
    ∧ (Fires (.maskop c t .mpopc) s fr x → Gives s (.maskop c t .mpopc) fun tok =>
        tok = .s (BitVec.ofNat 64 ((List.range n).filter (on x.a)).length))
    ∧ (Fires (.maskop c t .mfirst) s fr x → Gives s (.maskop c t .mfirst) fun tok =>
        ∃ k ≤ n, tok = .s (BitVec.ofNat 64 k) ∧ (∀ j < k, on x.a j = false) ∧ (k < n → on x.a k = true))
    ∧ (Fires (.maskop c t .mfromi) s fr x → Gives s (.maskop c t .mfromi) fun tok =>
        MaskIs w tok fun j => decide (j < (tokWord x.a).toNat))
    ∧ (∀ m, t.isIL = true → Fires (.viota c t m) s fr x → Gives s (.viota c t m) fun tok => LanesAre w x.lm tok fun j =>
        some (if m then ((List.range j).filter (on x.a)).length else j))

/-- Moves of lanes (R207, R208, R209): VBCAST fills every lane; VEXTR delivers one lane, null when it is null; VINS replaces one lane and
keeps the others; VPERM takes lane k mod n of A, or of A and B together; VSLIDE moves the lanes up or down. -/
def Obligations.VecMoves : Prop :=
  ∀ (c : Ctl) (t : Ty) (s : State) (fr : Frame) (x : In), t.isLT = true → fsrEnables s.core.r = 0 →
    let w := t.width
    let n := laneCount w
    (Fires (.vbcast c t) s fr x → Gives s (.vbcast c t) fun tok => LanesAre w x.lm tok fun _ => some ((tokWord x.a).toNat % 2 ^ w))
    ∧ (∀ imm, Fires (.vextr c t imm) s fr x → Gives s (.vextr c t imm) fun tok =>
        let j := (bWord imm x.b).toNat % n
        match (if laneOk w x.lm j then laneOf w x.a j else none) with
        | none => tok = .null
        | some p => tok = .s (if t.isSigned then (BitVec.ofNat w p).signExtend 64 else BitVec.ofNat 64 p))
    ∧ (∀ imm, Fires (.vins c t imm) s fr x → Gives s (.vins c t imm) fun tok => LanesAre w x.lm tok fun j =>
        if j = (tokWord x.c).toNat % n then some ((bWord imm x.b).toNat % 2 ^ w) else laneOf w x.a j)
    ∧ (Fires (.vperm c t false none) s fr x → Gives s (.vperm c t false none) fun tok => LanesAre w x.lm tok fun j =>
        match laneOf w x.b j with | none => none | some k => laneOf w x.a (k % n))
    ∧ (∀ k : BitVec 13, t.isIL = true → Fires (.vperm c t false (some k)) s fr x →
        Gives s (.vperm c t false (some k)) fun tok => LanesAre w x.lm tok fun _ => laneOf w x.a (k.toInt % n).toNat)
    ∧ (Fires (.vperm c t true none) s fr x → Gives s (.vperm c t true none) fun tok => LanesAre w x.lm tok fun j =>
        match laneOf w x.c j with
        | none => none
        | some k => if k % (2 * n) < n then laneOf w x.a (k % (2 * n)) else laneOf w x.b (k % (2 * n) - n))
    ∧ (∀ down imm, Fires (.vslide c t down imm) s fr x → Gives s (.vslide c t down imm) fun tok => LanesAre w x.lm tok fun j =>
        let k := (bWord imm x.b).toNat
        if down then (if j + k < n then laneOf w x.a (j + k) else none) else (if k ≤ j then laneOf w x.a (j - k) else none))

/-- Reductions (R92, R93, R210, R211): VRED of every operation completes with the root of the fixed tree over the lanes, where a lane that is
null or masked is the identity of the operation; VDOT with the root of the tree of float sums over the lane products, each rounded once; VSCAN
with a vector whose lane j, where it is present, combines in increasing lane order the nodes that cover exactly lanes 0 to j, so that lane 0 is
lane 0 of A itself, also where it holds a NaN (log 103). Every combination of integers is exact modulo 2^w, every other one is the scalar
operation's, rounded once. -/
def Obligations.VecReductions : Prop :=
  ∀ (c : Ctl) (t : Ty) (s : State) (fr : Frame) (x : In), t.isLT = true → fsrEnables s.core.r = 0 →
    let w := t.width
    let n := laneCount w
    let rm := fsrRm s.core.r
    let z := laneInt t
    let v (p : Nat) : FVal := decodeF t false p
    let word (p : Nat) : Word := if t.isSigned then (BitVec.ofNat w p).signExtend 64 else BitVec.ofNat 64 p
    let comb (op : RedOp) (p q : Nat) : Nat :=
      if t.isInt then
        (match op with
         | .add => laneMod t (z p + z q)
         | .min => laneMod t (min (z p) (z q))
         | .max => laneMod t (max (z p) (z q))
         | .and => p &&& q
         | .or => p ||| q
         | .xor => p ^^^ q)
      else match op with
        | .min => (fminmaxC t .min (v p) (v q)).1
        | .max => (fminmaxC t .max (v p) (v q)).1
        | _ => (faddC t rm (v p) (v q)).1
    let ident (op : RedOp) : Nat :=
      if t.isInt then
        (match op with
         | .add | .or | .xor => 0
         | .and => 2 ^ w - 1
         | .min => if t.isSigned then 2 ^ (w - 1) - 1 else 2 ^ w - 1
         | .max => if t.isSigned then 2 ^ (w - 1) else 0)
      else match op with
        | .min => infCode t
        | .max => 2 ^ (w - 1) + infCode t
        | _ => 2 ^ (w - 1)
    let lane (op : RedOp) (j : Nat) : Nat := if laneOk w x.lm j then (laneOf w x.a j).getD (ident op) else ident op
    let product (j : Nat) : Nat :=
      match (if laneOk w x.lm j then laneOf w x.a j else none), laneOf w x.b j with
      | some p, some q => (fmulC t rm (v p) (v q)).1
      | _, _ => 2 ^ (w - 1)
    (∀ op k, (t.isInt = true ∨ op = .add ∨ op = .min ∨ op = .max) → 2 ^ k = n → Fires (.vred c t op) s fr x →
        Gives s (.vred c t op) fun tok => tok = .s (word (treeNode (comb op) (lane op) k 0)))
    ∧ (∀ op, (t.isInt = true ∨ op = .add ∨ op = .min ∨ op = .max) → Fires (.vscan c t op) s fr x →
        Gives s (.vscan c t op) fun tok =>
          ∃ pre : Nat → Nat, LanesAre w x.lm tok (fun j => (laneOf w x.a j).map fun _ => pre j)
            ∧ (∀ a, 2 ^ a ≤ n → pre (2 ^ a - 1) = treeNode (comb op) (lane op) a 0)
            ∧ ∀ a q, 0 < q → 2 ^ a * (2 * q + 1) ≤ n →
                pre (2 ^ a * (2 * q + 1) - 1) = comb op (pre (2 ^ a * (2 * q) - 1)) (treeNode (comb op) (lane op) a (2 * q)))
    ∧ (∀ k, t.isFL = true → 2 ^ k = n → Fires (.vdot c t) s fr x →
        Gives s (.vdot c t) fun tok => tok = .s (word (treeNode (comb .add) product k 0)))

/-- Conversions (R212 to R217): VCVT between integer lanes clamps, between others gives the scalar conversion's code; VPACK keeps or clamps
the low half and joins two vectors; VUNPK widens half a vector; VQMX, VDQMX and VQT complete with a vector. -/
def Obligations.VecConversions : Prop :=
  ∀ (c : Ctl) (t : Ty) (s : State) (fr : Frame) (x : In), fsrEnables s.core.r = 0 →
    let w := t.width
    let n := laneCount w
    let vec (tok : Tok) : Prop := ∃ v ok, tok = .v v ok
    (∀ d : Ty, t.isLT = true → d.isLT = true → Fires (.vcvt c t d) s fr x → Gives s (.vcvt c t d) fun tok =>
        LanesAre d.width x.lm tok fun j => if n ≤ j then none else (laneOf w x.a j).map fun p =>
          if t.isInt = true ∧ d.isInt = true then laneClamp d (laneInt t p)
          else if t.isInt then (roundF d false (fsrRm s.core.r) (FVal.ofInt (laneInt t p))).1
          else if d.isInt then (roundInt d (fsrRm s.core.r) (decodeF t false p)).1
          else (roundF d false (fsrRm s.core.r) (decodeF t false p)).1)
    ∧ (∀ sat, t.isIL = true → w ≠ 16 → Fires (.vpack c t sat) s fr x → Gives s (.vpack c t sat) fun tok =>
        LanesAre (w / 2) x.lm tok fun j => (if j < n then laneOf w x.a j else laneOf w x.b (j - n)).map fun p =>
          if sat then
            (let h := w / 2
             let r := laneInt t p
             if t.isSigned then (BitVec.ofInt h (max (-(2 ^ (h - 1) : Nat)) (min ((2 ^ (h - 1) : Nat) - 1) r))).toNat
             else min (2 ^ h - 1) p)
          else p % 2 ^ (w / 2))
    ∧ (∀ hi, t.isIL = true → w ≠ 64 → Fires (.vunpk c t hi) s fr x → Gives s (.vunpk c t hi) fun tok =>
        LanesAre (2 * w) x.lm tok fun j => (laneOf w x.a (if hi then n / 2 + j else j)).map fun p =>
          (BitVec.ofInt (2 * w) (laneInt t p)).toNat)
    ∧ (∀ fmt, t.isQ = true → Fires (.vqmx c t fmt true) s fr x → Gives s (.vqmx c t fmt true) vec)
    ∧ (∀ fmt, t.isQ = true → Fires (.vqmx c t fmt false) s fr x → ∃ tok fl,
        exec (.vqmx c t fmt false) s = .next ({ s with free := s.free + n }.firedWith (.vqmx c t fmt false) tok fl []) ∧ vec tok)
    ∧ (∀ fmt, t.isQ = true → Fires (.vdqmx c t fmt) s fr x → Gives s (.vdqmx c t fmt) vec)
    ∧ (∀ op, t.isQ = true → Fires (.vqt c t op) s fr x → Gives s (.vqt c t op) vec)

/-! ## Memory instructions as they fire -/

/-- Loads as they fire with nothing in their way (R8, R97 to R105, R218, R219, R220, R221, R222, R371 to R375): LD extends the little-endian
element; VLD, VLDS and VGATH load lane j from the base, from the base plus j strides, and from the base plus j's offset in elements, and
leave the lanes that are not loaded null. An on-chip space leads where R99 to R105 say; LD of a global address reads the frame of the leaf that
the walk of the page tables reaches, through an L1 that holds no line, and nothing else that a program sees changes. Behind an instruction of
lower LSID that a load comes after, such as a store whose data it must see, it waits, until nothing else of the block can go on (R52, log 15). -/
def Obligations.LoadsFire : Prop :=
  ∀ (c : Ctl) (t : Ty) (m : MemF) (disp : BitVec 20) (s : State) (fr : Frame) (x : In),
    m.ord = .rlx → Quiet s fr →
    let n := t.width / 8
    let base := (tokWord x.a + disp.signExtend 64).toNat
    let at_ (a : Nat) : Nat := ofBytes (mread s.mem (onChip s m.sp a).1 n)
    let word (p : Nat) : Word := if t.isSigned then (BitVec.ofNat t.width p).signExtend 64 else BitVec.ofNat 64 p
    let loads (i : Instr) (P : Tok → Prop) : Prop :=
      (Unbarred fr m.lsid → Loads s fr i m.lsid P)
      ∧ (¬Unbarred fr m.lsid → fr.goesEarly fr.cur m.lsid.toNat = false → exec i s = .next (s.waitsAt i))
    let lanes (i : Instr) (ok : Nat → Bool) (addr : Nat → Nat) : Prop :=
      let js := (List.range (laneCount t.width)).filter fun j => laneOk t.width x.lm j && ok j
      Fires i s fr x → t.isLT = true → m.sp ≠ .gl → js ≠ [] → OnChip s m.sp n (js.map addr) →
      loads i fun tok => LanesAre t.width x.lm tok fun j => if ok j then some (at_ (addr j)) else none
    (Fires (.ld c t m disp) s fr x → t.isST = true → m.sp ≠ .gl → OnChip s m.sp n [base] →
      loads (.ld c t m disp) fun tok => tok = .s (word (at_ base)))
    ∧ lanes (.vld c t m disp) (fun _ => true) (fun j => (base + j * n) % 2 ^ 64)
    ∧ lanes (.vlds c t m disp) (fun _ => true) (fun j => (base + j * (tokWord x.b).toNat) % 2 ^ 64)
    ∧ lanes (.vgath c t m disp) (fun j => (laneOf t.width x.b j).isSome)
        (fun j => (((base : Int) + (BitVec.ofNat t.width ((laneOf t.width x.b j).getD 0)).toInt * n) % (2 ^ 64 : Nat)).toNat)
    ∧ (∀ i, (i = .vld c t m disp ∨ i = .vlds c t m disp) → Fires i s fr x → t.isLT = true → (∀ j, laneOk t.width x.lm j = false) →
        Gives s i fun tok => LanesAre t.width x.lm tok fun _ => none)
    ∧ (∀ leaf level, Fires (.ld c t m disp) s fr x → t.isST = true → m.sp = .gl → Mapped s base n leaf level → s.core.l1 = [] →
        field leaf 7 6 = 0 → leaf.getLsbD 2 = true → Unbarred fr m.lsid →
        ∃ u snaps, exec (.ld c t m disp) s = .next u ∧ s.SeenSame u
          ∧ u.core.frame = some ({ fr with snaps := snaps }.complete fr.cur (targetsOf (.ld c t m disp))
              (.s (word (ofBytes (mread s.mem (frameAddr leaf level base) n)))) 0 []))

/-- Stores as they fire (R58, R97 to R105, R135, R218, R219, R220, R221, R222, R371 to R375, R413): nothing that a program sees changes but the
frame; the pending effect names, in lane order, the bytes that the commit writes: the element at the address that the load of the same form
reads, and of lanes that write one place the highest alone. ST of a global address leaves the bytes of the leaf's frame, of a TYPE 01 leaf
a packet for its endpoint, and of a TYPE 10 leaf, which takes only 4 bytes, a doorbell. -/
def Obligations.StoresFire : Prop :=
  ∀ (c : Ctl) (t : Ty) (m : MemF) (disp : BitVec 20) (s : State) (fr : Frame) (x : In),
    s.guards = [] →
    let n := t.width / 8
    let base := (tokWord x.a + disp.signExtend 64).toNat
    let key (a : Nat) : Nat := (onChip s m.sp a).1
    let put (a v : Nat) : List ByteW := byteWs (key a) (bytesOf n v)
    let lanes (i : Instr) (data : Tok) (ok : Nat → Bool) (addr : Nat → Nat) : Prop :=
      let all := (List.range (laneCount t.width)).filter fun j => laneOk t.width x.lm j && ok j && (laneOf t.width data j).isSome
      let js := all.filter fun j => all.all fun k => decide (j < k → key (addr k) ≠ key (addr j))
      let through (v : View) : List Effect :=
        let l := js.filter fun j => (onChip s m.sp (addr j)).2 == v
        if l = [] then []
        else [.store m.lsid.toNat v (l.flatMap fun j => put (addr j) ((laneOf t.width data j).getD 0)) (l.map addr)]
      Fires i s fr x → t.isLT = true → m.sp ≠ .gl → OnChip s m.sp n (all.map addr) →
      exec i s = .next (s.firedWith i .null 0 (through .other ++ through .linear ++ through .swizzled))
    (Fires (.st c t m disp) s fr x → t.isST = true → m.sp ≠ .gl → OnChip s m.sp n [base] →
      exec (.st c t m disp) s = .next (s.firedWith (.st c t m disp) .null 0
        [.store m.lsid.toNat (onChip s m.sp base).2 (put base (tokWord x.b).toNat) [base]]))
    ∧ lanes (.vst c t m disp) x.b (fun _ => true) (fun j => (base + j * n) % 2 ^ 64)
    ∧ lanes (.vsts c t m disp) x.c (fun _ => true) (fun j => (base + j * (tokWord x.b).toNat) % 2 ^ 64)
    ∧ lanes (.vscat c t m disp) x.c (fun j => (laneOf t.width x.b j).isSome)
        (fun j => (((base : Int) + (BitVec.ofNat t.width ((laneOf t.width x.b j).getD 0)).toInt * n) % (2 ^ 64 : Nat)).toNat)
    ∧ (∀ leaf level, Fires (.st c t m disp) s fr x → t.isST = true → m.sp = .gl → Mapped s base n leaf level → leaf.getLsbD 3 = true →
        let bytes := bytesOf n (tokWord x.b).toNat
        let pa := frameAddr leaf level base
        let endp : BitVec 9 := leaf.extractLsb' 48 9
        let leaves (e : Effect) : Prop := ∃ u, exec (.st c t m disp) s = .next u ∧ s.SeenSame u
          ∧ u.core.frame = some (fr.complete fr.cur (targetsOf (.st c t m disp)) .null 0 [e])
        (field leaf 7 6 = 0 → leaves (.store m.lsid.toNat .other (byteWs pa bytes) [base]))
        ∧ (field leaf 7 6 = 1 → leaves (.remote m.lsid.toNat endp m.ord.isRel [(pa, bytes.map fun b => (b, 0xFF))]))
        ∧ (field leaf 7 6 = 2 → (t = .i32 ∨ t = .n32) →
            leaves (.door m.lsid.toNat endp m.ord.isRel (leaf.extractLsb' 16 24) ((tokWord x.b).setWidth 32))))

/-- What a scalar load or store raises (R97, R98, R99, R100, R218, R371 to R375): Alignment for an address that is no multiple of its size;
Scratch Bounds for one outside the footprint, the member's footprint or the Hold window, Illegal Operand for a rank that the gang lacks; Not
Present for a global address beyond 2^57, at an entry that is not valid, and, with MAL, at a malformed one; Access Rights where the leaf does
not allow the access. Which of two such faults is raised for one address is the model's choice (log 10). -/
def Obligations.AccessFaults : Prop :=
  ∀ (c : Ctl) (t : Ty) (m : MemF) (disp : BitVec 20) (store : Bool) (s : State) (fr : Frame) (x : In),
    let i : Instr := if store then .st c t m disp else .ld c t m disp
    t.isST = true → Fires i s fr x →
    let a := tokWord x.a + disp.signExtend 64
    let va := a.toNat
    let n := t.width / 8
    let off := va % 2 ^ 20
    let fails (cause : BitVec 8) : Prop := exec i s = .next ((s.markUnits 0).faultedWith i cause a)
    let misses (cause : BitVec 8) (mal rem : Bool) : Prop := ∃ u, exec i s = .next u ∧ s.SeenSame u
      ∧ u.core.frame = some (fr.recordFault i { cause := cause, addr := a, mal := mal, rem := rem })
    let p := s.part (s.partOfCore s.core.id)
    let root := p.root s.core.space
    (va % n ≠ 0 → fails cAlign)
    ∧ (va % n = 0 →
        ((m.sp = .sp ∨ m.sp = .sw) → s.core.footprint < va + n → fails cBounds)
        ∧ (m.sp = .sb → ((s.die (dieOfCore s.core.id)).window s.core.space).2 < va + n → fails cBounds)
        ∧ (m.sp = .nb → isSup s.core.id = false →
            (2 ^ 26 ≤ va → fails cBounds)
            ∧ (va < 2 ^ 26 → s.core.gsize ≤ va / 2 ^ 20 → fails cIllegal)
            ∧ (va < 2 ^ 26 → va / 2 ^ 20 < s.core.gsize → s.core.footprint < off + n → fails cBounds))
        ∧ (m.sp = .gl → 2 ^ 57 < va + n → fails cNotPresent)
        ∧ (m.sp = .gl → va + n ≤ 2 ^ 57 → s.tlb = [] → s.badGran = [] → s.softGran = [] → s.migs = [] →
            (p.rootOk s.core.space = false → misses cNotPresent true false)
            ∧ (∀ e level, p.rootOk s.core.space = true → WalkMeets s p.dies va (field root 39 12 * 4096) 4 e level →
                (e.getLsbD 0 = false → misses cNotPresent false false)
                ∧ (e.getLsbD 0 = true → (if e.getLsbD 1 then badLeaf p.dies p.endp level e else badPointer p.dies level e) = true →
                    misses cNotPresent true false)
                ∧ (e.getLsbD 0 = true → e.getLsbD 1 = true → badLeaf p.dies p.endp level e = false →
                    (if store then e.getLsbD 3 = false ∨ (field e 7 6 = 2 ∧ t ≠ .i32 ∧ t ≠ .n32)
                      else e.getLsbD 2 = false ∨ field e 7 6 = 2) →
                    misses cRights false (field e 7 6 == 1)))))

/-- A tensor slice of an integer format in the own scratchpad (R67, R223): lane j of TLD is the element at column offset B + j, zero outside
the extents, and TLD waits where a load would (R52, log 15); TST leaves the elements inside the extents to be stored and nothing else. -/
def Obligations.TensorSlices : Prop :=
  ∀ (c : Ctl) (t : Ty) (m : MemF) (td : BitVec 6) (s : State) (fr : Frame) (x : In),
    let d := getTd s.core.r td.toNat
    m.ord = .rlx → Quiet s fr → tdOk d = true → t.isIL = true → tdFmt d = t → tdSp d = .sp →
    let n := t.width / 8
    let i0 (j : Nat) : Nat := tdCol0 d + (tokWord x.b).toNat + j
    let i1 : Nat := tdRow0 d + field (tokWord x.a) 31 0
    let i2 : Nat := if tdNd d = 3 then field (tokWord x.a) 63 32 else 0
    let live (j : Nat) : Bool := inExtents d (i0 j) i1 i2
    let addr (j : Nat) : Nat := ((elemPieces d (i0 j) i1 i2).map Piece.addr).headD 0
    let js (ok : Nat → Bool) : List Nat := (List.range (laneCount t.width)).filter fun j => laneOk t.width x.lm j && ok j && live j
    (Fires (.tld c t m td) s fr x → InFootprint s.core n ((js fun _ => true).map addr) → (js fun _ => true) ≠ [] →
      (Unbarred fr m.lsid → Loads s fr (.tld c t m td) m.lsid fun tok => LanesAre t.width x.lm tok fun j =>
        some (if live j then ofBytes (mread s.mem (spKey s.core.id (addr j)) n) else 0))
      ∧ (¬Unbarred fr m.lsid → fr.goesEarly fr.cur m.lsid.toNat = false →
          exec (.tld c t m td) s = .next (s.waitsAt (.tld c t m td))))
    ∧ (Fires (.tst c t m td) s fr x →
      let l := js fun j => (laneOf t.width x.c j).isSome
      InFootprint s.core n (l.map addr) →
      exec (.tst c t m td) s = .next (s.firedWith (.tst c t m td) .null 0 (if l = [] then []
        else [.store m.lsid.toNat .linear
          (l.flatMap fun j => byteWs (spKey s.core.id (addr j)) (bytesOf n ((laneOf t.width x.c j).getD 0))) (l.map addr)])))

/-- PREF completes on any address, faults on none, and leaves memory and the registers as they are; VJOIN and FENCE complete and leave
their effect, once no load of lower LSID is still to fire, and wait until then (log 15); a FENCE that orders stores before loads at gang
scope or wider waits until the stores of earlier blocks are acknowledged too (log 49), and one that orders later reads there drops the L1
(R121, R224, R225, R228). -/
def Obligations.PrefetchJoinFence : Prop :=
  ∀ (c : Ctl) (s : State) (fr : Frame) (x : In),
    (∀ l2 m disp, Fires (.pref c l2 m disp) s fr x → ∃ t, exec (.pref c l2 m disp) s = .next t
      ∧ t.core.frame = some (fr.complete fr.cur (targetsOf (.pref c l2 m disp)) .null 0 [])
      ∧ t.mem = s.mem ∧ t.core.r = s.core.r ∧ t.core.pc = s.core.pc ∧ t.core.e = s.core.e ∧ t.parked = s.parked)
    ∧ (∀ lsid : BitVec 5, Fires (.vjoin c lsid) s fr x →
        let below := fr.loadsBelow fr.cur lsid.toNat
        (below = false → exec (.vjoin c lsid) s = .next (s.firedWith (.vjoin c lsid) .null 0 [.vjoin lsid.toNat]))
        ∧ (below = true → exec (.vjoin c lsid) s = .next (s.waitsAt (.vjoin c lsid))))
    ∧ (∀ k (lsid : BitVec 5) sc, Fires (.fence c k lsid sc) s fr x →
        let below := fr.loadsBelow fr.cur lsid.toNat || (decide (sc ≠ .task ∧ (k = .wr ∨ k = .all)) && !s.acksOf s.core.id)
        (below = false → exec (.fence c k lsid sc) s
          = .next ((if sc ≠ .task ∧ (k = .rr ∨ k = .wr ∨ k = .all) then { s with core := { s.core with l1 := [] } } else s).firedWith
              (.fence c k lsid sc) .null 0 [.fence lsid.toNat k sc]))
        ∧ (below = true → exec (.fence c k lsid sc) s = .next (s.waitsAt (.fence c k lsid sc))))

/-- An atomic on the own scratchpad is checked when it fires and performed at the binding point: it sends no token yet (R53, R226, R227). BKOP
inside the Hold window of the task's space leaves its operation on the aligned element; .hist addresses the counter that B numbers (R105,
R231). -/
def Obligations.AtomicsAndBankOps : Prop :=
  (∀ (c : Ctl) (sc w64 : Bool) (m : MemF) (disp : BitVec 20) (s : State) (fr : Frame) (x : In),
     m.sp = .sp → s.guards = [] → s.badGran = [] →
     let n := if w64 then 8 else 4
     let va := tokWord x.a + disp.signExtend 64
     InFootprint s.core n [va.toNat] →
     (∀ op, Fires (.amo c op sc w64 m disp) s fr x → exec (.amo c op sc w64 m disp) s
       = .next (s.pendsWith (.amo c op sc w64 m disp)
           [.atomic m.lsid.toNat (.here (spKey s.core.id va.toNat)) (.amo op) w64 sc (tokWord x.b) .linear va]))
     ∧ (Fires (.cas c sc w64 m disp) s fr x → exec (.cas c sc w64 m disp) s
       = .next (s.pendsWith (.cas c sc w64 m disp)
           [.atomic m.lsid.toNat (.here (spKey s.core.id va.toNat)) (.cas (tokWord x.b)) w64 sc (tokWord x.c) .linear va])))
  ∧ (∀ (c : Ctl) (op : BkOp) (t : Ty) (m : MemF) (disp : BitVec 20) (s : State) (fr : Frame) (x : In),
      Fires (.bkop c op t m disp) s fr x → m.sp = .sb → s.guards = [] →
      let w64 := t == .i64 || t == .n64
      let n := if w64 then 8 else 4
      let base := (tokWord x.a + disp.signExtend 64).toNat
      let addr := if op = .hist then (base + 4 * (tokWord x.b).toNat) % 2 ^ 64 else base
      let d := dieOfCore s.core.id
      let (first, len) := (s.die d).window s.core.space
      addr % n = 0 → addr + n ≤ len →
      exec (.bkop c op t m disp) s = .next (s.firedWith (.bkop c op t m disp) .null 0
        [.bank m.lsid.toNat op w64 t.isSigned (holdKey d (first + addr)) (tokWord x.b) (BitVec.ofNat 64 addr)]))

/-! ## Synchronisation as it fires -/

/-- Barriers (R130, R229, R230): INIT and ARRIVE leave their effect with result 0; WAIT completes as an acquire once the recorded phase has
completed and waits until then; SYNC arrives once, when it fires and the packets of its task are acknowledged (R120), and completes at once when
that arrival completes the phase. On a domain barrier, 448 to 511, the same holds over the phase of its home, which an arrival reaches by packet
(R398); INIT raises Illegal Operand there, and so does each of them where the barrier is not configured for the task. -/
def Obligations.BarriersFire : Prop :=
  ∀ (c : Ctl) (lsid : BitVec 5) (b : BitVec 9) (s : State) (fr : Frame) (x : In),
    let drop (s : State) : State := { s with core := { s.core with l1 := [] } }
    let dom := s.domainBar s.core b
    let known := b.toNat < 448 ∨ dom.isSome = true
    let phase : BitVec 32 := if b.toNat < 448 then (barOf (s.coreAt (s.core.member 0)) b).phase
      else match dom with | some (d, _) => d.phase | none => 0
    let illegal (i : Instr) : Prop := exec i s = .next ((s.markUnits 0).faultedWith i cIllegal 0)
    (Fires (.barInit c lsid b) s fr x →
      let n := (tokWord x.a).toNat
      (b.toNat < 448 → 0 < n → n ≤ 65535 → exec (.barInit c lsid b) s
        = .next (s.firedWith (.barInit c lsid b) (.s 0) 0 [.barInit lsid.toNat b n]))
      ∧ (448 ≤ b.toNat ∨ n = 0 ∨ 65535 < n → illegal (.barInit c lsid b)))
    ∧ (Fires (.barArrive c lsid b) s fr x →
      (known → exec (.barArrive c lsid b) s = .next (s.firedWith (.barArrive c lsid b) (.s 0) 0 [.barArrive lsid.toNat b]))
      ∧ (¬known → illegal (.barArrive c lsid b)))
    ∧ (Fires (.barWait c lsid b) s fr x →
      let done := match lookup b.toNat s.core.barRec with
        | none => True
        | some ph => phase ≠ ph
      (known → done → exec (.barWait c lsid b) s = .next ((drop s).firedWith (.barWait c lsid b) (.s 0) 0 []))
      ∧ (known → ¬done → exec (.barWait c lsid b) s = .next (s.waitsAt (.barWait c lsid b)))
      ∧ (¬known → illegal (.barWait c lsid b)))
    ∧ (Fires (.barSync c lsid b) s fr x → known → fr.arrived.getLsbD fr.cur = false → s.acksOf s.core.id = false →
      exec (.barSync c lsid b) s = .next (s.waitsAt (.barSync c lsid b)))
    ∧ (Fires (.barSync c lsid b) s fr x → known → fr.arrived.getLsbD fr.cur = false → s.acksOf s.core.id = true →
      let s' := (s.arrive s.core.id b).onFrame fun f => { f with arrived := setBit f.arrived f.cur }
      (s'.barDone s'.core b = true → exec (.barSync c lsid b) s = .next ((drop s').firedWith (.barSync c lsid b) (.s 0) 0 []))
      ∧ (s'.barDone s'.core b = false → exec (.barSync c lsid b) s = .next (s'.waitsAt (.barSync c lsid b))))
    ∧ (Fires (.barSync c lsid b) s fr x → ¬known → illegal (.barSync c lsid b))

/-- Counters (R39, R232, R233): each CTR form leaves its change for the commit, CTR.add at gang scope for the member that A names;
CTRWAIT completes as an acquire with the count once count − t is not negative as a signed number, and waits until then. -/
def Obligations.CountersFire : Prop :=
  ∀ (c : Ctl) (lsid k : BitVec 5) (rel : Bool) (s : State) (fr : Frame) (x : In),
    let v : BitVec 32 := (tokWord x.a).setWidth 32
    let count := cget s.core.r.k k.toNat
    (Fires (.ctrInc c lsid rel k) s fr x → exec (.ctrInc c lsid rel k) s
      = .next (s.firedWith (.ctrInc c lsid rel k) .null 0 [.ctr lsid.toNat .inc k 1 none]))
    ∧ (Fires (.ctrAdd c lsid rel false k) s fr x → exec (.ctrAdd c lsid rel false k) s
      = .next (s.firedWith (.ctrAdd c lsid rel false k) .null 0 [.ctr lsid.toNat .add k v none]))
    ∧ (Fires (.ctrAdd c lsid rel true k) s fr x →
      let rank := field (tokWord x.a) 53 48
      (rank < s.core.gsize → exec (.ctrAdd c lsid rel true k) s
        = .next (s.firedWith (.ctrAdd c lsid rel true k) .null 0 [.ctr lsid.toNat .add k v (some rank)]))
      ∧ (s.core.gsize ≤ rank → exec (.ctrAdd c lsid rel true k) s
        = .next ((s.markUnits 0).faultedWith (.ctrAdd c lsid rel true k) cIllegal 0)))
    ∧ (Fires (.ctrSet c lsid rel k) s fr x → exec (.ctrSet c lsid rel k) s
      = .next (s.firedWith (.ctrSet c lsid rel k) .null 0 [.ctr lsid.toNat .set k v none]))
    ∧ (Fires (.ctrReset c lsid rel k) s fr x → exec (.ctrReset c lsid rel k) s
      = .next (s.firedWith (.ctrReset c lsid rel k) .null 0 [.ctr lsid.toNat .reset k 0 none]))
    ∧ (Fires (.ctrResetKeep c lsid rel k) s fr x → exec (.ctrResetKeep c lsid rel k) s
      = .next (s.firedWith (.ctrResetKeep c lsid rel k) .null 0 [.ctr lsid.toNat .resetKeep k 0 none]))
    ∧ (∀ sc, Fires (.ctrwait c lsid sc k) s fr x →
      (0 ≤ (count - v).toInt → exec (.ctrwait c lsid sc k) s
        = .next ({ s with core := { s.core with l1 := [] } }.firedWith (.ctrwait c lsid sc k) (.s (count.setWidth 64)) 0 []))
      ∧ ((count - v).toInt < 0 → exec (.ctrwait c lsid sc k) s = .next (s.waitsAt (.ctrwait c lsid sc k))))

/-- Channels (R242, R243, R244): a CHBIND whose checks pass and a CHADV leave their effect, which for a CHADV advances the pointer in the
owner's handle; CHWAIT of a role that the task holds, on its own handle or on a member's handle of another owner, completes when enough slots
are free or filled at the owner, with the byte offset of the next slot, of a member's handle under the owner's rank, as an acquire of what the
holder of the other role released, which drops the L1 unless one task holds both roles (R107, R130), and waits until then; on an unbound handle
or for a role that the task does not hold it raises Channel Misuse, also where n is 0 (log 112). -/
def Obligations.ChannelsFire : Prop :=
  ∀ (c : Ctl) (h : BitVec 4) (s : State) (fr : Frame) (x : In),
    let a := tokWord x.a
    let b := tokWord x.b
    let fails (i : Instr) (cause : BitVec 8) : Prop := exec i s = .next ((s.markUnits 0).faultedWith i cause 0)
    -- the owner, its handle and its channel, seen from a handle of the task, and the role held on it
    let owned (m y : Chan) (o : Nat) (oh : BitVec 4) : Prop := chanOf s.core h = some m ∧ y.own = true ∧
      ((m.own = true ∧ y = m ∧ o = s.core.id ∧ oh = h)
       ∨ (m.own = false ∧ o = s.core.member m.orank.toNat ∧ oh = m.och ∧ chanOf (s.coreAt o) oh = some y))
    let held (prod : Bool) (m y : Chan) : Prop :=
      if m.own then (if prod then y.pb = 1 else y.cb = 1) else (if prod then m.pb = 2 ∧ y.pb = 2 else m.cb = 2 ∧ y.cb = 2)
    (∀ (f : BindForm) (i : Instr),
        ((f = .own ∧ i = .chbindOwn c h) ∨ (f = .prod ∧ i = .chbindProd c h) ∨ (f = .cons ∧ i = .chbindCons c h)) →
        Fires i s fr x →
        (s.chbindCheck s.core f h a b = none → exec i s = .next (s.firedWith i .null 0 [.chbind f h a b]))
        ∧ (∀ cause, s.chbindCheck s.core f h a b = some cause → fails i cause))
    ∧ (∀ prod, Fires (.chadv c prod h) s fr x →
        exec (.chadv c prod h) s = .next (s.firedWith (.chadv c prod h) .null 0 [.chadv prod h a.toNat]))
    ∧ (∀ prod m y o oh n, owned m y o oh → held prod m y →
        chanOf ((s.regEffect (.chadv prod h n)).coreAt o) oh
          = some (if prod then { y with p := y.p + BitVec.ofNat 32 n } else { y with c := y.c + BitVec.ofNat 32 n }))
    ∧ (∀ prod m y o oh, Fires (.chwait c prod h) s fr x → owned m y o oh → held prod m y →
        let filled := (y.p - y.c).toNat
        let room := if prod then y.slots.toNat - filled else filled
        let next := (if prod then y.p else y.c).toNat % y.slots.toNat
        let off := y.base.toNat + next * (64 * y.size.toNat)
        (a.toNat ≤ y.slots.toNat → a.toNat ≤ room → exec (.chwait c prod h) s
          = .next ((if y.pb = 1 ∧ y.cb = 1 then s else { s with core := { s.core with l1 := [] } }).firedWith (.chwait c prod h)
              (.s (BitVec.ofNat 64 (if m.own then off else m.orank.toNat * 2 ^ 20 ||| off))) 0 []))
        ∧ (a.toNat ≤ y.slots.toNat → room < a.toNat → exec (.chwait c prod h) s = .next (s.waitsAt (.chwait c prod h)))
        ∧ (y.slots.toNat < a.toNat → fails (.chwait c prod h) cChannel))
    ∧ (∀ prod, Fires (.chwait c prod h) s fr x → (∀ m y o oh, owned m y o oh → ¬held prod m y) → fails (.chwait c prod h) cChannel)

/-- The waits and tests on tickets (R127, R129, R236, R237, R241, R260, R264): a final status is delivered with its flags and, unless it is
CANCELLED, as an acquire, which drops the L1 where the command's scope is the gang or wider (R107, R126); a flag that is enabled traps
(R72), but in a block whose atomic has been performed it is only set (R53, log 97); a completion of task scope keeps the L1 (log 48); a pending
status is delivered by the test, and the wait goes on; a ticket of another class or one that is not testable raises Illegal Operand. -/
def Obligations.TicketWaits : Prop :=
  ∀ (c : Ctl) (i : Instr) (test : Bool) (classes : List (BitVec 4)) (s : State) (fr : Frame) (x : In),
    ((i = .copyw c ∧ test = false ∧ classes = [1, 6]) ∨ (i = .copywTest c ∧ test = true ∧ classes = [1, 6])
      ∨ (i = .mwait c ∧ test = false ∧ classes = [2, 3]) ∨ (i = .mwaitTest c ∧ test = true ∧ classes = [2, 3])
      ∨ (i = .collw c ∧ test = false ∧ classes = [4, 5]) ∨ (i = .collwTest c ∧ test = true ∧ classes = [4, 5])) →
    Fires i s fr x →
    (∀ tk st, ticketOf (tokWord x.a) = some tk → tk.eng ∈ classes → s.core.e.status tk = some st →
      let fl : Flags := BitVec.ofNat 7 (field st 38 32)
      let seen : State := if field st 63 62 = 3 ∨ s.core.e.wide tk = false then s else { s with core := { s.core with l1 := [] } }
      (field st 63 62 ≠ 0 → fsrEnables s.core.r &&& fl = 0 ∨ fr.bound = true → exec i s = .next (seen.firedWith i (.s st) fl []))
      ∧ (field st 63 62 ≠ 0 → fsrEnables s.core.r &&& fl ≠ 0 → fr.bound = false →
        ∃ cause, trapCause (fsrEnables s.core.r) fl = some cause
          ∧ exec i s = .next ((seen.markUnits (unitBits s.core.r i)).faultedWith i cause 0))
      ∧ (field st 63 62 = 0 → test = true → exec i s = .next (s.firedWith i (.s st) 0 []))
      ∧ (field st 63 62 = 0 → test = false → exec i s = .next (s.waitsAt i)))
    ∧ ((∀ tk, ticketOf (tokWord x.a) = some tk → tk.eng ∉ classes ∨ s.core.e.status tk = none) →
        exec i s = .next ((s.markUnits (unitBits s.core.r i)).faultedWith i cIllegal 0))

/-! ## Commands as they fire -/

/-- Every command of an engine (R58, R142, R170, R236, R238, R240, R254 to R258, R263, R286, R298, R313) fires with its ticket, the next
serial of its class in the task and the block, and leaves its issue for the commit; SPAWN and GLAUNCH check the descriptor's address, a
matrix command its tile. -/
def Obligations.CommandsTakeTickets : Prop :=
  ∀ (c : Ctl) (o : CmdOpt) (p q r : BitVec 6) (tile : BitVec 3) (tb : Bool) (h : BitVec 4) (slot : BitVec 2)
    (i : Instr) (eng : BitVec 4) (arg : Word) (s : State) (fr : Frame) (x : In),
    let a := tokWord x.a
    ((eng = 1 ∧ arg = 0 ∧ (i = .copy c p q o ∨ i = .copyCh c p q h o))
      ∨ (eng = 2 ∧ arg = 0 ∧ tile.toNat < s.core.acc
        ∧ (i = .mzero c tile o ∨ i = .mma c tb p q tile o ∨ i = .mmag c tb p q tile o ∨ i = .gmma c p q r tile o))
      ∨ (eng = 3 ∧ arg = 0 ∧ i = .sigstrm c p slot o)
      ∨ (eng = 4 ∧ arg = 0 ∧ (i = .rgrp c p q r o ∨ i = .rtopk c p q r o ∨ i = .rbin c p q r o ∨ i = .bpermRequest c p q r o
          ∨ i = .bpermOpen c p q r o ∨ i = .dspat c p q r o ∨ i = .cmbn c p q r o ∨ i = .brel c r o ∨ i = .expld c p q r o))
      ∨ (eng = 5 ∧ arg = 0 ∧ (i = .collAr c p q r o ∨ i = .collRs c p q r o ∨ i = .collAg c p q r o ∨ i = .collA2a c p q r o
          ∨ i = .collBc c p q r o ∨ i = .collOp c p q r o))
      ∨ (eng = 6 ∧ arg = a ∧ field a 5 0 = 0 ∧ field a 63 57 = 0 ∧ (i = .spawn c o ∨ i = .glaunch c o))) →
    Fires i s fr x →
    let below := ((fr.words.take fr.cur).filter fun w => match decode w with | .ok j => engOf j == some eng | .error _ => false).length
    let tk : Ticket := { eng := eng, serial := cget s.core.e.serial eng.toNat + BitVec.ofNat 16 below }
    exec i s = .next (s.firedWith i (.s (BitVec.ofNat 64 (tk.eng.toNat * 2 ^ 20 + tk.serial.toNat))) 0
      [.cmd (fr.words.getD fr.cur 0) tk arg])

/-- A SPAWN or GLAUNCH whose descriptor address is not 64-byte aligned raises Alignment, one with a bit of [63:57] Not Present; a matrix
command whose tile lies at or above ACC raises Illegal Operand; ARM passes its ticket on and leaves its entry, and a seventeenth entry
raises Illegal Operand (R170, R29, R234, R251). TRAP raises User Trap with its code (R172). -/
def Obligations.CommandFaultsArmAndTrap : Prop :=
  (∀ (c : Ctl) (o : CmdOpt) (s : State) (fr : Frame) (x : In),
     let a := tokWord x.a
     (∀ i, (i = .spawn c o ∨ i = .glaunch c o) → Fires i s fr x →
       (field a 5 0 ≠ 0 → exec i s = .next ((s.markUnits 0).faultedWith i cAlign a))
       ∧ (field a 5 0 = 0 → field a 63 57 ≠ 0 → exec i s = .next ((s.markUnits 0).faultedWith i cNotPresent a)))
     ∧ (∀ tile, Fires (.mzero c tile o) s fr x → s.core.acc ≤ tile.toNat →
         exec (.mzero c tile o) s = .next ((s.markUnits 0).faultedWith (.mzero c tile o) cIllegal 0))
     ∧ (∀ rel k tk, Fires (.arm c rel k) s fr x → ticketOf a = some tk → x.a = .s a →
         (∀ j < fr.cur, (fr.instr j).any isArm = true → fr.fired.getLsbD j = true) →
         let entered := s.core.e.armed.length
           + (fr.effs.filter fun (j, e) => match e with | .arm _ _ _ _ => decide (j < fr.cur) | _ => false).length
         (entered < 16 → exec (.arm c rel k) s
           = .next (s.firedWith (.arm c rel k) (.s a) 0 [.arm tk rel k ((tokWord x.b).setWidth 32)]))
         ∧ (16 ≤ entered → exec (.arm c rel k) s = .next ((s.markUnits 0).faultedWith (.arm c rel k) cIllegal 0))))
  ∧ (∀ (c : Ctl) (code : BitVec 13) (s : State) (fr : Frame) (x : In), Fires (.trap c code) s fr x →
      exec (.trap c code) s = .next ((s.markUnits 0).faultedWith (.trap c code) 0x0E (BitVec.ofNat 64 code.toNat)))

/-! ## Register writes, tiles and signatures as they fire -/

/-- WRITE, PTB and TDSET change nothing but the frame when they fire; the register takes its value at the commit (R51, R58, R161, R167,
R248). -/
def Obligations.RegisterWritesPend : Prop :=
  ∀ (c : Ctl) (s : State) (fr : Frame) (x : In),
    (∀ cls reg, Fires (.write c cls reg) s fr x → exec (.write c cls reg) s = .next (s.firedWith (.write c cls reg) .null 0
        [.write cls reg (match x.a with | .v v ok => .v v (ok &&& x.lm) | t => t)]))
    ∧ (∀ b, Fires (.ptb c b) s fr x → exec (.ptb c b) s = .next (s.firedWith (.ptb c b) .null 0 [.ptb b (tokWord x.a)]))
    ∧ (∀ td n, Fires (.tdset c td n) s fr x → exec (.tdset c td n) s
        = .next (s.firedWith (.tdset c td n) .null 0 [.tdset td n (tokWord x.a)]))

/-- MLDA and MSTA of an operand in the own scratchpad without a scale array (R245, R250, R259): MLDA leaves bytes of its own tile and of
nothing else, MSTA leaves bytes of the elements inside the extents and of nothing else, and neither changes memory when it fires. -/
def Obligations.TileRows : Prop :=
  ∀ (c : Ctl) (lsid : BitVec 5) (sc : Scope) (td : BitVec 6) (tile : BitVec 3) (s : State) (fr : Frame) (x : In),
    let d := getTd s.core.r td.toNat
    let r0 := (tokWord x.a).toNat
    let n := (tdFmt d).width / 8
    let live := (rowElems r0).filter fun p => inExtents d (tdCol0 d + p.2) (tdRow0 d + p.1) 0
    let addr (p : Nat × Nat) : Nat := ((elemPieces d (tdCol0 d + p.2) (tdRow0 d + p.1) 0).map Piece.addr).headD 0
    Quiet s fr → Unbarred fr lsid → fsrEnables s.core.r = 0 → s.core.e.busyTiles.getLsbD tile.toNat = false →
    rowsCheck s.core d tile.toNat r0 = none → tdSp d = .sp → tdSoff d = 0 → 8 ≤ (tdFmt d).width → InFootprint s.core n (live.map addr) →
    (Fires (.mlda c lsid sc false td tile) s fr x → ∃ ws fl l, exec (.mlda c lsid sc false td tile) s
        = .next ((s.snapped l).firedWith (.mlda c lsid sc false td tile) .null fl [.tile lsid.toNat tile.toNat ws])
      ∧ ∀ b ∈ ws, accKey s.core.id (tile.toNat * 65536) ≤ b.key ∧ b.key < accKey s.core.id (tile.toNat * 65536 + 65536))
    ∧ (Fires (.msta c lsid sc td tile) s fr x → ∃ effs fl, exec (.msta c lsid sc td tile) s
        = .next (s.firedWith (.msta c lsid sc td tile) .null fl effs)
      ∧ ∀ key, (∀ p ∈ live, ¬(spKey s.core.id (addr p) ≤ key ∧ key < spKey s.core.id (addr p) + n)) →
          cget (w := 8) (effs.foldl applyPending s.mem) key = cget (w := 8) s.mem key)

/-- The signature instructions (R290 to R304) on usable slots that no command keeps busy: SIGCFG leaves the configuration, the others leave
as many coefficients as the slot holds; SIGID's are 1.0 and zeros, SIGLOG's first is zero, and SIGMOV moves coefficients unchanged. -/
def Obligations.SignaturesFire : Prop :=
  ∀ (c : Ctl) (x y z : BitVec 2) (s : State) (fr : Frame) (t : In),
    s.badGran = [] → s.softGran = [] → fsrEnables s.core.r = 0 →
    let cfg (k : BitVec 2) : BitVec 32 := cget s.core.r.sig k.toNat
    let tiles (k : BitVec 2) : BitVec 8 := (if (cfg k).getLsbD 30 then 3 else 1) <<< (2 * k.toNat)
    let usable (k : BitVec 2) : Prop := (cfg k).getLsbD 31 = true ∧ 2 * k.toNat + (if (cfg k).getLsbD 30 then 1 else 0) < s.core.acc
      ∧ s.core.e.busyTiles &&& tiles k = 0
    let like (k : BitVec 2) : Prop := (cfg k).extractLsb' 19 11 = (cfg x).extractLsb' 19 11
    let f := (cfg x).toNat % 2 ^ 16
    let coef (q : Nat) : Nat := s.readNat (accKey s.core.id (2 * x.toNat * 65536 + 4 * q)) 4
    let count (lo : Nat) (vals : List (BitVec 32)) : Prop :=
      vals.length + lo = ((List.range (sgN (cfg x) + 1)).map fun i => sgD (cfg x) ^ i).sum
    let leaves (i : Instr) (lo : Nat) (P : List (BitVec 32) → Prop) : Prop :=
      Fires i s fr t → ∃ vals fl, exec i s = .next (s.firedWith i .null fl [.sigSet x lo vals]) ∧ P vals
    (Fires (.sigcfg c x) s fr t →
      let d := (tokWord t.a).toNat
      let n := (tokWord t.b).toNat
      let words := ((List.range (n + 1)).map fun i => d ^ i).sum
      1 ≤ d → d ≤ 64 → 1 ≤ n → n ≤ 12 → words ≤ 32768 → 2 * x.toNat + (if 16384 < words then 1 else 0) < s.core.acc →
      exec (.sigcfg c x) s = .next (s.firedWith (.sigcfg c x) .null 0 [.sigCfg x
        (1#1 ++ (if 16384 < words then 1#1 else 0#1) ++ BitVec.ofNat 4 n ++ BitVec.ofNat 7 d ++ 0#3 ++ BitVec.ofNat 16 words)]))
    ∧ (usable x →
        leaves (.sigid c x) 0 (fun vals => count 0 vals ∧ vals.head? = some 0x3F800000#32 ∧ ∀ v ∈ vals.tail, v = 0)
        ∧ leaves (.sigstep c x) 0 (count 0) ∧ leaves (.sigscl c x) 1 (count 1)
        ∧ (Fires (.sigmovCv c x) s fr t → (tokWord t.a).toNat < f → Gives s (.sigmovCv c x) fun tok =>
            LanesAre 32 t.lm tok fun j => if (tokWord t.a).toNat + j < f then some (coef ((tokWord t.a).toNat + j)) else none)
        ∧ (Fires (.sigmovVc c x) s fr t → (tokWord t.a).toNat < f → exec (.sigmovVc c x) s
            = .next (s.firedWith (.sigmovVc c x) .null 0 [.sigPut x (((List.range 64).filter fun j =>
                laneOk 32 t.lm j && (laneOf 32 t.b j).isSome && decide ((tokWord t.a).toNat + j < f)).map fun j =>
                ((tokWord t.a).toNat + j, BitVec.ofNat 32 ((laneOf 32 t.b j).getD 0)))]))
        ∧ (Fires (.sigmovSs c x) s fr t → s.guards = [] → (tokWord t.a).toNat % 4 = 0 → (tokWord t.a).toNat + 4 * f ≤ s.core.footprint →
            exec (.sigmovSs c x) s = .next (s.firedWith (.sigmovSs c x) .null 0 [.sigStore ((List.range f).flatMap fun q =>
              byteWs (spKey s.core.id (tokWord t.a).toNat + 4 * q) (bytesOf 4 (coef q)))]))
        ∧ (Fires (.sigmovSl c x) s fr t → s.guards = [] → s.core.view = [] → (tokWord t.a).toNat % 4 = 0 →
            fr.snaps = [] → (tokWord t.a).toNat + 4 * f ≤ s.core.footprint →
            exec (.sigmovSl c x) s = .next (s.firedWith (.sigmovSl c x) .null 0 [.sigSet x 0 ((List.range f).map fun q =>
              BitVec.ofNat 32 (s.readNat (spKey s.core.id (tokWord t.a).toNat + 4 * q) 4))])))
    ∧ (usable x → usable y → like y →
        leaves (.siglog c x y) 0 (fun vals => count 0 vals ∧ vals.head? = some 0) ∧ leaves (.sigexp c x y) 0 (count 0)
        ∧ leaves (.siginv c x y) 0 (count 0) ∧ (usable z → like z → leaves (.sigjoin c x y z) 0 (count 0)))


/-! ## System instructions, privilege, and what a firing leaves alone -/

/-- The system instructions on a supervisor core (R306, R308 to R317): each leaves its operation for the commit, with the operands of slots
A and B; PSR.wr does so for the listed registers and raises Illegal Operand for another number.
A selected system instruction on a task core raises Privilege, and a selected word of a unit that supervisor cores lack raises Illegal
Operand there, whatever their operands (R16, R154, R306). -/
def Obligations.SystemInstructions : Prop :=
  (∀ (c : Ctl) (s : State) (fr : Frame) (x : In),
     let a := tokWord x.a
     let b := tokWord x.b
     let h := a.toNat
     let leaves (i : Instr) (op : SysOp) : Prop := Fires i s fr x → exec i s = .next (s.firedWith i .null 0 [.sys op])
     let listed : List (BitVec 13) := [0x000, 0x001, 0x002, 0x003, 0x010, 0x011, 0x012, 0x013, 0x020, 0x021, 0x022, 0x030, 0x031, 0x040,
       0x050, 0x051]
     (∀ n, (n ∈ listed → leaves (.psrWrite c n) (.psr n a))
       ∧ (n ∉ listed → Fires (.psrWrite c n) s fr x →
           exec (.psrWrite c n) s = .next ((s.markUnits 0).faultedWith (.psrWrite c n) cIllegal 0)))
     ∧ leaves (.spctlWrite c) (.psr 0x013 a) ∧ leaves (.spholdWrite c) (.psr 0x012 a) ∧ leaves (.spptWrite c) (.psr 0x011 a)
     ∧ leaves (.qwdWrite c) (.psr 0x022 a) ∧ leaves (.contextAreaWrite c false) (.psr 0x050 a)
     ∧ leaves (.contextAreaWrite c true) (.psr 0x051 a) ∧ leaves (.dbgctlWrite c) (.psr 0x040 a)
     ∧ leaves (.tresume c) (.tresume h b) ∧ leaves (.tresumeSame c) (.tresumeSame h)
     ∧ leaves (.tlbinvAll c) .tlbAll ∧ leaves (.tlbinvPage c) (.tlbPage a) ∧ leaves (.tlbinvSpace c) (.tlbSpace a)
     ∧ leaves (.ctxopSave c) (.save h b) ∧ leaves (.ctxopRestore c) (.restore h b) ∧ leaves (.ctxopKill c) (.kill h)
     ∧ leaves (.budgetSet c) (.budgetSet h b) ∧ leaves (.budgetAdd c) (.budgetAdd h b) ∧ leaves (.halt c) .halt
     ∧ leaves (.dbgStep c) (.step h) ∧ leaves (.dbgBrk c) (.brk h b) ∧ leaves (.dbgClrbrk c) (.clrbrk h)
     ∧ leaves (.cacheL1inv c) (.l1inv h) ∧ leaves (.cacheIcinv c) (.icinv h) ∧ leaves (.cacheL2wb c) (.l2wb a))
  ∧ (∀ (i : Instr) (c : Ctl) (lm : Mask) (s : State) (fr : Frame),
     ctlOf i = some c → s.core.frame = some fr → fr.fired.getLsbD fr.cur = false → Selects c (fr.slot fr.cur .p) lm →
     (∀ sl ∈ [Slot.a, Slot.b, Slot.c], needOf i sl ≠ .no → ∃ t, fr.slot fr.cur sl = some t ∧ t ≠ .null) →
     (isSystem i = true → s.core.id < 1024 → exec i s = .next (s.faultedWith i cPriv 0))
     ∧ (notOnSupervisor i = true → 1024 ≤ s.core.id → exec i s = .next (s.faultedWith i cIllegal 0)))

/-- Nothing of a block is state before its commit: the firing of any instruction word leaves the registers, the engines and counters, the pc,
memory, the partitions, queues and gangs as they are (R58). -/
def Obligations.FiringFrame : Prop :=
  ∀ (i : Instr) (s t : State), (ctlOf i).isSome = true → exec i s = .next t →
    t.core.r = s.core.r ∧ t.core.e = s.core.e ∧ t.core.pc = s.core.pc ∧ t.core.st = s.core.st ∧ t.core.task = s.core.task
    ∧ t.core.stop = s.core.stop ∧ t.core.committed = s.core.committed ∧ t.core.id = s.core.id ∧ t.mem = s.mem
    ∧ t.parts = s.parts ∧ t.queues = s.queues ∧ t.gangs = s.gangs ∧ t.saved = s.saved ∧ t.qbgt = s.qbgt ∧ t.qwd = s.qwd
    ∧ t.cycle = s.cycle ∧ t.frozen = s.frozen

/-! ## Blocks -/

/-- BLOCK_FETCH (R42, R46, R55, R59, R378, R380, R397, R420, R429): a prediction reads its block into one of three speculative frames, in which
nothing has fired, and changes no register, byte or record; the fetch in turn takes that frame where it is the block's, or leaves a repeat block
whose count is 0 at its arrival by its leaf ZL, which counts as one block (R56; of the blocks committed too: log 99); a task whose budget is used
up, whose TRAP leaf is still to be reported (log 40), or whose pc is misaligned, stops there with its record; a supervisor core reads the block
at pc from its scratchpad into a frame in which nothing has fired, and stops for good at a malformed header. -/
def Obligations.BlockFetchStarts : Prop :=
  ∀ s : State, s.core.st = .running →
    let pc := s.core.pc
    let id := s.core.id
    let unread : Prop := ∀ f, (pc, some f) ∉ s.core.spec
    (∀ (fr : Frame) (w : Word), s.core.frame = some fr → s.core.spec.length < 3 → Reach s (.blockFetch (some w)) fun t =>
      (∃ x : Option Frame, t.core.spec = s.core.spec ++ [(w, x)]
        ∧ ∀ f, x = some f → f.start = w ∧ f.fired = 0 ∧ f.effs = [] ∧ f.faults = [])
      ∧ t.core.frame = some fr ∧ t.core.r = s.core.r ∧ t.core.pc = pc ∧ t.core.st = .running ∧ t.mem = s.mem)
    ∧ (s.core.frame = none → s.heldBySup id = false → s.tokensOut s.core = false → s.core.killed = false → id < 1024 →
        (s.core.r.bgt = 0 → exec (.blockFetch none) s = .next (s.stopCore id { cause := 0x0D, resume := pc }))
        ∧ (∀ code, s.core.r.bgt ≠ 0 → s.core.trapDue = some code → Reach s (.blockFetch none) fun t =>
            t.core.st = .stopped ∧ t.core.pc = pc ∧ t.core.trapDue = none ∧ t.core.r = s.core.r ∧ t.mem = s.mem
            ∧ ∃ w, t.core.stop = some w ∧ field (w.getD 0 0) 7 0 = 0x0E ∧ w.getD 3 0 = BitVec.ofNat 64 code)
        ∧ (s.core.r.bgt ≠ 0 → s.core.trapDue = none → s.core.stepDue = none → s.core.brk = [] → s.core.preempt = none →
            (pc.toNat % 32 ≠ 0 → unread →
              exec (.blockFetch none) s = .next (s.stopCore id { cause := 0x06, resume := pc, addr := pc, acc := 3 }))
            ∧ (∀ (fr : Frame) (l : List (Word × Option Frame)), s.core.spec = (pc, some fr) :: l →
                blockOk fr.h0 fr.h1 fr.h2 fr.h3 fr.words = true →
                let zero := hRp fr.h0 = true ∧ s.core.inRepeat = false ∧ cget s.core.r.l (hLr fr.h0) = 0
                let zl := hZl fr.h1
                let target := hTarget fr.h2 fr.h3 zl
                let kind := hKind fr.h1 zl
                let seq := nextSeq fr.start (hNi fr.h0)
                (¬zero → exec (.blockFetch none) s = .next { s with core := { s.core with
                  skipBrk := false, entry := [], spec := l, units := s.core.units ||| fr.units, frame := some fr } })
                ∧ (zero → fr.effs = [] → s.core.stepPend = false → kind ≠ 3 → kind ≠ 4 → s.core.r.bgt ≠ 1 →
                    Reach s (.blockFetch none) fun t =>
                      t.core.frame = none ∧ t.core.st = .running ∧ t.core.spec = l ∧ t.mem = s.mem
                      ∧ t.core.pc = (if kind = 0 ∨ kind = 2 then branchTo fr.start target
                          else if kind = 1 then cget s.core.r.b target else seq)
                      ∧ t.core.committed = s.core.committed + 1
                      ∧ t.core.r = { s.core.r with bgt := s.core.r.bgt - 1, b := if kind = 2 then cput s.core.r.b 3 seq else s.core.r.b }))))
    ∧ (s.core.frame = none → s.tokensOut s.core = false → s.core.killed = false → 1024 ≤ id → s.core.trapDue = none →
        s.core.stepDue = none → s.core.entry = [] → s.core.preempt = none → s.core.icache = [] → s.core.tmpl = none → unread → s.badGran = [] →
          s.softGran = [] → pc.toNat % 32 = 0 →
        let word (k : Nat) : Word := s.readWord (spKey id (pc.toNat + 8 * k))
        let h0 := word 0
        let ni := hNi h0
        pc.toNat + 32 + 32 * ((ni + 3) / 4) ≤ 0x100000 →
        (headerOk h0 (word 1) (word 2) (word 3) = false → Reach s (.blockFetch none) fun t =>
          t.core.st = .dead ∧ t.core.frame = none ∧ t.core.r = s.core.r ∧ t.mem = s.mem
          ∧ ∃ r, t.reports = s.reports ++ [r] ∧ r.code = 0x0C ∧ r.addr = pc)
        ∧ (let words := (List.range ni).map fun i => word (4 + i)
           blockOk h0 (word 1) (word 2) (word 3) words = true → hRp h0 = false → Reach s (.blockFetch none) fun t =>
            t.core.frame = some (Frame.fresh pc h0 (word 1) (word 2) (word 3) words)
            ∧ t.core.st = .running ∧ t.core.pc = pc ∧ t.core.r = s.core.r ∧ t.mem = s.mem))

/-- How a block goes on or ends without a commit (R54, R59, R60, R378, R379): the tree's leaf is noted, a squash drops the speculative frames,
a discard stops the task at the block's start with the record of its first fault and changes no register and no byte, and the record enters
the ring of the die's supervisor with its serial when there is room. -/
def Obligations.BlockEndsWithoutCommit : Prop :=
  ∀ s : State,
    exec .blockSquash s = .next { s with core := { s.core with spec := [] } }
    ∧ (∀ fr : Frame, s.core.frame = some fr → fr.leaf = none →
        (hNt fr.h0 = 0 → exec .exitTreeDecide s = .next (s.onFrame fun f => { f with leaf := some 0 }))
        ∧ (∀ k, fr.chosen = some k → exec .exitTreeDecide s = .next (s.onFrame fun f => { f with leaf := some k })))
    ∧ (∀ (fr : Frame) (f : FaultRec), s.core.st = .running → s.core.frame = some fr → s.core.id < 1024 → s.dies.length = 4 →
        fr.issuing = false → fr.bound = false → nextReady fr = none → s.satisfied fr = none → fr.underWay = false →
        s.heldBySup s.core.id = false → fr.watch = [] → f ∈ fr.faults →
        (∀ g ∈ fr.faults, g = f ∨ (match f.lsid, g.lsid with
          | some a, some b => a < b
          | some _, none => True
          | none, some _ => False
          | none, none => f.idx < g.idx)) →
        Reach s .blockDiscard fun t =>
          t.core.st = .stopped ∧ t.core.pc = fr.start ∧ t.core.frame = none ∧ t.core.r = s.core.r ∧ t.mem = s.mem
          ∧ ∃ w, t.core.stop = some w ∧ w.length = 7 ∧ field (w.getD 0 0) 7 0 = f.cause.toNat ∧ w.getD 2 0 = fr.start ∧ w.getD 3 0 = f.addr
            ∧ (t.die (s.core.id / 256)).trapq = (s.die (s.core.id / 256)).trapq ++ [(s.core.id, w)])
    ∧ (∀ (die : BitVec 2) (id : Nat) (ws : List Word) (rest : List (Nat × List Word)),
        (s.die die.toNat).trapq = (id, ws) :: rest → ws.length = 7 → s.dies.length = 4 → s.badGran = [] → s.softGran = [] → Memory.wf s.mem = true →
        let at_ (o : Nat) : Nat := spKey (1024 + die.toNat) (0xF0000 + o)
        let tp := s.readWord (at_ 0)
        (tp - s.readWord (at_ 8) = 1023 → exec (.trapRecordWrite die) s = .next s)
        ∧ (tp - s.readWord (at_ 8) ≠ 1023 → Reach s (.trapRecordWrite die) fun t =>
            let slot := 64 * (1 + tp.toNat % 1023)
            (∀ i < 7, t.readWord (at_ (slot + 8 * i)) = ws.getD i 0) ∧ t.readWord (at_ (slot + 56)) = tp
            ∧ t.readWord (at_ 0) = tp + 1 ∧ t.readWord (at_ 8) = s.readWord (at_ 8) ∧ (t.die die.toNat).trapq = rest))

/-- BINDING_POINT of a block with one atomic on this package and no other effect (R53, R120, R226, R227): the block can no longer be
discarded, and the atomic is performed once; the old value goes to the atomic's targets, and no other byte changes. An atomic that is a
release of a scope wider than the task waits, bound, for what the task has sent, and changes nothing until then. -/
def Obligations.BindingPerforms : Prop :=
  ∀ (s : State) (fr : Frame) (idx l key : Nat) (op : AtomOp) (w64 : Bool) (operand va : Word) (i : Instr),
    s.core.st = .running → s.core.frame = some fr → fr.performed = false → fr.bound = false → fr.faults = [] → fr.bindReady = true →
    s.guards = [] → s.heldBySup s.core.id = false → fr.effs = [(idx, .atomic l (.here key) op w64 false operand .linear va)] →
    fr.instr idx = some i → fr.watch = [] → s.core.view = [] → s.badGran = [] → s.softGran = [] → s.migs = [] → Memory.wf s.mem = true →
    let n := if w64 then 8 else 4
    let old := s.readNat key n
    let m := 2 ^ (8 * n)
    let releases := (memfOf i).any fun x => x.ord.isRel && x.sc != .task
    (releases = false ∨ s.acksOf s.core.id = true → Reach s .bindingPoint fun t =>
      (∃ fr', t.core.frame = some fr' ∧ fr'.bound = true ∧ fr'.performed = true
        ∧ fr'.slots = deliver (.s (atomicWord op w64 old)) (targetsOf i) fr.slots)
      ∧ t.core.r = s.core.r
      ∧ (∀ k, ¬(key ≤ k ∧ k < key + n) → cget (w := 8) t.mem k = cget (w := 8) s.mem k)
      ∧ (op = .amo .add → t.readNat key n = (old + operand.toNat) % m)
      ∧ (op = .amo .swap → t.readNat key n = operand.toNat % m)
      ∧ (∀ e, op = .cas e → t.readNat key n = if old = e.toNat % m then operand.toNat % m else old))
    ∧ (releases = true → s.acksOf s.core.id = false →
      exec .bindingPoint s = .next { s with core := { s.core with frame := some { fr with bound := true } } })

/-- BLOCK_COMMIT (R55 to R58, R72, R232, R310, R397): a block without effects counts, gives its flags to FSR, takes one from the budget and
goes where its leaf says, a call linking through B3; a repeat block takes one from its count, and runs again until that is 0, when leaf 0 stands
for ZL (R56); a pending WRITE, store, counter change, command or TRESUME takes effect; END ends the task, and a supervisor core too (log 39);
a budget that reaches 0 stops the task at the next block, before a TRAP leaf, which is then reported when it is resumed (log 40); else a TRAP
leaf stops it. -/
def Obligations.BlockCommits : Prop :=
  ∀ (s : State) (fr : Frame), Commits s fr →
    let repeats := hRp fr.h0
    let lr := hLr fr.h0
    let k := fr.leaf.getD 0
    let seq := nextSeq fr.start (hNi fr.h0)
    -- the registers with the block's flags and its count, and the leaf that is taken, none where it runs again
    let after (r : Regs) : Regs := { r with fsr := orFlags r.fsr fr.flags, l := if repeats then cput r.l lr (cget r.l lr - 1) else r.l }
    let taken (r : Regs) : Option Nat := if repeats = true ∧ k = 0 then (if cget (after r).l lr = 0 then some (hZl fr.h1) else none) else some k
    let kind (r : Regs) : Option Nat := (taken r).map fun j => hKind fr.h1 j
    let target (r : Regs) : Nat := hTarget fr.h2 fr.h3 ((taken r).getD 0)
    let dest : Word :=
      match kind s.core.r with
      | none => fr.start
      | some n => if n = 0 ∨ n = 2 then branchTo fr.start (target s.core.r) else if n = 1 then cget s.core.r.b (target s.core.r) else seq
    let task := s.core.id < 1024
    let bgt := if task then s.core.r.bgt - 1 else s.core.r.bgt
    let counts (t : State) : Prop := t.core.frame = none ∧ t.core.committed = s.core.committed + 1 ∧ t.core.r.bgt = bgt
    let stops (t : State) (pc : Word) (cause : Nat) (addr : Word) : Prop := t.core.st = .stopped ∧ t.core.pc = pc
      ∧ ∃ w, t.core.stop = some w ∧ field (w.getD 0 0) 7 0 = cause ∧ w.getD 3 0 = addr
    let calm (r : Regs) : Prop := kind r = none ∨ kind r = some 5
    (fr.effs = [] → Reach s .blockCommit fun t =>
      let n := kind s.core.r
      let r := after s.core.r
      counts t ∧ t.mem = s.mem
      ∧ (n ≠ some 3 → t.core.r = { r with bgt := bgt, b := if n = some 2 then cput r.b 3 seq else r.b })
      ∧ (n = some 3 → t.core.st = .ended)
      ∧ (n = some 4 → task →
          (bgt ≠ 0 → stops t seq 0x0E (BitVec.ofNat 64 (target s.core.r)))
          ∧ (bgt = 0 → stops t seq 0x0D 0 ∧ t.core.trapDue = some (target s.core.r)))
      ∧ (n ≠ some 3 → n ≠ some 4 →
          (task → bgt = 0 → stops t dest 0x0D 0)
          ∧ ((task → bgt ≠ 0) → t.core.st = .running ∧ t.core.pc = dest ∧ t.core.inRepeat = n.isNone)))
    ∧ (∀ (idx : Nat) (cls : RegClass) (reg : BitVec 8) (tok : Tok), fr.effs = [(idx, .write cls reg tok)] →
        let r := writeReg s.core.r cls reg tok
        calm r → Reach s .blockCommit fun t => counts t ∧ t.mem = s.mem ∧ t.core.r = { after r with bgt := bgt })
    ∧ (calm s.core.r →
      (∀ (idx l : Nat) (ws : List ByteW) (vas : List Nat), fr.effs = [(idx, .store l .linear ws vas)] → s.core.view = [] → s.badGran = [] →
          s.migs = [] → Reach s .blockCommit fun t => counts t ∧ t.mem = ws.foldl mmerge s.mem ∧ t.core.r.g = s.core.r.g)
      ∧ (∀ (idx l : Nat) (q : BitVec 5), fr.effs = [(idx, .ctr l .inc q 1 none)] → Cells.wf s.core.r.k = true → Reach s .blockCommit fun t =>
          counts t ∧ t.mem = s.mem ∧ cget t.core.r.k q.toNat = cget s.core.r.k q.toNat + 1)
      ∧ (∀ (idx : Nat) (word : Word) (tk : Ticket) (arg : Word), fr.effs = [(idx, .cmd word tk arg)] → feedsArm fr idx = false →
          s.core.cmdOf tk = none → s.acksOf s.core.id = true →
          field word 63 56 = 0x72 → (s.core.e.cmds.filter fun m => roomClass m.op == 1).length < 8 → Reach s .blockCommit fun t =>
          counts t ∧ t.mem = s.mem ∧ ∃ m, t.core.e.cmds = s.core.e.cmds ++ [m] ∧ m.tk = tk ∧ m.word = word)
      ∧ (∀ (idx h id : Nat) (a : Word), fr.effs = [(idx, .sys (.tresume h a))] → 1024 ≤ s.core.id → s.acksOf s.core.id = true →
          s.handle (s.core.id - 1024) h = some id → fr.remotes = [] →
          (s.coreAt id).st = .stopped → Reach s .blockCommit fun t =>
          counts t ∧ (t.coreAt id).st = .running ∧ (t.coreAt id).pc = a ∧ (t.coreAt id).stop = none))

/-! ## Events of the current core and of its engines -/

/-- Events of the current core (R31, R32, R57, R107, R119, R233, R235, R315): a waiting instruction looks again and completes when its count is
met; an ended task with nothing in flight frees its core once it is the last of its gang, and holds it otherwise; an old L1 line goes; a
halted supervisor core wakes; the oldest fired command issues once there is room and, where it is a release, what its task sent before the ARM
is performed; a retirement waits for everything that the task wrote (R37, R120, R131). -/
def Obligations.CoreEvents : Prop :=
  ∀ s : State,
    (∀ (fr : Frame) (idx : BitVec 7) (c : Ctl) (l k : BitVec 5) (sc : Scope) (x : In), s.core.st = .running → s.core.frame = some fr →
      fr.waiting.getLsbD idx.toNat = true → decode (fr.words.getD idx.toNat 0) = .ok (.ctrwait c l sc k) → idx.toNat < fr.words.length →
      let s' := s.onFrame fun f => { f with cur := idx.toNat }
      Fires (.ctrwait c l sc k) s' { fr with cur := idx.toNat } x →
      let count := cget s.core.r.k k.toNat
      0 ≤ (count - (tokWord x.a).setWidth 32).toInt →
      exec (.waitSatisfied idx) s = .next
        ({ s' with core := { s'.core with l1 := [] } }.firedWith (.ctrwait c l sc k) (.s (count.setWidth 64)) 0 []))
    ∧ (s.core.st = .ended → s.core.killed = false → s.quietPort s.core.id = false → exec .taskRetire s = .next s)
    ∧ (∀ (w : Ident) (g : Gang), s.core.st = .ended → s.core.killed = false → s.core.e.cmds = [] → s.core.e.fired = [] →
        s.quietPort s.core.id = true → s.core.id < 1024 → s.core.task = some w →
        s.gangAt w.gang = some g → s.core.id ∈ g.ranks → s.queues = [] → s.saved = [] →
        ((∀ i ∈ g.ranks, i = s.core.id ∨ (s.coreAt i).st = .held ∨ (s.coreAt i).st = .fenced) → Reach s .taskRetire fun t =>
          (∀ i ∈ g.cores, (s.coreAt i).st ≠ .fenced → (t.coreAt i).st = .free ∧ (t.coreAt i).task = none) ∧ t.gangAt w.gang = none)
        ∧ ((∃ i ∈ g.ranks, i ≠ s.core.id ∧ (s.coreAt i).st ≠ .held ∧ (s.coreAt i).st ≠ .fenced) → Reach s .taskRetire fun t =>
          t.core.st = .held ∧ t.core.task = some w ∧ t.gangAt w.gang = some g ∧ t.mem = s.mem))
    ∧ (∀ line, exec (.l1LineExpiry line) s
        = .next { s with core := { s.core with l1 := s.core.l1.filter fun l => decide (l.line ≠ line) } })
    ∧ (s.core.st = .halted →
        let at_ (o : Nat) : Nat := spKey (1024 + dieOfCore s.core.id) (0xF0000 + o)
        let pending := s.core.wake = true ∨ s.readWord (at_ 0) ≠ s.readWord (at_ 8)
        (pending → exec .haltWake s = .next { s with core := { s.core with st := .running } })
        ∧ (¬pending → exec .haltWake s = .next s))
    ∧ (∀ (a : Armed) (rest : List Armed), s.core.e.fired = a :: rest → a.cmd.releases = true → s.acksBelow s.core.id a.upto = false →
        exec .armedCommandFire s = .next s)
    ∧ (∀ (a : Armed) (rest : List Armed), s.core.e.fired = a :: rest → a.cmd.op = 0x72 →
        let busy := (s.core.e.cmds.filter fun m => roomClass m.op == 1).length
        (busy < 8 → a.cmd.releases = false ∨ s.acksBelow s.core.id a.upto = true → s.core.cmdOf a.cmd.tk = none → Reach s .armedCommandFire fun t =>
          t.core.e.fired = rest ∧ ∃ m, t.core.e.cmds = s.core.e.cmds ++ [m] ∧ m.tk = a.cmd.tk ∧ m.word = a.cmd.word)
        ∧ (8 ≤ busy → exec .armedCommandFire s = .next s))

/-- How commands start and end (R67, R125, R127, R128, R237 to R240, R247, R252 to R254, R283, R284, R289, R298, R299, R422): a held command
whose tiles are free starts, an MMAG with its group, a heavy one with leave, which the governor grants or not at the end of the cycle in
which it is asked for; a channel copy takes its slot, and one without elements is done; a chunk of a byte copy in the
scratchpad moves its bytes and no others; a product computes its next 16 rows, and a SIGSTRM its next increment; and each completion takes
its command from its engine with a final status, once what the command wrote at other endpoints is performed. -/
def Obligations.CommandsRun : Prop :=
  ∀ (s : State) (tk : Ticket) (m : Cmd), s.core.cmdOf tk = some m →
    let now (m' : Cmd) : State → Prop := fun t => t.core.cmdOf tk = some m' ∧ t.mem = s.mem
    let acks : Prop := s.acksCmd s.core.id tk = true
    (∀ (st : Nat) (d : BitVec 8) (n : Nat) (ev : Instr), m.fin = some (st, d, n) → st = 1 ∨ st = 2 → m.started = true →
      ((tk.eng = 1 ∧ ev = .copyComplete tk) ∨ (tk.eng = 2 ∧ ev = .matrixCommandComplete tk) ∨ (tk.eng = 3 ∧ ev = .sigstrmComplete tk)
        ∨ (tk.eng = 4 ∧ ev = .routingCommandComplete tk) ∨ (tk.eng = 5 ∧ ev = .collComplete tk)) →
      (acks → Ends s tk ev) ∧ (¬acks → exec ev s = .next s))
    ∧ (m.fin = none →
      ((tk.eng = 2 ∨ tk.eng = 3) → m.started = false → s.core.tilesFree m = true →
        (m.op = 0x74 → s.groupIssued s.core.id m.nth = false → exec (.matrixCommandStart tk) s = .next s)
        ∧ (m.units m.kDim = none ∨ (m.leave = .granted ∧ m.op ≠ 0x74) → Reach s (.matrixCommandStart tk) (now { m with started := true }))
        ∧ (∀ u, m.units m.kDim = some u → m.leave = .no → m.op ≠ 0x74 → (s.core.e.cmds.filter fun x => x.tk == tk) = [m] →
            s.dies.length = 4 → s.core.id < 1024 →
            let d := dieOfCore s.core.id
            let r : LeaveReq := { core := s.core.id, tk := tk, units := u, cycle := s.cycle }
            Reach s (.matrixCommandStart tk) fun t => now { m with leave := .asked } t ∧ t.core.leaveWaits = s.core.leaveWaits
              ∧ ((∀ x ∈ (s.die d).leaveQ, x.cycle ≠ s.cycle) → (t.die d).leaveQ = (s.die d).leaveQ ++ [r])
              ∧ ((s.die d).leaveQ = [] →
                let e := t.closeLeave d
                (s.grantedUnits d + u ≤ (s.die d).dlim → now { m with leave := .granted } e ∧ (e.die d).leaveQ = []
                  ∧ e.core.leaveWaits = s.core.leaveWaits)
                ∧ ((s.die d).dlim < s.grantedUnits d + u → now { m with leave := .asked } e ∧ (e.die d).leaveQ = [r]
                  ∧ e.core.leaveWaits = s.core.leaveWaits + 1))))
      ∧ (∀ h, m.chan = some h → m.started = false → m.detail = 0 → s.core.firstOnChan m h = true → windowIdx m.tda = [] → acks →
          Ends s tk (.copySlotTake tk))
      ∧ (∀ (h : BitVec 4) (prod : Bool) (x : Chan), m.chan = some h → m.started = false → m.detail = 0 → s.core.firstOnChan m h = true →
          windowIdx m.tda ≠ [] → engineRole s.core h = some prod → chanOf s.core h = some x →
          let filled := (x.p - x.c).toNat
          let room := if prod then x.slots.toNat - filled else filled
          let off := x.base.toNat + (if prod then x.p else x.c).toNat % x.slots.toNat * (64 * x.size.toNat)
          (room = 0 → exec (.copySlotTake tk) s = .next s)
          ∧ (room ≠ 0 → Reach s (.copySlotTake tk) fun t => t.mem = s.mem
              ∧ ∃ m', t.core.cmdOf tk = some m' ∧ m'.started = true ∧ m'.slot = some off ∧ m'.word = m.word))
      ∧ (tk.eng = 1 → m.started = true → m.detail = 0 → isBitCopy m.tda m.tdb = true → tdFmt m.tda = .n8 → tdSp m.tda = .sp →
          tdSp m.tdb = .sp → s.guards = [] → s.badGran = [] → s.softGran = [] → Memory.wf s.mem = true → chunkIdx m ≠ [] →
          let addr (d : Td) (i : Nat × Nat × Nat) : Nat :=
            let (a, b, c) := destIdx d i
            ((elemPieces d a b c).map Piece.addr).headD 0
          let to_ := (chunkIdx m).map (addr m.tdb)
          InFootprint s.core 1 to_ → InFootprint s.core 1 ((chunkIdx m).map (addr m.tda)) → to_.Nodup →
          (∀ i ∈ windowIdx m.tda, addr m.tda i ∉ to_) →
          Reach s (.copyChunkWrite tk) fun t => t.core.cmdOf tk = some { m with done := m.done + 1, asks := [] }
            ∧ (∀ i ∈ chunkIdx m, cget (w := 8) t.mem (spKey s.core.id (addr m.tdb i)) = cget (w := 8) s.mem (spKey s.core.id (addr m.tda i)))
            ∧ (∀ k, (∀ a ∈ to_, k ≠ spKey s.core.id a) → cget (w := 8) t.mem k = cget (w := 8) s.mem k))
      ∧ (∀ k : MatClass, tk.eng = 2 → m.started = true → m.op ≠ 0x72 → m.matClass = some k →
          let rows := (List.range (min 16 (m.mTot k - 16 * m.done))).map (16 * m.done + ·)
          Near s m.tda (rows.flatMap fun r => (List.range m.kDim).map fun kk => m.aIdx r kk) →
          Near s m.tdb (rows.flatMap fun r => (List.range m.nDim).flatMap fun j => (List.range m.kDim).map fun kk =>
            m.bIdx kk j (if m.isGmma then groupAt m.counts r else 0)) →
          (m.mTot k ≤ 16 * (m.done + 1) → acks → Ends s tk (.matrixCommandComplete tk))
          ∧ (16 * (m.done + 1) < m.mTot k → Reach s (.matrixCommandComplete tk) fun t =>
              ∃ fl, t.core.cmdOf tk = some { m with done := m.done + 1, flags := fl })
          ∧ (m.isGmma = false → ∀ t, exec (.matrixCommandComplete tk) s = .next t → ∀ key,
              ¬(accKey s.core.id (65536 * m.xf) ≤ key ∧ key < accKey s.core.id (65536 * m.xf) + 65536) →
              cget (w := 8) t.mem key = cget (w := 8) s.mem key))
      ∧ (tk.eng = 3 → m.started = true → Near s m.tda (strmIdx m.tda (sgD m.scfg) m.done) →
          (strmCount m.tda ≤ m.done + 1 → acks → Ends s tk (.sigstrmComplete tk))
          ∧ (m.done + 1 < strmCount m.tda → Reach s (.sigstrmComplete tk) fun t =>
              ∃ fl, t.core.cmdOf tk = some { m with done := m.done + 1, flags := fl }))
      ∧ (m.started = true → acks →
          (tk.eng = 1 → chunkIdx m = [] → m.detail = 0 → Ends s tk (.copyComplete tk))
          ∧ (tk.eng = 2 → m.op = 0x72 → Ends s tk (.matrixCommandComplete tk)
              ∧ Reach s (.matrixCommandComplete tk) fun t => ∀ k,
                  cget (w := 8) t.mem k = if accKey s.core.id (65536 * m.xf) ≤ k ∧ k < accKey s.core.id (65536 * m.xf) + 65536 then 0
                    else cget (w := 8) s.mem k)
          ∧ (tk.eng = 4 → m.pre = none →
              ((m.op = 0x80 ∨ m.op = 0x81 ∨ m.op = 0x82 ∨ m.op = 0x89 ∨ (m.op = 0x83 ∧ rRole m.w0 = false ∧ m.pend = [])) →
                m.units_ ≤ m.done → Ends s tk (.routingCommandComplete tk))
              ∧ (m.op = 0x86 → (∀ x ∈ s.core.e.cmds, x.op = 0x85 → x.rcw ≠ [] ∨ x.fin.isSome = true) →
                (∀ p, s.poolAt (dieOfCore s.core.id) s.core.space (rSerial m.w1) = some p → p.st = .complete) →
                Ends s tk (.routingCommandComplete tk))
              ∧ (∀ p, m.op = 0x83 → rRole m.w0 = true → s.poolAt (dieOfCore s.core.id) s.core.space (rSerial m.w1) = some p →
                p.tk = tk → p.core = s.core.id → p.st = .granted →
                (∀ r ∈ p.reqs, ∃ n, lookup r.1 p.markers = some n ∧ n ≤ (p.rows.filter fun x => x.1 == r.1).length) →
                Ends s tk (.routingCommandComplete tk)))
          ∧ (m.op = 0x84 → m.slot = none → m.pend = [] → (∀ i < m.tokens, i ∈ m.outs) → Ends s tk (.dspatComplete tk))
          ∧ (m.op = 0x85 → m.slot = none → s.inFlight s.core.id tk = false → Ends s tk (.cmbnComplete tk))
          ∧ (tk.eng = 5 → m.pre = none → (∀ k < m.chunks, k ∈ m.outs ∧ (cCount m.w0 = true → k ∈ m.sent)) →
              (∀ g ∈ s.guards, g.core = s.core.id → g.tk = tk → g.count = true → g.hit = []) → Ends s tk (.collComplete tk))))

/-! ## Events of the scheduler -/

/-- Launches and their placement (R30, R36, R37, R356, R357, R358, R360, R362, R364): a child launch enters its queue or ends FAULT 0x4C; the
template for which a candidate's placement waits is filled, whole or not at all, and a failed fill lets that candidate alone be placed without
one; a filled template is kept as the newest of 512 (the number kept and the eviction of the oldest are the model's choice, log 43); a change
of an effective priority and a starving candidate each call for the placement pass of the cycle; a starving candidate is reserved a die's
regions. A started task finds its registers, a footprint of zeros and no line of an earlier task, the first one of its gang also the words of
its template. -/
def Obligations.LaunchEvents : Prop :=
  ∀ s : State,
    (∀ (tk : Ticket) (c : Child) (q : Queue) (m : Cmd), s.childq = [c] → c.tk = tk → s.queueAt c.queue = some q → q.entries.length < 64 →
      c.core ≠ 4096 → c.core < 65536 → (s.coreAt c.core).cmdOf tk = some m → m.fin = none → s.acksCmd c.core tk = true →
      (∀ x, s.core.cmdOf tk = some x → x.pre = none ∧ x.fin = none) →
      let ends (st detail : Nat) (t : State) : Prop := t.childq = [] ∧ (t.coreAt c.core).cmdOf tk = none
        ∧ ∀ w, (s.coreAt c.core).e.status tk = some w →
          ∃ w', (t.coreAt c.core).e.status tk = some w' ∧ field w' 63 62 = st ∧ field w' 55 48 = detail
      (s.queueRefused (s.partOfQueue c.queue) c.space c.queue = true → Reach s (.childLaunchEntry tk) fun t => ends 2 0x4C t ∧ t.queues = s.queues)
      ∧ (s.queueRefused (s.partOfQueue c.queue) c.space c.queue = false → ∃ t : State, exec (.childLaunchEntry tk) s = .next t.askPass ∧ ends 1 0 t
          ∧ ∃ q', t.queueAt c.queue = some q' ∧ q'.entries.map Entry.desc = q.entries.map Entry.desc ++ [c.desc]
            ∧ ((q'.entries.getLast?.map Entry.st) = some .held ↔ Desc_.bar c.desc = true ∧ q.entries ≠ [])))
    ∧ (∀ (space : BitVec 16) (entry : Word),
        (s.fillFor space entry = none → exec (.templateFill space entry) s = .next s)
        ∧ (∀ c, s.fillFor space entry = some c → c.resume = false ∧ c.tried = false ∧ c.space = space ∧ c.desc.l3 = entry ∧ (s.fit c).isSome = true
            ∧ s.templateOf c.part space entry = none)
        ∧ (∀ (c : Cand) (s1 s2 : State) (ws : List (Nat × Word)) (leaf : Word) (page : Nat), s.fillFor space entry = some c →
            fillTemplate c.part space entry.toNat s = (s1, some ws) → leafFor s c.part space entry.toNat entry = (s2, .ok (leaf, page)) →
            ∃ (t : State) (tm : Tmpl), exec (.templateFill space entry) s = .next t.askPass ∧ t.tmpls = (tm :: s1.tmpls).take 512 ∧ tm.part = c.part
              ∧ tm.space = space ∧ tm.entry = entry ∧ tm.words = ws ∧ tm.page = page ∧ t.mem = s1.mem)
        ∧ (∀ (c : Cand) (s1 : State) (r : Option (List (Nat × Word))), s.fillFor space entry = some c →
            fillTemplate c.part space entry.toNat s = (s1, r) → (r = none ∨ ∃ s2 e, leafFor s c.part space entry.toNat entry = (s2, .error e)) →
            ∃ t : State, exec (.templateFill space entry) s = .next t.askPass ∧ t.tmpls = s1.tmpls ∧ t.mem = s1.mem
              ∧ t.queues = s1.queues.map fun q => { q with entries := q.entries.map fun e => { e with tried := e.tried || e.id == c.key } }))
    ∧ (let noted (c : Cand) : Nat :=
         if c.resume then ((s.saved.find? fun v => v.gang.id == c.key).map Saved.ep).getD 255 else ((s.entryOf c.key).map fun x => x.2.ep).getD 255
       ((∀ c ∈ s.allCands, s.candEp c = noted c) → exec .candidateAgeing s = .next s)
       ∧ ((∃ c ∈ s.allCands, noted c ≠ s.candEp c) → exec .candidateAgeing s = .next s.askPass))
    ∧ (let old (c : Cand) : Prop := (s.part c.part).starve < s.cycle - c.since
       ((∀ c ∈ s.allCands, ¬(old c ∧ c.target = none ∧ s.allowedDies c ≠ [])) → exec .candidateStarve s = .next s)
       ∧ ((∃ c ∈ s.allCands, old c ∧ c.target = none ∧ s.allowedDies c ≠ []) → exec .candidateStarve s = .next s.askPass)
       ∧ (∀ (c : Cand) (d : Nat), s.allCands = [c] → old c → s.hasReserve c.key = false → c.target = some d → d < 4 → s.dies.length = 4 →
           (s.die d).reserve = none → Desc_.plc c.desc = 0 → (∀ r < 32, ∀ id ∈ regionCores d r, (s.coreAt id).st ≠ .fenced) →
           ∃ rv : Reserve, (s.reservations.die d).reserve = some rv ∧ rv.cand = c.key
             ∧ rv.regions.length = min 32 (ceilDiv (Desc_.gangSize c.desc) 8)))
    ∧ (∀ (id : Nat) (w : Ident) (tm : Option Tmpl),
        let t := s.startTask id w tm
        let c := t.coreAt id
        let r := c.r
        c.st = .running ∧ c.task = some w ∧ c.pc = w.desc.l3 ∧ c.l1 = []
        ∧ c.entry = (match tm with | some x => if w.rank = 0 then x.words else [] | none => []) ∧ getG r 1 = w.desc.l4 ∧ getG r 2 = w.wid
        ∧ getG r 3 = BitVec.ofNat 64 w.rank ∧ getG r 4 = BitVec.ofNat 64 w.gsize ∧ (∀ i, i ∉ [1, 2, 3, 4] → getG r i = 0)
        ∧ r.bgt = (lookup w.queue.toNat s.qbgt).getD 0xFFFFFFFF ∧ r.k = [] ∧ r.v = [] ∧ r.m = [] ∧ r.b = [] ∧ r.l = [] ∧ r.td = []
        ∧ (∀ a < 4096 * Desc_.spk w.desc, cget (w := 8) t.mem (spKey id a) = 0)
        ∧ (∀ a < 65536 * Desc_.acc w.desc, cget (w := 8) t.mem (accKey id a) = 0))

/-- Gangs and barriers over time (R123, R354, R366, R367, R368, R369, R389, R390, R391, R399, R422): the governor grants leave; an announced
block is performed once its window has ended; the watchdog's three stages pre-empt, kill and fence (the one report of a kill for a gang, with
its code, address and detail, is the model's choice, log 79); a request stops a gang at the first boundary PQUIET cycles later at the latest,
and a stopped gang (ready as log 36 says) is switched out, or moves to the cores asked for, or runs on where these are no longer free; a
stage-1 request turns a move into a switch-out (log 90); old forwarding entries go, and with them what still travels by them (log 17); a
domain barrier reports its timeout once, to the host and to the supervisors of its members. -/
def Obligations.GangEvents : Prop :=
  ∀ s : State,
    (∀ (die : BitVec 2) (r : LeaveReq), s.dies.length = 4 →
      let d := die.toNat
      let q := (s.die d).leaveQ.filter fun x => decide (x.cycle < s.cycle)
      (match q.find? fun x => s.draining (s.coreAt x.core) with | some x => some x | none => q.head?) = some r →
      ((s.die d).dlim < s.grantedUnits d + r.units → exec (.leaveGrant die) s = .next s)
      ∧ (∀ m, (s.coreAt r.core).cmdOf r.tk = some m → s.grantedUnits d + r.units ≤ (s.die d).dlim → Reach s (.leaveGrant die) fun t =>
          (t.coreAt r.core).cmdOf r.tk = some { m with leave := .granted } ∧ r ∉ (t.die d).leaveQ ∧ t.mem = s.mem))
    ∧ (∀ (fr : Frame) (w : Nat), s.core.frame = some fr → fr.announced = some w → fr.performed = false → fr.bound = true →
        s.partOfCore s.core.id < 4 → (∀ c ∈ s.parked, c.frame = none) → s.acksOf s.core.id = true →
        (∀ x ∈ fr.effs, match x.2 with | .remote _ _ _ _ | .door _ _ _ _ _ | .atomic _ (.remote _ _) _ _ _ _ _ _ => False | _ => True) →
        (w < s.cycle / Config.scWindow → Reach s .scWindowEnd fun t =>
          ∃ fr', t.core.frame = some fr' ∧ fr'.bound = true ∧ fr'.performed = true)
        ∧ (s.cycle / Config.scWindow ≤ w → exec .scWindowEnd s = .next s))
    ∧ (∀ (id : Nat) (g : Gang), s.gangAt id = some g → (∀ i ∈ g.ranks, i < 1024) →
        let room := reserveRuns (s.usedUnits g.part) (s.part g.part).ctxUnits (g.ranks.map fun _ => ceilDiv (fullLen g.desc) 4096)
        (g.due = 1 → (s.gangs.filter fun x => x.id == id) = [g] →
          let g' : Gang := { g with due := 0, stages := g.stages ||| 1 }
          (g.request.isSome = true → g.target = [] → Reach s (.watchdogPreempt id) fun t => t.gangAt id = some g' ∧ t.core = s.core)
          ∧ ((g.request = none ∨ g.target ≠ []) →
              ((s.part g.part).ctxUnits = 0 ∨ room = none → Reach s (.watchdogPreempt id) fun t => t.gangAt id = some g' ∧ t.core = s.core)
              ∧ (∀ area, (s.part g.part).ctxUnits ≠ 0 → room = some area → Reach s (.watchdogPreempt id) fun t =>
                  t.gangAt id = some { g' with request := some (g.request.getD s.cycle), area := area, target := [] } ∧ Asked s g.ranks t)))
        ∧ (g.due = 2 → Reach s (.watchdogKill id) fun t => (∀ i ∈ g.ranks, (s.coreAt i).hasTask = true → (t.coreAt i).killed = true)
            ∧ t.reports.getLast? = some { part := g.part, code := 6, space := g.space, addr := BitVec.ofNat 64 id, detail := 2 })
        ∧ (g.due = 3 → (∃ i ∈ g.ranks, s.heldBySup i = true) → exec (.watchdogFence id) s = .next s)
        ∧ (g.due = 3 → (∀ i ∈ g.ranks, s.heldBySup i = false ∧ ∀ w, (s.coreAt i).task = some w → w.gang = id) →
            ∃ t : State, exec (.watchdogFence id) s = .next t.askPass
              ∧ ∀ i ∈ g.ranks, (s.coreAt i).hasTask = true → (t.coreAt i).st = .fenced)
        ∧ (∀ k ∈ [Instr.watchdogPreempt id, .watchdogKill id, .watchdogFence id], g.due = 0 → exec k s = .next s)
        ∧ (Reach s (.pquietExpiry id) fun t => t.mem = s.mem ∧ ∀ i ∈ g.ranks, ∀ t0, (s.coreAt i).st = .running → (s.coreAt i).preempt = some t0 →
            let c := s.coreAt i
            let due := c.stopNow.isSome = true ∨ t0 + (s.part g.part).pquiet ≤ s.cycle
            let stops := c.frame.isSome = true ∧ c.mustCommit = false ∧ s.heldBySup i = false
            (due → stops → (t.coreAt i).st = .quiet ∧ (t.coreAt i).frame = none
              ∧ ((t.coreAt i).light = true ↔ c.lastQp = true ∨ c.stopNow = some true))
            ∧ (due → ¬stops → t.coreAt i = { c with stopNow := some (c.stopNow.getD false) })
            ∧ (¬due → t.coreAt i = c))
        ∧ (s.gangReady g = false → g.request.isSome = true → exec (.gangSwitchOut id) s = .next s
            ∧ ∀ cores, exec (.gangMigration id cores) s = .next s)
        ∧ (s.gangReady g = true → g.request.isSome = true →
            (g.target = [] → ∃ t : State, exec (.gangSwitchOut id) s = .next t.askPass ∧ t.gangAt id = none
              ∧ (∀ i ∈ g.cores, (s.coreAt i).st ≠ .fenced → (t.coreAt i).st = .free)
              ∧ ∃ v ∈ t.saved, v.gang.id = id ∧ v.since = s.cycle ∧ v.gang.time = g.time + (s.cycle - g.since) ∧ v.gang.request = none
                ∧ v.cores.map Core.r = g.ranks.map fun i => (s.coreAt i).r)
            ∧ (∀ cores, g.target = cores → cores ≠ [] →
                (s.moveOk g cores = false → Reach s (.gangMigration id cores) fun t =>
                  t.gangAt id = some { g with request := none, target := [] }
                  ∧ ∀ i ∈ g.ranks, (s.coreAt i).st = .quiet → (t.coreAt i).st = .running)
                ∧ (s.moveOk g cores = true → ∃ t : State, exec (.gangMigration id cores) s = .next t.askPass
                  ∧ t.gangAt id = some { g with cores := cores, die := dieOfCore (cores.headD 0), request := none, target := [] }
                  ∧ (∀ o ∈ g.ranks, ∀ w, (s.coreAt o).task = some w → ∃ f ∈ t.forwards, f.core = o ∧ f.wid = w.wid ∧ f.since = s.cycle)
                  ∧ (∀ x ∈ g.ranks.zip cores, ∀ w, g.ranks.Nodup → (s.coreAt x.1).task = some w →
                      (∀ y ∈ g.ranks.zip cores, y ≠ x → ∀ v, (s.coreAt y.1).task = some v → v.space = w.space → v.wid ≠ w.wid) →
                      ∀ f ∈ s.forwards, f.gang = id → f.space = w.space → f.wid = w.wid → { f with to_ := x.2 } ∈ t.forwards)
                  ∧ (g.ranks.Nodup → (∀ i ∈ g.cores, (s.coreAt i).st ≠ .free) → ∀ x ∈ g.ranks.zip cores, (s.coreAt x.1).task.isSome = true →
                      (t.coreAt x.2).r = (s.coreAt x.1).r ∧ (t.coreAt x.2).pc = (s.coreAt x.1).pc))))
        ∧ (∀ cores, g.request = none → (s.moveOk g cores = false → exec (.gangMigration id cores) s = .next s)
            ∧ (s.moveOk g cores = true → Reach s (.gangMigration id cores) fun t =>
                t.gangAt id = some { g with request := some s.cycle, target := cores } ∧ Asked s g.ranks t)))
    ∧ (∀ core,
        let old := s.forwards.filter fun f => f.core == core && decide (f.since + 32768 ≤ s.cycle)
        (old = [] → exec (.forwardEntryExpiry core) s = .next s)
        ∧ (∀ f, old = [f] → Reach s (.forwardEntryExpiry core) fun t =>
            let late (p : Packet) : Bool := (pkTag p - BitVec.ofNat 32 f.num).msb
              && (match s.partOfEndp (pkDst p) with | some pn => s.boundFor pn p == some f.to_ | none => false)
            f ∉ t.forwards ∧ t.mem = s.mem ∧ t.port.net = s.port.net.filter (fun p => !late p)
            ∧ t.port.undelivered = s.port.undelivered + (s.port.net.filter late).length
            ∧ t.reports = s.reports ++ (s.port.net.filter late).map fun p =>
                { part := s.partOfDie (dieOfCore core), code := 8, space := pkSpace p, addr := bodyPlace p.body,
                  detail := BitVec.ofNat 32 ((pkDst p).toNat * 65536 + 4) }))
    ∧ (∀ (b : DBar) (p : Nat) (t0 : Nat), s.dbars = [b] → s.partOfEndp b.home = some p → b.fired = false → b.dbto ≠ 0 → b.since = some t0 →
        (4096 * b.dbto ≤ b.counted + (s.cycle - t0) → Reach s (.dbtoExpiry b.bar) fun t => t.dbars = [{ b with fired := true }]
          ∧ t.reports = s.reports ++ [{ part := p, code := 9, space := 0, addr := b.bar.setWidth 64, detail := 0 }] ∧ t.mem = s.mem
          ∧ (∀ x ∈ b.members, ∀ q d, s.partOfEndp x.1 = some q → s.memberDie q x.2 = some d → d < 4 → s.dies.length = 4 →
              (∀ c ∈ s.allCores, 1024 ≤ c.id → c.task = none) → (t.coreAt (1024 + d)).wake = true
              ∧ { part := q, code := 9, space := x.2.1, addr := b.bar.setWidth 64, detail := 0 } ∈ (t.die d).told)
          ∧ (∀ x ∈ b.members.zipIdx, s.partOfEndp x.1.1 = none →
              ∃ o ∈ t.port.unacked, o.dst = x.1.1 ∧ o.pkt.body = .expired b.bar x.2))
        ∧ (b.counted + (s.cycle - t0) < 4096 * b.dbto → exec (.dbtoExpiry b.bar) s = .next s))

/-! ## Packets -/

/-- Memory packets (R109, R383, R407, R409, R410, R411, R412): a request that an ingress entry admits reads, writes or updates exactly its bytes
of this package and is answered with the bytes before it; one that no entry admits is refused with Access Rights. A reply reaches the access
that waits and is forgotten; a retry sends the packet again later; a packet refused for good is reported, and a DONE add refused for rights is
a queue error of its launch's space (R37). A malformed packet is dropped and counted, and is a queue error where it is a launch or an owner's;
a repeated one is answered again without being performed, and counted where it is a row or a contribution; an early release is kept. What the
request that asks about an atomic is, and the layout of the report, are the model's choices (log 17, log 21), as are that a retry starts the
count of resends anew (log 72) and that a packet whose sender has ended is not sent again (log 64). -/
def Obligations.MemoryPackets : Prop :=
  ∀ (s : State) (p : Packet),
    (∀ (pn : Nat) (op : ReqOp) (addr : BitVec 40) (size : Nat) (data : List Byte), p.body = .memReq op addr size data → s.Reaches p pn →
      let ev : Instr := .memoryRequest p
      let a := addr.toNat
      (∀ (k : Nat) (e : Ingress), (s.part pn).ingress = [(k, e)] → e.sep = pkSrc p →
        e.ssp = (if Config.isOwner (pkDst p) (pkSrc p) then 0xFFFF else pkSpace p) → e.frame * 65536 ≤ a → a + size ≤ (e.frame + e.count) * 65536 →
        s.localBytes pn a size = true → s.guards = [] → s.badGran = [] → s.softGran = [] → s.migs = [] → Memory.wf s.mem = true →
        let old := mread s.mem a size
        let other (n : Nat) (t : State) : Prop := ∀ x, ¬(a ≤ x ∧ x < a + n) → cget (w := 8) t.mem x = cget (w := 8) s.mem x
        (op = .load → e.r = true → Reach s ev fun t => Answered p old t ∧ t.mem = s.mem ∧ t.core = s.core)
        ∧ (op = .check → e.r = true → e.w = true → Reach s ev fun t => Answered p [] t ∧ t.mem = s.mem ∧ t.core = s.core)
        ∧ (op = .store → e.w = true → data.length = size → Reach s ev fun t => Answered p [] t ∧ mread t.mem a size = data ∧ other size t)
        ∧ (∀ mask, op = .storeBits mask → e.w = true → data.length = size → mask.length = size → Reach s ev fun t => Answered p [] t ∧ other size t
            ∧ ∀ i < size, cget (w := 8) t.mem (a + i)
                = (cget (w := 8) s.mem (a + i) &&& ~~~mask.getD i 0) ||| (data.getD i 0 &&& mask.getD i 0))
        ∧ (∀ o w64, op = .amo o w64 → e.r = true → e.w = true → size = (if w64 then 8 else 4) → Reach s ev fun t =>
            Answered p old t ∧ other size t
            ∧ (o = .add → t.readNat a size = (s.readNat a size + ofBytes data) % 2 ^ (8 * size))
            ∧ (o = .swap → data.length = size → mread t.mem a size = data))
        ∧ (∀ w64, op = .cas w64 → e.r = true → e.w = true → data.length = 2 * size → Reach s ev fun t => Answered p old t ∧ other size t
            ∧ mread t.mem a size = if old = data.take size then data.drop size else old))
      ∧ ((s.part pn).ingress = [] → Reach s ev fun t => t.mem = s.mem
          ∧ (pkSrc p ≠ pkDst p → ∃ q, t.port.outbox.head? = some q ∧ q.body = .refusal (pkTag p) (.reject 5))))
    ∧ (∀ (tag : BitVec 32) (cause : BitVec 8) (data : List Byte) (fwd : Bool) (o : Out) (fr : Frame), p.body = .reply tag cause data fwd →
      s.bootFail = none →
        (s.partOfEndp (pkDst p)).isSome = true → pkSrc p ≠ pkDst p → packetOk p = true → s.core.frame = some fr → s.port.unacked = [o] →
        (o.src = pkDst p ∧ o.dst = pkSrc p ∧ o.tag = tag → Reach s (.reply p) fun t => t.port.unacked = [] ∧ t.mem = s.mem
          ∧ ∃ fr', t.core.frame = some fr' ∧ fr'.slots = fr.slots ∧ fr'.remotes = fr.remotes.map fun r =>
              if r.dst = pkSrc p ∧ r.tag = tag ∧ r.answer = none then { r with answer := some (cause, data) } else r)
        ∧ (o.tag ≠ tag → exec (.reply p) s = .next s))
    ∧ (∀ (tag : BitVec 32) (why : RefuseWhy) (o : Out), p.body = .refusal tag why → s.bootFail = none →
        (s.partOfEndp (pkDst p)).isSome = true → pkSrc p ≠ pkDst p → packetOk p = true → s.port.unacked = [o] →
        o.src = pkDst p → o.dst = pkSrc p → o.tag = tag →
        (s.senderGone o.pkt.body = false → (∀ r, why ≠ .reject r) → Reach s (.refusal p) fun t =>
          t.port.unacked = [{ o with sent := s.cycle, resends := 0 }] ∧ t.mem = s.mem ∧ t.core = s.core)
        ∧ (s.senderGone o.pkt.body = true → (∀ r, why ≠ .reject r) → Reach s (.refusal p) fun t =>
          t.port.unacked = [] ∧ t.mem = s.mem ∧ t.core = s.core)
        ∧ (∀ q a, why = .reject 5 → o.done = some (q, a) → needsDetail o.pkt.body = false → Reach s (.refusal p) fun t =>
            t.port.unacked = [] ∧ t.mem = s.mem ∧ ∃ x, t.qerrs = s.qerrs ++ [x] ∧ x.part = (s.partOfEndp o.src).getD 0 ∧ x.space = pkSpace o.pkt
              ∧ x.queue = q ∧ x.src = o.src ∧ x.addr = a ∧ x.cause = 0x05)
        ∧ (∀ r a n bytes, why = .reject r → o.done = none → o.pkt.body = .memReq .store a n bytes →
            (∀ c ∈ s.allCores ++ s.saved.flatMap Saved.cores, c.asked o.dst o.tag = false) → Reach s (.refusal p) fun t =>
            t.port.unacked = [] ∧ t.port.undelivered = s.port.undelivered + 1 ∧ t.mem = s.mem
              ∧ ∃ x, t.reports = s.reports ++ [x] ∧ x.part = s.partOfDie (dieOfCore o.core) ∧ x.code = 8 ∧ x.space = pkSpace o.pkt
              ∧ x.addr = a.setWidth 64 ∧ x.detail = BitVec.ofNat 32 ((pkDst o.pkt).toNat * 65536 + r)))
    ∧ (∀ (i : Instr), i = arrivalOf p → s.bootFail = none → pkSrc p ≠ pkDst p →
        (match p.body with | .reply _ _ _ _ | .refusal _ _ | .host _ => False | _ => True) →
        (s.partOfEndp (pkDst p) = none → Reach s i fun t => t.port.drops = s.port.drops + 1 ∧ t.parts = s.parts ∧ t.qerrs = s.qerrs
          ∧ t.mem = s.mem ∧ t.core = s.core ∧ t.port.performed = s.port.performed)
        ∧ (∀ pn, s.partOfEndp (pkDst p) = some pn → packetOk p = false → Reach s i fun t => (t.part pn).drops = (s.part pn).drops + 1
          ∧ t.mem = s.mem ∧ t.core = s.core ∧ t.port = s.port
          ∧ (if classOf p.body = 2 ∨ Config.isOwner (pkDst p) (pkSrc p) = true
            then ∃ x, t.qerrs = s.qerrs ++ [x] ∧ x.part = pn ∧ x.space = pkSpace p ∧ x.src = pkSrc p ∧ x.cause = 0 else t.qerrs = s.qerrs))
        ∧ (∀ pn b, s.partOfEndp (pkDst p) = some pn → packetOk p = true → lookup (pairOf p, pkTag p) s.port.performed = some b → Reach s i fun t =>
            t.mem = s.mem ∧ t.core = s.core ∧ t.queues = s.queues
            ∧ (match p.body with
               | .row _ _ _ _ _ _ _ _ _ _ _ _ | .chunk _ _ _ _ _ _ _ _ _ _ => (s.localSpace pn p).isSome = true → s.dies.length = 4 →
                   (t.die (pkDie p)).dupcnt = satSucc (s.die (pkDie p)).dupcnt
               | .ret _ _ _ _ _ _ _ => True
               | _ => t.dies = s.dies)
            ∧ ((classOf b = 1 ∨ classOf b = 9) → ∃ q, t.port.outbox = q :: s.port.outbox ∧ q.body = b))
        ∧ (∀ pn, s.partOfEndp (pkDst p) = some pn → packetOk p = true → lookup (pairOf p, pkTag p) s.port.performed = none → pkRel p = true →
            let ahead := pkRseq p - (lookup (pairOf p) s.port.rseqIn).getD 0
            ahead ≠ 0 → ahead.msb = false → p ∉ s.port.early →
            exec i s = .next { s with port := { s.port with early := s.port.early ++ [p] } }))

/-- Launches, doorbells and domain barriers (R25, R356, R357, R398, R399, R413, R414): an accepted launch enters its queue and calls for the
placement pass of its cycle; a full queue answers NAK with its hint, a descriptor that fails check k is refused with k; a doorbell adds its value
to the counter of the task that its entry names; an arrival is counted at the barrier's home and the last one completes the phase; absence stops
the clock; a configuration ends with the retirement of its last member, wherever the members are; the word that a timeout has expired reaches the
supervisor of a member's die. -/
def Obligations.ControlPackets : Prop :=
  ∀ (s : State) (p : Packet) (pn : Nat), s.Reaches p pn →
    let tells (b : Body) (t : State) : Prop := pkSrc p ≠ pkDst p → ∃ q, t.port.outbox.head? = some q ∧ q.body = b
    (∀ (n : BitVec 10) (words : List Word), p.body = .launch n words →
      let d := Desc.ofWords words
      (∀ k, descErr (s.part pn).dies d = some k → Reach s (.hostLaunch p) fun t =>
        t.queues = s.queues ∧ t.mem = s.mem ∧ tells (.refusal (pkTag p) (.reject k)) t)
      ∧ (∀ q, descErr (s.part pn).dies d = none → s.queueAt n = some q → s.partOfQueue n = pn → q.space = pkSpace p →
          q.space ∈ (s.part pn).hlt → Reach s (.hostLaunch p) fun t => t.queues = s.queues ∧ t.mem = s.mem ∧ tells (.refusal (pkTag p) (.reject 0)) t)
      ∧ (∀ q, descErr (s.part pn).dies d = none → s.queueAt n = some q → s.partOfQueue n = pn → q.space = pkSpace p →
          q.space ∉ (s.part pn).hlt →
          (q.entries.length < 64 → Reach s (.hostLaunch p) fun t => Answered p [] t ∧ t.passDue = true ∧ t.core = s.core ∧ t.mem = s.mem
            ∧ ∃ q', t.queueAt n = some q' ∧ q'.entries.map Entry.desc = q.entries.map Entry.desc ++ [d])
          ∧ (64 ≤ q.entries.length → Reach s (.hostLaunch p) fun t => t.queues = s.queues ∧ t.mem = s.mem
              ∧ tells (.refusal (pkTag p) (.nak (q.entries.filter fun e => e.st != .running).length)) t)))
    ∧ (∀ (value : BitVec 32) (number : BitVec 24), p.body = .doorbell value number →
        (∀ e id, number.toNat < 4096 → lookup number.toNat (s.part pn).doors = some e → e.sep = pkSrc p → e.ssp = pkSpace p →
          s.doorTask pn e = some (some id) → Cells.wf (s.coreAt id).r.k = true → Reach s (.doorbell p) fun t => Answered p [] t ∧ t.mem = s.mem
            ∧ cget (t.coreAt id).r.k e.k.toNat = cget (s.coreAt id).r.k e.k.toNat + value
            ∧ (∀ k, k ≠ e.k.toNat → cget (t.coreAt id).r.k k = cget (s.coreAt id).r.k k) ∧ (t.coreAt id).r.g = (s.coreAt id).r.g)
        ∧ ((4096 ≤ number.toNat ∨ lookup number.toNat (s.part pn).doors = none) → Reach s (.doorbell p) fun t =>
            t.mem = s.mem ∧ t.core = s.core ∧ tells (.refusal (pkTag p) (.reject 5)) t))
    ∧ (∀ (b : DBar), s.dbars = [b] →
        (∀ member, p.body = .arrival b.bar member → b.home = pkDst p →
          (member < b.members.length → Reach s (.domainBarrierArrival p) fun t => Answered p [] t ∧ t.mem = s.mem
            ∧ ∃ b', t.dbars = [b'] ∧ b'.members = b.members
              ∧ (if b.members.length ≤ b.arrivals.length + 1 ∧ ∀ m ∈ b.absent, m = member ∨ m ∈ b.arrivals
                then b'.arrivals = [] ∧ b'.phase = b.phase + 1 ∧ b'.counted = 0 ∧ b'.since = none ∧ b'.fired = false
                else b'.arrivals = member :: b.arrivals ∧ b'.phase = b.phase))
          ∧ (b.members.length ≤ member → Reach s (.domainBarrierArrival p) fun t =>
              t.dbars = [b] ∧ tells (.refusal (pkTag p) (.reject 0)) t))
        ∧ (∀ member ph, p.body = .phase b.bar member ph → b.home = pkSrc p → Reach s (.domainBarrierArrival p) fun t =>
            Answered p [] t ∧ t.dbars = [{ b with phase := BitVec.ofNat 32 ph }])
        ∧ (∀ member, p.body = .retired b.bar b.home member → Reach s (.domainBarrierArrival p) fun t => Answered p [] t ∧ t.mem = s.mem
            ∧ (let gone := if member ∈ b.retired then b.retired else member :: b.retired
              t.dbars = if b.members.length ≤ gone.length then [] else [{ b with retired := gone }]))
        ∧ (∀ member e m d, p.body = .expired b.bar member → b.home = pkSrc p → b.members[member]? = some (e, m) → s.memberDie pn m = some d →
            d < 4 → s.dies.length = 4 → Reach s (.domainBarrierArrival p) fun t => Answered p [] t ∧ t.dbars = [b]
              ∧ (t.coreAt (1024 + d)).wake = true
              ∧ { part := pn, code := 9, space := m.1, addr := b.bar.setWidth 64, detail := 0 } ∈ (t.die d).told)
        ∧ (∀ member standing, p.body = .absence b.bar member standing → b.home = pkDst p → b.arrivals.length < b.members.length →
            Reach s (.absenceTokenArrival p) fun t => Answered p [] t ∧ ∃ b', t.dbars = [b'] ∧ b'.arrivals = b.arrivals ∧ b'.phase = b.phase
              ∧ (∀ m, m ∈ b'.absent ↔ (m = member ∧ standing = true) ∨ (m ≠ member ∧ m ∈ b.absent))
              ∧ b'.clock s.cycle = b.clock s.cycle ∧ (b'.since = none ↔ b'.absent ≠ [] ∨ b.arrivals = [])))

/-- Routing and collective packets (R265, R274, R275, R276, R277, R279, R280, R281, R283, R289, R419): a request joins its pool, and the last one
fixes the grants; the parts of a granted row are written into its berth once each; markers complete a pool; a grant, the parts of a return and
of a contribution reach their command; duplicates are counted and change nothing; a packet of the other SVR ends the pool; what
comes for a space that is halted is refused without retry (with 0x12, the model's choice: log 105). -/
def Obligations.RoutingPackets : Prop :=
  ∀ (s : State) (p : Packet) (pn : Nat) (space : BitVec 16), s.Reaches p pn → s.localSpace pn p = some space → s.dies.length = 4 →
    let src := (pkSrc p).toNat
    let refused (why : BitVec 8) (t : State) : Prop :=
      t.mem = s.mem ∧ (pkSrc p ≠ pkDst p → ∃ q, t.port.outbox.head? = some q ∧ q.body = .refusal (pkTag p) (.reject why.toNat))
    (s.halted pn space = true → ∀ i ∈ [Instr.poolRequest p, .dispatchRow p, .closingMarker p, .returnRow p, .collectiveChunk p],
      i = arrivalOf p → Reach s i (refused 0x12))
    ∧ (s.halted pn space = false →
    (∀ (serial : BitVec 32) (x : Pool) (m : Cmd), s.poolAt (pkDie p) space serial = some x → x.core < 1024 → (s.coreAt x.core).st ≠ .quiet →
      x.st ≠ .failed → (s.coreAt x.core).cmdOf x.tk = some m →
      let pool (t : State) (P : Pool → Prop) : Prop := ∃ x', t.poolAt (pkDie p) space serial = some x' ∧ P x'
      let counted (t : State) : Prop := (t.die (pkDie p)).dupcnt = satSucc (s.die (pkDie p)).dupcnt ∧ t.mem = s.mem
      (∀ die n sender tk, p.body = .marker serial die n sender tk → pkSvr p ≠ x.svr → Reach s (.closingMarker p) fun t =>
        refused 0x0A t ∧ (t.die (pkDie p)).miscnt = satSucc (s.die (pkDie p)).miscnt ∧ pool t fun x' => x'.st = .failed)
      ∧ (pkSvr p = x.svr →
      (∀ die wants sender tk, p.body = .poolReq serial die wants sender tk → x.st = .opened → (∀ r ∈ x.reqs, r.1 ≠ src) →
        let reqs := insertReq (src, wants, sender, tk) x.reqs
        (x.reqs.length + 1 < x.nsrc → Reach s (.poolRequest p) fun t => Answered p [] t ∧ pool t fun x' => x' = { x with reqs := reqs })
        ∧ (∀ s1 gs, x.nsrc ≤ x.reqs.length + 1 → s.grantsOf (s.coreAt x.core) m { x with reqs := reqs } = (s1, .ok gs) →
            Reach s (.poolRequest p) fun t =>
              Answered p [] t ∧ t.mem = s1.mem ∧ pool t fun x' => x' = { x with reqs := reqs, st := .granted, grants := gs }))
      ∧ (∀ i weight berth fmt codes scales scores off parts sender tk,
          p.body = .row serial i weight berth fmt codes scales scores off parts sender tk →
          ((src, i) ∈ x.rows ∨ (src, i, off) ∈ x.some_ → Reach s (.dispatchRow p) fun t => Answered p [] t ∧ counted t)
          ∧ (∀ s1, (src, i) ∉ x.rows → (src, i, off) ∉ x.some_ → fmt = tdFmt x.area →
              (∃ g ∈ x.grants, g.1 = src ∧ g.2.2.1 ≤ berth ∧ berth < g.2.2.1 + g.2.2.2) →
              let x1 := x.note p sender tk
              let last := decide (parts ≤ (x.some_.filter fun r => r.1 == src && r.2.1 == i).length + 1)
              s.writeBerth (s.coreAt x.core) m x1 berth off codes scales (if last then x1.headerWords src i weight scores else []) = (s1, .ok ()) →
              Reach s (.dispatchRow p) fun t => Answered p [] t ∧ t.mem = s1.mem ∧ pool t fun x' =>
                if last then x'.rows = x.rows ++ [(src, i)] else x'.rows = x.rows ∧ x'.some_ = (src, i, off) :: x.some_))
      ∧ (∀ die n sender tk, p.body = .marker serial die n sender tk → Reach s (.closingMarker p) fun t => Answered p [] t ∧ pool t fun x' =>
          lookup src x'.markers = some n ∧ x'.rows = x.rows
          ∧ (x.st = .granted → (x'.st = .complete ↔ s.acksCmd x.core x.tk = true ∧ ∀ r ∈ x.reqs, ∃ k, lookup r.1 x'.markers = some k
              ∧ k ≤ (x.rows.filter fun y => y.1 == r.1).length)))))
    ∧ (∀ (id : Nat) (m : Cmd), id < 1024 → (s.coreAt id).cmdOf m.tk = some m → pkSvr p = m.svr →
        let now (m' : Cmd) (t : State) : Prop := Answered p [] t ∧ (t.coreAt id).cmdOf m.tk = some m'
        let dup (t : State) : Prop := now m t ∧ t.mem = s.mem ∧ (t.die (dieOfCore id)).dupcnt = satSucc (s.die (dieOfCore id)).dupcnt
        (∀ serial die grants sender tk, p.body = .poolGrant serial die grants sender tk →
          s.findCmd pn space (fun c y => c.key == sender && y.tk == tk && y.op == 0x83) = .at_ id m → (src, die.toNat) ∈ m.pend →
          let rows := (List.range (rE m.w0)).filterMap fun e =>
            if (m.counts.getD (3 * e) 0, m.counts.getD (3 * e + 1) 0) = (src, die.toNat) then
              some (e, ((grants.find? fun g => g.1 == m.counts.getD (3 * e + 2) 0).map fun g => [g.2.1, g.2.2]).getD [0, 0])
            else none
          Reach s (.poolGrant p) (now { m with got := m.got ++ rows, pend := m.pend.filter fun x => x != (src, die.toNat) }))
        ∧ (∀ serial, s.findCmd pn space (fun _ y => y.op == 0x84 && rSerial y.w1 == serial) = .at_ id m →
            (∀ i vals off parts c k, p.body = .ret serial i vals off parts c k →
              let known : Prop := i ∉ m.sent ∨ (lookup i m.got).isSome = true ∨ ∃ x ∈ m.parts, x.src = i ∧ x.off = off
              let share : Share := { src := i, off := off, items := vals.map fun v => (v.setWidth 64, some 0) }
              (known → Reach s (.returnRow p) dup)
              ∧ (¬known → joinParts i parts (share :: m.parts) = none → Reach s (.returnRow p) (now { m with parts := share :: m.parts }))
              ∧ (∀ xs s1 m', ¬known → joinParts i parts (share :: m.parts) = some xs →
                  s.keepReturn (s.coreAt id) m i xs = (s1, .ok m') →
                  Reach s (.returnRow p) fun t => now { m' with asks := [] } t ∧ t.mem = s1.mem ∧ m'.got = m.got ++ [(i, xs)]))
            ∧ (∀ die c k, p.body = .retMarker serial die c k → Reach s (.closingMarker p)
                (now { m with pend := m.pend.filter fun x => x != (src, die.toNat) })))
        ∧ (∀ cser from_ agree fmt off vals more c k, p.body = .chunk cser from_ (cRank m.w0) agree fmt off vals more c k →
            s.findCmd pn space (fun _ y => y.op == 0x87 && y.started && cSer y.w1 == cser && cRank y.w0 == cRank m.w0) = .at_ id m →
            agree = m.agree m.counts → fmt = tdFmt m.tda →
            let share : Share := { src := from_, off := off, items := vals }
            ((∃ x ∈ m.parts, x.src = from_ ∧ x.off = off) → Reach s (.collectiveChunk p) dup)
            ∧ ((∀ x ∈ m.parts, ¬(x.src = from_ ∧ x.off = off)) → Reach s (.collectiveChunk p) (now { m with parts := m.parts ++
              ((share :: more.map fun x => { src := x.1, off := off, items := x.2 }).filter fun y =>
                !m.parts.any fun x => x.src == y.src && x.off == y.off) })))))

/-! ## The harbour controller -/

/-- Commands of the harbour controller (R351, R355, R360, R385, R389, R390, R398, R409, R412, R413, R414, R415, R419, R426, R427, R430): each does
its whole effect with status 0 (2 for one that completes later) or, when refused, nothing with status 1, or, for a migration, with a status that
says why; a freeze takes place at once, from the host or through a ring. That an event of the table is answered by a report with code 80h + its
code, and the status numbers, are the model's choices (log 17); so are the refusals of a resume of a space that is not halted and of a queue of
space 0 (log 75), the bounds of ETO, and of AGEI by STARVE, on the sides that the spec leaves open (log 76), and that a request to stop a gang
that is to be moved clears the move's target (log 90). -/
def Obligations.HostCommands : Prop :=
  ∀ (s : State) (part : BitVec 2), s.parts.length = 4 → s.dies.length = 4 → s.bootFail = none →
    let p := part.toNat
    let tells (pn : Nat) (code : BitVec 8) (st : Nat) (t : State) : State :=
      t.report { part := pn, code := 0x80 ||| code, space := 0, addr := 0, detail := BitVec.ofNat 32 st }
    let gives (i : Instr) (code : BitVec 8) (st : Nat) (t : State) : Prop := exec i s = .next (tells p code st t)
    let spaces := (s.part p).spaces
    (∀ (q : BitVec 10) (space : BitVec 16),
      let ok := (s.part p).dies.getLsbD (q.toNat / 256) = true ∧ s.queueAt q = none ∧ space ∈ spaces ∧ space ≠ 0
      (ok → gives (.createQueue part q space) 1 0 { s with queues := s.queues ++ [{ num := q, space := space, entries := [] }] })
      ∧ (¬ok → gives (.createQueue part q space) 1 1 s))
    ∧ (∀ (q : BitVec 10),
      (∀ x, s.queueAt q = some x → s.partOfQueue q = p →
        (x.entries = [] → gives (.destroyQueue part q) 2 0 { s with queues := s.queues.filter fun y => y.num != q })
        ∧ (x.entries ≠ [] → gives (.destroyQueue part q) 2 1 s))
      ∧ (s.queueAt q = none → gives (.destroyQueue part q) 2 1 s))
    ∧ (∀ (space : BitVec 16),
      (space ∈ (s.part p).hlt → Reach s (.resumeSpace part space) fun t =>
        (t.part p).hlt = (s.part p).hlt.filter (fun x => x != space) ∧ t.mem = s.mem ∧ t.gangs = s.gangs
        ∧ t.queues = s.queues.map fun q => if s.partOfQueue q.num = p ∧ q.space = space then { q with entries := [] } else q)
      ∧ (space ∉ (s.part p).hlt → gives (.resumeSpace part space) 3 1 s))
    ∧ (∀ v : Nat,
      let x := s.part p
      let set (which : BitVec 2) (ok : Prop) (f : Part → Part) : Prop :=
        (ok → gives (.setPartitionParameter part which v) 4 0 (s.onPart p f)) ∧ (¬ok → gives (.setPartitionParameter part which v) 4 1 s)
      set 0 (256 ≤ v ∧ v ≤ 1048576 ∧ v ≤ x.starve) (fun y => { y with agei := v }) ∧ set 1 (x.agei ≤ v) (fun y => { y with starve := v })
      ∧ set 2 (v ≤ 1048576) (fun y => { y with pquiet := v }) ∧ set 3 (1 ≤ v) (fun y => { y with eto := v }))
    ∧ (∀ (ns : List Nat) (endp : List (BitVec 9)), ns.length = 4 → (∀ n ∈ ns, n < 4) → endp.length = 4 →
      (∀ i ∈ ns, ∀ j ∈ ns, i ≠ j → endp.getD i 0 ≠ endp.getD j 0) →
      ((∀ q ∈ s.queues, q.entries = []) → Reach s (.setPartitions ns endp) fun t => t.mem = s.mem
        ∧ (∀ k < 4, ∀ y ∈ (t.part k).sppt, mapped (t.part k).dies (field y.2 39 12 * 4096) = true)
        ∧ (∀ k < 4, ∀ d < 4, (t.part k).dies.getLsbD d = decide (ns.getD d 0 = k)) ∧ ∀ k ∈ ns, (t.part k).endp = endp.getD k 0)
      ∧ ((∃ q ∈ s.queues, q.entries ≠ []) → exec (.setPartitions ns endp) s = .next (tells 0 5 1 s)))
    ∧ (∀ (ph4 ph5 w0 w1 w2 : Word), field ph4 55 12 = 0 → ph5 = 0 → field w0 62 57 = 0 → field w0 15 5 = 0 →
      let n := field ph4 11 0
      let sep : BitVec 9 := BitVec.ofNat 9 (field w0 56 48)
      let ssp : BitVec 16 := BitVec.ofNat 16 (field w0 47 32)
      let lsp : BitVec 16 := BitVec.ofNat 16 (field w0 31 16)
      let ew := [w0, w1, w2, 0, 0, 0, 0, 0]
      (field w0 4 2 = 0 → field w1 63 24 = 0 → field w2 63 25 = 0 → n < 64 → lsp ∈ spaces →
        let e : Ingress := { sep := sep, ssp := ssp, lsp := lsp, frame := field w1 23 0, count := field w2 24 0, r := bitAt w0 0, w := bitAt w0 1 }
        gives (.writeIngressEntry part ph4 ph5 ew) 6 0
          (s.onPart p fun x => { x with ingress := if bitAt w0 63 then assign n e x.ingress else unassign n x.ingress }))
      ∧ ((64 ≤ n ∨ lsp ∉ spaces) → gives (.writeIngressEntry part ph4 ph5 ew) 6 1 s)
      ∧ (w2 = 0 → lsp ∈ spaces →
        let e : DoorEnt := { sep := sep, ssp := ssp, lsp := lsp, wid := w1, k := BitVec.ofNat 5 (field w0 4 0) }
        gives (.writeDoorbellEntry part ph4 ph5 ew) 7 0
          (s.onPart p fun x => { x with doors := if bitAt w0 63 then assign n e x.doors else unassign n x.doors }))
      ∧ (lsp ∉ spaces → gives (.writeDoorbellEntry part ph4 ph5 ew) 7 1 s))
    ∧ (∀ (bar home : BitVec 9) (dbto : Nat) (members : List (BitVec 9 × BitVec 16 × BitVec 10 × Word)),
      let rest := s.dbars.filter fun b => !(b.bar == bar && b.home == home)
      let b : DBar := { bar := bar, home := home, dbto := dbto, members := members, arrivals := [], phase := 0, absent := [], retired := [],
                        counted := 0, since := none, fired := false }
      (448 ≤ bar.toNat → gives (.configureDomainBarrier part bar home dbto members) 8 0
        { s with dbars := if members = [] then rest else rest ++ [b] })
      ∧ (bar.toNat < 448 → gives (.configureDomainBarrier part bar home dbto members) 8 1 s))
    ∧ (∀ (space : BitVec 16) (va : Word) (frame : BitVec 24),
      let no (why : Nat) : Prop := gives (.migratePage part space va frame) 9 why s
      s.softGran = [] →
      (∀ e, walk s p space va.toNat va = .error e → (e.cause ≠ 0x08 → no 3)
        ∧ (e.cause = 0x08 → Reach s (.migratePage part space va frame) fun t => t.mem = s.mem ∧ t.migs = s.migs
            ∧ t.reports = s.reports ++ [{ part := p, code := 0x89, space := 0, addr := 0, detail := 3 }]))
      ∧ (∀ leaf level key, walk s p space va.toNat va = .ok (leaf, level, key) →
        let home (f : Nat) : Option Nat := hbmDie (f * 65536)
        let old := field leaf 39 16
        let here : Prop := va.toNat < 2 ^ 57 ∧ level = 0 ∧ field leaf 7 6 = 0
        let fit : Prop := ∃ d, home frame.toNat = some d ∧ hbmDie (frame.toNat * 65536 + 65535) = some d ∧ home old ≠ some d
          ∧ (s.part p).dies.getLsbD d = true
        (¬here → no 3) ∧ (here → home old = none → no 4) ∧ (here → home old ≠ none → field leaf 12 11 ≠ 0 → no 5)
        ∧ (here → home old ≠ none → field leaf 12 11 = 0 → ¬fit → no 6)
        ∧ (here → home old ≠ none → field leaf 12 11 = 0 → fit → 16 ≤ (s.migs.filter fun m => m.part == p).length → no 7)
        ∧ (here → home old ≠ none → field leaf 12 11 = 0 → fit → s.migs = [] → s.badGran = [] → Memory.wf s.mem = true →
          Reach s (.migratePage part space va frame) fun t =>
            t.migs = [{ part := p, space := space, va := va, leaf := key, old := BitVec.ofNat 24 old, new := frame, copied := 0, switched := false }]
            ∧ t.reports = s.reports ++ [{ part := p, code := 0x89, space := 0, addr := 0, detail := 2 }]
            ∧ field (t.readWord key) 12 11 = 1 ∧ field (t.readWord key) 39 16 = old
            ∧ (∀ k, ¬(key ≤ k ∧ k < key + 8) → cget (w := 8) t.mem k = cget (w := 8) s.mem k))))
    ∧ (∀ (id : Nat) (g : Gang), s.gangAt id = some g → (∀ i ∈ g.ranks, i < 1024) →
      let room := reserveRuns (s.usedUnits g.part) (s.part g.part).ctxUnits (g.ranks.map fun _ => ceilDiv (fullLen g.desc) 4096)
      let said (st : BitVec 32) (t : State) : Prop := t.reports = s.reports ++ [{ part := g.part, code := 0x8A, space := 0, addr := 0, detail := st }]
      (g.request.isSome = true → g.target = [] → exec (.requestPreemption id) s = .next (tells g.part 0x0A 2 s))
      ∧ ((g.request = none ∨ g.target ≠ []) →
        ((s.part g.part).ctxUnits = 0 ∨ room = none → Reach s (.requestPreemption id) fun t =>
          t.gangs = s.gangs ∧ t.core = s.core ∧ t.parked = s.parked ∧ t.mem = s.mem ∧ said 1 t)
        ∧ (∀ area, (s.part g.part).ctxUnits ≠ 0 → room = some area → Reach s (.requestPreemption id) fun t => said 2 t
          ∧ t.gangAt id = some { g with request := some (g.request.getD s.cycle), area := area, target := [] } ∧ Asked s g.ranks t)))
    ∧ (∀ die : BitVec 2,
      let d := die.toNat
      let rep (e : Event) : Report :=
        { part := s.partOfDie d, code := BitVec.ofNat 8 (field e.bb1 63 48), space := BitVec.ofNat 16 (field e.bb1 47 32), addr := e.bb2,
          detail := BitVec.ofNat 32 (field e.bb3 31 0) }
      exec (.readBlackBox die) s = .next (tells (s.partOfDie d) 0x0B 0 { s with reports := s.reports ++ (s.die d).bbox.map rep })
      ∧ (∀ cmd, let sup := 1024 + d
          let given := (s.readWord (spKey sup 0xE0000) - s.readWord (spKey sup 0xE0008)).toNat
          ((s.die d).ring.length < given → Reach s (.ringCommandSubmit die cmd) fun t => t.mem = s.mem ∧ t.core = s.core
            ∧ (if cmd = .freeze then t.frozen = true ∧ t.port.links = 0 else (t.die d).ring = (s.die d).ring ++ [cmd]))
          ∧ (given ≤ (s.die d).ring.length → exec (.ringCommandSubmit die cmd) s = .next s)))
    ∧ (Reach s .freeze fun t => t.frozen = true ∧ t.port.links = 0 ∧ t.mem = s.mem ∧ t.core = s.core ∧ ∀ d < 4, ∃ e, (t.die d).bbox.getLast? = some e
        ∧ field e.bb1 63 48 = 0x0A ∧ e.bb0 = BitVec.ofNat 64 s.cycle)

/-- The harbour controller over time (R354, R386, R407, R408, R409, R411, R416, R420, R421, R423, R424, R425): a frame is due every 2,048 cycles,
adjusts DLIM and compares the watchdogs; a packet is sent again after ETO cycles, seven times, and then reported; a replay works or fails, and
16 that fail in a row take their link down; scrubbing corrects; a migration ends with MIG 00; a cold reset clears all but HBM4E, a warm reset
the SRAMs and the queues of one partition. What a failed step of the bring-up leaves is log 81's, that a warm reset restores the registers and
tables of the die to their reset values log 82's, and what of a partition outlives it (its queues without their launches, its spaces) log
98's. -/
def Obligations.HarbourTime : Prop :=
  ∀ s : State, s.dies.length = 4 →
    let logged (d code : Nat) (t : State) : Prop := ∃ e, (t.die d).bbox.getLast? = some e ∧ field e.bb1 63 48 = code
    (∀ watts, (s.cycle < s.frames → exec (.hcFrame watts) s = .next s)
      ∧ (s.frames ≤ s.cycle → s.bootFail = none → s.frozen = false → s.qerrs = [] → s.migs = [] → (∀ x ∈ s.parts, x.hostq = [] ∧ x.pending = []) →
          (∀ x ∈ s.dies, x.ring = [] ∧ x.pending = []) → (∀ x ∈ s.port.early, classOf x.body ≠ 8) → Reach s (.hcFrame watts) fun t =>
          t.frames = s.frames + 2048 ∧ t.mem = s.mem ∧ t.core = s.core
          ∧ (t.dies = s.dies.map fun x =>
              let l := if 2200 < watts then max 64 (x.dlim - 32) else if watts < 2100 then min 1024 (x.dlim + 16) else x.dlim
              { x with dlim := l })
          ∧ (t.gangs = s.gangs.map fun g =>
              let w : Word := ((lookup g.queue.toNat s.qwd).getD 0).setWidth 64
              let reached (n i : Nat) : Bool :=
                n != 0 && decide (4096 * n ≤ g.time + (s.cycle - g.since)) && !g.stages.getLsbD i
              let due := if reached (field w 15 0) 0 then 1 else if reached (field w 31 16) 1 then 2 else if reached (field w 47 32) 2 then 3 else 0
              { g with due := due })))
    ∧ (∀ (o : Out), s.port.unacked = [o] →
        let due := o.sent + (s.part ((s.partOfEndp o.src).getD 0)).eto
        (o.held = true ∨ s.cycle < due → exec (.packetResend o.dst o.tag) s = .next s)
        ∧ (o.held = false → due ≤ s.cycle → o.resends < 7 →
          let again : Out := { o with sent := s.cycle, resends := o.resends + 1 }
          exec (.packetResend o.dst o.tag) s
            = .next { s with port := { s.port with unacked := [again], outbox := s.routed o.pkt :: s.port.outbox } })
        ∧ (∀ a n bytes, o.held = false → due ≤ s.cycle → 7 ≤ o.resends → o.done = none → o.pkt.body = .memReq .store a n bytes →
            (∀ c ∈ s.allCores ++ s.saved.flatMap Saved.cores, c.asked o.dst o.tag = false) →
            Reach s (.packetResend o.dst o.tag) fun t => t.port.unacked = [] ∧ t.port.undelivered = s.port.undelivered + 1 ∧ t.mem = s.mem
              ∧ ∃ x, t.reports = s.reports ++ [x] ∧ x.code = 8 ∧ x.addr = a.setWidth 64))
    ∧ (∀ port : BitVec 4,
        let n := port.toNat
        let failures := (lookup n s.port.replays).getD 0
        (s.port.links.getLsbD n = true → (16 ≤ failures → Reach s (.linkDown port) fun t => (t.port.links.getLsbD n = false) ∧ logged 0 7 t
            ∧ (∀ k < 16, k ≠ n → t.port.links.getLsbD k = s.port.links.getLsbD k) ∧ t.mem = s.mem ∧ t.core = s.core)
          ∧ (failures < 16 → exec (.linkDown port) s = .next s)
          ∧ (Reach s (.linkReplay port) fun t => t.mem = s.mem ∧ t.core = s.core ∧ t.port.links = s.port.links ∧ t.port.unacked = s.port.unacked
            ∧ (t.port.replays = unassign n s.port.replays ∨ t.port.replays = assign n (failures + 1) s.port.replays)))
        ∧ (s.port.links.getLsbD port.toNat = false → exec (.linkDown port) s = .next s ∧ exec (.linkReplay port) s = .next s))
    ∧ (∀ g : Nat, dieOfKey (g * 32) < 4 → Reach s (.scrubVisit g) fun t => t.mem = s.mem ∧ t.core = s.core ∧ t.badGran = s.badGran
        ∧ (∀ x, x ∈ t.softGran ↔ x ∈ s.softGran ∧ x ≠ g) ∧ (g ∈ s.badGran → logged (dieOfKey (g * 32)) 2 t)
        ∧ (g ∈ s.softGran → g ∉ s.badGran → logged (dieOfKey (g * 32)) 1 t) ∧ (g ∉ s.softGran → g ∉ s.badGran → t = s))
    ∧ (∀ (m : Mig) (part : BitVec 2), s.migs = [m] → m.part = part.toNat → s.badGran = [] → Memory.wf s.mem = true →
        let busy := s.stale 4096 fun q x => q == m.part && x == m.space
        let at_ := migKey s.migs m.leaf
        (m.switched = true → busy = true → exec (.migrationDone part m.space m.va) s = .next s)
        ∧ (m.switched = true → busy = false → Reach s (.migrationDone part m.space m.va) fun t =>
          t.migs = [] ∧ field (t.readWord at_) 12 11 = 0 ∧ field (t.readWord at_) 39 16 = m.new.toNat
          ∧ ∀ k, ¬(at_ ≤ k ∧ k < at_ + 8) → cget (w := 8) t.mem k = cget (w := 8) s.mem k)
        ∧ (m.switched = false → exec (.migrationDone part m.space m.va) s = .next s))
    ∧ (∀ (image : List Byte) (root : Word), Memory.wf s.mem = true → image.length ≤ 0x100000 →
        (Reach s (.coldReset image root none) fun t => t.core = Core.supervisor 0 ∧ t.gangs = [] ∧ t.queues = [] ∧ t.cycle = 0 ∧ t.frozen = false
          ∧ t.dies = State.reset.dies ∧ (t.part 0).dies = 0xF ∧ (t.part 0).sppt = [(0, root &&& mask64 56 12)] ∧ t.bootFail = none
          ∧ ∀ k, cget (w := 8) t.mem k =
              if (hbmDie k).isSome then cget (w := 8) s.mem k
              else if spKey 1024 0 ≤ k ∧ k < spKey 1028 0 ∧ (k - spKey 1024 0) % 0x100000 < image.length then
                image.getD ((k - spKey 1024 0) % 0x100000) 0
              else 0)
        ∧ (∀ k : BitVec 3, Reach s (.coldReset image root (some k)) fun t => t.bootFail = some k.toNat
            ∧ (if k.toNat ≤ 4 then ∀ x ∈ t.parts, x.dies = 0 else t.parts = State.reset.parts) ∧ t.core.st = .free ∧ t.parked = []
            ∧ (if k.toNat ≤ 3 then t.mem = s.mem ∧ ∀ d < 4, (t.die d).bbox = (s.die d).bbox
              else (∀ d < 4, (t.die d).bbox = [])
                ∧ ∀ k, cget (w := 8) t.mem k = if (hbmDie k).isSome then cget (w := 8) s.mem k else 0))
        ∧ (∀ part : BitVec 2, let p := part.toNat
            s.parts.length = 4 → (s.part p).dies ≠ 0 → s.bootFail = none → Reach s (.warmReset part image root) fun t =>
              (∀ k, (hbmDie k).isSome = true → cget (w := 8) t.mem k = cget (w := 8) s.mem k)
              ∧ (∀ d < 4, s.partOfDie d = p → ∀ i < image.length, cget (w := 8) t.mem (spKey (1024 + d) i) = image.getD i 0)
              ∧ (∀ d < 4, s.partOfDie d = p → t.die d = { Die.reset with bbox := (s.die d).bbox, lost := (s.die d).lost })
              ∧ (∀ d < 4, s.partOfDie d ≠ p → t.die d = s.die d) ∧ (t.part p).dies = (s.part p).dies ∧ (t.part p).hlt = []
              ∧ (t.part p).spaces = (s.part p).spaces
              ∧ t.queues = s.queues.map (fun q => if s.partOfQueue q.num = p then { q with entries := [] } else q)
                ∧ (∀ g, g ∈ t.gangs ↔ g ∈ s.gangs ∧ g.part ≠ p)
              ∧ (s.partOfDie (dieOfCore s.core.id) = p → 1024 ≤ s.core.id → t.core = Core.supervisor (s.core.id - 1024))
              ∧ (s.partOfDie (dieOfCore s.core.id) ≠ p → t.core = s.core)))

/-! ## Invariants -/

/-- Every step keeps memory in its canonical form (addresses strictly rising, no entry equal to what an unlisted address reads as), in every
state whose memory has it. -/
def Obligations.MemoryWfKept : Prop :=
  ∀ s t : State, Memory.wf s.mem = true → step s = .next t → Memory.wf t.mem = true

/-- What the bring-up leaves (R73, R420, R422): memory in its canonical form, four supervisor cores started at offset 0 of their scratchpads, every
other core free, one partition of four dies with endpoint 0, DLIM 512, no queue, gang, guard or migration, clocks at 0; registers are zero,
which is the model's choice where R420 does not say so (log 2), as are HBM4E and the Hold reading 0 (log 1) and the endpoint number 0
(log 6). -/
def Obligations.ResetState : Prop :=
  let s := State.reset
  Memory.wf s.mem = true ∧ s.mem = [] ∧ s.core.id = 1024 ∧ (∀ d < 4, (s.coreAt (1024 + d)).st = .running ∧ (s.coreAt (1024 + d)).pc = 0)
  ∧ (∀ id < 1024, s.coreAt id = Core.blank id) ∧ (∀ i < 128, getG s.core.r i = 0) ∧ s.core.r.fsr = 0 ∧ (s.part 0).dies = 0xF
  ∧ (∀ p, 1 ≤ p → p < 4 → (s.part p).dies = 0) ∧ (s.part 0).endp = 0 ∧ (∀ d < 4, (s.die d).dlim = 512 ∧ (s.die d).bbox = [])
  ∧ s.queues = [] ∧ s.gangs = [] ∧ s.guards = [] ∧ s.migs = [] ∧ s.cycle = 0 ∧ s.frozen = false
end

