-- ==== Sys2Proof/Laws/Decode.lean ====
section
/-!
SUPPORT. Sys2Proof/Laws/Decode.lean: the fields of a word and its codes come back as they were put in (R136 to R143).
-/
namespace Sys2Proof

/-! ## Fields -/

theorem extract_append_high {n m k : Nat} (x : BitVec n) (y : BitVec m) (i : Nat) (h : m ≤ i) :
    (x ++ y).extractLsb' i k = x.extractLsb' (i - m) k := by
  apply BitVec.eq_of_getLsbD_eq
  intro j hj
  simp only [BitVec.getLsbD_extractLsb', BitVec.getLsbD_append, hj, decide_true, Bool.true_and]
  rw [if_neg (by omega), show i + j - m = i - m + j by omega]

theorem extract_append_low {n m k : Nat} (x : BitVec n) (y : BitVec m) (i : Nat) (h : i + k ≤ m) :
    (x ++ y).extractLsb' i k = y.extractLsb' i k := by
  apply BitVec.eq_of_getLsbD_eq
  intro j hj
  simp only [BitVec.getLsbD_extractLsb', BitVec.getLsbD_append, hj, decide_true, Bool.true_and]
  rw [if_pos (by omega)]

theorem extract_full {n : Nat} (x : BitVec n) : x.extractLsb' 0 n = x := by simp

theorem Head.split_join (h : Head) : Head.split h.join = h := by
  cases h
  simp (disch := decide) only [Head.split, Head.join, extract_append_high, extract_append_low, extract_full, Nat.sub_self,
    Nat.reduceSub]

theorem GLo.split_join (h : GLo) : GLo.split h.join = h := by
  cases h
  simp (disch := decide) only [GLo.split, GLo.join, extract_append_high, extract_append_low, extract_full, Nat.reduceSub]

theorem ILo.split_join (h : ILo) : ILo.split h.join = h := by
  cases h
  simp (disch := decide) only [ILo.split, ILo.join, extract_append_high, extract_append_low, extract_full, Nat.reduceSub]

theorem MLo.split_join (h : MLo) : MLo.split h.join = h := by
  cases h
  simp (disch := decide) only [MLo.split, MLo.join, extract_append_high, extract_append_low, extract_full, Nat.reduceSub]

theorem RLo.split_join (h : RLo) : RLo.split h.join = h := by
  cases h
  simp (disch := decide) only [RLo.split, RLo.join, extract_append_high, extract_append_low, extract_full, Nat.reduceSub]

theorem ALo.split_join (h : ALo) : ALo.split h.join = h := by
  cases h
  simp (disch := decide) only [ALo.split, ALo.join, extract_append_high, extract_append_low, extract_full, Nat.reduceSub]

/-! ## Codes -/

theorem decTarget_encTarget (t : Option Target) : decTarget (encTarget t) = .ok t := by
  rcases t with _ | ⟨idx, sl⟩
  · rfl
  · have hb : (1#1 ++ idx ++ encSlot sl : BitVec 10).extractLsb' 9 1 = 1#1 := by
      simp (disch := decide) only [extract_append_high, extract_full, Nat.reduceSub]
    have h0 : (1#1 ++ idx ++ encSlot sl : BitVec 10) ≠ 0 := by
      intro h; rw [h] at hb; revert hb; decide
    have hi : (1#1 ++ idx ++ encSlot sl : BitVec 10).extractLsb' 2 7 = idx := by
      simp (disch := decide) only [extract_append_high, extract_append_low, extract_full, Nat.reduceSub]
    have hs : (1#1 ++ idx ++ encSlot sl : BitVec 10).extractLsb' 0 2 = encSlot sl := by
      simp (disch := decide) only [extract_append_low, extract_full]
    simp only [encTarget, decTarget, h0, if_false, hb, hi, hs]
    cases sl <;> rfl

theorem decPm_encPm (p : Pm) : decPm (encPm p) = .ok p := by cases p <;> rfl
theorem decSpace_encSpace (x : Space) : decSpace (encSpace x) = .ok x := by cases x <;> rfl
theorem decScope_encScope (x : Scope) : decScope (encScope x) = .ok x := by cases x <;> rfl
theorem decOrd_encOrd (x : Ord) : decOrd (encOrd x) = x := by cases x <;> rfl
theorem decClass_encClass (x : RegClass) : decClass (encClass x) = .ok x := by cases x <;> rfl
theorem decTy_code (t : Ty) : decTy t.code = .ok t := by cases t <;> rfl
theorem decTy4_encTy4 {t : Ty} (h : t.is4 = true) : decTy4 (encTy4 t) = .ok t := by cases t <;> first | rfl | cases h
theorem decFmt_encFmt {t : Ty} (h : t.isFL = true) : decFmt (encFmt t) = t := by cases t <;> first | rfl | cases h

theorem decCtl_headOf {op : BitVec 8} {fn : BitVec 5} {c : Ctl} {lo : BitVec 38} {allowed : Bool} (h : c.lpOk allowed = true) :
    decCtl (headOf op fn c lo) allowed (encTarget c.t1) = .ok c := by
  rcases c with ⟨pm, lp, t0, t1⟩
  simp only [decCtl, headOf, decPm_encPm, decTarget_encTarget, Ctl.lpOk, Bool.or_eq_true, Bool.not_eq_true'] at h ⊢
  cases lp <;> cases pm <;> cases allowed <;> simp_all [need, bit, bind, pure, Except.bind, Except.pure]

theorem decCtl0_headOf {op : BitVec 8} {fn : BitVec 5} {c : Ctl} {lo : BitVec 38} {allowed : Bool} (h : c.lpOk allowed = true)
    (hn : c.noTarget = true) : decCtl0 (headOf op fn c lo) allowed (encTarget c.t1) = .ok c := by
  simp [decCtl0, decCtl_headOf h, need, hn, bind, pure, Except.bind, Except.pure]

end Sys2Proof
end

