-- ==== Sys2Proof/Laws/State.lean ====
section
/-!
SUPPORT. Sys2Proof/Laws/State.lean: one lemma per field and update of the state, so that no proof unfolds a record update.
-/
namespace Sys2Proof.Machine

/-! ## The frame of the current core -/

@[simp] theorem State.onFrame_parked (s : State) (g : Frame → Frame) : (s.onFrame g).parked = s.parked := rfl
@[simp] theorem State.onFrame_mem (s : State) (g : Frame → Frame) : (s.onFrame g).mem = s.mem := rfl
@[simp] theorem State.onFrame_dies (s : State) (g : Frame → Frame) : (s.onFrame g).dies = s.dies := rfl
@[simp] theorem State.onFrame_parts (s : State) (g : Frame → Frame) : (s.onFrame g).parts = s.parts := rfl
@[simp] theorem State.onFrame_queues (s : State) (g : Frame → Frame) : (s.onFrame g).queues = s.queues := rfl
@[simp] theorem State.onFrame_qbgt (s : State) (g : Frame → Frame) : (s.onFrame g).qbgt = s.qbgt := rfl
@[simp] theorem State.onFrame_qwd (s : State) (g : Frame → Frame) : (s.onFrame g).qwd = s.qwd := rfl
@[simp] theorem State.onFrame_childq (s : State) (g : Frame → Frame) : (s.onFrame g).childq = s.childq := rfl
@[simp] theorem State.onFrame_tmpls (s : State) (g : Frame → Frame) : (s.onFrame g).tmpls = s.tmpls := rfl
@[simp] theorem State.onFrame_gangs (s : State) (g : Frame → Frame) : (s.onFrame g).gangs = s.gangs := rfl
@[simp] theorem State.onFrame_saved (s : State) (g : Frame → Frame) : (s.onFrame g).saved = s.saved := rfl
@[simp] theorem State.onFrame_shadows (s : State) (g : Frame → Frame) : (s.onFrame g).shadows = s.shadows := rfl
@[simp] theorem State.onFrame_forwards (s : State) (g : Frame → Frame) : (s.onFrame g).forwards = s.forwards := rfl
@[simp] theorem State.onFrame_migs (s : State) (g : Frame → Frame) : (s.onFrame g).migs = s.migs := rfl
@[simp] theorem State.onFrame_dbars (s : State) (g : Frame → Frame) : (s.onFrame g).dbars = s.dbars := rfl
@[simp] theorem State.onFrame_guards (s : State) (g : Frame → Frame) : (s.onFrame g).guards = s.guards := rfl
@[simp] theorem State.onFrame_tlb (s : State) (g : Frame → Frame) : (s.onFrame g).tlb = s.tlb := rfl
@[simp] theorem State.onFrame_port (s : State) (g : Frame → Frame) : (s.onFrame g).port = s.port := rfl
@[simp] theorem State.onFrame_badGran (s : State) (g : Frame → Frame) : (s.onFrame g).badGran = s.badGran := rfl
@[simp] theorem State.onFrame_softGran (s : State) (g : Frame → Frame) : (s.onFrame g).softGran = s.softGran := rfl
@[simp] theorem State.onFrame_lostStores (s : State) (g : Frame → Frame) : (s.onFrame g).lostStores = s.lostStores := rfl
@[simp] theorem State.onFrame_qerrs (s : State) (g : Frame → Frame) : (s.onFrame g).qerrs = s.qerrs := rfl
@[simp] theorem State.onFrame_reports (s : State) (g : Frame → Frame) : (s.onFrame g).reports = s.reports := rfl
@[simp] theorem State.onFrame_frozen (s : State) (g : Frame → Frame) : (s.onFrame g).frozen = s.frozen := rfl
@[simp] theorem State.onFrame_bootFail (s : State) (g : Frame → Frame) : (s.onFrame g).bootFail = s.bootFail := rfl
@[simp] theorem State.onFrame_cycle (s : State) (g : Frame → Frame) : (s.onFrame g).cycle = s.cycle := rfl
@[simp] theorem State.onFrame_frames (s : State) (g : Frame → Frame) : (s.onFrame g).frames = s.frames := rfl
@[simp] theorem State.onFrame_passDue (s : State) (g : Frame → Frame) : (s.onFrame g).passDue = s.passDue := rfl
@[simp] theorem State.onFrame_nextId (s : State) (g : Frame → Frame) : (s.onFrame g).nextId = s.nextId := rfl
@[simp] theorem State.onFrame_agenda (s : State) (g : Frame → Frame) : (s.onFrame g).agenda = s.agenda := rfl
@[simp] theorem State.onFrame_turn (s : State) (g : Frame → Frame) : (s.onFrame g).turn = s.turn := rfl
@[simp] theorem State.onFrame_free (s : State) (g : Frame → Frame) : (s.onFrame g).free = s.free := rfl
@[simp] theorem State.onFrame_frame (s : State) (g : Frame → Frame) : (s.onFrame g).core.frame = s.core.frame.map g := rfl
@[simp] theorem State.onFrame_core_id (s : State) (g : Frame → Frame) : (s.onFrame g).core.id = s.core.id := rfl
@[simp] theorem State.onFrame_core_st (s : State) (g : Frame → Frame) : (s.onFrame g).core.st = s.core.st := rfl
@[simp] theorem State.onFrame_core_task (s : State) (g : Frame → Frame) : (s.onFrame g).core.task = s.core.task := rfl
@[simp] theorem State.onFrame_core_r (s : State) (g : Frame → Frame) : (s.onFrame g).core.r = s.core.r := rfl
@[simp] theorem State.onFrame_core_e (s : State) (g : Frame → Frame) : (s.onFrame g).core.e = s.core.e := rfl
@[simp] theorem State.onFrame_core_pc (s : State) (g : Frame → Frame) : (s.onFrame g).core.pc = s.core.pc := rfl
@[simp] theorem State.onFrame_core_spec (s : State) (g : Frame → Frame) : (s.onFrame g).core.spec = s.core.spec := rfl
@[simp] theorem State.onFrame_core_inRepeat (s : State) (g : Frame → Frame) : (s.onFrame g).core.inRepeat = s.core.inRepeat := rfl
@[simp] theorem State.onFrame_core_committed (s : State) (g : Frame → Frame) :
    (s.onFrame g).core.committed = s.core.committed := rfl
@[simp] theorem State.onFrame_core_leaveWaits (s : State) (g : Frame → Frame) :
    (s.onFrame g).core.leaveWaits = s.core.leaveWaits := rfl
@[simp] theorem State.onFrame_core_svrRej (s : State) (g : Frame → Frame) : (s.onFrame g).core.svrRej = s.core.svrRej := rfl
@[simp] theorem State.onFrame_core_barRec (s : State) (g : Frame → Frame) : (s.onFrame g).core.barRec = s.core.barRec := rfl
@[simp] theorem State.onFrame_core_bars (s : State) (g : Frame → Frame) : (s.onFrame g).core.bars = s.core.bars := rfl
@[simp] theorem State.onFrame_core_brk (s : State) (g : Frame → Frame) : (s.onFrame g).core.brk = s.core.brk := rfl
@[simp] theorem State.onFrame_core_stepPend (s : State) (g : Frame → Frame) : (s.onFrame g).core.stepPend = s.core.stepPend := rfl
@[simp] theorem State.onFrame_core_stepDue (s : State) (g : Frame → Frame) : (s.onFrame g).core.stepDue = s.core.stepDue := rfl
@[simp] theorem State.onFrame_core_trapDue (s : State) (g : Frame → Frame) : (s.onFrame g).core.trapDue = s.core.trapDue := rfl
@[simp] theorem State.onFrame_core_skipBrk (s : State) (g : Frame → Frame) : (s.onFrame g).core.skipBrk = s.core.skipBrk := rfl
@[simp] theorem State.onFrame_core_lastQp (s : State) (g : Frame → Frame) : (s.onFrame g).core.lastQp = s.core.lastQp := rfl
@[simp] theorem State.onFrame_core_preempt (s : State) (g : Frame → Frame) : (s.onFrame g).core.preempt = s.core.preempt := rfl
@[simp] theorem State.onFrame_core_stopNow (s : State) (g : Frame → Frame) : (s.onFrame g).core.stopNow = s.core.stopNow := rfl
@[simp] theorem State.onFrame_core_light (s : State) (g : Frame → Frame) : (s.onFrame g).core.light = s.core.light := rfl
@[simp] theorem State.onFrame_core_stop (s : State) (g : Frame → Frame) : (s.onFrame g).core.stop = s.core.stop := rfl
@[simp] theorem State.onFrame_core_killed (s : State) (g : Frame → Frame) : (s.onFrame g).core.killed = s.core.killed := rfl
@[simp] theorem State.onFrame_core_l1 (s : State) (g : Frame → Frame) : (s.onFrame g).core.l1 = s.core.l1 := rfl
@[simp] theorem State.onFrame_core_entry (s : State) (g : Frame → Frame) : (s.onFrame g).core.entry = s.core.entry := rfl
@[simp] theorem State.onFrame_core_icache (s : State) (g : Frame → Frame) : (s.onFrame g).core.icache = s.core.icache := rfl
@[simp] theorem State.onFrame_core_tmpl (s : State) (g : Frame → Frame) : (s.onFrame g).core.tmpl = s.core.tmpl := rfl
@[simp] theorem State.onFrame_core_view (s : State) (g : Frame → Frame) : (s.onFrame g).core.view = s.core.view := rfl
@[simp] theorem State.onFrame_core_units (s : State) (g : Frame → Frame) : (s.onFrame g).core.units = s.core.units := rfl
@[simp] theorem State.onFrame_core_wake (s : State) (g : Frame → Frame) : (s.onFrame g).core.wake = s.core.wake := rfl

/-! ## The units a task has used -/

@[simp] theorem State.markUnits_parked (s : State) (u : BitVec 12) : (s.markUnits u).parked = s.parked := rfl
@[simp] theorem State.markUnits_mem (s : State) (u : BitVec 12) : (s.markUnits u).mem = s.mem := rfl
@[simp] theorem State.markUnits_dies (s : State) (u : BitVec 12) : (s.markUnits u).dies = s.dies := rfl
@[simp] theorem State.markUnits_parts (s : State) (u : BitVec 12) : (s.markUnits u).parts = s.parts := rfl
@[simp] theorem State.markUnits_queues (s : State) (u : BitVec 12) : (s.markUnits u).queues = s.queues := rfl
@[simp] theorem State.markUnits_qbgt (s : State) (u : BitVec 12) : (s.markUnits u).qbgt = s.qbgt := rfl
@[simp] theorem State.markUnits_qwd (s : State) (u : BitVec 12) : (s.markUnits u).qwd = s.qwd := rfl
@[simp] theorem State.markUnits_childq (s : State) (u : BitVec 12) : (s.markUnits u).childq = s.childq := rfl
@[simp] theorem State.markUnits_tmpls (s : State) (u : BitVec 12) : (s.markUnits u).tmpls = s.tmpls := rfl
@[simp] theorem State.markUnits_gangs (s : State) (u : BitVec 12) : (s.markUnits u).gangs = s.gangs := rfl
@[simp] theorem State.markUnits_saved (s : State) (u : BitVec 12) : (s.markUnits u).saved = s.saved := rfl
@[simp] theorem State.markUnits_shadows (s : State) (u : BitVec 12) : (s.markUnits u).shadows = s.shadows := rfl
@[simp] theorem State.markUnits_forwards (s : State) (u : BitVec 12) : (s.markUnits u).forwards = s.forwards := rfl
@[simp] theorem State.markUnits_migs (s : State) (u : BitVec 12) : (s.markUnits u).migs = s.migs := rfl
@[simp] theorem State.markUnits_dbars (s : State) (u : BitVec 12) : (s.markUnits u).dbars = s.dbars := rfl
@[simp] theorem State.markUnits_guards (s : State) (u : BitVec 12) : (s.markUnits u).guards = s.guards := rfl
@[simp] theorem State.markUnits_tlb (s : State) (u : BitVec 12) : (s.markUnits u).tlb = s.tlb := rfl
@[simp] theorem State.markUnits_port (s : State) (u : BitVec 12) : (s.markUnits u).port = s.port := rfl
@[simp] theorem State.markUnits_badGran (s : State) (u : BitVec 12) : (s.markUnits u).badGran = s.badGran := rfl
@[simp] theorem State.markUnits_softGran (s : State) (u : BitVec 12) : (s.markUnits u).softGran = s.softGran := rfl
@[simp] theorem State.markUnits_lostStores (s : State) (u : BitVec 12) : (s.markUnits u).lostStores = s.lostStores := rfl
@[simp] theorem State.markUnits_qerrs (s : State) (u : BitVec 12) : (s.markUnits u).qerrs = s.qerrs := rfl
@[simp] theorem State.markUnits_reports (s : State) (u : BitVec 12) : (s.markUnits u).reports = s.reports := rfl
@[simp] theorem State.markUnits_frozen (s : State) (u : BitVec 12) : (s.markUnits u).frozen = s.frozen := rfl
@[simp] theorem State.markUnits_bootFail (s : State) (u : BitVec 12) : (s.markUnits u).bootFail = s.bootFail := rfl
@[simp] theorem State.markUnits_cycle (s : State) (u : BitVec 12) : (s.markUnits u).cycle = s.cycle := rfl
@[simp] theorem State.markUnits_frames (s : State) (u : BitVec 12) : (s.markUnits u).frames = s.frames := rfl
@[simp] theorem State.markUnits_passDue (s : State) (u : BitVec 12) : (s.markUnits u).passDue = s.passDue := rfl
@[simp] theorem State.markUnits_nextId (s : State) (u : BitVec 12) : (s.markUnits u).nextId = s.nextId := rfl
@[simp] theorem State.markUnits_agenda (s : State) (u : BitVec 12) : (s.markUnits u).agenda = s.agenda := rfl
@[simp] theorem State.markUnits_turn (s : State) (u : BitVec 12) : (s.markUnits u).turn = s.turn := rfl
@[simp] theorem State.markUnits_free (s : State) (u : BitVec 12) : (s.markUnits u).free = s.free := rfl
@[simp] theorem State.markUnits_frame (s : State) (u : BitVec 12) : (s.markUnits u).core.frame = s.core.frame := rfl
@[simp] theorem State.markUnits_units (s : State) (u : BitVec 12) : (s.markUnits u).core.units = s.core.units ||| u := rfl
@[simp] theorem State.markUnits_core_id (s : State) (u : BitVec 12) : (s.markUnits u).core.id = s.core.id := rfl
@[simp] theorem State.markUnits_core_st (s : State) (u : BitVec 12) : (s.markUnits u).core.st = s.core.st := rfl
@[simp] theorem State.markUnits_core_task (s : State) (u : BitVec 12) : (s.markUnits u).core.task = s.core.task := rfl
@[simp] theorem State.markUnits_core_r (s : State) (u : BitVec 12) : (s.markUnits u).core.r = s.core.r := rfl
@[simp] theorem State.markUnits_core_e (s : State) (u : BitVec 12) : (s.markUnits u).core.e = s.core.e := rfl
@[simp] theorem State.markUnits_core_pc (s : State) (u : BitVec 12) : (s.markUnits u).core.pc = s.core.pc := rfl
@[simp] theorem State.markUnits_core_spec (s : State) (u : BitVec 12) : (s.markUnits u).core.spec = s.core.spec := rfl
@[simp] theorem State.markUnits_core_inRepeat (s : State) (u : BitVec 12) : (s.markUnits u).core.inRepeat = s.core.inRepeat := rfl
@[simp] theorem State.markUnits_core_committed (s : State) (u : BitVec 12) :
    (s.markUnits u).core.committed = s.core.committed := rfl
@[simp] theorem State.markUnits_core_leaveWaits (s : State) (u : BitVec 12) :
    (s.markUnits u).core.leaveWaits = s.core.leaveWaits := rfl
@[simp] theorem State.markUnits_core_svrRej (s : State) (u : BitVec 12) : (s.markUnits u).core.svrRej = s.core.svrRej := rfl
@[simp] theorem State.markUnits_core_barRec (s : State) (u : BitVec 12) : (s.markUnits u).core.barRec = s.core.barRec := rfl
@[simp] theorem State.markUnits_core_bars (s : State) (u : BitVec 12) : (s.markUnits u).core.bars = s.core.bars := rfl
@[simp] theorem State.markUnits_core_brk (s : State) (u : BitVec 12) : (s.markUnits u).core.brk = s.core.brk := rfl
@[simp] theorem State.markUnits_core_stepPend (s : State) (u : BitVec 12) : (s.markUnits u).core.stepPend = s.core.stepPend := rfl
@[simp] theorem State.markUnits_core_stepDue (s : State) (u : BitVec 12) : (s.markUnits u).core.stepDue = s.core.stepDue := rfl
@[simp] theorem State.markUnits_core_trapDue (s : State) (u : BitVec 12) : (s.markUnits u).core.trapDue = s.core.trapDue := rfl
@[simp] theorem State.markUnits_core_skipBrk (s : State) (u : BitVec 12) : (s.markUnits u).core.skipBrk = s.core.skipBrk := rfl
@[simp] theorem State.markUnits_core_lastQp (s : State) (u : BitVec 12) : (s.markUnits u).core.lastQp = s.core.lastQp := rfl
@[simp] theorem State.markUnits_core_preempt (s : State) (u : BitVec 12) : (s.markUnits u).core.preempt = s.core.preempt := rfl
@[simp] theorem State.markUnits_core_stopNow (s : State) (u : BitVec 12) : (s.markUnits u).core.stopNow = s.core.stopNow := rfl
@[simp] theorem State.markUnits_core_light (s : State) (u : BitVec 12) : (s.markUnits u).core.light = s.core.light := rfl
@[simp] theorem State.markUnits_core_stop (s : State) (u : BitVec 12) : (s.markUnits u).core.stop = s.core.stop := rfl
@[simp] theorem State.markUnits_core_killed (s : State) (u : BitVec 12) : (s.markUnits u).core.killed = s.core.killed := rfl
@[simp] theorem State.markUnits_core_l1 (s : State) (u : BitVec 12) : (s.markUnits u).core.l1 = s.core.l1 := rfl
@[simp] theorem State.markUnits_core_entry (s : State) (u : BitVec 12) : (s.markUnits u).core.entry = s.core.entry := rfl
@[simp] theorem State.markUnits_core_icache (s : State) (u : BitVec 12) : (s.markUnits u).core.icache = s.core.icache := rfl
@[simp] theorem State.markUnits_core_tmpl (s : State) (u : BitVec 12) : (s.markUnits u).core.tmpl = s.core.tmpl := rfl
@[simp] theorem State.markUnits_core_view (s : State) (u : BitVec 12) : (s.markUnits u).core.view = s.core.view := rfl
@[simp] theorem State.markUnits_core_wake (s : State) (u : BitVec 12) : (s.markUnits u).core.wake = s.core.wake := rfl

/-! ## Dies, partitions, reports, the black box -/

@[simp] theorem State.onDie_core (s : State) (d : Nat) (f : Die → Die) : (s.onDie d f).core = s.core := rfl
@[simp] theorem State.onDie_parked (s : State) (d : Nat) (f : Die → Die) : (s.onDie d f).parked = s.parked := rfl
@[simp] theorem State.onDie_mem (s : State) (d : Nat) (f : Die → Die) : (s.onDie d f).mem = s.mem := rfl
@[simp] theorem State.onDie_parts (s : State) (d : Nat) (f : Die → Die) : (s.onDie d f).parts = s.parts := rfl
@[simp] theorem State.onDie_queues (s : State) (d : Nat) (f : Die → Die) : (s.onDie d f).queues = s.queues := rfl
@[simp] theorem State.onDie_qbgt (s : State) (d : Nat) (f : Die → Die) : (s.onDie d f).qbgt = s.qbgt := rfl
@[simp] theorem State.onDie_qwd (s : State) (d : Nat) (f : Die → Die) : (s.onDie d f).qwd = s.qwd := rfl
@[simp] theorem State.onDie_childq (s : State) (d : Nat) (f : Die → Die) : (s.onDie d f).childq = s.childq := rfl
@[simp] theorem State.onDie_tmpls (s : State) (d : Nat) (f : Die → Die) : (s.onDie d f).tmpls = s.tmpls := rfl
@[simp] theorem State.onDie_gangs (s : State) (d : Nat) (f : Die → Die) : (s.onDie d f).gangs = s.gangs := rfl
@[simp] theorem State.onDie_saved (s : State) (d : Nat) (f : Die → Die) : (s.onDie d f).saved = s.saved := rfl
@[simp] theorem State.onDie_shadows (s : State) (d : Nat) (f : Die → Die) : (s.onDie d f).shadows = s.shadows := rfl
@[simp] theorem State.onDie_forwards (s : State) (d : Nat) (f : Die → Die) : (s.onDie d f).forwards = s.forwards := rfl
@[simp] theorem State.onDie_migs (s : State) (d : Nat) (f : Die → Die) : (s.onDie d f).migs = s.migs := rfl
@[simp] theorem State.onDie_dbars (s : State) (d : Nat) (f : Die → Die) : (s.onDie d f).dbars = s.dbars := rfl
@[simp] theorem State.onDie_guards (s : State) (d : Nat) (f : Die → Die) : (s.onDie d f).guards = s.guards := rfl
@[simp] theorem State.onDie_tlb (s : State) (d : Nat) (f : Die → Die) : (s.onDie d f).tlb = s.tlb := rfl
@[simp] theorem State.onDie_port (s : State) (d : Nat) (f : Die → Die) : (s.onDie d f).port = s.port := rfl
@[simp] theorem State.onDie_badGran (s : State) (d : Nat) (f : Die → Die) : (s.onDie d f).badGran = s.badGran := rfl
@[simp] theorem State.onDie_softGran (s : State) (d : Nat) (f : Die → Die) : (s.onDie d f).softGran = s.softGran := rfl
@[simp] theorem State.onDie_lostStores (s : State) (d : Nat) (f : Die → Die) : (s.onDie d f).lostStores = s.lostStores := rfl
@[simp] theorem State.onDie_qerrs (s : State) (d : Nat) (f : Die → Die) : (s.onDie d f).qerrs = s.qerrs := rfl
@[simp] theorem State.onDie_reports (s : State) (d : Nat) (f : Die → Die) : (s.onDie d f).reports = s.reports := rfl
@[simp] theorem State.onDie_frozen (s : State) (d : Nat) (f : Die → Die) : (s.onDie d f).frozen = s.frozen := rfl
@[simp] theorem State.onDie_bootFail (s : State) (d : Nat) (f : Die → Die) : (s.onDie d f).bootFail = s.bootFail := rfl
@[simp] theorem State.onDie_cycle (s : State) (d : Nat) (f : Die → Die) : (s.onDie d f).cycle = s.cycle := rfl
@[simp] theorem State.onDie_frames (s : State) (d : Nat) (f : Die → Die) : (s.onDie d f).frames = s.frames := rfl
@[simp] theorem State.onDie_passDue (s : State) (d : Nat) (f : Die → Die) : (s.onDie d f).passDue = s.passDue := rfl
@[simp] theorem State.onDie_nextId (s : State) (d : Nat) (f : Die → Die) : (s.onDie d f).nextId = s.nextId := rfl
@[simp] theorem State.onDie_agenda (s : State) (d : Nat) (f : Die → Die) : (s.onDie d f).agenda = s.agenda := rfl
@[simp] theorem State.onDie_turn (s : State) (d : Nat) (f : Die → Die) : (s.onDie d f).turn = s.turn := rfl
@[simp] theorem State.onDie_free (s : State) (d : Nat) (f : Die → Die) : (s.onDie d f).free = s.free := rfl
@[simp] theorem State.onPart_core (s : State) (p : Nat) (f : Part → Part) : (s.onPart p f).core = s.core := rfl
@[simp] theorem State.onPart_parked (s : State) (p : Nat) (f : Part → Part) : (s.onPart p f).parked = s.parked := rfl
@[simp] theorem State.onPart_mem (s : State) (p : Nat) (f : Part → Part) : (s.onPart p f).mem = s.mem := rfl
@[simp] theorem State.onPart_dies (s : State) (p : Nat) (f : Part → Part) : (s.onPart p f).dies = s.dies := rfl
@[simp] theorem State.onPart_queues (s : State) (p : Nat) (f : Part → Part) : (s.onPart p f).queues = s.queues := rfl
@[simp] theorem State.onPart_qbgt (s : State) (p : Nat) (f : Part → Part) : (s.onPart p f).qbgt = s.qbgt := rfl
@[simp] theorem State.onPart_qwd (s : State) (p : Nat) (f : Part → Part) : (s.onPart p f).qwd = s.qwd := rfl
@[simp] theorem State.onPart_childq (s : State) (p : Nat) (f : Part → Part) : (s.onPart p f).childq = s.childq := rfl
@[simp] theorem State.onPart_tmpls (s : State) (p : Nat) (f : Part → Part) : (s.onPart p f).tmpls = s.tmpls := rfl
@[simp] theorem State.onPart_gangs (s : State) (p : Nat) (f : Part → Part) : (s.onPart p f).gangs = s.gangs := rfl
@[simp] theorem State.onPart_saved (s : State) (p : Nat) (f : Part → Part) : (s.onPart p f).saved = s.saved := rfl
@[simp] theorem State.onPart_shadows (s : State) (p : Nat) (f : Part → Part) : (s.onPart p f).shadows = s.shadows := rfl
@[simp] theorem State.onPart_forwards (s : State) (p : Nat) (f : Part → Part) : (s.onPart p f).forwards = s.forwards := rfl
@[simp] theorem State.onPart_migs (s : State) (p : Nat) (f : Part → Part) : (s.onPart p f).migs = s.migs := rfl
@[simp] theorem State.onPart_dbars (s : State) (p : Nat) (f : Part → Part) : (s.onPart p f).dbars = s.dbars := rfl
@[simp] theorem State.onPart_guards (s : State) (p : Nat) (f : Part → Part) : (s.onPart p f).guards = s.guards := rfl
@[simp] theorem State.onPart_tlb (s : State) (p : Nat) (f : Part → Part) : (s.onPart p f).tlb = s.tlb := rfl
@[simp] theorem State.onPart_port (s : State) (p : Nat) (f : Part → Part) : (s.onPart p f).port = s.port := rfl
@[simp] theorem State.onPart_badGran (s : State) (p : Nat) (f : Part → Part) : (s.onPart p f).badGran = s.badGran := rfl
@[simp] theorem State.onPart_softGran (s : State) (p : Nat) (f : Part → Part) : (s.onPart p f).softGran = s.softGran := rfl
@[simp] theorem State.onPart_lostStores (s : State) (p : Nat) (f : Part → Part) : (s.onPart p f).lostStores = s.lostStores := rfl
@[simp] theorem State.onPart_qerrs (s : State) (p : Nat) (f : Part → Part) : (s.onPart p f).qerrs = s.qerrs := rfl
@[simp] theorem State.onPart_reports (s : State) (p : Nat) (f : Part → Part) : (s.onPart p f).reports = s.reports := rfl
@[simp] theorem State.onPart_frozen (s : State) (p : Nat) (f : Part → Part) : (s.onPart p f).frozen = s.frozen := rfl
@[simp] theorem State.onPart_bootFail (s : State) (p : Nat) (f : Part → Part) : (s.onPart p f).bootFail = s.bootFail := rfl
@[simp] theorem State.onPart_cycle (s : State) (p : Nat) (f : Part → Part) : (s.onPart p f).cycle = s.cycle := rfl
@[simp] theorem State.onPart_frames (s : State) (p : Nat) (f : Part → Part) : (s.onPart p f).frames = s.frames := rfl
@[simp] theorem State.onPart_passDue (s : State) (p : Nat) (f : Part → Part) : (s.onPart p f).passDue = s.passDue := rfl
@[simp] theorem State.onPart_nextId (s : State) (p : Nat) (f : Part → Part) : (s.onPart p f).nextId = s.nextId := rfl
@[simp] theorem State.onPart_agenda (s : State) (p : Nat) (f : Part → Part) : (s.onPart p f).agenda = s.agenda := rfl
@[simp] theorem State.onPart_turn (s : State) (p : Nat) (f : Part → Part) : (s.onPart p f).turn = s.turn := rfl
@[simp] theorem State.onPart_free (s : State) (p : Nat) (f : Part → Part) : (s.onPart p f).free = s.free := rfl
@[simp] theorem State.report_core (s : State) (r : Report) : (s.report r).core = s.core := rfl
@[simp] theorem State.report_parked (s : State) (r : Report) : (s.report r).parked = s.parked := rfl
@[simp] theorem State.report_mem (s : State) (r : Report) : (s.report r).mem = s.mem := rfl
@[simp] theorem State.report_dies (s : State) (r : Report) : (s.report r).dies = s.dies := rfl
@[simp] theorem State.report_parts (s : State) (r : Report) : (s.report r).parts = s.parts := rfl
@[simp] theorem State.report_queues (s : State) (r : Report) : (s.report r).queues = s.queues := rfl
@[simp] theorem State.report_qbgt (s : State) (r : Report) : (s.report r).qbgt = s.qbgt := rfl
@[simp] theorem State.report_qwd (s : State) (r : Report) : (s.report r).qwd = s.qwd := rfl
@[simp] theorem State.report_childq (s : State) (r : Report) : (s.report r).childq = s.childq := rfl
@[simp] theorem State.report_tmpls (s : State) (r : Report) : (s.report r).tmpls = s.tmpls := rfl
@[simp] theorem State.report_gangs (s : State) (r : Report) : (s.report r).gangs = s.gangs := rfl
@[simp] theorem State.report_saved (s : State) (r : Report) : (s.report r).saved = s.saved := rfl
@[simp] theorem State.report_shadows (s : State) (r : Report) : (s.report r).shadows = s.shadows := rfl
@[simp] theorem State.report_forwards (s : State) (r : Report) : (s.report r).forwards = s.forwards := rfl
@[simp] theorem State.report_migs (s : State) (r : Report) : (s.report r).migs = s.migs := rfl
@[simp] theorem State.report_dbars (s : State) (r : Report) : (s.report r).dbars = s.dbars := rfl
@[simp] theorem State.report_guards (s : State) (r : Report) : (s.report r).guards = s.guards := rfl
@[simp] theorem State.report_tlb (s : State) (r : Report) : (s.report r).tlb = s.tlb := rfl
@[simp] theorem State.report_port (s : State) (r : Report) : (s.report r).port = s.port := rfl
@[simp] theorem State.report_badGran (s : State) (r : Report) : (s.report r).badGran = s.badGran := rfl
@[simp] theorem State.report_softGran (s : State) (r : Report) : (s.report r).softGran = s.softGran := rfl
@[simp] theorem State.report_lostStores (s : State) (r : Report) : (s.report r).lostStores = s.lostStores := rfl
@[simp] theorem State.report_qerrs (s : State) (r : Report) : (s.report r).qerrs = s.qerrs := rfl
@[simp] theorem State.report_frozen (s : State) (r : Report) : (s.report r).frozen = s.frozen := rfl
@[simp] theorem State.report_bootFail (s : State) (r : Report) : (s.report r).bootFail = s.bootFail := rfl
@[simp] theorem State.report_cycle (s : State) (r : Report) : (s.report r).cycle = s.cycle := rfl
@[simp] theorem State.report_frames (s : State) (r : Report) : (s.report r).frames = s.frames := rfl
@[simp] theorem State.report_passDue (s : State) (r : Report) : (s.report r).passDue = s.passDue := rfl
@[simp] theorem State.report_nextId (s : State) (r : Report) : (s.report r).nextId = s.nextId := rfl
@[simp] theorem State.report_agenda (s : State) (r : Report) : (s.report r).agenda = s.agenda := rfl
@[simp] theorem State.report_turn (s : State) (r : Report) : (s.report r).turn = s.turn := rfl
@[simp] theorem State.report_free (s : State) (r : Report) : (s.report r).free = s.free := rfl
@[simp] theorem State.report_reports (s : State) (r : Report) : (s.report r).reports = s.reports ++ [r] := rfl
@[simp] theorem State.blackBox_core (s : State) (d code : Nat) (sp : BitVec 16) (k : Nat) (a : Word) (x : Nat) :
    (s.blackBox d code sp k a x).core = s.core := rfl
@[simp] theorem State.blackBox_parked (s : State) (d code : Nat) (sp : BitVec 16) (k : Nat) (a : Word) (x : Nat) :
    (s.blackBox d code sp k a x).parked = s.parked := rfl
@[simp] theorem State.blackBox_mem (s : State) (d code : Nat) (sp : BitVec 16) (k : Nat) (a : Word) (x : Nat) :
    (s.blackBox d code sp k a x).mem = s.mem := rfl
@[simp] theorem State.blackBox_parts (s : State) (d code : Nat) (sp : BitVec 16) (k : Nat) (a : Word) (x : Nat) :
    (s.blackBox d code sp k a x).parts = s.parts := rfl
@[simp] theorem State.blackBox_queues (s : State) (d code : Nat) (sp : BitVec 16) (k : Nat) (a : Word) (x : Nat) :
    (s.blackBox d code sp k a x).queues = s.queues := rfl
@[simp] theorem State.blackBox_qbgt (s : State) (d code : Nat) (sp : BitVec 16) (k : Nat) (a : Word) (x : Nat) :
    (s.blackBox d code sp k a x).qbgt = s.qbgt := rfl
@[simp] theorem State.blackBox_qwd (s : State) (d code : Nat) (sp : BitVec 16) (k : Nat) (a : Word) (x : Nat) :
    (s.blackBox d code sp k a x).qwd = s.qwd := rfl
@[simp] theorem State.blackBox_childq (s : State) (d code : Nat) (sp : BitVec 16) (k : Nat) (a : Word) (x : Nat) :
    (s.blackBox d code sp k a x).childq = s.childq := rfl
@[simp] theorem State.blackBox_tmpls (s : State) (d code : Nat) (sp : BitVec 16) (k : Nat) (a : Word) (x : Nat) :
    (s.blackBox d code sp k a x).tmpls = s.tmpls := rfl
@[simp] theorem State.blackBox_gangs (s : State) (d code : Nat) (sp : BitVec 16) (k : Nat) (a : Word) (x : Nat) :
    (s.blackBox d code sp k a x).gangs = s.gangs := rfl
@[simp] theorem State.blackBox_saved (s : State) (d code : Nat) (sp : BitVec 16) (k : Nat) (a : Word) (x : Nat) :
    (s.blackBox d code sp k a x).saved = s.saved := rfl
@[simp] theorem State.blackBox_shadows (s : State) (d code : Nat) (sp : BitVec 16) (k : Nat) (a : Word) (x : Nat) :
    (s.blackBox d code sp k a x).shadows = s.shadows := rfl
@[simp] theorem State.blackBox_forwards (s : State) (d code : Nat) (sp : BitVec 16) (k : Nat) (a : Word) (x : Nat) :
    (s.blackBox d code sp k a x).forwards = s.forwards := rfl
@[simp] theorem State.blackBox_migs (s : State) (d code : Nat) (sp : BitVec 16) (k : Nat) (a : Word) (x : Nat) :
    (s.blackBox d code sp k a x).migs = s.migs := rfl
@[simp] theorem State.blackBox_dbars (s : State) (d code : Nat) (sp : BitVec 16) (k : Nat) (a : Word) (x : Nat) :
    (s.blackBox d code sp k a x).dbars = s.dbars := rfl
@[simp] theorem State.blackBox_guards (s : State) (d code : Nat) (sp : BitVec 16) (k : Nat) (a : Word) (x : Nat) :
    (s.blackBox d code sp k a x).guards = s.guards := rfl
@[simp] theorem State.blackBox_tlb (s : State) (d code : Nat) (sp : BitVec 16) (k : Nat) (a : Word) (x : Nat) :
    (s.blackBox d code sp k a x).tlb = s.tlb := rfl
@[simp] theorem State.blackBox_port (s : State) (d code : Nat) (sp : BitVec 16) (k : Nat) (a : Word) (x : Nat) :
    (s.blackBox d code sp k a x).port = s.port := rfl
@[simp] theorem State.blackBox_badGran (s : State) (d code : Nat) (sp : BitVec 16) (k : Nat) (a : Word) (x : Nat) :
    (s.blackBox d code sp k a x).badGran = s.badGran := rfl
@[simp] theorem State.blackBox_softGran (s : State) (d code : Nat) (sp : BitVec 16) (k : Nat) (a : Word) (x : Nat) :
    (s.blackBox d code sp k a x).softGran = s.softGran := rfl
@[simp] theorem State.blackBox_lostStores (s : State) (d code : Nat) (sp : BitVec 16) (k : Nat) (a : Word) (x : Nat) :
    (s.blackBox d code sp k a x).lostStores = s.lostStores := rfl
@[simp] theorem State.blackBox_qerrs (s : State) (d code : Nat) (sp : BitVec 16) (k : Nat) (a : Word) (x : Nat) :
    (s.blackBox d code sp k a x).qerrs = s.qerrs := rfl
@[simp] theorem State.blackBox_reports (s : State) (d code : Nat) (sp : BitVec 16) (k : Nat) (a : Word) (x : Nat) :
    (s.blackBox d code sp k a x).reports = s.reports := rfl
@[simp] theorem State.blackBox_frozen (s : State) (d code : Nat) (sp : BitVec 16) (k : Nat) (a : Word) (x : Nat) :
    (s.blackBox d code sp k a x).frozen = s.frozen := rfl
@[simp] theorem State.blackBox_bootFail (s : State) (d code : Nat) (sp : BitVec 16) (k : Nat) (a : Word) (x : Nat) :
    (s.blackBox d code sp k a x).bootFail = s.bootFail := rfl
@[simp] theorem State.blackBox_cycle (s : State) (d code : Nat) (sp : BitVec 16) (k : Nat) (a : Word) (x : Nat) :
    (s.blackBox d code sp k a x).cycle = s.cycle := rfl
@[simp] theorem State.blackBox_frames (s : State) (d code : Nat) (sp : BitVec 16) (k : Nat) (a : Word) (x : Nat) :
    (s.blackBox d code sp k a x).frames = s.frames := rfl
@[simp] theorem State.blackBox_passDue (s : State) (d code : Nat) (sp : BitVec 16) (k : Nat) (a : Word) (x : Nat) :
    (s.blackBox d code sp k a x).passDue = s.passDue := rfl
@[simp] theorem State.blackBox_nextId (s : State) (d code : Nat) (sp : BitVec 16) (k : Nat) (a : Word) (x : Nat) :
    (s.blackBox d code sp k a x).nextId = s.nextId := rfl
@[simp] theorem State.blackBox_agenda (s : State) (d code : Nat) (sp : BitVec 16) (k : Nat) (a : Word) (x : Nat) :
    (s.blackBox d code sp k a x).agenda = s.agenda := rfl
@[simp] theorem State.blackBox_turn (s : State) (d code : Nat) (sp : BitVec 16) (k : Nat) (a : Word) (x : Nat) :
    (s.blackBox d code sp k a x).turn = s.turn := rfl
@[simp] theorem State.blackBox_free (s : State) (d code : Nat) (sp : BitVec 16) (k : Nat) (a : Word) (x : Nat) :
    (s.blackBox d code sp k a x).free = s.free := rfl
@[simp] theorem State.uncorr_core (s : State) (id : Nat) (sp : BitVec 16) (cause : BitVec 8) (a : Word) :
    (s.uncorr id sp cause a).core = s.core := by
  unfold State.uncorr; split <;> rfl
@[simp] theorem State.uncorr_parked (s : State) (id : Nat) (sp : BitVec 16) (cause : BitVec 8) (a : Word) :
    (s.uncorr id sp cause a).parked = s.parked := by
  unfold State.uncorr; split <;> rfl
@[simp] theorem State.uncorr_mem (s : State) (id : Nat) (sp : BitVec 16) (cause : BitVec 8) (a : Word) :
    (s.uncorr id sp cause a).mem = s.mem := by
  unfold State.uncorr; split <;> rfl
@[simp] theorem State.uncorr_parts (s : State) (id : Nat) (sp : BitVec 16) (cause : BitVec 8) (a : Word) :
    (s.uncorr id sp cause a).parts = s.parts := by
  unfold State.uncorr; split <;> rfl
@[simp] theorem State.uncorr_queues (s : State) (id : Nat) (sp : BitVec 16) (cause : BitVec 8) (a : Word) :
    (s.uncorr id sp cause a).queues = s.queues := by
  unfold State.uncorr; split <;> rfl
@[simp] theorem State.uncorr_qbgt (s : State) (id : Nat) (sp : BitVec 16) (cause : BitVec 8) (a : Word) :
    (s.uncorr id sp cause a).qbgt = s.qbgt := by
  unfold State.uncorr; split <;> rfl
@[simp] theorem State.uncorr_qwd (s : State) (id : Nat) (sp : BitVec 16) (cause : BitVec 8) (a : Word) :
    (s.uncorr id sp cause a).qwd = s.qwd := by
  unfold State.uncorr; split <;> rfl
@[simp] theorem State.uncorr_childq (s : State) (id : Nat) (sp : BitVec 16) (cause : BitVec 8) (a : Word) :
    (s.uncorr id sp cause a).childq = s.childq := by
  unfold State.uncorr; split <;> rfl
@[simp] theorem State.uncorr_tmpls (s : State) (id : Nat) (sp : BitVec 16) (cause : BitVec 8) (a : Word) :
    (s.uncorr id sp cause a).tmpls = s.tmpls := by
  unfold State.uncorr; split <;> rfl
@[simp] theorem State.uncorr_gangs (s : State) (id : Nat) (sp : BitVec 16) (cause : BitVec 8) (a : Word) :
    (s.uncorr id sp cause a).gangs = s.gangs := by
  unfold State.uncorr; split <;> rfl
@[simp] theorem State.uncorr_saved (s : State) (id : Nat) (sp : BitVec 16) (cause : BitVec 8) (a : Word) :
    (s.uncorr id sp cause a).saved = s.saved := by
  unfold State.uncorr; split <;> rfl
@[simp] theorem State.uncorr_shadows (s : State) (id : Nat) (sp : BitVec 16) (cause : BitVec 8) (a : Word) :
    (s.uncorr id sp cause a).shadows = s.shadows := by
  unfold State.uncorr; split <;> rfl
@[simp] theorem State.uncorr_forwards (s : State) (id : Nat) (sp : BitVec 16) (cause : BitVec 8) (a : Word) :
    (s.uncorr id sp cause a).forwards = s.forwards := by
  unfold State.uncorr; split <;> rfl
@[simp] theorem State.uncorr_migs (s : State) (id : Nat) (sp : BitVec 16) (cause : BitVec 8) (a : Word) :
    (s.uncorr id sp cause a).migs = s.migs := by
  unfold State.uncorr; split <;> rfl
@[simp] theorem State.uncorr_dbars (s : State) (id : Nat) (sp : BitVec 16) (cause : BitVec 8) (a : Word) :
    (s.uncorr id sp cause a).dbars = s.dbars := by
  unfold State.uncorr; split <;> rfl
@[simp] theorem State.uncorr_guards (s : State) (id : Nat) (sp : BitVec 16) (cause : BitVec 8) (a : Word) :
    (s.uncorr id sp cause a).guards = s.guards := by
  unfold State.uncorr; split <;> rfl
@[simp] theorem State.uncorr_tlb (s : State) (id : Nat) (sp : BitVec 16) (cause : BitVec 8) (a : Word) :
    (s.uncorr id sp cause a).tlb = s.tlb := by
  unfold State.uncorr; split <;> rfl
@[simp] theorem State.uncorr_port (s : State) (id : Nat) (sp : BitVec 16) (cause : BitVec 8) (a : Word) :
    (s.uncorr id sp cause a).port = s.port := by
  unfold State.uncorr; split <;> rfl
@[simp] theorem State.uncorr_badGran (s : State) (id : Nat) (sp : BitVec 16) (cause : BitVec 8) (a : Word) :
    (s.uncorr id sp cause a).badGran = s.badGran := by
  unfold State.uncorr; split <;> rfl
@[simp] theorem State.uncorr_softGran (s : State) (id : Nat) (sp : BitVec 16) (cause : BitVec 8) (a : Word) :
    (s.uncorr id sp cause a).softGran = s.softGran := by
  unfold State.uncorr; split <;> rfl
@[simp] theorem State.uncorr_lostStores (s : State) (id : Nat) (sp : BitVec 16) (cause : BitVec 8) (a : Word) :
    (s.uncorr id sp cause a).lostStores = s.lostStores := by
  unfold State.uncorr; split <;> rfl
@[simp] theorem State.uncorr_qerrs (s : State) (id : Nat) (sp : BitVec 16) (cause : BitVec 8) (a : Word) :
    (s.uncorr id sp cause a).qerrs = s.qerrs := by
  unfold State.uncorr; split <;> rfl
@[simp] theorem State.uncorr_reports (s : State) (id : Nat) (sp : BitVec 16) (cause : BitVec 8) (a : Word) :
    (s.uncorr id sp cause a).reports = s.reports := by
  unfold State.uncorr; split <;> rfl
@[simp] theorem State.uncorr_frozen (s : State) (id : Nat) (sp : BitVec 16) (cause : BitVec 8) (a : Word) :
    (s.uncorr id sp cause a).frozen = s.frozen := by
  unfold State.uncorr; split <;> rfl
@[simp] theorem State.uncorr_bootFail (s : State) (id : Nat) (sp : BitVec 16) (cause : BitVec 8) (a : Word) :
    (s.uncorr id sp cause a).bootFail = s.bootFail := by
  unfold State.uncorr; split <;> rfl
@[simp] theorem State.uncorr_cycle (s : State) (id : Nat) (sp : BitVec 16) (cause : BitVec 8) (a : Word) :
    (s.uncorr id sp cause a).cycle = s.cycle := by
  unfold State.uncorr; split <;> rfl
@[simp] theorem State.uncorr_frames (s : State) (id : Nat) (sp : BitVec 16) (cause : BitVec 8) (a : Word) :
    (s.uncorr id sp cause a).frames = s.frames := by
  unfold State.uncorr; split <;> rfl
@[simp] theorem State.uncorr_passDue (s : State) (id : Nat) (sp : BitVec 16) (cause : BitVec 8) (a : Word) :
    (s.uncorr id sp cause a).passDue = s.passDue := by
  unfold State.uncorr; split <;> rfl
@[simp] theorem State.uncorr_nextId (s : State) (id : Nat) (sp : BitVec 16) (cause : BitVec 8) (a : Word) :
    (s.uncorr id sp cause a).nextId = s.nextId := by
  unfold State.uncorr; split <;> rfl
@[simp] theorem State.uncorr_agenda (s : State) (id : Nat) (sp : BitVec 16) (cause : BitVec 8) (a : Word) :
    (s.uncorr id sp cause a).agenda = s.agenda := by
  unfold State.uncorr; split <;> rfl
@[simp] theorem State.uncorr_turn (s : State) (id : Nat) (sp : BitVec 16) (cause : BitVec 8) (a : Word) :
    (s.uncorr id sp cause a).turn = s.turn := by
  unfold State.uncorr; split <;> rfl
@[simp] theorem State.uncorr_free (s : State) (id : Nat) (sp : BitVec 16) (cause : BitVec 8) (a : Word) :
    (s.uncorr id sp cause a).free = s.free := by
  unfold State.uncorr; split <;> rfl

/-! ## Free values drawn -/

@[simp] theorem State.drawBit_core (s : State) : s.drawBit.2.core = s.core := rfl
@[simp] theorem State.drawWord_core (s : State) : s.drawWord.2.core = s.core := rfl
@[simp] theorem State.drawBytes_core (s : State) (n : Nat) : (s.drawBytes n).2.core = s.core := rfl
@[simp] theorem State.drawBit_parked (s : State) : s.drawBit.2.parked = s.parked := rfl
@[simp] theorem State.drawWord_parked (s : State) : s.drawWord.2.parked = s.parked := rfl
@[simp] theorem State.drawBytes_parked (s : State) (n : Nat) : (s.drawBytes n).2.parked = s.parked := rfl
@[simp] theorem State.drawBit_mem (s : State) : s.drawBit.2.mem = s.mem := rfl
@[simp] theorem State.drawWord_mem (s : State) : s.drawWord.2.mem = s.mem := rfl
@[simp] theorem State.drawBytes_mem (s : State) (n : Nat) : (s.drawBytes n).2.mem = s.mem := rfl
@[simp] theorem State.drawBit_dies (s : State) : s.drawBit.2.dies = s.dies := rfl
@[simp] theorem State.drawWord_dies (s : State) : s.drawWord.2.dies = s.dies := rfl
@[simp] theorem State.drawBytes_dies (s : State) (n : Nat) : (s.drawBytes n).2.dies = s.dies := rfl
@[simp] theorem State.drawBit_parts (s : State) : s.drawBit.2.parts = s.parts := rfl
@[simp] theorem State.drawWord_parts (s : State) : s.drawWord.2.parts = s.parts := rfl
@[simp] theorem State.drawBytes_parts (s : State) (n : Nat) : (s.drawBytes n).2.parts = s.parts := rfl
@[simp] theorem State.drawBit_queues (s : State) : s.drawBit.2.queues = s.queues := rfl
@[simp] theorem State.drawWord_queues (s : State) : s.drawWord.2.queues = s.queues := rfl
@[simp] theorem State.drawBytes_queues (s : State) (n : Nat) : (s.drawBytes n).2.queues = s.queues := rfl
@[simp] theorem State.drawBit_qbgt (s : State) : s.drawBit.2.qbgt = s.qbgt := rfl
@[simp] theorem State.drawWord_qbgt (s : State) : s.drawWord.2.qbgt = s.qbgt := rfl
@[simp] theorem State.drawBytes_qbgt (s : State) (n : Nat) : (s.drawBytes n).2.qbgt = s.qbgt := rfl
@[simp] theorem State.drawBit_qwd (s : State) : s.drawBit.2.qwd = s.qwd := rfl
@[simp] theorem State.drawWord_qwd (s : State) : s.drawWord.2.qwd = s.qwd := rfl
@[simp] theorem State.drawBytes_qwd (s : State) (n : Nat) : (s.drawBytes n).2.qwd = s.qwd := rfl
@[simp] theorem State.drawBit_childq (s : State) : s.drawBit.2.childq = s.childq := rfl
@[simp] theorem State.drawWord_childq (s : State) : s.drawWord.2.childq = s.childq := rfl
@[simp] theorem State.drawBytes_childq (s : State) (n : Nat) : (s.drawBytes n).2.childq = s.childq := rfl
@[simp] theorem State.drawBit_tmpls (s : State) : s.drawBit.2.tmpls = s.tmpls := rfl
@[simp] theorem State.drawWord_tmpls (s : State) : s.drawWord.2.tmpls = s.tmpls := rfl
@[simp] theorem State.drawBytes_tmpls (s : State) (n : Nat) : (s.drawBytes n).2.tmpls = s.tmpls := rfl
@[simp] theorem State.drawBit_gangs (s : State) : s.drawBit.2.gangs = s.gangs := rfl
@[simp] theorem State.drawWord_gangs (s : State) : s.drawWord.2.gangs = s.gangs := rfl
@[simp] theorem State.drawBytes_gangs (s : State) (n : Nat) : (s.drawBytes n).2.gangs = s.gangs := rfl
@[simp] theorem State.drawBit_saved (s : State) : s.drawBit.2.saved = s.saved := rfl
@[simp] theorem State.drawWord_saved (s : State) : s.drawWord.2.saved = s.saved := rfl
@[simp] theorem State.drawBytes_saved (s : State) (n : Nat) : (s.drawBytes n).2.saved = s.saved := rfl
@[simp] theorem State.drawBit_shadows (s : State) : s.drawBit.2.shadows = s.shadows := rfl
@[simp] theorem State.drawWord_shadows (s : State) : s.drawWord.2.shadows = s.shadows := rfl
@[simp] theorem State.drawBytes_shadows (s : State) (n : Nat) : (s.drawBytes n).2.shadows = s.shadows := rfl
@[simp] theorem State.drawBit_forwards (s : State) : s.drawBit.2.forwards = s.forwards := rfl
@[simp] theorem State.drawWord_forwards (s : State) : s.drawWord.2.forwards = s.forwards := rfl
@[simp] theorem State.drawBytes_forwards (s : State) (n : Nat) : (s.drawBytes n).2.forwards = s.forwards := rfl
@[simp] theorem State.drawBit_migs (s : State) : s.drawBit.2.migs = s.migs := rfl
@[simp] theorem State.drawWord_migs (s : State) : s.drawWord.2.migs = s.migs := rfl
@[simp] theorem State.drawBytes_migs (s : State) (n : Nat) : (s.drawBytes n).2.migs = s.migs := rfl
@[simp] theorem State.drawBit_dbars (s : State) : s.drawBit.2.dbars = s.dbars := rfl
@[simp] theorem State.drawWord_dbars (s : State) : s.drawWord.2.dbars = s.dbars := rfl
@[simp] theorem State.drawBytes_dbars (s : State) (n : Nat) : (s.drawBytes n).2.dbars = s.dbars := rfl
@[simp] theorem State.drawBit_guards (s : State) : s.drawBit.2.guards = s.guards := rfl
@[simp] theorem State.drawWord_guards (s : State) : s.drawWord.2.guards = s.guards := rfl
@[simp] theorem State.drawBytes_guards (s : State) (n : Nat) : (s.drawBytes n).2.guards = s.guards := rfl
@[simp] theorem State.drawBit_tlb (s : State) : s.drawBit.2.tlb = s.tlb := rfl
@[simp] theorem State.drawWord_tlb (s : State) : s.drawWord.2.tlb = s.tlb := rfl
@[simp] theorem State.drawBytes_tlb (s : State) (n : Nat) : (s.drawBytes n).2.tlb = s.tlb := rfl
@[simp] theorem State.drawBit_port (s : State) : s.drawBit.2.port = s.port := rfl
@[simp] theorem State.drawWord_port (s : State) : s.drawWord.2.port = s.port := rfl
@[simp] theorem State.drawBytes_port (s : State) (n : Nat) : (s.drawBytes n).2.port = s.port := rfl
@[simp] theorem State.drawBit_badGran (s : State) : s.drawBit.2.badGran = s.badGran := rfl
@[simp] theorem State.drawWord_badGran (s : State) : s.drawWord.2.badGran = s.badGran := rfl
@[simp] theorem State.drawBytes_badGran (s : State) (n : Nat) : (s.drawBytes n).2.badGran = s.badGran := rfl
@[simp] theorem State.drawBit_softGran (s : State) : s.drawBit.2.softGran = s.softGran := rfl
@[simp] theorem State.drawWord_softGran (s : State) : s.drawWord.2.softGran = s.softGran := rfl
@[simp] theorem State.drawBytes_softGran (s : State) (n : Nat) : (s.drawBytes n).2.softGran = s.softGran := rfl
@[simp] theorem State.drawBit_lostStores (s : State) : s.drawBit.2.lostStores = s.lostStores := rfl
@[simp] theorem State.drawWord_lostStores (s : State) : s.drawWord.2.lostStores = s.lostStores := rfl
@[simp] theorem State.drawBytes_lostStores (s : State) (n : Nat) : (s.drawBytes n).2.lostStores = s.lostStores := rfl
@[simp] theorem State.drawBit_qerrs (s : State) : s.drawBit.2.qerrs = s.qerrs := rfl
@[simp] theorem State.drawWord_qerrs (s : State) : s.drawWord.2.qerrs = s.qerrs := rfl
@[simp] theorem State.drawBytes_qerrs (s : State) (n : Nat) : (s.drawBytes n).2.qerrs = s.qerrs := rfl
@[simp] theorem State.drawBit_reports (s : State) : s.drawBit.2.reports = s.reports := rfl
@[simp] theorem State.drawWord_reports (s : State) : s.drawWord.2.reports = s.reports := rfl
@[simp] theorem State.drawBytes_reports (s : State) (n : Nat) : (s.drawBytes n).2.reports = s.reports := rfl
@[simp] theorem State.drawBit_frozen (s : State) : s.drawBit.2.frozen = s.frozen := rfl
@[simp] theorem State.drawWord_frozen (s : State) : s.drawWord.2.frozen = s.frozen := rfl
@[simp] theorem State.drawBytes_frozen (s : State) (n : Nat) : (s.drawBytes n).2.frozen = s.frozen := rfl
@[simp] theorem State.drawBit_bootFail (s : State) : s.drawBit.2.bootFail = s.bootFail := rfl
@[simp] theorem State.drawWord_bootFail (s : State) : s.drawWord.2.bootFail = s.bootFail := rfl
@[simp] theorem State.drawBytes_bootFail (s : State) (n : Nat) : (s.drawBytes n).2.bootFail = s.bootFail := rfl
@[simp] theorem State.drawBit_cycle (s : State) : s.drawBit.2.cycle = s.cycle := rfl
@[simp] theorem State.drawWord_cycle (s : State) : s.drawWord.2.cycle = s.cycle := rfl
@[simp] theorem State.drawBytes_cycle (s : State) (n : Nat) : (s.drawBytes n).2.cycle = s.cycle := rfl
@[simp] theorem State.drawBit_frames (s : State) : s.drawBit.2.frames = s.frames := rfl
@[simp] theorem State.drawWord_frames (s : State) : s.drawWord.2.frames = s.frames := rfl
@[simp] theorem State.drawBytes_frames (s : State) (n : Nat) : (s.drawBytes n).2.frames = s.frames := rfl
@[simp] theorem State.drawBit_passDue (s : State) : s.drawBit.2.passDue = s.passDue := rfl
@[simp] theorem State.drawWord_passDue (s : State) : s.drawWord.2.passDue = s.passDue := rfl
@[simp] theorem State.drawBytes_passDue (s : State) (n : Nat) : (s.drawBytes n).2.passDue = s.passDue := rfl
@[simp] theorem State.drawBit_nextId (s : State) : s.drawBit.2.nextId = s.nextId := rfl
@[simp] theorem State.drawWord_nextId (s : State) : s.drawWord.2.nextId = s.nextId := rfl
@[simp] theorem State.drawBytes_nextId (s : State) (n : Nat) : (s.drawBytes n).2.nextId = s.nextId := rfl
@[simp] theorem State.drawBit_agenda (s : State) : s.drawBit.2.agenda = s.agenda := rfl
@[simp] theorem State.drawWord_agenda (s : State) : s.drawWord.2.agenda = s.agenda := rfl
@[simp] theorem State.drawBytes_agenda (s : State) (n : Nat) : (s.drawBytes n).2.agenda = s.agenda := rfl
@[simp] theorem State.drawBit_turn (s : State) : s.drawBit.2.turn = s.turn := rfl
@[simp] theorem State.drawWord_turn (s : State) : s.drawWord.2.turn = s.turn := rfl
@[simp] theorem State.drawBytes_turn (s : State) (n : Nat) : (s.drawBytes n).2.turn = s.turn := rfl

/-! ## Cores -/

@[simp] theorem State.putCore_mem (s : State) (c : Core) : (s.putCore c).mem = s.mem := by
  unfold State.putCore; split <;> rfl
@[simp] theorem State.onCore_mem (s : State) (id : Nat) (f : Core → Core) : (s.onCore id f).mem = s.mem := State.putCore_mem _ _
@[simp] theorem State.switchTo_mem (s : State) (id : Nat) :
    (s.switchTo id).mem = s.mem := by
  unfold State.switchTo; split <;> rfl
@[simp] theorem State.putCore_dies (s : State) (c : Core) :
    (s.putCore c).dies = s.dies := by
  unfold State.putCore; split <;> rfl
@[simp] theorem State.onCore_dies (s : State) (id : Nat) (f : Core → Core) :
    (s.onCore id f).dies = s.dies := State.putCore_dies _ _
@[simp] theorem State.switchTo_dies (s : State) (id : Nat) :
    (s.switchTo id).dies = s.dies := by
  unfold State.switchTo; split <;> rfl
@[simp] theorem State.putCore_parts (s : State) (c : Core) :
    (s.putCore c).parts = s.parts := by
  unfold State.putCore; split <;> rfl
@[simp] theorem State.onCore_parts (s : State) (id : Nat) (f : Core → Core) :
    (s.onCore id f).parts = s.parts := State.putCore_parts _ _
@[simp] theorem State.switchTo_parts (s : State) (id : Nat) :
    (s.switchTo id).parts = s.parts := by
  unfold State.switchTo; split <;> rfl
@[simp] theorem State.putCore_queues (s : State) (c : Core) :
    (s.putCore c).queues = s.queues := by
  unfold State.putCore; split <;> rfl
@[simp] theorem State.onCore_queues (s : State) (id : Nat) (f : Core → Core) :
    (s.onCore id f).queues = s.queues := State.putCore_queues _ _
@[simp] theorem State.switchTo_queues (s : State) (id : Nat) :
    (s.switchTo id).queues = s.queues := by
  unfold State.switchTo; split <;> rfl
@[simp] theorem State.putCore_qbgt (s : State) (c : Core) :
    (s.putCore c).qbgt = s.qbgt := by
  unfold State.putCore; split <;> rfl
@[simp] theorem State.onCore_qbgt (s : State) (id : Nat) (f : Core → Core) :
    (s.onCore id f).qbgt = s.qbgt := State.putCore_qbgt _ _
@[simp] theorem State.switchTo_qbgt (s : State) (id : Nat) :
    (s.switchTo id).qbgt = s.qbgt := by
  unfold State.switchTo; split <;> rfl
@[simp] theorem State.putCore_qwd (s : State) (c : Core) : (s.putCore c).qwd = s.qwd := by
  unfold State.putCore; split <;> rfl
@[simp] theorem State.onCore_qwd (s : State) (id : Nat) (f : Core → Core) : (s.onCore id f).qwd = s.qwd := State.putCore_qwd _ _
@[simp] theorem State.switchTo_qwd (s : State) (id : Nat) :
    (s.switchTo id).qwd = s.qwd := by
  unfold State.switchTo; split <;> rfl
@[simp] theorem State.putCore_childq (s : State) (c : Core) :
    (s.putCore c).childq = s.childq := by
  unfold State.putCore; split <;> rfl
@[simp] theorem State.onCore_childq (s : State) (id : Nat) (f : Core → Core) :
    (s.onCore id f).childq = s.childq := State.putCore_childq _ _
@[simp] theorem State.switchTo_childq (s : State) (id : Nat) :
    (s.switchTo id).childq = s.childq := by
  unfold State.switchTo; split <;> rfl
@[simp] theorem State.putCore_tmpls (s : State) (c : Core) :
    (s.putCore c).tmpls = s.tmpls := by
  unfold State.putCore; split <;> rfl
@[simp] theorem State.onCore_tmpls (s : State) (id : Nat) (f : Core → Core) :
    (s.onCore id f).tmpls = s.tmpls := State.putCore_tmpls _ _
@[simp] theorem State.switchTo_tmpls (s : State) (id : Nat) :
    (s.switchTo id).tmpls = s.tmpls := by
  unfold State.switchTo; split <;> rfl
@[simp] theorem State.putCore_gangs (s : State) (c : Core) :
    (s.putCore c).gangs = s.gangs := by
  unfold State.putCore; split <;> rfl
@[simp] theorem State.onCore_gangs (s : State) (id : Nat) (f : Core → Core) :
    (s.onCore id f).gangs = s.gangs := State.putCore_gangs _ _
@[simp] theorem State.switchTo_gangs (s : State) (id : Nat) :
    (s.switchTo id).gangs = s.gangs := by
  unfold State.switchTo; split <;> rfl
@[simp] theorem State.putCore_saved (s : State) (c : Core) :
    (s.putCore c).saved = s.saved := by
  unfold State.putCore; split <;> rfl
@[simp] theorem State.onCore_saved (s : State) (id : Nat) (f : Core → Core) :
    (s.onCore id f).saved = s.saved := State.putCore_saved _ _
@[simp] theorem State.switchTo_saved (s : State) (id : Nat) :
    (s.switchTo id).saved = s.saved := by
  unfold State.switchTo; split <;> rfl
@[simp] theorem State.putCore_shadows (s : State) (c : Core) :
    (s.putCore c).shadows = s.shadows := by
  unfold State.putCore; split <;> rfl
@[simp] theorem State.onCore_shadows (s : State) (id : Nat) (f : Core → Core) :
    (s.onCore id f).shadows = s.shadows := State.putCore_shadows _ _
@[simp] theorem State.switchTo_shadows (s : State) (id : Nat) :
    (s.switchTo id).shadows = s.shadows := by
  unfold State.switchTo; split <;> rfl
@[simp] theorem State.putCore_forwards (s : State) (c : Core) :
    (s.putCore c).forwards = s.forwards := by
  unfold State.putCore; split <;> rfl
@[simp] theorem State.onCore_forwards (s : State) (id : Nat) (f : Core → Core) :
    (s.onCore id f).forwards = s.forwards := State.putCore_forwards _ _
@[simp] theorem State.switchTo_forwards (s : State) (id : Nat) :
    (s.switchTo id).forwards = s.forwards := by
  unfold State.switchTo; split <;> rfl
@[simp] theorem State.putCore_migs (s : State) (c : Core) :
    (s.putCore c).migs = s.migs := by
  unfold State.putCore; split <;> rfl
@[simp] theorem State.onCore_migs (s : State) (id : Nat) (f : Core → Core) :
    (s.onCore id f).migs = s.migs := State.putCore_migs _ _
@[simp] theorem State.switchTo_migs (s : State) (id : Nat) :
    (s.switchTo id).migs = s.migs := by
  unfold State.switchTo; split <;> rfl
@[simp] theorem State.putCore_dbars (s : State) (c : Core) :
    (s.putCore c).dbars = s.dbars := by
  unfold State.putCore; split <;> rfl
@[simp] theorem State.onCore_dbars (s : State) (id : Nat) (f : Core → Core) :
    (s.onCore id f).dbars = s.dbars := State.putCore_dbars _ _
@[simp] theorem State.switchTo_dbars (s : State) (id : Nat) :
    (s.switchTo id).dbars = s.dbars := by
  unfold State.switchTo; split <;> rfl
@[simp] theorem State.putCore_guards (s : State) (c : Core) :
    (s.putCore c).guards = s.guards := by
  unfold State.putCore; split <;> rfl
@[simp] theorem State.onCore_guards (s : State) (id : Nat) (f : Core → Core) :
    (s.onCore id f).guards = s.guards := State.putCore_guards _ _
@[simp] theorem State.switchTo_guards (s : State) (id : Nat) :
    (s.switchTo id).guards = s.guards := by
  unfold State.switchTo; split <;> rfl
@[simp] theorem State.putCore_tlb (s : State) (c : Core) : (s.putCore c).tlb = s.tlb := by
  unfold State.putCore; split <;> rfl
@[simp] theorem State.onCore_tlb (s : State) (id : Nat) (f : Core → Core) : (s.onCore id f).tlb = s.tlb := State.putCore_tlb _ _
@[simp] theorem State.switchTo_tlb (s : State) (id : Nat) :
    (s.switchTo id).tlb = s.tlb := by
  unfold State.switchTo; split <;> rfl
@[simp] theorem State.putCore_port (s : State) (c : Core) :
    (s.putCore c).port = s.port := by
  unfold State.putCore; split <;> rfl
@[simp] theorem State.onCore_port (s : State) (id : Nat) (f : Core → Core) :
    (s.onCore id f).port = s.port := State.putCore_port _ _
@[simp] theorem State.switchTo_port (s : State) (id : Nat) :
    (s.switchTo id).port = s.port := by
  unfold State.switchTo; split <;> rfl
@[simp] theorem State.putCore_badGran (s : State) (c : Core) :
    (s.putCore c).badGran = s.badGran := by
  unfold State.putCore; split <;> rfl
@[simp] theorem State.onCore_badGran (s : State) (id : Nat) (f : Core → Core) :
    (s.onCore id f).badGran = s.badGran := State.putCore_badGran _ _
@[simp] theorem State.switchTo_badGran (s : State) (id : Nat) :
    (s.switchTo id).badGran = s.badGran := by
  unfold State.switchTo; split <;> rfl
@[simp] theorem State.putCore_softGran (s : State) (c : Core) :
    (s.putCore c).softGran = s.softGran := by
  unfold State.putCore; split <;> rfl
@[simp] theorem State.onCore_softGran (s : State) (id : Nat) (f : Core → Core) :
    (s.onCore id f).softGran = s.softGran := State.putCore_softGran _ _
@[simp] theorem State.switchTo_softGran (s : State) (id : Nat) :
    (s.switchTo id).softGran = s.softGran := by
  unfold State.switchTo; split <;> rfl
@[simp] theorem State.putCore_lostStores (s : State) (c : Core) :
    (s.putCore c).lostStores = s.lostStores := by
  unfold State.putCore; split <;> rfl
@[simp] theorem State.onCore_lostStores (s : State) (id : Nat) (f : Core → Core) :
    (s.onCore id f).lostStores = s.lostStores := State.putCore_lostStores _ _
@[simp] theorem State.switchTo_lostStores (s : State) (id : Nat) :
    (s.switchTo id).lostStores = s.lostStores := by
  unfold State.switchTo; split <;> rfl
@[simp] theorem State.putCore_qerrs (s : State) (c : Core) :
    (s.putCore c).qerrs = s.qerrs := by
  unfold State.putCore; split <;> rfl
@[simp] theorem State.onCore_qerrs (s : State) (id : Nat) (f : Core → Core) :
    (s.onCore id f).qerrs = s.qerrs := State.putCore_qerrs _ _
@[simp] theorem State.switchTo_qerrs (s : State) (id : Nat) :
    (s.switchTo id).qerrs = s.qerrs := by
  unfold State.switchTo; split <;> rfl
@[simp] theorem State.putCore_reports (s : State) (c : Core) :
    (s.putCore c).reports = s.reports := by
  unfold State.putCore; split <;> rfl
@[simp] theorem State.onCore_reports (s : State) (id : Nat) (f : Core → Core) :
    (s.onCore id f).reports = s.reports := State.putCore_reports _ _
@[simp] theorem State.switchTo_reports (s : State) (id : Nat) :
    (s.switchTo id).reports = s.reports := by
  unfold State.switchTo; split <;> rfl
@[simp] theorem State.putCore_frozen (s : State) (c : Core) :
    (s.putCore c).frozen = s.frozen := by
  unfold State.putCore; split <;> rfl
@[simp] theorem State.onCore_frozen (s : State) (id : Nat) (f : Core → Core) :
    (s.onCore id f).frozen = s.frozen := State.putCore_frozen _ _
@[simp] theorem State.switchTo_frozen (s : State) (id : Nat) :
    (s.switchTo id).frozen = s.frozen := by
  unfold State.switchTo; split <;> rfl
@[simp] theorem State.putCore_bootFail (s : State) (c : Core) :
    (s.putCore c).bootFail = s.bootFail := by
  unfold State.putCore; split <;> rfl
@[simp] theorem State.onCore_bootFail (s : State) (id : Nat) (f : Core → Core) :
    (s.onCore id f).bootFail = s.bootFail := State.putCore_bootFail _ _
@[simp] theorem State.switchTo_bootFail (s : State) (id : Nat) :
    (s.switchTo id).bootFail = s.bootFail := by
  unfold State.switchTo; split <;> rfl
@[simp] theorem State.putCore_cycle (s : State) (c : Core) :
    (s.putCore c).cycle = s.cycle := by
  unfold State.putCore; split <;> rfl
@[simp] theorem State.onCore_cycle (s : State) (id : Nat) (f : Core → Core) :
    (s.onCore id f).cycle = s.cycle := State.putCore_cycle _ _
@[simp] theorem State.switchTo_cycle (s : State) (id : Nat) :
    (s.switchTo id).cycle = s.cycle := by
  unfold State.switchTo; split <;> rfl
@[simp] theorem State.putCore_frames (s : State) (c : Core) :
    (s.putCore c).frames = s.frames := by
  unfold State.putCore; split <;> rfl
@[simp] theorem State.onCore_frames (s : State) (id : Nat) (f : Core → Core) :
    (s.onCore id f).frames = s.frames := State.putCore_frames _ _
@[simp] theorem State.switchTo_frames (s : State) (id : Nat) :
    (s.switchTo id).frames = s.frames := by
  unfold State.switchTo; split <;> rfl
@[simp] theorem State.putCore_passDue (s : State) (c : Core) :
    (s.putCore c).passDue = s.passDue := by
  unfold State.putCore; split <;> rfl
@[simp] theorem State.onCore_passDue (s : State) (id : Nat) (f : Core → Core) :
    (s.onCore id f).passDue = s.passDue := State.putCore_passDue _ _
@[simp] theorem State.switchTo_passDue (s : State) (id : Nat) :
    (s.switchTo id).passDue = s.passDue := by
  unfold State.switchTo; split <;> rfl
@[simp] theorem State.putCore_nextId (s : State) (c : Core) :
    (s.putCore c).nextId = s.nextId := by
  unfold State.putCore; split <;> rfl
@[simp] theorem State.onCore_nextId (s : State) (id : Nat) (f : Core → Core) :
    (s.onCore id f).nextId = s.nextId := State.putCore_nextId _ _
@[simp] theorem State.switchTo_nextId (s : State) (id : Nat) :
    (s.switchTo id).nextId = s.nextId := by
  unfold State.switchTo; split <;> rfl
@[simp] theorem State.putCore_agenda (s : State) (c : Core) :
    (s.putCore c).agenda = s.agenda := by
  unfold State.putCore; split <;> rfl
@[simp] theorem State.onCore_agenda (s : State) (id : Nat) (f : Core → Core) :
    (s.onCore id f).agenda = s.agenda := State.putCore_agenda _ _
@[simp] theorem State.switchTo_agenda (s : State) (id : Nat) :
    (s.switchTo id).agenda = s.agenda := by
  unfold State.switchTo; split <;> rfl
@[simp] theorem State.putCore_turn (s : State) (c : Core) :
    (s.putCore c).turn = s.turn := by
  unfold State.putCore; split <;> rfl
@[simp] theorem State.onCore_turn (s : State) (id : Nat) (f : Core → Core) :
    (s.onCore id f).turn = s.turn := State.putCore_turn _ _
@[simp] theorem State.switchTo_turn (s : State) (id : Nat) :
    (s.switchTo id).turn = s.turn := by
  unfold State.switchTo; split <;> rfl
@[simp] theorem State.putCore_free (s : State) (c : Core) :
    (s.putCore c).free = s.free := by
  unfold State.putCore; split <;> rfl
@[simp] theorem State.onCore_free (s : State) (id : Nat) (f : Core → Core) :
    (s.onCore id f).free = s.free := State.putCore_free _ _
@[simp] theorem State.switchTo_free (s : State) (id : Nat) :
    (s.switchTo id).free = s.free := by
  unfold State.switchTo; split <;> rfl

theorem State.onCore_self {s : State} {id : Nat} {f : Core → Core} (h : s.core.id = id) (hf : (f s.core).id = id) :
    s.onCore id f = { s with core := f s.core } := by
  have hc : s.coreAt id = s.core := by rw [State.coreAt, if_pos h]
  rw [State.onCore, hc, State.putCore, if_pos (by rw [h, hf])]

theorem State.coreAt_self {s : State} {id : Nat} (h : s.core.id = id) : s.coreAt id = s.core := by
  rw [State.coreAt, if_pos h]

/-! ## Bytes -/

@[simp] theorem State.writeBytes_core (s : State) (ws : List ByteW) :
    (s.writeBytes ws).core = s.core := by
  unfold State.writeBytes; dsimp only; split <;> rfl
@[simp] theorem State.writeBytes_parked (s : State) (ws : List ByteW) :
    (s.writeBytes ws).parked = s.parked := by
  unfold State.writeBytes; dsimp only; split <;> rfl
@[simp] theorem State.writeBytes_dies (s : State) (ws : List ByteW) :
    (s.writeBytes ws).dies = s.dies := by
  unfold State.writeBytes; dsimp only; split <;> rfl
@[simp] theorem State.writeBytes_parts (s : State) (ws : List ByteW) :
    (s.writeBytes ws).parts = s.parts := by
  unfold State.writeBytes; dsimp only; split <;> rfl
@[simp] theorem State.writeBytes_queues (s : State) (ws : List ByteW) :
    (s.writeBytes ws).queues = s.queues := by
  unfold State.writeBytes; dsimp only; split <;> rfl
@[simp] theorem State.writeBytes_qbgt (s : State) (ws : List ByteW) :
    (s.writeBytes ws).qbgt = s.qbgt := by
  unfold State.writeBytes; dsimp only; split <;> rfl
@[simp] theorem State.writeBytes_qwd (s : State) (ws : List ByteW) :
    (s.writeBytes ws).qwd = s.qwd := by
  unfold State.writeBytes; dsimp only; split <;> rfl
@[simp] theorem State.writeBytes_childq (s : State) (ws : List ByteW) :
    (s.writeBytes ws).childq = s.childq := by
  unfold State.writeBytes; dsimp only; split <;> rfl
@[simp] theorem State.writeBytes_tmpls (s : State) (ws : List ByteW) :
    (s.writeBytes ws).tmpls = s.tmpls := by
  unfold State.writeBytes; dsimp only; split <;> rfl
@[simp] theorem State.writeBytes_gangs (s : State) (ws : List ByteW) :
    (s.writeBytes ws).gangs = s.gangs := by
  unfold State.writeBytes; dsimp only; split <;> rfl
@[simp] theorem State.writeBytes_saved (s : State) (ws : List ByteW) :
    (s.writeBytes ws).saved = s.saved := by
  unfold State.writeBytes; dsimp only; split <;> rfl
@[simp] theorem State.writeBytes_shadows (s : State) (ws : List ByteW) :
    (s.writeBytes ws).shadows = s.shadows := by
  unfold State.writeBytes; dsimp only; split <;> rfl
@[simp] theorem State.writeBytes_forwards (s : State) (ws : List ByteW) :
    (s.writeBytes ws).forwards = s.forwards := by
  unfold State.writeBytes; dsimp only; split <;> rfl
@[simp] theorem State.writeBytes_migs (s : State) (ws : List ByteW) :
    (s.writeBytes ws).migs = s.migs := by
  unfold State.writeBytes; dsimp only; split <;> rfl
@[simp] theorem State.writeBytes_dbars (s : State) (ws : List ByteW) :
    (s.writeBytes ws).dbars = s.dbars := by
  unfold State.writeBytes; dsimp only; split <;> rfl
@[simp] theorem State.writeBytes_tlb (s : State) (ws : List ByteW) :
    (s.writeBytes ws).tlb = s.tlb := by
  unfold State.writeBytes; dsimp only; split <;> rfl
@[simp] theorem State.writeBytes_port (s : State) (ws : List ByteW) :
    (s.writeBytes ws).port = s.port := by
  unfold State.writeBytes; dsimp only; split <;> rfl
@[simp] theorem State.writeBytes_qerrs (s : State) (ws : List ByteW) :
    (s.writeBytes ws).qerrs = s.qerrs := by
  unfold State.writeBytes; dsimp only; split <;> rfl
@[simp] theorem State.writeBytes_reports (s : State) (ws : List ByteW) :
    (s.writeBytes ws).reports = s.reports := by
  unfold State.writeBytes; dsimp only; split <;> rfl
@[simp] theorem State.writeBytes_frozen (s : State) (ws : List ByteW) :
    (s.writeBytes ws).frozen = s.frozen := by
  unfold State.writeBytes; dsimp only; split <;> rfl
@[simp] theorem State.writeBytes_bootFail (s : State) (ws : List ByteW) :
    (s.writeBytes ws).bootFail = s.bootFail := by
  unfold State.writeBytes; dsimp only; split <;> rfl
@[simp] theorem State.writeBytes_cycle (s : State) (ws : List ByteW) :
    (s.writeBytes ws).cycle = s.cycle := by
  unfold State.writeBytes; dsimp only; split <;> rfl
@[simp] theorem State.writeBytes_frames (s : State) (ws : List ByteW) :
    (s.writeBytes ws).frames = s.frames := by
  unfold State.writeBytes; dsimp only; split <;> rfl
@[simp] theorem State.writeBytes_passDue (s : State) (ws : List ByteW) :
    (s.writeBytes ws).passDue = s.passDue := by
  unfold State.writeBytes; dsimp only; split <;> rfl
@[simp] theorem State.writeBytes_nextId (s : State) (ws : List ByteW) :
    (s.writeBytes ws).nextId = s.nextId := by
  unfold State.writeBytes; dsimp only; split <;> rfl
@[simp] theorem State.writeBytes_agenda (s : State) (ws : List ByteW) :
    (s.writeBytes ws).agenda = s.agenda := by
  unfold State.writeBytes; dsimp only; split <;> rfl
@[simp] theorem State.writeBytes_turn (s : State) (ws : List ByteW) :
    (s.writeBytes ws).turn = s.turn := by
  unfold State.writeBytes; dsimp only; split <;> rfl
@[simp] theorem State.writeBytes_free (s : State) (ws : List ByteW) :
    (s.writeBytes ws).free = s.free := by
  unfold State.writeBytes; dsimp only; split <;> rfl

/-! ## A dropped L1, and a unit that another core's task uses -/

@[simp] theorem State.dropL1_parked (s : State) : s.dropL1.parked = s.parked := rfl
@[simp] theorem State.dropL1_mem (s : State) : s.dropL1.mem = s.mem := rfl
@[simp] theorem State.dropL1_dies (s : State) : s.dropL1.dies = s.dies := rfl
@[simp] theorem State.dropL1_parts (s : State) : s.dropL1.parts = s.parts := rfl
@[simp] theorem State.dropL1_queues (s : State) : s.dropL1.queues = s.queues := rfl
@[simp] theorem State.dropL1_qbgt (s : State) : s.dropL1.qbgt = s.qbgt := rfl
@[simp] theorem State.dropL1_qwd (s : State) : s.dropL1.qwd = s.qwd := rfl
@[simp] theorem State.dropL1_childq (s : State) : s.dropL1.childq = s.childq := rfl
@[simp] theorem State.dropL1_tmpls (s : State) : s.dropL1.tmpls = s.tmpls := rfl
@[simp] theorem State.dropL1_gangs (s : State) : s.dropL1.gangs = s.gangs := rfl
@[simp] theorem State.dropL1_saved (s : State) : s.dropL1.saved = s.saved := rfl
@[simp] theorem State.dropL1_shadows (s : State) : s.dropL1.shadows = s.shadows := rfl
@[simp] theorem State.dropL1_forwards (s : State) : s.dropL1.forwards = s.forwards := rfl
@[simp] theorem State.dropL1_migs (s : State) : s.dropL1.migs = s.migs := rfl
@[simp] theorem State.dropL1_dbars (s : State) : s.dropL1.dbars = s.dbars := rfl
@[simp] theorem State.dropL1_guards (s : State) : s.dropL1.guards = s.guards := rfl
@[simp] theorem State.dropL1_tlb (s : State) : s.dropL1.tlb = s.tlb := rfl
@[simp] theorem State.dropL1_port (s : State) : s.dropL1.port = s.port := rfl
@[simp] theorem State.dropL1_badGran (s : State) : s.dropL1.badGran = s.badGran := rfl
@[simp] theorem State.dropL1_softGran (s : State) : s.dropL1.softGran = s.softGran := rfl
@[simp] theorem State.dropL1_lostStores (s : State) : s.dropL1.lostStores = s.lostStores := rfl
@[simp] theorem State.dropL1_qerrs (s : State) : s.dropL1.qerrs = s.qerrs := rfl
@[simp] theorem State.dropL1_reports (s : State) : s.dropL1.reports = s.reports := rfl
@[simp] theorem State.dropL1_frozen (s : State) : s.dropL1.frozen = s.frozen := rfl
@[simp] theorem State.dropL1_bootFail (s : State) : s.dropL1.bootFail = s.bootFail := rfl
@[simp] theorem State.dropL1_cycle (s : State) : s.dropL1.cycle = s.cycle := rfl
@[simp] theorem State.dropL1_frames (s : State) : s.dropL1.frames = s.frames := rfl
@[simp] theorem State.dropL1_passDue (s : State) : s.dropL1.passDue = s.passDue := rfl
@[simp] theorem State.dropL1_nextId (s : State) : s.dropL1.nextId = s.nextId := rfl
@[simp] theorem State.dropL1_agenda (s : State) : s.dropL1.agenda = s.agenda := rfl
@[simp] theorem State.dropL1_turn (s : State) : s.dropL1.turn = s.turn := rfl
@[simp] theorem State.dropL1_free (s : State) : s.dropL1.free = s.free := rfl
@[simp] theorem State.dropL1_core_id (s : State) : s.dropL1.core.id = s.core.id := rfl
@[simp] theorem State.dropL1_core_st (s : State) : s.dropL1.core.st = s.core.st := rfl
@[simp] theorem State.dropL1_core_task (s : State) : s.dropL1.core.task = s.core.task := rfl
@[simp] theorem State.dropL1_core_r (s : State) : s.dropL1.core.r = s.core.r := rfl
@[simp] theorem State.dropL1_core_e (s : State) : s.dropL1.core.e = s.core.e := rfl
@[simp] theorem State.dropL1_core_pc (s : State) : s.dropL1.core.pc = s.core.pc := rfl
@[simp] theorem State.dropL1_core_spec (s : State) : s.dropL1.core.spec = s.core.spec := rfl
@[simp] theorem State.dropL1_core_inRepeat (s : State) : s.dropL1.core.inRepeat = s.core.inRepeat := rfl
@[simp] theorem State.dropL1_core_committed (s : State) : s.dropL1.core.committed = s.core.committed := rfl
@[simp] theorem State.dropL1_core_leaveWaits (s : State) : s.dropL1.core.leaveWaits = s.core.leaveWaits := rfl
@[simp] theorem State.dropL1_core_svrRej (s : State) : s.dropL1.core.svrRej = s.core.svrRej := rfl
@[simp] theorem State.dropL1_core_barRec (s : State) : s.dropL1.core.barRec = s.core.barRec := rfl
@[simp] theorem State.dropL1_core_bars (s : State) : s.dropL1.core.bars = s.core.bars := rfl
@[simp] theorem State.dropL1_core_brk (s : State) : s.dropL1.core.brk = s.core.brk := rfl
@[simp] theorem State.dropL1_core_stepPend (s : State) : s.dropL1.core.stepPend = s.core.stepPend := rfl
@[simp] theorem State.dropL1_core_stepDue (s : State) : s.dropL1.core.stepDue = s.core.stepDue := rfl
@[simp] theorem State.dropL1_core_trapDue (s : State) : s.dropL1.core.trapDue = s.core.trapDue := rfl
@[simp] theorem State.dropL1_core_skipBrk (s : State) : s.dropL1.core.skipBrk = s.core.skipBrk := rfl
@[simp] theorem State.dropL1_core_lastQp (s : State) : s.dropL1.core.lastQp = s.core.lastQp := rfl
@[simp] theorem State.dropL1_core_preempt (s : State) : s.dropL1.core.preempt = s.core.preempt := rfl
@[simp] theorem State.dropL1_core_stopNow (s : State) : s.dropL1.core.stopNow = s.core.stopNow := rfl
@[simp] theorem State.dropL1_core_light (s : State) : s.dropL1.core.light = s.core.light := rfl
@[simp] theorem State.dropL1_core_stop (s : State) : s.dropL1.core.stop = s.core.stop := rfl
@[simp] theorem State.dropL1_core_killed (s : State) : s.dropL1.core.killed = s.core.killed := rfl
@[simp] theorem State.dropL1_core_entry (s : State) : s.dropL1.core.entry = s.core.entry := rfl
@[simp] theorem State.dropL1_core_icache (s : State) : s.dropL1.core.icache = s.core.icache := rfl
@[simp] theorem State.dropL1_core_tmpl (s : State) : s.dropL1.core.tmpl = s.core.tmpl := rfl
@[simp] theorem State.dropL1_core_view (s : State) : s.dropL1.core.view = s.core.view := rfl
@[simp] theorem State.dropL1_core_units (s : State) : s.dropL1.core.units = s.core.units := rfl
@[simp] theorem State.dropL1_core_wake (s : State) : s.dropL1.core.wake = s.core.wake := rfl
@[simp] theorem State.dropL1_l1 (s : State) : s.dropL1.core.l1 = [] := rfl
@[simp] theorem State.usesUnit_mem (s : State) (id : Nat) (u : BitVec 12) :
    (s.usesUnit id u).mem = s.mem := State.onCore_mem _ _ _
@[simp] theorem State.usesUnit_dies (s : State) (id : Nat) (u : BitVec 12) :
    (s.usesUnit id u).dies = s.dies := State.onCore_dies _ _ _
@[simp] theorem State.usesUnit_parts (s : State) (id : Nat) (u : BitVec 12) :
    (s.usesUnit id u).parts = s.parts := State.onCore_parts _ _ _
@[simp] theorem State.usesUnit_queues (s : State) (id : Nat) (u : BitVec 12) :
    (s.usesUnit id u).queues = s.queues := State.onCore_queues _ _ _
@[simp] theorem State.usesUnit_qbgt (s : State) (id : Nat) (u : BitVec 12) :
    (s.usesUnit id u).qbgt = s.qbgt := State.onCore_qbgt _ _ _
@[simp] theorem State.usesUnit_qwd (s : State) (id : Nat) (u : BitVec 12) :
    (s.usesUnit id u).qwd = s.qwd := State.onCore_qwd _ _ _
@[simp] theorem State.usesUnit_childq (s : State) (id : Nat) (u : BitVec 12) :
    (s.usesUnit id u).childq = s.childq := State.onCore_childq _ _ _
@[simp] theorem State.usesUnit_tmpls (s : State) (id : Nat) (u : BitVec 12) :
    (s.usesUnit id u).tmpls = s.tmpls := State.onCore_tmpls _ _ _
@[simp] theorem State.usesUnit_gangs (s : State) (id : Nat) (u : BitVec 12) :
    (s.usesUnit id u).gangs = s.gangs := State.onCore_gangs _ _ _
@[simp] theorem State.usesUnit_saved (s : State) (id : Nat) (u : BitVec 12) :
    (s.usesUnit id u).saved = s.saved := State.onCore_saved _ _ _
@[simp] theorem State.usesUnit_shadows (s : State) (id : Nat) (u : BitVec 12) :
    (s.usesUnit id u).shadows = s.shadows := State.onCore_shadows _ _ _
@[simp] theorem State.usesUnit_forwards (s : State) (id : Nat) (u : BitVec 12) :
    (s.usesUnit id u).forwards = s.forwards := State.onCore_forwards _ _ _
@[simp] theorem State.usesUnit_migs (s : State) (id : Nat) (u : BitVec 12) :
    (s.usesUnit id u).migs = s.migs := State.onCore_migs _ _ _
@[simp] theorem State.usesUnit_dbars (s : State) (id : Nat) (u : BitVec 12) :
    (s.usesUnit id u).dbars = s.dbars := State.onCore_dbars _ _ _
@[simp] theorem State.usesUnit_guards (s : State) (id : Nat) (u : BitVec 12) :
    (s.usesUnit id u).guards = s.guards := State.onCore_guards _ _ _
@[simp] theorem State.usesUnit_tlb (s : State) (id : Nat) (u : BitVec 12) :
    (s.usesUnit id u).tlb = s.tlb := State.onCore_tlb _ _ _
@[simp] theorem State.usesUnit_port (s : State) (id : Nat) (u : BitVec 12) :
    (s.usesUnit id u).port = s.port := State.onCore_port _ _ _
@[simp] theorem State.usesUnit_badGran (s : State) (id : Nat) (u : BitVec 12) :
    (s.usesUnit id u).badGran = s.badGran := State.onCore_badGran _ _ _
@[simp] theorem State.usesUnit_softGran (s : State) (id : Nat) (u : BitVec 12) :
    (s.usesUnit id u).softGran = s.softGran := State.onCore_softGran _ _ _
@[simp] theorem State.usesUnit_lostStores (s : State) (id : Nat) (u : BitVec 12) :
    (s.usesUnit id u).lostStores = s.lostStores := State.onCore_lostStores _ _ _
@[simp] theorem State.usesUnit_qerrs (s : State) (id : Nat) (u : BitVec 12) :
    (s.usesUnit id u).qerrs = s.qerrs := State.onCore_qerrs _ _ _
@[simp] theorem State.usesUnit_reports (s : State) (id : Nat) (u : BitVec 12) :
    (s.usesUnit id u).reports = s.reports := State.onCore_reports _ _ _
@[simp] theorem State.usesUnit_frozen (s : State) (id : Nat) (u : BitVec 12) :
    (s.usesUnit id u).frozen = s.frozen := State.onCore_frozen _ _ _
@[simp] theorem State.usesUnit_bootFail (s : State) (id : Nat) (u : BitVec 12) :
    (s.usesUnit id u).bootFail = s.bootFail := State.onCore_bootFail _ _ _
@[simp] theorem State.usesUnit_cycle (s : State) (id : Nat) (u : BitVec 12) :
    (s.usesUnit id u).cycle = s.cycle := State.onCore_cycle _ _ _
@[simp] theorem State.usesUnit_frames (s : State) (id : Nat) (u : BitVec 12) :
    (s.usesUnit id u).frames = s.frames := State.onCore_frames _ _ _
@[simp] theorem State.usesUnit_passDue (s : State) (id : Nat) (u : BitVec 12) :
    (s.usesUnit id u).passDue = s.passDue := State.onCore_passDue _ _ _
@[simp] theorem State.usesUnit_nextId (s : State) (id : Nat) (u : BitVec 12) :
    (s.usesUnit id u).nextId = s.nextId := State.onCore_nextId _ _ _
@[simp] theorem State.usesUnit_agenda (s : State) (id : Nat) (u : BitVec 12) :
    (s.usesUnit id u).agenda = s.agenda := State.onCore_agenda _ _ _
@[simp] theorem State.usesUnit_turn (s : State) (id : Nat) (u : BitVec 12) :
    (s.usesUnit id u).turn = s.turn := State.onCore_turn _ _ _
@[simp] theorem State.usesUnit_free (s : State) (id : Nat) (u : BitVec 12) :
    (s.usesUnit id u).free = s.free := State.onCore_free _ _ _

/-! ## A block frame -/

@[simp] theorem Frame.complete_start (fr : Frame) (i : Nat) (ts : List Target) (t : Tok) (fl : Flags) (l : List Effect) :
    (fr.complete i ts t fl l).start = fr.start := rfl
@[simp] theorem Frame.complete_h0 (fr : Frame) (i : Nat) (ts : List Target) (t : Tok) (fl : Flags) (l : List Effect) :
    (fr.complete i ts t fl l).h0 = fr.h0 := rfl
@[simp] theorem Frame.complete_h1 (fr : Frame) (i : Nat) (ts : List Target) (t : Tok) (fl : Flags) (l : List Effect) :
    (fr.complete i ts t fl l).h1 = fr.h1 := rfl
@[simp] theorem Frame.complete_h2 (fr : Frame) (i : Nat) (ts : List Target) (t : Tok) (fl : Flags) (l : List Effect) :
    (fr.complete i ts t fl l).h2 = fr.h2 := rfl
@[simp] theorem Frame.complete_h3 (fr : Frame) (i : Nat) (ts : List Target) (t : Tok) (fl : Flags) (l : List Effect) :
    (fr.complete i ts t fl l).h3 = fr.h3 := rfl
@[simp] theorem Frame.complete_words (fr : Frame) (i : Nat) (ts : List Target) (t : Tok) (fl : Flags) (l : List Effect) :
    (fr.complete i ts t fl l).words = fr.words := rfl
@[simp] theorem Frame.complete_cur (fr : Frame) (i : Nat) (ts : List Target) (t : Tok) (fl : Flags) (l : List Effect) :
    (fr.complete i ts t fl l).cur = fr.cur := rfl
@[simp] theorem Frame.complete_arrived (fr : Frame) (i : Nat) (ts : List Target) (t : Tok) (fl : Flags) (l : List Effect) :
    (fr.complete i ts t fl l).arrived = fr.arrived := rfl
@[simp] theorem Frame.complete_faults (fr : Frame) (i : Nat) (ts : List Target) (t : Tok) (fl : Flags) (l : List Effect) :
    (fr.complete i ts t fl l).faults = fr.faults := rfl
@[simp] theorem Frame.complete_leaf (fr : Frame) (i : Nat) (ts : List Target) (t : Tok) (fl : Flags) (l : List Effect) :
    (fr.complete i ts t fl l).leaf = fr.leaf := rfl
@[simp] theorem Frame.complete_checked (fr : Frame) (i : Nat) (ts : List Target) (t : Tok) (fl : Flags) (l : List Effect) :
    (fr.complete i ts t fl l).checked = fr.checked := rfl
@[simp] theorem Frame.complete_announced (fr : Frame) (i : Nat) (ts : List Target) (t : Tok) (fl : Flags) (l : List Effect) :
    (fr.complete i ts t fl l).announced = fr.announced := rfl
@[simp] theorem Frame.complete_bound (fr : Frame) (i : Nat) (ts : List Target) (t : Tok) (fl : Flags) (l : List Effect) :
    (fr.complete i ts t fl l).bound = fr.bound := rfl
@[simp] theorem Frame.complete_issuing (fr : Frame) (i : Nat) (ts : List Target) (t : Tok) (fl : Flags) (l : List Effect) :
    (fr.complete i ts t fl l).issuing = fr.issuing := rfl
@[simp] theorem Frame.complete_performed (fr : Frame) (i : Nat) (ts : List Target) (t : Tok) (fl : Flags) (l : List Effect) :
    (fr.complete i ts t fl l).performed = fr.performed := rfl
@[simp] theorem Frame.complete_issued (fr : Frame) (i : Nat) (ts : List Target) (t : Tok) (fl : Flags) (l : List Effect) :
    (fr.complete i ts t fl l).issued = fr.issued := rfl
@[simp] theorem Frame.complete_remotes (fr : Frame) (i : Nat) (ts : List Target) (t : Tok) (fl : Flags) (l : List Effect) :
    (fr.complete i ts t fl l).remotes = fr.remotes := rfl
@[simp] theorem Frame.complete_snaps (fr : Frame) (i : Nat) (ts : List Target) (t : Tok) (fl : Flags) (l : List Effect) :
    (fr.complete i ts t fl l).snaps = fr.snaps := rfl
@[simp] theorem Frame.complete_picks (fr : Frame) (i : Nat) (ts : List Target) (t : Tok) (fl : Flags) (l : List Effect) :
    (fr.complete i ts t fl l).picks = fr.picks := rfl
@[simp] theorem Frame.complete_watch (fr : Frame) (i : Nat) (ts : List Target) (t : Tok) (fl : Flags) (l : List Effect) :
    (fr.complete i ts t fl l).watch = fr.watch := rfl
@[simp] theorem Frame.complete_guess (fr : Frame) (i : Nat) (ts : List Target) (t : Tok) (fl : Flags) (l : List Effect) :
    (fr.complete i ts t fl l).guess = fr.guess := rfl
@[simp] theorem Frame.complete_begun (fr : Frame) (i : Nat) (ts : List Target) (t : Tok) (fl : Flags) (l : List Effect) :
    (fr.complete i ts t fl l).begun = fr.begun := rfl
@[simp] theorem Frame.complete_units (fr : Frame) (i : Nat) (ts : List Target) (t : Tok) (fl : Flags) (l : List Effect) :
    (fr.complete i ts t fl l).units = fr.units := rfl
@[simp] theorem Frame.complete_prior (fr : Frame) (i : Nat) (ts : List Target) (t : Tok) (fl : Flags) (l : List Effect) :
    (fr.complete i ts t fl l).prior = fr.prior := rfl
@[simp] theorem Frame.complete_fired (fr : Frame) (i : Nat) (ts : List Target) (t : Tok) (fl : Flags) (l : List Effect) :
    (fr.complete i ts t fl l).fired = setBit fr.fired i := rfl
@[simp] theorem Frame.complete_waiting (fr : Frame) (i : Nat) (ts : List Target) (t : Tok) (fl : Flags) (l : List Effect) :
    (fr.complete i ts t fl l).waiting = clearBit fr.waiting i := rfl
@[simp] theorem Frame.complete_flags (fr : Frame) (i : Nat) (ts : List Target) (t : Tok) (fl : Flags) (l : List Effect) :
    (fr.complete i ts t fl l).flags = fr.flags ||| fl := rfl

end Sys2Proof.Machine
end

