-- ==== Sys2Proof/Laws/Fire.lean ====
section
/-!
SUPPORT. Sys2Proof/Laws/Fire.lean: what the firing of an instruction can do, said once (R47 to R50, R60, R88).
-/
namespace Sys2Proof.Machine

/-! ## Slots -/

theorem selectP_on {c : Ctl} {p : Option Tok} {lm : Mask} (h : Selects c p lm) : selectP c p = .on lm := by
  cases c with
  | mk pm lp t0 t1 =>
    cases pm <;> simp only [Selects] at h
    · cases lp
      · simp only [Bool.false_eq_true, if_false] at h; simp [selectP, h]
      · simp only [if_true] at h; simp [selectP, h]
    · obtain ⟨rfl, w, rfl, hw⟩ := h; simpa [selectP] using hw
    · obtain ⟨rfl, rfl⟩ := h; simp [selectP]

theorem Holds.ready {fr : Frame} {i : Instr} {sl : Slot} {t : Tok} (h : Holds fr i sl t) :
    slotReady fr fr.cur (needOf i sl) sl = true := by
  unfold Holds at h
  split at h
  · simp_all [slotReady]
  · simp_all [slotReady]

theorem Holds.token {fr : Frame} {i : Instr} {sl : Slot} {t : Tok} (h : Holds fr i sl t) : (fr.slot fr.cur sl).getD .null = t := by
  unfold Holds at h
  split at h <;> simp [h.1, h.2]

theorem Holds.notNull {fr : Frame} {i : Instr} {sl : Slot} {t : Tok} (h : Holds fr i sl t) (hi : seesNulls i = false) :
    (needOf i sl != .no && t == .null) = false := by
  unfold Holds at h
  split at h <;> simp_all

/-! ## A firing -/

theorem Fires.inputs {i : Instr} {s : State} {fr : Frame} {x : In} (h : Fires i s fr x) : inputs fr fr.cur x.lm = x := by
  cases x; simp only [Machine.inputs, h.a.token, h.b.token, h.c.token]

theorem Fires.dataReady {i : Instr} {s : State} {fr : Frame} {x : In} (h : Fires i s fr x) : dataReady fr fr.cur i = true := by
  have ha := h.a.ready; have hb := h.b.ready; have hc := h.c.ready
  simp only [needOf] at ha hb hc
  simp [Machine.dataReady, ha, hb, hc]

theorem Fires.hasNull {i : Instr} {s : State} {fr : Frame} {x : In} (h : Fires i s fr x) : hasNull i x = false := by
  unfold Machine.hasNull
  cases hi : seesNulls i
  · have ha := h.a.notNull hi; have hb := h.b.notNull hi; have hc := h.c.notNull hi
    simp only [needOf] at ha hb hc
    simp [ha, hb, hc]
  · rfl

theorem Fires.refusedHere {i : Instr} {s : State} {fr : Frame} {x : In} (h : Fires i s fr x) : refusedHere s.core i = none := by
  unfold Machine.refusedHere
  have hp := h.privileged; have hu := h.present
  cases hs : isSup s.core.id <;> simp_all

/-- An instruction whose slots are filled takes its meaning. -/
theorem fireWith_fires {i : Instr} {s : State} {fr : Frame} {x : In} (h : Fires i s fr x) (f : State → In → State × Fired) :
    fireWith i s f = .next (((f s x).1.markUnits (unitBits s.core.r i)).settle i fr.cur (f s x).2) := by
  obtain ⟨c, hc, hsel⟩ := h.selected
  unfold fireWith
  rw [h.frame, hc]
  dsimp only
  rw [h.unfired, selectP_on hsel]
  simp only [Bool.false_eq_true, if_false, h.dataReady, Bool.not_true, h.inputs, h.hasNull, h.refusedHere]

/-- With no trap enabled a result completes the instruction. -/
theorem settle_done {s : State} {i : Instr} {idx : Nat} {tok : Tok} {fl : Flags} {effs : List Effect}
    (h : fsrEnables s.core.r &&& fl = 0) :
    s.settle i idx (.done tok fl effs) = s.onFrame fun fr => fr.complete idx (targetsOf i) tok fl effs := by
  simp [State.settle, trapCause, h]

theorem State.onFrame_congr {s : State} {fr : Frame} {g g' : Frame → Frame} (h : s.core.frame = some fr) (hg : g fr = g' fr) :
    s.onFrame g = s.onFrame g' := by
  simp [State.onFrame, h, hg]

/-- A result with no enabled flag completes the instruction, and nothing else happens. -/
theorem fireWith_done {i : Instr} {s : State} {fr : Frame} {x : In} {f : State → In → State × Fired} {tok : Tok} {fl : Flags}
    {effs : List Effect} (h : Fires i s fr x) (hf : f s x = (s, .done tok fl effs)) (hfl : fsrEnables s.core.r &&& fl = 0) :
    fireWith i s f = .next (s.firedWith i tok fl effs) := by
  rw [fireWith_fires h, hf]
  dsimp only
  rw [settle_done (by simpa using hfl), State.firedWith]
  exact congrArg _ (State.onFrame_congr (fr := fr) (by simp [h.frame]) rfl)

theorem firePure_fires {i : Instr} {s : State} {fr : Frame} {x : In} (h : Fires i s fr x) (g : Regs → In → Tok × Flags)
    (hfl : fsrEnables s.core.r &&& (g s.core.r x).2 = 0) :
    firePure i s g = .next (s.firedWith i (g s.core.r x).1 (g s.core.r x).2 []) :=
  fireWith_done h rfl hfl

theorem fireScalar_fires {i : Instr} {s : State} {fr : Frame} {x : In} (h : Fires i s fr x) (g : Regs → In → Word × Flags)
    (hfl : fsrEnables s.core.r &&& (g s.core.r x).2 = 0) :
    fireScalar i s g = .next (s.firedWith i (.s (g s.core.r x).1) (g s.core.r x).2 []) :=
  firePure_fires h _ hfl

theorem fireEffect_fires {i : Instr} {s : State} {fr : Frame} {x : In} (h : Fires i s fr x) {g : Core → In → Except XErr (List Effect)}
    {effs : List Effect} (hg : g s.core x = .ok effs) : fireEffect i s g = .next (s.firedWith i .null 0 effs) :=
  fireWith_done h (by simp [hg]) (by simp)

/-- With a frame, a firing always goes on. -/
theorem fireWith_next {i : Instr} {s : State} {fr : Frame} (h : s.core.frame = some fr) (f : State → In → State × Fired) :
    ∃ t, fireWith i s f = .next t := by
  unfold fireWith
  rw [h]
  cases ctlOf i with
  | none => exact ⟨_, rfl⟩
  | some c =>
    dsimp only
    repeat' (first | exact ⟨_, rfl⟩ | split)

/-! ## Frames -/

/-- What a settlement leaves as it is: everything but the frame of the core, and the dies' black boxes when data was uncorrectable. -/
theorem settle_frame {α : Type} (P : State → α) (hP : ∀ s g, P (State.onFrame s g) = P s)
    (hD : ∀ s id sp cause a, P (State.uncorr s id sp cause a) = P s) (s : State) (i : Instr) (idx : Nat) (r : Fired) :
    P (s.settle i idx r) = P s := by
  unfold State.settle
  repeat' (first | exact hP _ _ | (rw [hP, hD]) | split | dsimp only)

/-- What a meaning leaves as it is, the firing leaves as it is. -/
theorem fireWith_frame {α : Type} (P : State → α) (hP : ∀ s g, P (State.onFrame s g) = P s)
    (hM : ∀ s u, P (State.markUnits s u) = P s) (hD : ∀ s id sp cause a, P (State.uncorr s id sp cause a) = P s)
    {i : Instr} {s t : State} {f : State → In → State × Fired}
    (hf : ∀ x, P (f s x).1 = P s) (h : fireWith i s f = .next t) : P t = P s := by
  unfold fireWith at h
  split at h
  · cases h
  · cases h; rfl
  · dsimp only at h
    split at h
    · cases h; rfl
    · split at h
      · cases h; rfl
      · cases h; exact settle_frame P hP hD ..
      · cases h; split
        · exact settle_frame P hP hD ..
        · rfl
      · split at h
        · cases h; rfl
        · split at h
          · cases h; exact settle_frame P hP hD ..
          · split at h
            · cases h; exact settle_frame P hP hD ..
            · cases h; rw [settle_frame P hP hD, hM]; exact hf _

end Sys2Proof.Machine
end

