-- ==== Sys2Proof/Tests/Slice0.lean ====
section
/-!
SUPPORT. Sys2Proof/Tests/Slice0.lean: the model's own tests: words written out from R136 to R153 and what they decode to, terms that the
checks of WellFormed refuse, the two questions of the host on words, single steps on small states, and a state that meets the
hypotheses of each statement.
-/
namespace Sys2Proof.Tests
/- One theorem at a time: each `decide` that waits for the one before it would otherwise hold a thread of its own. -/
set_option Elab.async false
open Sys2Proof.Machine

/-! ## Words -/

def Reads (w : Word) (i : Instr) : Prop := decode w = .ok i

def readsB (w : Word) (i : Instr) : Bool := match decode w with | .ok j => decide (j = i) | .error _ => false

theorem reads_of {w : Word} {i : Instr} (h : readsB w i = true) : Reads w i := by
  unfold readsB at h
  unfold Reads
  split at h <;> simp_all

theorem reads_all {l : List (Word × Instr)} (h : (l.all fun p => readsB p.1 p.2) = true) : ∀ p ∈ l, Reads p.1 p.2 := by
  intro p hp
  exact reads_of (List.all_eq_true.mp h p hp)

def refusedB (w : Word) : Bool := match decode w with | .ok _ => false | .error _ => true

/-! The five formats of R138 to R142, after OP and FN: PM and LP, T0 and the rest. -/

/-- A valid target. -/
def tg (idx : BitVec 7) (slot : BitVec 2) : BitVec 10 := 1#1 ++ idx ++ slot
def wG (op : BitVec 8) (fn : BitVec 5) (pm : BitVec 2) (lp : BitVec 1) (t0 t1 : BitVec 10) (ty : BitVec 4) (imm : BitVec 13) (ib : BitVec 1) : Word :=
  op ++ fn ++ pm ++ lp ++ t0 ++ t1 ++ ty ++ imm ++ ib ++ 0#10
def wI (op : BitVec 8) (fn : BitVec 5) (pm : BitVec 2) (t0 : BitVec 10) (sub : BitVec 6) (imm : BitVec 32) : Word :=
  op ++ fn ++ pm ++ 0#1 ++ t0 ++ sub ++ imm
def wM (op : BitVec 8) (fn : BitVec 5) (pm : BitVec 2) (lp : BitVec 1) (t0 : BitVec 10) (lsid : BitVec 5) (sp sc : BitVec 3) (ord : BitVec 2)
    (disp : BitVec 20) (ty : BitVec 5) : Word :=
  op ++ fn ++ pm ++ lp ++ t0 ++ lsid ++ sp ++ sc ++ ord ++ disp ++ ty
def wR (op : BitVec 8) (pm : BitVec 2) (lp : BitVec 1) (t0 t1 : BitVec 10) (cls : BitVec 4) (reg : BitVec 8) : Word :=
  op ++ 0#5 ++ pm ++ lp ++ t0 ++ t1 ++ cls ++ reg ++ 0#16
def wA (op : BitVec 8) (fn : BitVec 5) (t0 t1 : BitVec 10) (tda tdb tdc : BitVec 6) (xf : BitVec 3) (kn : BitVec 5) (cnt rel : BitVec 1) : Word :=
  op ++ fn ++ 0#2 ++ 0#1 ++ t0 ++ t1 ++ tda ++ tdb ++ tdc ++ xf ++ kn ++ cnt ++ rel

/-- No target, one, two; and one under a lane mask. -/
def c0 : Ctl := ⟨.always, false, none, none⟩
def c1 : Ctl := ⟨.always, false, some ⟨9, .b⟩, none⟩
def c2 : Ctl := ⟨.always, false, some ⟨1, .a⟩, some ⟨126, .c⟩⟩
def cM : Ctl := ⟨.always, true, some ⟨9, .b⟩, none⟩
def cM0 : Ctl := ⟨.always, true, none, none⟩
def x1 : BitVec 10 := tg 9 1
def y1 : BitVec 10 := tg 1 0
def y2 : BitVec 10 := tg 126 2

/-- R146, R160 to R172. -/
theorem test_decode_block : ∀ p ∈ ([
    (wR 0x01 0 0 y1 y2 0 127, .read c2 .g 127), (wR 0x01 1 0 (tg 127 1) 0 1 63, .read ⟨.ifTrue, false, some ⟨127, .b⟩, none⟩ .v 63),
    (wR 0x02 0 1 0 0 1 5, .write cM0 .v 5), (wR 0x02 2 0 0 0 2 15, .write ⟨.ifFalse, false, none, none⟩ .m 15),
    (wG 0x03 0 0 1 x1 0 0 0 0, .fan cM), (wG 0x04 0 0 0 x1 0 0 0 0, .null c1), (wG 0x04 1 0 0 x1 0 0 0 0, .nullIsn c1),
    (wI 0x05 0 0 x1 0 0x80000001, .const c1 .i 0x80000001), (wI 0x05 0 0 x1 1 7, .const c1 .n 7), (wI 0x05 0 0 x1 2 7, .const c1 .hi 7),
    (wR 0x06 0 0 0 0 3 2, .ptb c0 2), (wG 0x07 0b00101 0 0 x1 0 0 0 0, .widf c1 false 5), (wG 0x07 0b01110 0 0 x1 0 0 0 0, .widf c1 true 6),
    (wG 0x08 0 0 0 x1 0 0 0x0D 0, .sread c1 0x0D), (wA 0x09 0 y1 y2 0 0 0 0 31 1 1, .spawn c2 ⟨some 31, true⟩),
    (wG 0x0A 0 0 0 0 0 0 0x1ABC 0, .trap c0 0x1ABC)] : List (Word × Instr)), Reads p.1 p.2 := reads_all (by decide +kernel)

/-- R147, R173 to R184. -/
theorem test_decode_int : ∀ p ∈ ([
    (wG 0x10 0b11000 0 0 y1 y2 0 0 0, .add c2 ⟨true, true⟩ false none), (wG 0x11 0b01001 0 0 x1 0 0 0x1000 1, .sub c1 ⟨false, true⟩ true (some 0x1000)),
    (wG 0x12 0b10000 0 0 x1 0 0 0 0, .mul c1 ⟨true, false⟩ false none), (wG 0x12 0b01001 0 0 x1 0 0 0 0, .mul c1 ⟨false, true⟩ true none),
    (wG 0x13 0b10001 0 0 x1 0 0 3 1, .div c1 ⟨true, false⟩ true (some 3)), (wG 0x14 0b10000 0 0 x1 0 0 0 0, .and c1 true none),
    (wG 0x15 0 0 0 x1 0 0 0 0, .or c1 false none), (wG 0x16 0b10000 0 0 x1 0 0 1 1, .xor c1 true (some 1)),
    (wG 0x17 0 0 0 x1 0 0 0 0, .andn c1 false none), (wG 0x18 0b10010 0 0 x1 0 0 63 1, .shift c1 true .sra (some 63)),
    (wG 0x18 0b00011 0 0 x1 0 0 0 0, .shift c1 false .rol none), (wG 0x19 0b10010 0 0 x1 0 0 0 0, .bitf c1 true .ins none),
    (wG 0x19 0b00101 0 0 x1 0 0 0 0, .bitf c1 false .popc none), (wG 0x1A 0b01001 0 0 x1 0 0 0 0, .minmax c1 ⟨false, true⟩ true none),
    (wG 0x1B 0b11011 0 0 x1 0 0 0 0, .icmp c1 ⟨true, true⟩ .le none), (wG 0x1C 0b10000 0 1 x1 0 0 0 0, .sel cM none),
    (wG 0x1D 0b10101 0 0 x1 0 0 0x1FF8 0, .addr c1 5 0x1FF8), (wI 0x1E 0b10000 0 x1 0 0xFFFFFFFF, .addi c1 true 0xFFFFFFFF),
    (wG 0x1F 0b10010 0 0 x1 0 0 0 0, .ext c1 ⟨true, false⟩ .x32), (wG 0x1F 0b01000 0 0 x1 0 0 0 0, .ext c1 ⟨false, true⟩ .x8)]
    : List (Word × Instr)), Reads p.1 p.2 := reads_all (by decide +kernel)

/-- R148, R185 to R193. -/
theorem test_decode_fp : ∀ p ∈ ([
    (wG 0x20 0b11000 0 0 x1 0 0 0 0, .fadd c1 .f64), (wG 0x20 0b01001 0 0 x1 0 0 0 0, .fsub c1 .bf16), (wG 0x21 0b10000 0 0 x1 0 0 0 0, .fmul c1 .f32),
    (wG 0x22 0b00001 0 0 x1 0 0 0 0, .ffma c1 .f16 .fms), (wG 0x22 0b11010 0 0 x1 0 0 0 0, .ffma c1 .f64 .fnma),
    (wG 0x23 0b01000 0 0 x1 0 0 0 0, .fdiv c1 .bf16), (wG 0x24 0b10000 0 0 x1 0 0 0 0, .fsqrt c1 .f32),
    (wG 0x25 0b10010 0 0 x1 0 0 0 0, .fminmax c1 .f32 .minnum), (wG 0x26 0b11011 0 0 x1 0 0 0 0, .fcmp c1 .f64 .le),
    (wG 0x27 0b10000 0 0 x1 0 4 0 0, .fcvt c1 .f32 false .n8), (wG 0x27 0b00001 0 0 x1 0 3 0 0, .fcvt c1 .f16 true .i64),
    (wG 0x28 0b11000 0 0 x1 0 0 0 0, .fclass c1 .f64), (wG 0x29 0b00100 0 0 x1 0 0 0 0, .frint c1 .f16 .rdn)]
    : List (Word × Instr)), Reads p.1 p.2 := reads_all (by decide +kernel)

/-- R149, R194 to R217. -/
theorem test_decode_vector : ∀ p ∈ ([
    (wG 0x30 0 0 1 x1 0 8 0 0, .vadd cM .f16), (wG 0x30 1 0 0 x1 0 11 0 0, .vsub c1 .f64), (wG 0x31 0 0 0 x1 0 9 0 0, .vmul c1 .bf16),
    (wG 0x32 2 0 0 x1 0 10 0 0, .vfma c1 .f32 .fnma), (wG 0x33 0 0 0 x1 0 10 0 0, .vdiv c1 .f32), (wG 0x34 0 0 0 x1 0 10 0 0, .vsqrt c1 .f32),
    (wG 0x35 0 0 0 x1 0 10 0 0, .vrsq c1 .f32), (wG 0x36 0 0 0 x1 0 10 0 0, .vrcp c1 .f32), (wG 0x37 0 0 0 x1 0 10 0 0, .vexp2 c1 .f32),
    (wG 0x38 0 0 0 x1 0 10 0 0, .vlog2 c1 .f32), (wG 0x39 3 0 0 x1 0 8 0 0, .vminmax c1 .f16 .maxnum), (wG 0x3A 0 0 0 x1 0 1 0 0, .vabs c1 .i16),
    (wG 0x3A 1 0 0 x1 0 11 0 0, .vneg c1 .f64), (wG 0x3B 3 0 0 x1 0 7 0 0, .viarith c1 .n64 .mulhi none),
    (wG 0x3B 5 0 0 x1 0 2 9 1, .viarith c1 .i32 .subsat (some 9)), (wG 0x3C 4 0 0 x1 0 5 0 0, .vlogic c1 .n16 .not none),
    (wG 0x3D 1 0 0 x1 0 6 4 1, .vshift c1 .n32 .shr (some 4)), (wG 0x3E 4 0 0 x1 0 10 0 0, .vcmp c1 .f32 .un none),
    (wG 0x3F 0 0 0 x1 0 10 0 0, .vsel c1 .f32), (wG 0x40 0 0 0 x1 0 3 0 0, .vbcast c1 .i64), (wG 0x41 0 0 0 x1 0 1 127 1, .vextr c1 .i16 (some 127)),
    (wG 0x42 0 0 0 x1 0 10 0 0, .vins c1 .f32 none), (wG 0x43 1 0 0 x1 0 10 0 0, .vperm c1 .f32 true none), (wG 0x44 1 0 0 x1 0 10 2 1, .vslide c1 .f32 true (some 2)),
    (wG 0x45 5 0 0 x1 0 6 0 0, .vred c1 .n32 .xor), (wG 0x46 2 0 0 x1 0 10 0 0, .vscan c1 .f32 .max), (wG 0x47 0 0 0 x1 0 11 0 0, .vdot c1 .f64),
    (wG 0x48 1 0 0 x1 0 2 0 0, .viota c1 .i32 true), (wG 0x49 5 0 0 x1 0 8 0 0, .maskop c1 .f16 .mfirst), (wG 0x49 2 0 0 x1 0 8 0 0, .maskop c1 .f16 .mxor),
    (wG 0x4A 9 0 0 x1 0 10 0 0, .vcvt c1 .f32 .bf16), (wG 0x4B 0b01100 0 0 x1 0 9 0 0, .vqmx c1 .bf16 .e2m1 true), (wG 0x4B 1 0 0 x1 0 8 0 0, .vqmx c1 .f16 .e5m2 false),
    (wG 0x4C 3 0 0 x1 0 10 0 0, .vdqmx c1 .f32 .e3m2), (wG 0x4D 3 0 0 x1 0 10 0 0, .vqt c1 .f32 .fromT6), (wG 0x4E 1 0 0 x1 0 2 0 0, .vpack c1 .i32 true),
    (wG 0x4E 3 0 0 x1 0 5 0 0, .vunpk c1 .n16 true)] : List (Word × Instr)), Reads p.1 p.2 := reads_all (by decide +kernel)

/-- R150, R218 to R225. -/
theorem test_decode_memory : ∀ p ∈ ([
    (wM 0x50 0 0 0 x1 31 1 0 0 0x80000 4, .ld c1 .n8 ⟨31, .sp, .task, .rlx⟩ 0x80000), (wM 0x51 0 0 0 0 1 2 1 2 8 11, .st c0 .f64 ⟨1, .sw, .gang, .rel⟩ 8),
    (wM 0x52 0 0 1 x1 2 0 2 1 8 10, .vld cM .f32 ⟨2, .gl, .die, .acq⟩ 8), (wM 0x53 0 0 1 0 3 3 0 0 8 9, .vst cM0 .bf16 ⟨3, .nb, .task, .rlx⟩ 8),
    (wM 0x54 0 0 0 x1 4 4 0 0 8 1, .vlds c1 .i16 ⟨4, .sb, .task, .rlx⟩ 8), (wM 0x55 0 0 0 0 5 1 0 0 8 7, .vsts c0 .n64 ⟨5, .sp, .task, .rlx⟩ 8),
    (wM 0x56 0 0 0 x1 6 1 0 0 8 2, .vgath c1 .i32 ⟨6, .sp, .task, .rlx⟩ 8), (wM 0x57 0 0 0 0 7 0 4 2 8 2, .vscat c0 .i32 ⟨7, .gl, .dom, .rel⟩ 8),
    (wM 0x58 0 0 0 x1 8 0 0 0 (63#6 ++ 0#14) 10, .tld c1 .f32 ⟨8, .gl, .task, .rlx⟩ 63),
    (wM 0x59 0 0 0 0 9 0 0 0 (5#6 ++ 0#14) 10, .tst c0 .f32 ⟨9, .gl, .task, .rlx⟩ 5), (wM 0x5A 1 0 0 0 10 0 3 0 64 0, .pref c0 true ⟨10, .gl, .pkg, .rlx⟩ 64),
    (wM 0x5B 0 0 0 0 11 0 0 0 0 0, .vjoin c0 11)] : List (Word × Instr)), Reads p.1 p.2 := reads_all (by decide +kernel)

/-- R151, R226 to R244. -/
theorem test_decode_sync : ∀ p ∈ ([
    (wM 0x60 0b11000 0 0 x1 1 0 3 3 8 3, .amo c1 .swap true true ⟨1, .gl, .pkg, .ar⟩ 8), (wM 0x60 0b01010 0 0 x1 1 1 0 0 8 9, .amo c1 .faddBf16x2 false false ⟨1, .sp, .task, .rlx⟩ 8),
    (wM 0x61 0b10000 0 0 x1 2 0 2 3 8 2, .cas c1 true false ⟨2, .gl, .die, .ar⟩ 8), (wM 0x62 2 0 0 0 3 0 1 0 0 0, .fence c0 .wr 3 .gang),
    (wM 0x63 0 0 0 x1 4 0 0 0 447 0, .barInit c1 4 447), (wM 0x63 1 0 0 x1 4 0 0 0 511 0, .barArrive c1 4 511), (wM 0x63 2 0 0 x1 4 0 0 0 448 0, .barWait c1 4 448),
    (wM 0x63 3 0 0 x1 4 0 0 0 1 0, .barSync c1 4 1), (wM 0x64 2 0 0 0 5 4 0 2 8 7, .bkop c0 .min .n64 ⟨5, .sb, .task, .rel⟩ 8),
    (wM 0x65 0 0 0 0 6 0 0 2 31 0, .ctrInc c0 6 true 31), (wM 0x65 1 0 0 0 6 0 1 0 7 0, .ctrAdd c0 6 false true 7), (wM 0x65 2 0 0 0 6 0 0 0 7 0, .ctrSet c0 6 false 7),
    (wM 0x65 3 0 0 0 6 0 0 0 7 0, .ctrReset c0 6 false 7), (wM 0x65 4 0 0 0 6 0 0 0 7 0, .ctrResetKeep c0 6 false 7), (wM 0x65 5 0 0 x1 6 0 0 0 7 0, .ctrRead c1 6 7),
    (wM 0x66 0 0 0 x1 7 0 1 1 9 0, .ctrwait c1 7 .gang 9), (wA 0x67 0 x1 0 21 0 0 0 0 0 1, .arm c1 true 21), (wG 0x68 0 0 0 0 0 0 15 0, .chbindOwn c0 15),
    (wG 0x68 1 0 0 0 0 0 3 0, .chbindProd c0 3), (wG 0x68 2 0 0 0 0 0 3 0, .chbindCons c0 3), (wG 0x69 1 0 0 x1 0 0 2 0, .chwait c1 true 2),
    (wG 0x6A 0 0 0 0 0 0 2 0, .chadv c0 false 2), (wA 0x6B 0 x1 0 1 2 0 0 0 0 0, .copy c1 1 2 ⟨none, false⟩),
    (wA 0x6B 1 x1 0 1 2 15 0 4 1 1, .copyCh c1 1 2 15 ⟨some 4, true⟩), (wG 0x6C 0 0 0 x1 0 0 0 0, .copyw c1), (wG 0x6C 1 0 0 x1 0 0 0 0, .copywTest c1)]
    : List (Word × Instr)), Reads p.1 p.2 := reads_all (by decide +kernel)

/-- R152, R245 to R289. -/
theorem test_decode_matrix_routing : ∀ p ∈ ([
    (wG 0x70 3 0 0 0 0 0 63 0, .tdset c0 63 3), (wG 0x71 1 0 0 x1 0 0 2 0, .tdget c1 2 1), (wA 0x72 0 x1 0 0 0 0 7 0 0 0, .mzero c1 7 ⟨none, false⟩),
    (wA 0x73 1 x1 0 1 2 0 3 0 0 0, .mma c1 true 1 2 3 ⟨none, false⟩), (wA 0x74 0 x1 0 1 2 0 3 0 0 0, .mmag c1 false 1 2 3 ⟨none, false⟩),
    (wA 0x75 0 x1 0 1 2 4 3 0 0 0, .gmma c1 1 2 4 3 ⟨none, false⟩), (wM 0x76 0 0 0 0 1 0 1 1 (33#6 ++ 5#3 ++ 0#11) 0, .mlda c0 1 .gang true 33 5),
    (wM 0x77 0 0 0 0 1 0 0 0 (33#6 ++ 5#3 ++ 0#11) 0, .msta c0 1 .task 33 5), (wG 0x78 0 0 0 x1 0 0 0 0, .mwait c1), (wG 0x78 1 0 0 x1 0 0 0 0, .mwaitTest c1),
    (wA 0x80 0 x1 0 1 2 3 0 0 0 0, .rgrp c1 1 2 3 ⟨none, false⟩), (wA 0x81 0 x1 0 1 2 3 0 0 0 0, .rtopk c1 1 2 3 ⟨none, false⟩),
    (wA 0x82 0 x1 0 1 2 3 0 0 0 0, .rbin c1 1 2 3 ⟨none, false⟩), (wA 0x83 0 x1 0 1 2 3 0 0 0 0, .bpermRequest c1 1 2 3 ⟨none, false⟩),
    (wA 0x84 0 x1 0 1 2 3 0 0 0 0, .dspat c1 1 2 3 ⟨none, false⟩), (wA 0x85 0 x1 0 1 2 3 0 0 0 0, .cmbn c1 1 2 3 ⟨none, false⟩),
    (wA 0x86 0 x1 0 0 0 3 0 0 0 0, .brel c1 3 ⟨none, false⟩), (wA 0x87 0 x1 0 1 2 3 0 0 0 0, .collAr c1 1 2 3 ⟨none, false⟩),
    (wA 0x87 1 x1 0 1 2 3 0 0 0 0, .collRs c1 1 2 3 ⟨none, false⟩), (wA 0x87 2 x1 0 1 2 3 0 0 0 0, .collAg c1 1 2 3 ⟨none, false⟩),
    (wA 0x87 3 x1 0 1 2 3 0 0 0 0, .collA2a c1 1 2 3 ⟨none, false⟩), (wA 0x87 4 x1 0 1 2 3 0 0 0 0, .collBc c1 1 2 3 ⟨none, false⟩),
    (wA 0x87 5 x1 0 1 2 3 0 0 0 0, .collOp c1 1 2 3 ⟨none, false⟩), (wG 0x88 0 0 0 x1 0 0 0 0, .collw c1), (wG 0x88 1 0 0 x1 0 0 0 0, .collwTest c1),
    (wA 0x89 0 x1 0 1 2 3 0 0 0 0, .expld c1 1 2 3 ⟨none, false⟩)] : List (Word × Instr)), Reads p.1 p.2 := reads_all (by decide +kernel)

/-- R153, R290 to R317, R345. -/
theorem test_decode_signature_system : ∀ p ∈ ([
    (wG 0x90 0 0 0 0 0 0 3 0, .sigcfg c0 3), (wG 0x91 0 0 0 0 0 0 2 0, .sigid c0 2), (wG 0x92 0 0 1 0 0 10 1 0, .sigstep cM0 1),
    (wA 0x93 0 x1 0 7 0 0 2 0 0 0, .sigstrm c1 7 2 ⟨none, false⟩), (wG 0x94 0 0 0 0 0 0 0b011011 0, .sigjoin c0 1 2 3), (wG 0x95 0 0 0 0 0 0 0b0110 0, .siglog c0 1 2),
    (wG 0x96 0 0 0 0 0 0 0b0110 0, .sigexp c0 1 2), (wG 0x97 0 0 0 0 0 0 0b0110 0, .siginv c0 1 2), (wG 0x98 0 0 0 0 0 0 3 0, .sigscl c0 3),
    (wG 0x99 0 0 1 x1 0 0 3 0, .sigmovCv cM 3), (wG 0x99 1 0 1 0 0 0 3 0, .sigmovVc cM0 3), (wG 0x99 2 0 0 0 0 0 3 0, .sigmovSs c0 3), (wG 0x99 3 0 0 0 0 0 3 0, .sigmovSl c0 3),
    (wG 0xF0 0 0 0 x1 0 0 0x1000 0, .psrRead c1 0x1000), (wG 0xF0 1 0 0 0 0 0 0x030 0, .psrWrite c0 0x030), (wG 0xF0 1 0 0 0 0 0 0x013 0, .spctlWrite c0),
    (wG 0xF0 1 0 0 0 0 0 0x012 0, .spholdWrite c0), (wG 0xF0 1 0 0 0 0 0 0x011 0, .spptWrite c0), (wG 0xF0 1 0 0 0 0 0 0x022 0, .qwdWrite c0),
    (wG 0xF0 1 0 0 0 0 0 0x050 0, .contextAreaWrite c0 false), (wG 0xF0 1 0 0 0 0 0 0x051 0, .contextAreaWrite c0 true), (wG 0xF0 1 0 0 0 0 0 0x040 0, .dbgctlWrite c0),
    (wG 0xF1 0 0 0 0 0 0 0 0, .tresume c0), (wG 0xF1 1 0 0 0 0 0 0 0, .tresumeSame c0), (wG 0xF2 0 0 0 0 0 0 0 0, .tlbinvAll c0), (wG 0xF2 1 0 0 0 0 0 0 0, .tlbinvPage c0),
    (wG 0xF2 2 0 0 0 0 0 0 0, .tlbinvSpace c0), (wG 0xF3 0 0 0 0 0 0 0 0, .ctxopSave c0), (wG 0xF3 1 0 0 0 0 0 0 0, .ctxopRestore c0), (wG 0xF3 2 0 0 0 0 0 0 0, .ctxopKill c0),
    (wA 0xF4 0 x1 0 0 0 0 0 0 0 0, .glaunch c1 ⟨none, false⟩), (wG 0xF5 0 0 0 0 0 0 0 0, .budgetSet c0), (wG 0xF5 1 0 0 0 0 0 0 0, .budgetAdd c0), (wG 0xF6 0 0 0 0 0 0 0 0, .halt c0),
    (wG 0xF7 0 0 0 0 0 0 0 0, .dbgStep c0), (wG 0xF7 1 0 0 0 0 0 0 0, .dbgBrk c0), (wG 0xF7 2 0 0 0 0 0 0 0, .dbgClrbrk c0), (wG 0xF8 0 0 0 0 0 0 0 0, .cacheL1inv c0),
    (wG 0xF8 1 0 0 0 0 0 0 0, .cacheIcinv c0), (wG 0xF8 2 0 0 0 0 0 0 0, .cacheL2wb c0)] : List (Word × Instr)), Reads p.1 p.2 := reads_all (by decide +kernel)

/-- Words that are no instruction (R154): each line of its table. -/
theorem test_decode_refuses : ([
    0#64, wG 0x0B 0 0 0 x1 0 0 0 0, wG 0x2A 0 0 0 x1 0 0 0 0, wG 0x4F 0 0 0 x1 0 0 0 0, wG 0xA0 0 0 0 0 0 0 0 0, wG 0xF9 0 0 0 0 0 0 0 0,  -- majors
    wG 0x10 0b00010 0 0 x1 0 0 0 0, wI 0x05 0 0 x1 3 7, wI 0x1E 0 0 x1 1 7, wG 0x12 0b01000 0 0 x1 0 0 0 0, wG 0x07 0b00110 0 0 x1 0 0 0 0,  -- FN, SUB
    wG 0x30 0 0 0 x1 0 2 0 0, wM 0x50 0 0 0 x1 0 0 0 0 0 12, wM 0x50 0 0 0 x1 0 0 0 0 0 19, wM 0x60 0 0 0 x1 0 0 0 0 0 10,                  -- TY
    wG 0x10 0b10000 3 0 x1 0 0 0 0, wG 0x1C 0b10000 1 1 x1 0 0 0 0, wG 0x10 0b10000 0 1 x1 0 0 0 0, wG 0x49 0 0 1 x1 0 8 0 0,               -- PM, LP
    wG 0x10 0b10000 0 0 x1 0 1 0 0, wG 0x10 0b10000 0 0 x1 1 0 0 0, wG 0x1D 0b10000 0 0 x1 0 0 0 1, wG 0x20 0 0 0 x1 0 0 0 1,               -- zero fields, IB
    wM 0x50 0 0 0 x1 0 5 0 0 0 4, wM 0x50 0 0 0 x1 0 0 5 0 0 4, wM 0x50 0 0 0 x1 0 0 0 2 0 4, wM 0x51 0 0 0 0 0 0 0 1 0 4,                  -- SP, SC, OR
    wM 0x60 0b10000 0 0 x1 0 0 0 0 0 3, wM 0x60 0b10000 0 0 x1 0 0 4 3 0 3, wR 0x01 0 0 x1 0 6 0, wR 0x01 0 0 x1 0 3 4, wR 0x06 0 0 0 0 0 0]  -- SC variant, CLASS, REG
    : List Word).all refusedB = true := by decide +kernel

/-! ## Terms that WellFormed refuses, one for each check -/

def mm (space : Space) (scope : Scope) (ord : Ord) : MemF := ⟨0, space, scope, ord⟩
def m0 : MemF := mm .sp .task .rlx

theorem test_wellFormed_refuses_control : ([
    .add cM ⟨true, false⟩ false none, .fan ⟨.ifTrue, true, none, none⟩, .write cM0 .g 1,   -- LP where R154 forbids it
    .addi c2 true 0, .ld c2 .i32 m0 0,                                                     -- two targets of formats I and M
    .ptb c1 0, .st c1 .i32 m0 0, .halt c1, .ctrInc c1 0 false 0]                           -- a target without a result
    : List Instr).all (fun i => !i.wellFormed) = true := by decide

theorem test_wellFormed_refuses_fields : ([
    .read c0 .m 16, .write c0 .b 4, .widf c0 false 6, .widf c0 true 7, .mul c0 ⟨true, true⟩ false none, .icmp c0 ⟨false, true⟩ .eq none,
    .ext c0 ⟨false, false⟩ .x32, .bitf c0 true .popc (some 0), .vlogic c0 .i32 .not (some 0), .vperm c0 .i32 true (some 0),
    .vperm c0 .f32 false (some 0), .vcmp c0 .f32 .eq (some 0), .psrWrite c0 0x013, .psrWrite c0 0x051]
    : List Instr).all (fun i => !i.wellFormed) = true := by decide

theorem test_wellFormed_refuses_types : ([
    .fadd c0 .i32, .fclass c0 .e4m3, .fcvt c0 .f32 false .f32, .fcvt c0 .f32 false .e2m1, .fcvt c0 .f32 true .bf16, .vadd c0 .i32, .vabs c0 .i8,
    .viarith c0 .f32 .add none, .vshift c0 .n8 .shl none, .vcmp c0 .i32 .un none, .vred c0 .f32 .and, .vscan c0 .bf16 .xor, .vcvt c0 .f32 .f32,
    .vcvt c0 .f32 .e4m3, .vqmx c0 .f64 .e4m3 false, .vdqmx c0 .i32 .e4m3, .vqt c0 .f64 .toT8, .vpack c0 .i16 false, .vpack c0 .f32 false,
    .vunpk c0 .n64 false, .ld c0 .e4m3 m0 0, .vld c0 .i8 m0 0]
    : List Instr).all (fun i => !i.wellFormed) = true := by decide

theorem test_wellFormed_refuses_memory : ([
    .ld c0 .i32 (mm .gl .task .rel) 0, .st c0 .i32 (mm .gl .task .acq) 0, .vld c0 .i32 (mm .gl .task .ar) 0, .vst c0 .i32 (mm .gl .task .ar) 0,
    .tld c0 .i32 (mm .sp .task .rlx) 0, .tst c0 .i32 (mm .sp .task .rlx) 0, .pref c0 false (mm .gl .task .acq) 0,
    .amo c0 .faddF32 false true m0 0, .amo c0 .add true false m0 0, .amo c0 .add true false (mm .gl .dom .ar) 0, .cas c0 true false (mm .gl .dom .ar) 0,
    .bkop c0 .add .i32 m0 0, .bkop c0 .hist .i32 (mm .sb .task .rlx) 0, .bkop c0 .faddF32 .bf16 (mm .sb .task .rlx) 0, .bkop c0 .add .i32 (mm .sb .task .acq) 0]
    : List Instr).all (fun i => !i.wellFormed) = true := by decide

/-! ## The host's two questions: the decoder on the table's bits, and a step on a word placed for the next step -/

theorem test_table_word : decodeTableWord 64 (wI 0x1E 0b10000 0 x1 0 5).toNat = some (.addi c1 true 5) := by decide

theorem test_step_runs_placed_word :
    (match step (State.reset.withFetchWord 64 (wI 0x05 0 0 (tg 9 0) 0 0xFFFFFFFF).toNat) with
     | .next t => (match t.core.frame with | some fr => fr.fired.getLsbD fr.cur && fr.slot 9 .a == some (.s 0xFFFFFFFFFFFFFFFF) | none => false)
     | _ => false) = true := by decide +kernel

/-! ## States in which an instruction fires -/

theorem selects_of {c : Ctl} {p : Option Tok} {lm : Mask} (h : selectP c p = .on lm) : Selects c p lm := by
  cases c with
  | mk pm lp t0 t1 =>
    cases pm <;> simp only [selectP] at h <;> simp only [Selects]
    · cases lp
      · simpa using h.symm
      · simp only [if_true] at h ⊢
        split at h <;> simp_all
    · split at h <;> try contradiction
      split at h <;> simp_all
    · split at h <;> try contradiction
      split at h <;> simp_all

def holdsB (fr : Frame) (i : Instr) (sl : Slot) (t : Tok) : Bool :=
  if needOf i sl = .no then fr.slot fr.cur sl == none && t == .null
  else fr.slot fr.cur sl == some t && (seesNulls i || t != .null)

theorem holds_of {fr : Frame} {i : Instr} {sl : Slot} {t : Tok} (h : holdsB fr i sl t = true) : Holds fr i sl t := by
  unfold holdsB at h
  unfold Holds
  split at h <;> simp_all

def firesB (i : Instr) (s : State) (fr : Frame) (x : In) : Bool :=
  s.core.frame == some fr && !fr.fired.getLsbD fr.cur
  && (match ctlOf i with | some c => selectP c (fr.slot fr.cur .p) == .on x.lm | none => false)
  && holdsB fr i .a x.a && holdsB fr i .b x.b && holdsB fr i .c x.c
  && (!isSystem i || isSup s.core.id) && (!notOnSupervisor i || !isSup s.core.id)

theorem fires_of {i : Instr} {s : State} {fr : Frame} {x : In} (h : firesB i s fr x = true) : Fires i s fr x := by
  simp only [firesB, Bool.and_eq_true, Bool.or_eq_true, Bool.not_eq_true', beq_iff_eq] at h
  obtain ⟨⟨⟨⟨⟨⟨⟨h1, h2⟩, h3⟩, h4⟩, h5⟩, h6⟩, h7⟩, h8⟩ := h
  refine ⟨h1, h2, ?_, holds_of h4, holds_of h5, holds_of h6, fun h => ?_, fun h => ?_⟩
  · split at h3
    · next c hc => exact ⟨c, hc, selects_of (by simpa using h3)⟩
    · contradiction
  · simp_all
  · simp_all

/-- A frame that holds one word, with tokens in its slots A, B, C and P (0, 1, 2 and 3). -/
def one (i : Instr) (l : List (Nat × Tok)) : Frame := { Frame.fresh 0 0 0 0 0 [(encode i).getD 0] with slots := l }

/-- A state with that frame on its current core. -/
def put (s : State) (i : Instr) (l : List (Nat × Tok)) : State := { s with core := { s.core with frame := some (one i l) } }

/-- A gang of one task with 64 KiB of scratchpad and eight tiles. -/
def job : Ident :=
  { launch := 1, gang := 2, space := 1, queue := 0, part := 0, desc := { l5 := 16 + 8 * 512 }, wid := 0, gidx := 0, rank := 0, gsize := 1,
    cores := [0] }

/-- Core 0 runs it. -/
def base : State := { State.reset with core := { Core.blank 0 with st := .running, task := some job } }

/-- As `base`, with registers. -/
def withR (r : Regs) : State := { base with core := { base.core with r := r } }

/-- As `base`, with an engine side. -/
def withE (e : Eng) : State := { base with core := { base.core with e := e } }

/-- As `base`, with every trap enabled. -/
def traps : State := withR { Regs.zero with fsr := 0x7F00 }

def vec (n : Nat) : Tok := .v (BitVec.ofNat 2048 n) (BitVec.allOnes 128)
def msk : Tok := .m (BitVec.allOnes 128)

/-- Each instruction of the list fires in `s` with those slots as its tokens: slots A, B and C in order. -/
def fireB (s : State) (p : Instr × List Tok) : Bool :=
  let l := (List.range p.2.length).zip p.2
  firesB p.1 (put s p.1 l) (one p.1 l) { a := p.2.getD 0 .null, b := p.2.getD 1 .null, c := p.2.getD 2 .null }

def Fire (s : State) (i : Instr) (toks : List Tok) : Prop :=
  let l := (List.range toks.length).zip toks
  Fires i (put s i l) (one i l) { a := toks.getD 0 .null, b := toks.getD 1 .null, c := toks.getD 2 .null }

theorem fire {s : State} {l : List (Instr × List Tok)} (h : (l.all (fireB s)) = true) : ∀ p ∈ l, Fire s p.1 p.2 := fun p hp =>
  fires_of (List.all_eq_true.mp h p hp)

/-- Whether an instruction goes on to a state of which a check holds. -/
def goes (i : Instr) (s : State) (p : State → Bool) : Bool := match exec i s with | .next t => p t | _ => false

theorem reach_of {i : Instr} {s : State} {p : State → Bool} (h : goes i s p = true) : Reach s i fun t => p t = true := by
  unfold goes at h
  split at h
  · next t ht => exact ⟨t, ht, h⟩
  · cases h

/-! ## A state for each statement's hypotheses: encoding and steps -/

theorem witness_EncodeRoundTrip : (Instr.addi c1 true 5).wellFormed = true ∧ (ctlOf (.addi c1 true 5)).isSome = true := by decide
theorem witness_DecodeRoundTrip : decode (wI 0x1E 0b10000 0 x1 0 5) = .ok (.addi c1 true 5) := reads_of (by decide +kernel)

theorem witness_StepFiresReady :
    let fr := one (.addi c1 true 5) [(0, .s 7)]
    let s := put base (.addi c1 true 5) [(0, .s 7)]
    s.frozen = false ∧ s.agenda = [] ∧ s.passDue = false ∧ (∀ d < 4, (s.die d).leaveQ = []) ∧ s.core.st = .running ∧ s.core.frame = some fr ∧ nextReady fr = some (0, .addi c1 true 5) := by
  decide +kernel

theorem witness_NextReadyIsLowest :
    let fr := one (.addi c1 true 5) [(0, .s 7)]
    0 < fr.words.length ∧ decode (fr.words.getD 0 0) = .ok (.addi c1 true 5) ∧ fr.waiting.getLsbD 0 = false
    ∧ slotsReady fr 0 (.addi c1 true 5) = true ∧ nextReady fr = some (0, .addi c1 true 5) :=
  ⟨by decide +kernel, reads_of (by decide +kernel), by decide +kernel, by decide +kernel, by decide +kernel⟩

theorem witness_EventAndFrozenSteps :
    ({ base with agenda := [.event .freeze, .tick 3, .core 1024] }).frozen = false ∧ ctlOf .freeze = none
    ∧ ({ base with frozen := true, agenda := [.event (.coldReset [] 0 none)] }).frozen = true ∧ ({ base with frozen := true }).agenda = [] := by
  decide

/-! ## Scalar integer instructions -/

theorem witness_AddiAdds : ∀ p ∈ ([(.addi c1 true 5, [.s 7]), (.addi c1 false 0x80000000, [.s 0])] : List (Instr × List Tok)), Fire base p.1 p.2 :=
  fire (by decide +kernel)
theorem witness_AddrForms : ∀ p ∈ ([(.addr c1 7 0x1000, [.s 1, .s 2])] : List (Instr × List Tok)), Fire base p.1 p.2 := fire (by decide +kernel)
theorem witness_BitwiseResults : ∀ p ∈ ([(.and c1 true none, [.s 1, .s 2]), (.or c1 false none, [.s 1, .s 2]), (.xor c1 true (some 1), [.s 1]),
    (.andn c1 false none, [.s 1, .s 2])] : List (Instr × List Tok)), Fire base p.1 p.2 := fire (by decide +kernel)
theorem witness_MinmaxSelects : ∀ p ∈ ([(.minmax c1 ⟨true, false⟩ false none, [.s 1, .s 2]), (.minmax c1 ⟨false, true⟩ true none, [.s 1, .s 2])]
    : List (Instr × List Tok)), Fire base p.1 p.2 := fire (by decide +kernel)

/-- Each clause at the bound of the form: a sum equal to it, one above, one below, and both with the trap enabled. -/
theorem witness_AddSubResults :
    let f : IForm := ⟨false, false⟩
    let big : Word := 0x7FFFFFFF
    let small : Word := 0xFFFFFFFF80000000
    (∀ p ∈ ([(.add c1 f false none, [.s big, .s 1]), (.add c1 f true none, [.s big, .s 0]), (.add c1 f true none, [.s big, .s 1]),
      (.sub c1 f true none, [.s small, .s 1])] : List (Instr × List Tok)), Fire base p.1 p.2)
    ∧ (∀ p ∈ ([(.add c1 f true none, [.s big, .s 1])] : List (Instr × List Tok)), Fire traps p.1 p.2)
    ∧ operand f big + operand f 0 = formMax f ∧ formMax f < operand f big + operand f 1 ∧ operand f small - operand f 1 < formMin f
    ∧ (one (.add c1 f true none) []).bound = false ∧ fsrEnables base.core.r &&& fQSAT = 0 ∧ fsrEnables traps.core.r &&& fQSAT ≠ 0 :=
  ⟨fire (by decide +kernel), fire (by decide +kernel), by decide +kernel⟩

theorem witness_MulDivResults : (∀ p ∈ ([(.mul c1 ⟨true, false⟩ false none, [.s 3, .s 5]), (.mul c1 ⟨true, true⟩ true none, [.s 3, .s 5]),
    (.div c1 ⟨true, false⟩ false none, [.s 3, .s 0]), (.div c1 ⟨false, true⟩ true none, [.s 3, .s 2])] : List (Instr × List Tok)), Fire base p.1 p.2)
    ∧ operand ⟨true, false⟩ (bWord none (.s 0)) = 0 := ⟨fire (by decide +kernel), by decide⟩

theorem witness_ShiftCompareExtend : ∀ p ∈ ([(.shift c1 true .shl none, [.s 3, .s 0]), (.shift c1 false .shr none, [.s 3, .s 31]),
    (.shift c1 true .sra none, [.s 3, .s 63]), (.shift c1 false .rol (some 32), [.s 3]), (.icmp c1 ⟨true, false⟩ .eq none, [.s 3, .s 3]),
    (.icmp c1 ⟨false, false⟩ .ne none, [.s 3, .s 3]), (.icmp c1 ⟨true, true⟩ .lt none, [.s 3, .s 3]), (.icmp c1 ⟨true, false⟩ .le none, [.s 3, .s 3]),
    (.ext c1 ⟨true, false⟩ .x32, [.s 3]), (.ext c1 ⟨false, true⟩ .x8, [.s 255])] : List (Instr × List Tok)), Fire base p.1 p.2 := fire (by decide +kernel)

theorem witness_BitFieldResults : ∀ p ∈ ([(.bitf c1 true .extz none, [.s 3, .s (63 + 64 * 127)]), (.bitf c1 false .exts none, [.s 3, .s (31 + 64)]),
    (.bitf c1 true .ins none, [.s 3, .s 1, .s (63 + 64)]), (.bitf c1 true .clz none, [.s 0]), (.bitf c1 false .ctz none, [.s 0]),
    (.bitf c1 true .popc none, [.s 7]), (.bitf c1 false .brev none, [.s 1])] : List (Instr × List Tok)), Fire base p.1 p.2 := fire (by decide +kernel)

/-! ## Tokens, constants and registers -/

theorem witness_ConstFanSelNull : ∀ p ∈ ([(.const c1 .i 7, []), (.const c1 .n 7, []), (.const c1 .hi 7, []), (.fan c1, [.s 7]), (.null c1, [.null]),
    (.nullIsn c1, [.null]), (.nullIsn c1, [.s 1]), (.sel c1 none, [.null, .s 1, .s 2]), (.sel c1 none, [.s 0, .s 1, .s 2]), (.sel c1 none, [.s 1, .null, .s 2])]
    : List (Instr × List Tok)), Fire base p.1 p.2 := fire (by decide +kernel)

theorem witness_NullsAndWaits :
    let i : Instr := .addi c1 true 5
    let t : Instr := .addi ⟨.ifTrue, false, none, none⟩ true 5
    let f : Instr := .addi ⟨.ifFalse, false, none, none⟩ true 5
    (needOf i .a ≠ .no ∧ needOf i .b = .no ∧ needOf i .c = .no ∧ (one i [(0, .null)]).slot 0 .a = some .null ∧ seesNulls i = false)
    ∧ (one t [(3, .s 0)]).slot 0 .p = some (.s 0) ∧ (one t [(3, .null)]).slot 0 .p = some .null ∧ (one f [(3, .s 1)]).slot 0 .p = some (.s 1)
    ∧ slotsReady (one i []) 0 i = false ∧ (one i []).fired.getLsbD 0 = false ∧ ({ one i [] with fired := 1 } : Frame).fired.getLsbD 0 = true := by
  decide +kernel

/-- Registers at both ends of each file, and a privileged register of each kind. -/
theorem witness_ReadsRegisters :
    (∀ p ∈ ([(.read c1 .g 0, []), (.read c1 .g 127, []), (.read c1 .v 63, []), (.read c1 .m 15, []), (.read c1 .b 3, []), (.read c1 .l 3, []),
      (.read c1 .fsr 0, []), (.tdget c1 63 3, []), (.ctrRead c1 0 31, [])] : List (Instr × List Tok)), Fire base p.1 p.2)
    ∧ (∀ p ∈ ([(.psrRead c1 0x010, []), (.psrRead c1 0x040, []), (.psrRead c1 0x050, []), (.psrRead c1 0x1FFF, [])] : List (Instr × List Tok)),
      Fire State.reset p.1 p.2) ∧ psrRead State.reset 0 0x1FFF = none :=
  ⟨fire (by decide +kernel), fire (by decide +kernel), by decide +kernel⟩

theorem witness_WidfAndSpecialState :
    (∀ p ∈ ([(.widf c1 false 5, []), (.widf c1 true 6, []), (.widf c1 true 0, []), (.sread c1 0, []), (.sread c1 0x11, []), (.sread c1 0x12, []), (.sread c1 0xFF, [])]
      : List (Instr × List Tok)), Fire base p.1 p.2) ∧ base.core.task = some job ∧ Desc_.nf job.desc ≤ 6 ∧ base.core.id < 1024 :=
  ⟨fire (by decide +kernel), by decide +kernel⟩

/-! ## Scalar floating point -/

theorem witness_FpCompletes : (∀ p ∈ ([(.fadd c1 .f32, [.s 0, .s 0]), (.fsub c1 .f16, [.s 0, .s 0]), (.fmul c1 .bf16, [.s 0, .s 0]), (.ffma c1 .f64 .fms, [.s 0, .s 0, .s 0]),
    (.fdiv c1 .f32, [.s 0, .s 0]), (.fsqrt c1 .f32, [.s 0]), (.fminmax c1 .f32 .minnum, [.s 0, .s 0]), (.fcmp c1 .f32 .un, [.s 0, .s 0]), (.fcvt c1 .f32 false .t6, [.s 0]),
    (.fcvt c1 .f32 true .n64, [.s 0]), (.fclass c1 .f32, [.s 0]), (.frint c1 .f32 .fsr, [.s 0])] : List (Instr × List Tok)), Fire base p.1 p.2)
    ∧ fsrEnables base.core.r = 0 := ⟨fire (by decide +kernel), by decide⟩

/-- A quiet and a signalling NaN, the least of each, with the trap off and on. -/
theorem witness_FpNaN :
    let isNan (w : Word) : Prop := 2 ^ (layoutOf .f32).eb * 2 ^ (layoutOf .f32).fb - 2 ^ (layoutOf .f32).fb < w.toNat % 2 ^ (Ty.f32.width - 1)
    (∀ p ∈ ([(.fadd c1 .f32, [.s 0x7FC00000, .s 0]), (.fdiv c1 .f32, [.s 0, .s 0x7F800001]), (.fsqrt c1 .f32, [.s 0x7F800001])] : List (Instr × List Tok)), Fire base p.1 p.2)
    ∧ (∀ p ∈ ([(.fsqrt c1 .f32, [.s 0x7F800001])] : List (Instr × List Tok)), Fire traps p.1 p.2)
    ∧ isNan 0x7FC00000 ∧ isNan 0x7F800001 ∧ (0x7F800001 : Word).getLsbD ((layoutOf .f32).fb - 1) = false ∧ (0x7FC00000 : Word).getLsbD ((layoutOf .f32).fb - 1) = true
    ∧ fsrEnables base.core.r &&& fNV = 0 ∧ fsrEnables traps.core.r &&& fNV ≠ 0 :=
  ⟨fire (by decide +kernel), fire (by decide +kernel), by decide +kernel⟩

theorem witness_ZeroSumsAndDivision :
    (∀ p ∈ ([(.fadd c1 .f32, [.s 0x3F800000, .s 0xBF800000]), (.fsub c1 .f32, [.s 0x3F800000, .s 0x3F800000]), (.fadd c1 .f32, [.s 0x80000000, .s 0x80000000]),
      (.fdiv c1 .f32, [.s 0x3F800000, .s 0x80000000])] : List (Instr × List Tok)), Fire base p.1 p.2)
    ∧ (∀ p ∈ ([(.fdiv c1 .f32, [.s 1, .s 0])] : List (Instr × List Tok)), Fire traps p.1 p.2)
    ∧ 0x3F800000 < infCode .f32 ∧ 0 < 0x3F800000 ∧ 0x80000000 % 2 ^ (Ty.f32.width - 1) = 0
    ∧ fsrEnables base.core.r &&& fDZ = 0 ∧ fsrEnables traps.core.r &&& fDZ ≠ 0 := ⟨fire (by decide +kernel), fire (by decide +kernel), by decide +kernel⟩

theorem witness_FclassFcmp :
    (∀ p ∈ ([(.fclass c1 .f64, [.s 0xFFF0000000000000]), (.fcmp c1 .f32 .lt, [.s 0x7F800001, .s 0]), (.fcmp c1 .f32 .le, [.s 0x7F800000, .s 1]),
      (.fcmp c1 .f32 .eq, [.s 0x80000000, .s 0])] : List (Instr × List Tok)), Fire base p.1 p.2)
    ∧ infCode .f32 < 0x7F800001 ∧ 0x7F800000 ≤ infCode .f32 ∧ 0x80000000 = 2 ^ (Ty.f32.width - 1) := ⟨fire (by decide +kernel), by decide +kernel⟩

/-! ## Vectors and masks -/

theorem witness_VecFloatLanes : (∀ p ∈ ([(.vadd c1 .f32, [vec 1, vec 2]), (.vsub c1 .f16, [vec 1, vec 2]), (.vmul c1 .bf16, [vec 1, vec 2]), (.vdiv c1 .f64, [vec 1, vec 2]),
    (.vminmax c1 .f32 .max, [vec 1, vec 2]), (.vsqrt c1 .f32, [vec 1]), (.vrcp c1 .f32, [vec 1]), (.vrsq c1 .f32, [vec 1]), (.vexp2 c1 .f32, [vec 1]), (.vlog2 c1 .f32, [vec 1]),
    (.vfma c1 .f32 .fnma, [vec 1, vec 2, vec 3])] : List (Instr × List Tok)), Fire base p.1 p.2) ∧ fsrEnables base.core.r = 0 := ⟨fire (by decide +kernel), by decide⟩

theorem witness_VecIntLanes : (∀ p ∈ ([(.vabs c1 .f32, [vec 0]), (.vneg c1 .f32, [vec 0]), (.vabs c1 .i32, [vec 1]), (.vneg c1 .n16, [vec 1]), (.viarith c1 .i32 .addsat none, [vec 1, vec 2]),
    (.viarith c1 .n64 .mulhi (some 3), [vec 1]), (.vlogic c1 .i32 .andn none, [vec 1, vec 2]), (.vlogic c1 .i32 .not none, [vec 1]), (.vshift c1 .i32 .sra (some 31), [vec 1])]
    : List (Instr × List Tok)), Fire base p.1 p.2) ∧ ∀ j p, laneOf 32 (vec 0) j = some p → p % 2 ^ (32 - 1) ≤ infCode .f32 := by
  refine ⟨fire (by decide +kernel), fun j p h => ?_⟩
  have hp : p = 0 := by
    unfold laneOf at h
    split at h
    · simpa [vec, tokVec, laneNat] using h.symm
    · cases h
  subst hp
  decide

theorem witness_VecMasks : ∀ p ∈ ([(.vcmp c1 .i32 .lt none, [vec 1, vec 2]), (.vcmp c1 .n16 .eq (some 1), [vec 1]), (.vcmp c1 .f32 .un none, [vec 1, vec 2]),
    (.vsel c1 .f32, [msk, vec 1, vec 2]), (.maskop c1 .i32 .mand, [msk, msk]), (.maskop c1 .i32 .mor, [msk, msk]), (.maskop c1 .i32 .mxor, [msk, msk]), (.maskop c1 .i32 .mnot, [msk]),
    (.maskop c1 .i32 .mpopc, [msk]), (.maskop c1 .i32 .mfirst, [msk]), (.maskop c1 .i32 .mfromi, [.s 64]), (.viota c1 .i32 false, []), (.viota c1 .i32 true, [msk])]
    : List (Instr × List Tok)), Fire base p.1 p.2 := fire (by decide +kernel)

theorem witness_VecMoves : ∀ p ∈ ([(.vbcast c1 .f32, [.s 1]), (.vextr c1 .i16 (some 127), [vec 1]), (.vextr c1 .f32 none, [vec 1, .s 64]), (.vins c1 .f32 none, [vec 1, .s 1, .s 63]),
    (.vperm c1 .f32 false none, [vec 1, vec 2]), (.vperm c1 .i32 false (some 0x1FFF), [vec 1]), (.vperm c1 .f32 true none, [vec 1, vec 2, vec 127]), (.vslide c1 .f32 true (some 64), [vec 1]),
    (.vslide c1 .f32 false none, [vec 1, .s 0])] : List (Instr × List Tok)), Fire base p.1 p.2 := fire (by decide +kernel)

theorem witness_VecReductions : (∀ p ∈ ([(.vred c1 .i32 .add, [vec 1]), (.vscan c1 .n16 .add, [vec 1]), (.vred c1 .f32 .min, [vec 1]), (.vred c1 .i32 .xor, [vec 1]),
    (.vscan c1 .f32 .add, [vec 1]), (.vdot c1 .f32, [vec 1, vec 2])] : List (Instr × List Tok)), Fire base p.1 p.2)
    ∧ Ty.f32.isLT = true ∧ Ty.f32.isFL = true ∧ Ty.i32.isInt = true ∧ 2 ^ 6 = laneCount 32 ∧ fsrEnables base.core.r = 0 := ⟨fire (by decide +kernel), by decide +kernel⟩

theorem witness_VecConversions : ∀ p ∈ ([(.vcvt c1 .i32 .i16, [vec 1]), (.vcvt c1 .i32 .f64, [vec 1]), (.vcvt c1 .f32 .n16, [vec 1]), (.vcvt c1 .f32 .bf16, [vec 1]), (.vpack c1 .i64 true, [vec 1, vec 2]),
    (.vpack c1 .n32 false, [vec 1, vec 2]), (.vunpk c1 .i16 true, [vec 1]), (.vqmx c1 .f32 .e2m1 true, [vec 1]), (.vqmx c1 .bf16 .e4m3 false, [vec 1]), (.vdqmx c1 .f16 .e5m2, [vec 1, vec 2]),
    (.vqt c1 .f32 .toT6, [vec 1])] : List (Instr × List Tok)), Fire base p.1 p.2 := fire (by decide +kernel)

/-! ## Memory instructions as they fire -/

theorem quiet_put (i : Instr) (l : List (Nat × Tok)) : Quiet (put base i l) (one i l) := ⟨rfl, rfl, rfl, rfl, rfl, rfl, rfl⟩

def lanesAt (w : Nat) (f : Nat → Nat) : List Nat := ((List.range (laneCount w)).filter fun j => laneOk w (BitVec.allOnes 128) j).map f

theorem inFootprint_of {c : Core} {n : Nat} {l : List Nat} (h : (l.all fun a => decide (a % n = 0 ∧ a + n ≤ c.footprint)) = true) : InFootprint c n l :=
  fun a ha => of_decide_eq_true (List.all_eq_true.mp h a ha)

/-- A load of LSID 1 above a store of LSID 0 that has not fired: the load waits. -/
def barred : Frame :=
  { Frame.fresh 0 0 0 0 0 [(encode (.st c0 .i32 m0 0)).getD 0, (encode (.ld c1 .i32 { m0 with lsid := 1 } 0)).getD 0] with slots := [(4, .s 0)], cur := 1 }

/-- Space 1 maps its page 0 by a leaf, frame 16 of die 0 with every right where it is 0x10001F; the tables stand at 0x1000 to 0x5000. -/
def word8 (a : Nat) (w : Word) (m : Memory) : Memory := mwrite m a (bytesOf 8 w.toNat)
def tablesOf (leaf : Word) : Memory := word8 0x1000 0x2001 (word8 0x2000 0x3001 (word8 0x3000 0x4001 (word8 0x4000 0x5001 (word8 0x5000 leaf []))))
def mappedPart : Part := { Part.reset with spaces := [0, 1], sppt := [(1, 0x1000)] }
def mappedBy (leaf : Word) : State := { base with mem := tablesOf leaf, parts := [mappedPart, Part.absent, Part.absent, Part.absent] }

theorem walk_here {s : State} {dies : BitVec 4} {va table level : Nat} {e : Word} (h : s.readWord (table + 8 * vaIndex level va) = e) :
    WalkMeets s dies va table level e level := h ▸ .here ..

theorem walk_next {s : State} {dies : BitVec 4} {va table level l : Nat} {e x : Word} {t : Nat} (h : s.readWord (table + 8 * vaIndex (level + 1) va) = x)
    (hx : x.getLsbD 0 = true ∧ x.getLsbD 1 = false ∧ badPointer dies (level + 1) x = false ∧ field x 39 8 * 256 = t)
    (w : WalkMeets s dies va t level e l) : WalkMeets s dies va table (level + 1) e l := by
  subst h
  obtain ⟨h0, h1, h2, h3⟩ := hx
  exact .next _ _ _ _ h0 h1 h2 (h3 ▸ w)

theorem mapped_walk (leaf : Word) (va : Nat) {e : Word}
    (h : let s := mappedBy leaf
      s.readWord (0x1000 + 8 * vaIndex 4 va) = 0x2001 ∧ s.readWord (0x2000 + 8 * vaIndex 3 va) = 0x3001 ∧ s.readWord (0x3000 + 8 * vaIndex 2 va) = 0x4001
      ∧ s.readWord (0x4000 + 8 * vaIndex 1 va) = 0x5001 ∧ s.readWord (0x5000 + 8 * vaIndex 0 va) = e) : WalkMeets (mappedBy leaf) 0xF va 0x1000 4 e 0 :=
  walk_next h.1 (by decide +kernel) (walk_next h.2.1 (by decide +kernel) (walk_next h.2.2.1 (by decide +kernel)
    (walk_next h.2.2.2.1 (by decide +kernel) (walk_here h.2.2.2.2))))

theorem mapped_of (leaf : Word) (va n : Nat)
    (h : let s := mappedBy leaf
      (s.readWord (0x1000 + 8 * vaIndex 4 va) = 0x2001 ∧ s.readWord (0x2000 + 8 * vaIndex 3 va) = 0x3001 ∧ s.readWord (0x3000 + 8 * vaIndex 2 va) = 0x4001
        ∧ s.readWord (0x4000 + 8 * vaIndex 1 va) = 0x5001 ∧ s.readWord (0x5000 + 8 * vaIndex 0 va) = leaf)
      ∧ (va % n = 0 ∧ va + n ≤ 2 ^ 57 ∧ leaf.getLsbD 0 = true ∧ leaf.getLsbD 1 = true ∧ badLeaf 0xF 0 0 leaf = false)
      ∧ s.partOfCore s.core.id = 0 ∧ (s.part 0).rootOk s.core.space = true ∧ field ((s.part 0).root s.core.space) 39 12 * 4096 = 0x1000) :
    Mapped (mappedBy leaf) va n leaf 0 := by
  obtain ⟨hw, ⟨h1, h2, h3, h4, h5⟩, hp, hr, hf⟩ := h
  refine ⟨h1, h2, rfl, rfl, rfl, rfl, ?_, ?_, h3, h4, ?_⟩ <;> rw [hp]
  · exact hr
  · rw [hf]
    exact mapped_walk leaf va hw
  · exact h5

def gl : MemF := mm .gl .task .rlx
def sb : MemF := mm .sb .task .rlx
/-- Die 0 gives the task's space a Hold window of 2 MiB. -/
def held : State := { base with dies := [{ Die.reset with sphold := [(1, 0x100)] }, Die.reset, Die.reset, Die.reset] }

/-- The last element, vector, stride and offsets of the footprint, a vector without a lane, every space; a load that waits for none, and one that
does. -/
theorem witness_LoadsFire :
    (∀ p ∈ ([(.ld c1 .i32 m0 0xFFFFC, [.s 65536]), (.vld c1 .f32 m0 0, [.s 65280]), (.vlds c1 .i16 m0 0, [.s 0, .s 512]), (.vgath c1 .f64 m0 0, [.s 65528, vec 0]),
      (.ld c1 .i32 (mm .sw .task .rlx) 0, [.s 65532]), (.ld c1 .i32 (mm .nb .task .rlx) 0, [.s 65532])]
      : List (Instr × List Tok)), Fire base p.1 p.2)
    ∧ firesB (.vld cM .f32 m0 0) (put base (.vld cM .f32 m0 0) [(0, .s 0), (3, .m 0)]) (one (.vld cM .f32 m0 0) [(0, .s 0), (3, .m 0)]) { a := .s 0, lm := 0 } = true
    ∧ (Unbarred (one (.ld c1 .i32 m0 0xFFFFC) []) 0 ∧ ¬Unbarred barred 1 ∧ barred.goesEarly 1 1 = false ∧ firesB (.ld c1 .i32 { m0 with lsid := 1 } 0)
        { base with core := { base.core with frame := some barred } } barred { a := .s 0 } = true)
    ∧ (OnChip base .sp 4 [65532] ∧ OnChip base .sp 4 (lanesAt 32 fun j => (65280 + j * 4) % 2 ^ 64) ∧ OnChip base .sp 2 (lanesAt 16 fun j => (0 + j * 512) % 2 ^ 64)
      ∧ OnChip base .sw 4 [65532] ∧ OnChip base .nb 4 [65532] ∧ OnChip held .sb 4 [0x1FFFFC])
    ∧ (∀ p ∈ ([(.ld c1 .i32 sb 0, [.s 0x1FFFFC])] : List (Instr × List Tok)), Fire held p.1 p.2)
    ∧ (∀ p ∈ ([(.ld c1 .i32 gl 0, [.s 65532])] : List (Instr × List Tok)), Fire (mappedBy 0x10001F) p.1 p.2) ∧ Mapped (mappedBy 0x10001F) 65532 4 0x10001F 0
    ∧ Quiet (mappedBy 0x10001F) (one (.ld c1 .i32 gl 0) []) ∧ field (0x10001F : Word) 7 6 = 0 :=
  ⟨fire (by decide +kernel), by decide +kernel, by unfold Unbarred; decide +kernel, by simp only [OnChip]; decide +kernel, fire (by decide +kernel), fire (by decide +kernel),
    mapped_of _ _ _ (by decide +kernel), ⟨rfl, rfl, rfl, rfl, rfl, rfl, rfl⟩, by decide +kernel⟩

/-- The last places of each space; and leaves of TYPE 00, 01 and 10. -/
theorem witness_StoresFire :
    (∀ p ∈ ([(.st c0 .i32 m0 0, [.s 65532, .s 7]), (.vst c0 .f32 m0 0, [.s 65280, vec 1]), (.vsts c0 .i16 m0 0, [.s 0, .s 512, vec 1]), (.vscat c0 .f64 m0 0, [.s 65528, vec 0, vec 1]),
      (.st c0 .i32 (mm .sw .task .rlx) 0, [.s 65532, .s 7]), (.st c0 .i32 (mm .nb .task .rlx) 0, [.s 65532, .s 7])]
      : List (Instr × List Tok)), Fire base p.1 p.2)
    ∧ base.guards = [] ∧ OnChip base .sp 4 [65532] ∧ OnChip base .sp 8 ((List.range 32).map fun _ => 65528)
    ∧ (∀ p ∈ ([(.st c0 .i32 sb 0, [.s 0x1FFFFC, .s 7])] : List (Instr × List Tok)), Fire held p.1 p.2)
    ∧ (∀ leaf ∈ [0x10001F, 0x000700000010005F, 0x000700000FFF009F], (∀ p ∈ ([(.st c0 .i32 gl 0, [.s 65532, .s 7])] : List (Instr × List Tok)), Fire (mappedBy leaf) p.1 p.2)
        ∧ Mapped (mappedBy leaf) 65532 4 leaf 0 ∧ leaf.getLsbD 3 = true) :=
  ⟨fire (by decide +kernel), rfl, by simp only [OnChip]; decide +kernel, by simp only [OnChip]; decide +kernel, fire (by decide +kernel), fun leaf hl => by
    simp only [List.mem_cons, List.not_mem_nil, or_false] at hl
    rcases hl with rfl | rfl | rfl <;> exact ⟨fire (by decide +kernel), mapped_of _ _ _ (by decide +kernel), by decide +kernel⟩⟩

/-- The root of space 1 lies on no die. -/
def unrooted : State := { base with parts := [{ mappedPart with sppt := [(1, 0xFFFFFFF000)] }, Part.absent, Part.absent, Part.absent] }

/-- One past each bound, an odd address, no root, an entry that is not valid, a malformed one, and a leaf without rights. -/
theorem witness_AccessFaults :
    (∀ p ∈ ([(.ld c1 .i32 m0 0, [.s 65536]), (.st c0 .i32 m0 0, [.s 65535, .s 0]), (.ld c1 .i32 sb 0, [.s 0]), (.ld c1 .i32 (mm .nb .task .rlx) 0, [.s 0x4000000]), (.ld c1 .i32 (mm .nb .task .rlx) 0, [.s 0x100000]),
      (.ld c1 .i32 (mm .nb .task .rlx) 0, [.s 65536]), (.ld c1 .i32 gl 0, [.s 0x200000000000000])] : List (Instr × List Tok)), Fire base p.1 p.2)
    ∧ (65535 % 4 ≠ 0 ∧ 65536 % 4 = 0 ∧ base.core.footprint < 65536 + 4 ∧ ((base.die 0).window 1).2 < 0 + 4 ∧ base.core.gsize ≤ 0x100000 / 2 ^ 20 ∧ (unrooted.part 0).rootOk 1 = false)
    ∧ (∀ p ∈ ([(.ld c1 .i32 gl 0, [.s 0])] : List (Instr × List Tok)), Fire unrooted p.1 p.2)
    ∧ (∀ leaf ∈ [0x10001F, 0x1000DF, 0x100013], ∀ p ∈ ([(.ld c1 .i32 gl 0, [.s 65532]), (.st c0 .i32 gl 0, [.s 65536, .s 0])] : List (Instr × List Tok)), Fire (mappedBy leaf) p.1 p.2)
    ∧ WalkMeets (mappedBy 0x10001F) 0xF 65536 0x1000 4 0 0 ∧ WalkMeets (mappedBy 0x1000DF) 0xF 65532 0x1000 4 0x1000DF 0 ∧ WalkMeets (mappedBy 0x100013) 0xF 65532 0x1000 4 0x100013 0
    ∧ badLeaf 0xF 0 0 0x1000DF = true ∧ badLeaf 0xF 0 0 0x100013 = false ∧ (0x100013 : Word).getLsbD 2 = false :=
  ⟨fire (by decide +kernel), by decide +kernel, fire (by decide +kernel), fun leaf hl => fire (by
      simp only [List.mem_cons, List.not_mem_nil, or_false] at hl
      rcases hl with rfl | rfl | rfl <;> decide +kernel),
    mapped_walk _ _ (by decide +kernel), mapped_walk _ _ (by decide +kernel), mapped_walk _ _ (by decide +kernel), by decide +kernel⟩

/-- TD0: a row of 64 .i32 elements at offset 0 of the scratchpad; TD1: sixteen rows of 16 .f32 elements there. -/
def tdRegs : Regs :=
  { Regs.zero with td := [(0, 1#1 ++ 2#5 ++ 1#3 ++ 0#1 ++ 1#2 ++ 0#8 ++ 64#20 ++ 0#20 ++ 0#4), (4, 1#1 ++ 10#5 ++ 1#3 ++ 0#1 ++ 2#2 ++ 0#8 ++ 16#20 ++ 16#20 ++ 0#4), (6, 16#26 ++ 0#38)] }

theorem witness_TensorSlices :
    let d := getTd tdRegs 0
    (∀ p ∈ ([(.tld c1 .i32 (mm .gl .task .rlx) 0, [.s 0, .s 32]), (.tst c0 .i32 (mm .gl .task .rlx) 0, [.s 0, .s 32, vec 1])] : List (Instr × List Tok)), Fire (withR tdRegs) p.1 p.2)
    ∧ tdOk d = true ∧ tdFmt d = .i32 ∧ tdSp d = .sp ∧ Quiet (withR tdRegs) (one (.vjoin c0 0) [])
    ∧ Unbarred (one (.tld c1 .i32 (mm .gl .task .rlx) 0) []) 0
    ∧ InFootprint base.core 4 (((List.range 64).filter fun j => inExtents d (32 + j) 0 0).map fun j => ((elemPieces d (32 + j) 0 0).map Piece.addr).headD 0) :=
  ⟨fire (by decide +kernel), by decide +kernel, by decide +kernel, by decide +kernel, ⟨rfl, rfl, rfl, rfl, rfl, rfl, rfl⟩, by unfold Unbarred; decide +kernel, inFootprint_of (by decide +kernel)⟩

/-- Each form; and a VJOIN and a FENCE of LSID 1 above a load of LSID 0 that has not fired. -/
theorem witness_PrefetchJoinFence : (∀ i ∈ [Instr.vjoin c0 1, .fence c0 .wr 1 .gang],
      let fr : Frame := { Frame.fresh 0 0 0 0 0 [(encode (.ld c1 .i32 m0 0)).getD 0, (encode i).getD 0] with cur := 1 }
      fr.loadsBelow 1 1 = true ∧ firesB i { base with core := { base.core with frame := some fr } } fr {} = true) ∧ ∀ p ∈ ([(.pref c0 true (mm .gl .task .rlx) 0, [.s 0xFFFFFFFFFFFFFFFF]), (.vjoin c0 31, []), (.fence c0 .wr 31 .gang, []), (.fence c0 .ww 31 .dom, [])]
    : List (Instr × List Tok)), Fire base p.1 p.2 := ⟨by decide +kernel, fire (by decide +kernel)⟩

/-- Core 0 has sent a store to endpoint 7 that is not acknowledged. -/
def farStore : Out :=
  { src := 0, dst := 7, tag := 9, num := 9, tk := none, pkt := { ph0 := 0, ph1 := 0, ph2 := 0, ph3 := 0, ph4 := 0, ph5 := 0, ph6 := 0, ph7 := 0, flits := 1, body := .memReq .store 64 1 [1] },
    sent := 0, resends := 0, held := false, core := 0 }
def unacked : State := { base with port := { Port.reset with unacked := [farStore] } }

/-- A FENCE.wr of gang scope waits for that store. -/
theorem witness_PrefetchJoinFence_waits : (∀ p ∈ ([(.fence c0 .wr 0 .gang, [])] : List (Instr × List Tok)), Fire unacked p.1 p.2) ∧ unacked.acksOf 0 = false :=
  ⟨fire (by decide +kernel), by decide +kernel⟩

theorem witness_AtomicsAndBankOps :
    (∀ p ∈ ([(.amo c1 .swap false true m0 0, [.s 65528, .s 1]), (.cas c1 false false m0 0, [.s 65532, .s 0, .s 1])] : List (Instr × List Tok)), Fire base p.1 p.2)
    ∧ InFootprint base.core 8 [65528] ∧ InFootprint base.core 4 [65532]
    ∧ (∀ p ∈ ([(.bkop c0 .add .i64 (mm .sb .task .rlx) 0, [.s 0x1FFFF8, .s 1]), (.bkop c0 .hist .n32 (mm .sb .task .rlx) 0, [.s 0, .s 0x7FFFF])] : List (Instr × List Tok)), Fire held p.1 p.2)
    ∧ (held.die (dieOfCore held.core.id)).window held.core.space = (0, 0x200000) :=
  ⟨fire (by decide +kernel), inFootprint_of (by decide +kernel), inFootprint_of (by decide +kernel), fire (by decide +kernel), by decide +kernel⟩

/-! ## Synchronisation as it fires -/

/-- Core 0 has arrived at barrier 447 in the current phase. -/
def waiting : State := { base with core := { base.core with barRec := [(447, 0)] } }

/-- A domain barrier of two members at endpoint 0, one of them the task of core 0. -/
def dbar : DBar :=
  { bar := 448, home := 0, dbto := 1, members := [(0, 1, 0, 0), (0, 1, 0, 1)], arrivals := [0], phase := 0, absent := [], retired := [], counted := 0, since := some 0, fired := false }
def domained : State := { waiting with dbars := [dbar], core := { base.core with barRec := [(448, 0)] } }

theorem witness_BarriersFire :
    (∀ p ∈ ([(.barInit c1 0 447, [.s 1]), (.barInit c1 0 447, [.s 65535]), (.barInit c1 0 447, [.s 0]), (.barInit c1 0 447, [.s 65536]), (.barArrive c1 0 447, []), (.barWait c1 0 447, []),
      (.barSync c1 0 447, [])] : List (Instr × List Tok)), Fire base p.1 p.2)
    ∧ (∀ p ∈ ([(.barWait c1 0 447, [])] : List (Instr × List Tok)), Fire waiting p.1 p.2)
    ∧ lookup 447 base.core.barRec = none ∧ lookup 447 waiting.core.barRec = some 0 ∧ (barOf (waiting.coreAt (waiting.core.member 0)) 447).phase = 0
    ∧ (one (.barSync c1 0 447) []).arrived.getLsbD 0 = false ∧ base.acksOf base.core.id = true ∧ unacked.acksOf unacked.core.id = false
    ∧ (∀ p ∈ ([(.barSync c1 0 447, [])] : List (Instr × List Tok)), Fire unacked p.1 p.2)
    ∧ (∀ p ∈ ([(.barArrive c1 0 448, []), (.barWait c1 0 448, []), (.barSync c1 0 448, []), (.barInit c1 0 448, [.s 1]), (.barWait c1 0 511, [])] : List (Instr × List Tok)), Fire domained p.1 p.2)
    ∧ domained.domainBar domained.core 448 = some (dbar, 0) ∧ domained.domainBar domained.core 511 = none :=
  ⟨fire (by decide +kernel), fire (by decide +kernel), by decide +kernel, by decide +kernel, by decide +kernel, by decide +kernel, by decide +kernel, by decide +kernel,
    fire (by decide +kernel), fire (by decide +kernel), by decide +kernel⟩

theorem witness_CountersFire :
    (∀ p ∈ ([(.ctrInc c0 0 true 31, []), (.ctrAdd c0 0 false false 31, [.s 1]), (.ctrAdd c0 0 false true 31, [.s 1]), (.ctrAdd c0 0 false true 31, [.s 0x1000000000000]),
      (.ctrSet c0 0 false 31, [.s 1]), (.ctrReset c0 0 false 31, []), (.ctrResetKeep c0 0 false 31, []), (.ctrwait c1 0 .gang 31, [.s 0]), (.ctrwait c1 0 .task 31, [.s 1])]
      : List (Instr × List Tok)), Fire base p.1 p.2)
    ∧ field (1 : Word) 53 48 < base.core.gsize ∧ base.core.gsize ≤ field (0x1000000000000 : Word) 53 48
    ∧ 0 ≤ (cget base.core.r.k 31 - (0 : BitVec 32)).toInt ∧ (cget base.core.r.k 31 - (1 : BitVec 32)).toInt < 0 :=
  ⟨fire (by decide +kernel), by decide +kernel⟩

/-- Handle 15: own, both roles bound, two slots of 64 bytes, one of them filled. -/
def chanRegs : Regs :=
  { Regs.zero with ch := [(15, { own := true, pb := 1, cb := 1, orank := 0, och := 0, base := 0, size := 1, slots := 2, p := 1, c := 0 })] }

theorem witness_ChannelsFire :
    let y : Chan := { own := true, pb := 1, cb := 1, orank := 0, och := 0, base := 0, size := 1, slots := 2, p := 1, c := 0 }
    (∀ p ∈ ([(.chbindOwn c0 14, [.s 0, .s 0x10001]), (.chbindProd c0 14, [.s 0, .s 0]), (.chbindCons c0 14, [.s 0, .s 0]), (.chbindOwn c0 15, [.s 0, .s 0x10001]), (.chadv c0 true 15, [.s 1]),
      (.chwait c1 true 15, [.s 1]), (.chwait c1 true 15, [.s 2]), (.chwait c1 false 15, [.s 3])] : List (Instr × List Tok)), Fire (withR chanRegs) p.1 p.2)
    ∧ (withR chanRegs).chbindCheck (withR chanRegs).core .own 14 0 0x10001 = none ∧ ((withR chanRegs).chbindCheck (withR chanRegs).core .own 15 0 0x10001).isSome = true
    ∧ chanOf (withR chanRegs).core 15 = some y ∧ (y.p - y.c).toNat = 1 :=
  ⟨fire (by decide +kernel), by decide +kernel⟩

/-- Handle 14 is a member's, the producer role of the channel that handle 15 of rank 0 owns; handle 13 is unbound. -/
def memberRegs : Regs :=
  { Regs.zero with ch := [(14, { own := false, pb := 2, cb := 0, orank := 0, och := 15, base := 0, size := 0, slots := 0, p := 0, c := 0 }),
                          (15, { own := true, pb := 2, cb := 1, orank := 0, och := 0, base := 0, size := 1, slots := 2, p := 1, c := 0 })] }

theorem witness_ChannelsFire_member :
    let s := withR memberRegs
    let y : Chan := { own := true, pb := 2, cb := 1, orank := 0, och := 0, base := 0, size := 1, slots := 2, p := 1, c := 0 }
    (∀ p ∈ ([(.chwait c1 true 14, [.s 1]), (.chwait c1 true 14, [.s 2]), (.chadv c0 true 14, [.s 1]), (.chwait c1 false 14, [.s 0]), (.chwait c1 true 13, [.s 0])] : List (Instr × List Tok)), Fire s p.1 p.2)
    ∧ (chanOf s.core 14).map Chan.own = some false ∧ s.core.member 0 = 0 ∧ chanOf (s.coreAt 0) 15 = some y ∧ chanOf s.core 13 = none
    ∧ (goes (.chwait c1 true 14) (put s (.chwait c1 true 14) [(0, .s 1)]) fun t => (t.core.frame.bind fun fr => fr.slot 9 .b) == some (.s 64)) = true :=
  ⟨fire (by decide +kernel), by decide +kernel⟩

/-- A COPY ticket of serial 0 that is DONE, one of serial 1 that is pending, one of serial 2 CANCELLED. -/
def ticketed : State :=
  withE { Eng.zero with tickets := [{ tk := ⟨1, 0⟩, st := 0x4000000000000000, wide := false }, { tk := ⟨1, 1⟩, st := 0 }, { tk := ⟨1, 2⟩, st := 0xC000000000000000 }] }

theorem witness_TicketWaits :
    (∀ p ∈ ([(.copyw c1, [.s 0x100000]), (.copyw c1, [.s 0x100001]), (.copywTest c1, [.s 0x100001]), (.copywTest c1, [.s 0x100002]), (.mwait c1, [.s 0x100000]), (.mwaitTest c1, [.s 0x200000]),
      (.collw c1, [.s 0x400000]), (.collwTest c1, [.s 1])] : List (Instr × List Tok)), Fire ticketed p.1 p.2)
    ∧ (∀ y ∈ ticketed.core.e.tickets, y.mmt = false)
    ∧ ticketOf 0x100000 = some ⟨1, 0⟩ ∧ ticketed.core.e.status ⟨1, 0⟩ = some 0x4000000000000000 ∧ ticketed.core.e.status ⟨1, 1⟩ = some 0 ∧ ticketed.core.e.status ⟨1, 2⟩ = some 0xC000000000000000
    ∧ ticketed.core.e.status ⟨2, 0⟩ = none ∧ ticketed.core.e.status ⟨4, 0⟩ = none ∧ fsrEnables ticketed.core.r = 0 :=
  ⟨fire (by decide +kernel), by decide +kernel⟩

/-! ## Commands, registers, tiles and signatures as they fire -/

def o0 : CmdOpt := ⟨none, false⟩

theorem witness_CommandsTakeTickets :
    (∀ p ∈ ([(.copy c1 0 1 o0, []), (.copyCh c1 0 1 15 o0, []), (.mzero c1 7 o0, []), (.mma c1 true 0 1 7 o0, []), (.mmag c1 false 0 1 7 o0, []), (.gmma c1 0 1 2 7 o0, []),
      (.sigstrm c1 0 3 o0, []), (.rgrp c1 0 1 2 o0, []), (.rtopk c1 0 1 2 o0, []), (.rbin c1 0 1 2 o0, []), (.bpermRequest c1 0 1 2 o0, []), (.bpermOpen c1 0 1 2 o0, []), (.dspat c1 0 1 2 o0, []),
      (.cmbn c1 0 1 2 o0, []), (.brel c1 2 o0, []), (.expld c1 0 1 2 o0, []), (.collAr c1 0 1 2 o0, []), (.collRs c1 0 1 2 o0, []), (.collAg c1 0 1 2 o0, []), (.collA2a c1 0 1 2 o0, []),
      (.collBc c1 0 1 2 o0, []), (.collOp c1 0 1 2 o0, []), (.spawn c1 o0, [.s 0x1FFFFFFFFFFFFC0])] : List (Instr × List Tok)), Fire base p.1 p.2)
    ∧ (∀ p ∈ ([(.glaunch c1 o0, [.s 64])] : List (Instr × List Tok)), Fire State.reset p.1 p.2)
    ∧ 7 < base.core.acc ∧ field (0x1FFFFFFFFFFFFC0 : Word) 5 0 = 0 ∧ field (0x1FFFFFFFFFFFFC0 : Word) 63 57 = 0 :=
  ⟨fire (by decide +kernel), fire (by decide +kernel), by decide +kernel⟩

/-- As `base` with seven tiles, and with sixteen entries armed. -/
def fewTiles : State := { base with core := { base.core with task := some { job with desc := { l5 := 16 + 7 * 512 } } } }
def armed16 : State := withE { Eng.zero with armed := List.replicate 16 { k := 0, th := 1, cmd := { word := 0, tk := ⟨1, 0⟩, svr := false }, upto := 0 } }

theorem witness_CommandFaultsArmAndTrap :
    (∀ p ∈ ([(.spawn c1 o0, [.s 1]), (.spawn c1 o0, [.s 0x200000000000000]), (.arm c1 true 31, [.s 0x100000, .s 1]), (.trap c0 0x1FFF, [])] : List (Instr × List Tok)), Fire base p.1 p.2)
    ∧ (∀ p ∈ ([(.mzero c1 7 o0, [])] : List (Instr × List Tok)), Fire fewTiles p.1 p.2) ∧ (∀ p ∈ ([(.arm c1 true 31, [.s 0x100000, .s 1])] : List (Instr × List Tok)), Fire armed16 p.1 p.2)
    ∧ fewTiles.core.acc ≤ 7 ∧ base.core.e.armed.length < 16 ∧ 16 ≤ armed16.core.e.armed.length ∧ ticketOf 0x100000 = some ⟨1, 0⟩
    ∧ field (1 : Word) 5 0 ≠ 0 ∧ field (0x200000000000000 : Word) 5 0 = 0 ∧ field (0x200000000000000 : Word) 63 57 ≠ 0 :=
  ⟨fire (by decide +kernel), fire (by decide +kernel), fire (by decide +kernel), by decide +kernel⟩

theorem witness_RegisterWritesPend : ∀ p ∈ ([(.write c0 .g 0, [.s 1]), (.write c0 .v 63, [vec 1]), (.write c0 .fsr 0, [.s 1]), (.ptb c0 3, [.s 1]), (.tdset c0 63 3, [.s 1])] : List (Instr × List Tok)),
    Fire base p.1 p.2 := fire (by decide +kernel)

theorem witness_TileRows :
    let d := getTd tdRegs 1
    let live := (rowElems 0).filter fun p => inExtents d (tdCol0 d + p.2) (tdRow0 d + p.1) 0
    (∀ p ∈ ([(.mlda c0 0 .task false 1 7, [.s 0]), (.msta c0 0 .task 1 7, [.s 0])] : List (Instr × List Tok)), Fire (withR tdRegs) p.1 p.2)
    ∧ Quiet (withR tdRegs) (one (.msta c0 0 .task 1 7) []) ∧ Unbarred (one (.msta c0 0 .task 1 7) []) 0 ∧ fsrEnables tdRegs = 0
    ∧ rowsCheck base.core d 7 0 = none ∧ tdSp d = .sp ∧ tdSoff d = 0 ∧ 8 ≤ (tdFmt d).width ∧ base.core.e.busyTiles.getLsbD 7 = false
    ∧ InFootprint base.core 4 (live.map fun p => ((elemPieces d (tdCol0 d + p.2) (tdRow0 d + p.1) 0).map Piece.addr).headD 0) :=
  ⟨fire (by decide +kernel), ⟨rfl, rfl, rfl, rfl, rfl, rfl, rfl⟩, by unfold Unbarred; decide +kernel, by decide +kernel, by decide +kernel, by decide +kernel, by decide +kernel,
    by decide +kernel, by decide +kernel, inFootprint_of (by decide +kernel)⟩

/-- S0 to S2 hold signatures of d = 1 and N = 1. -/
def sigRegs : Regs :=
  let w : BitVec 32 := 0x84080002
  { Regs.zero with sig := [(0, w), (1, w), (2, w)] }

theorem witness_SignaturesFire :
    (∀ p ∈ ([(.sigcfg c0 3, [.s 1, .s 1]), (.sigcfg c0 0, [.s 64, .s 2]), (.sigid c0 0, []), (.sigstep c0 0, [vec 1]), (.sigscl c0 0, [.s 0x3F800000]), (.sigmovCv c1 0, [.s 1]), (.sigmovVc c0 0, [.s 1, vec 1]),
      (.sigmovSs c0 0, [.s 65528]), (.sigmovSl c0 0, [.s 65528]), (.siglog c0 0 1, []), (.sigexp c0 0 1, []), (.siginv c0 0 1, []), (.sigjoin c0 0 1 2, [])] : List (Instr × List Tok)), Fire (withR sigRegs) p.1 p.2)
    ∧ (∀ k ∈ [0, 1, 2], let c := cget sigRegs.sig k
        c.getLsbD 31 = true ∧ c.getLsbD 30 = false ∧ 2 * k < base.core.acc ∧ sgD c = 1 ∧ sgN c = 1 ∧ c.toNat % 2 ^ 16 = 2)
    ∧ base.core.e.busyTiles = 0 ∧ 65528 + 4 * 2 ≤ base.core.footprint :=
  ⟨fire (by decide +kernel), by decide +kernel⟩

/-! ## System instructions, privilege, and what a firing leaves alone -/

theorem witness_SystemInstructions :
    (∀ p ∈ ([(.psrWrite c0 0x030, [.s 1]), (.psrWrite c0 0x1FFF, [.s 1]), (.spctlWrite c0, [.s 1]), (.spholdWrite c0, [.s 1]), (.spptWrite c0, [.s 1]), (.qwdWrite c0, [.s 1]), (.contextAreaWrite c0 false, [.s 1]),
      (.contextAreaWrite c0 true, [.s 1]), (.dbgctlWrite c0, [.s 1]), (.tresume c0, [.s 0, .s 0]), (.tresumeSame c0, [.s 0]), (.tlbinvAll c0, []), (.tlbinvPage c0, [.s 0]), (.tlbinvSpace c0, [.s 0]),
      (.ctxopSave c0, [.s 0, .s 0]), (.ctxopRestore c0, [.s 0, .s 0]), (.ctxopKill c0, [.s 0]), (.budgetSet c0, [.s 0, .s 0]), (.budgetAdd c0, [.s 0, .s 0]), (.halt c0, []), (.dbgStep c0, [.s 0]),
      (.dbgBrk c0, [.s 0, .s 0]), (.dbgClrbrk c0, [.s 0]), (.cacheL1inv c0, [.s 0]), (.cacheIcinv c0, [.s 0]), (.cacheL2wb c0, [.s 0])] : List (Instr × List Tok)), Fire State.reset p.1 p.2)
    ∧ isSystem (.halt c0) = true ∧ base.core.id < 1024 ∧ notOnSupervisor (.mwait c1) = true ∧ 1024 ≤ State.reset.core.id
    ∧ (one (.halt c0) []).fired.getLsbD 0 = false ∧ (one (.mwait c1) [(0, .s 0)]).slot 0 .a = some (.s 0) :=
  ⟨fire (by decide +kernel), by decide +kernel⟩

theorem witness_FiringFrame : (ctlOf (.addi c1 true 5)).isSome = true ∧ Reach (put base (.addi c1 true 5) [(0, .s 7)]) (.addi c1 true 5) fun t =>
    (t.core.frame.bind fun fr => fr.slot 9 .b) == some (.s 12) := ⟨by decide, reach_of (by decide +kernel)⟩

/-! ## Blocks -/

/-- The words of a block of one CONST without a target and a leaf 0 of a kind: header words 0 to 3 and the instruction. -/
def blockWords (kind : BitVec 3) : List Word :=
  [0xD#4 ++ 1#2 ++ 1#7 ++ 0#51, 0#40 ++ kind ++ 0#21, 0, 0, wI 0x05 0 0 0 0 7]

/-- The supervisor core of die 0 with that block at offset 0 of its scratchpad. -/
def loaded : State := { State.reset with mem := mwrite [] (spKey 1024 0) ((blockWords 3).flatMap fun w => bytesOf 8 w.toNat) }

/-- A repeat block on L2, whose count is 0, that leaves by a sequential leaf 1. -/
def emptyLoop : Frame :=
  Frame.fresh 0 (0xD#4 ++ 1#2 ++ 1#7 ++ 0#3 ++ 0#1 ++ 1#1 ++ 2#2 ++ 0#44) (0#43 ++ 5#3 ++ 0#9 ++ 1#3 ++ 0#6) 0 0 [wI 0x05 0 0 0 0 7]

theorem witness_BlockFetchStarts :
    (base.core.st = .running ∧ base.core.frame = none ∧ base.heldBySup 0 = false ∧ base.core.killed = false ∧ base.core.r.bgt = 0)
    ∧ (let s : State := { withR { Regs.zero with bgt := 1 } with core := { base.core with r := { Regs.zero with bgt := 1 }, pc := 31 } }
       s.core.r.bgt ≠ 0 ∧ s.core.trapDue = none ∧ s.core.stepDue = none ∧ s.core.brk = [] ∧ s.core.preempt = none ∧ s.core.pc.toNat % 32 ≠ 0 ∧ s.core.spec = [] ∧ s.tokensOut s.core = false)
    ∧ (let f := Frame.fresh 0 ((blockWords 3).getD 0 0) ((blockWords 3).getD 1 0) 0 0 [(blockWords 3).getD 4 0]
       let s : State := { base with core := { base.core with spec := [(0, some f)] } }
       s.core.spec = [(s.core.pc, some f)] ∧ blockOk f.h0 f.h1 f.h2 f.h3 f.words = true ∧ hRp f.h0 = false)
    ∧ (let s : State := { withR { Regs.zero with bgt := 2 } with core := { base.core with r := { Regs.zero with bgt := 2 }, spec := [(0, some emptyLoop)], trapDue := some 7 } }
       s.core.r.bgt ≠ 0 ∧ s.core.trapDue = some 7 ∧ s.core.spec = [(s.core.pc, some emptyLoop)] ∧ blockOk emptyLoop.h0 emptyLoop.h1 emptyLoop.h2 emptyLoop.h3 emptyLoop.words = true
       ∧ hRp emptyLoop.h0 = true ∧ s.core.inRepeat = false ∧ cget s.core.r.l (hLr emptyLoop.h0) = 0 ∧ emptyLoop.effs = [] ∧ s.core.stepPend = false ∧ hKind emptyLoop.h1 (hZl emptyLoop.h1) = 5)
    ∧ (let s := put base (.vjoin c0 0) []; s.core.frame = some (one (.vjoin c0 0) []) ∧ s.core.spec.length < 3)
    ∧ (let s := loaded
       let word (k : Nat) : Word := s.readWord (spKey 1024 (8 * k))
       s.core.st = .running ∧ s.core.frame = none ∧ s.core.trapDue = none ∧ s.core.stepDue = none ∧ s.core.entry = [] ∧ s.core.preempt = none ∧ s.core.icache = [] ∧ s.core.tmpl = none ∧ s.badGran = [] ∧ s.softGran = [] ∧ s.core.pc = 0 ∧ hNi (word 0) = 1
       ∧ blockOk (word 0) (word 1) (word 2) (word 3) [word 4] = true ∧ hRp (word 0) = false)
    ∧ headerOk (State.reset.readWord (spKey 1024 0)) 0 0 0 = false := by decide +kernel

theorem test_fetch_starts_block : Reach loaded (.blockFetch none) fun t =>
    (t.core.frame == some (Frame.fresh 0 ((blockWords 3).getD 0 0) ((blockWords 3).getD 1 0) 0 0 [wI 0x05 0 0 0 0 7])) = true := reach_of (by decide +kernel)

/-- A fault of the frame's one instruction, not yet a trap. -/
def failedFrame : Frame := { one (.ld c1 .i32 m0 0) [] with fired := 1, faults := [{ idx := 0, lsid := some 0, cause := cAlign, addr := 1, acc := 0 }] }
def failed : State := { base with core := { base.core with frame := some failedFrame } }
/-- A trap record of core 0 waits at the ring of die 0's supervisor; and a ring that is full. -/
def trapped : State := { base with dies := [{ Die.reset with trapq := [(0, List.replicate 7 1)] }, Die.reset, Die.reset, Die.reset] }
def fullRing : State := { trapped with mem := mwrite [] (spKey 1024 0xF0000) (bytesOf 8 1023) }

theorem witness_BlockEndsWithoutCommit :
    (let fr := one (.vjoin c0 0) []; fr.leaf = none ∧ hNt fr.h0 = 0)
    ∧ (let fr : Frame := { one (.vjoin c0 0) [] with h0 := 0x0001000000000000, h1 := 0x0240000000000000, slots := [(4 * 127, .s 1)] }; fr.chosen.isSome = true)
    ∧ (failed.core.st = .running ∧ failed.core.frame = some failedFrame ∧ failed.core.id < 1024 ∧ failed.dies.length = 4 ∧ failedFrame.issuing = false ∧ failedFrame.bound = false
        ∧ nextReady failedFrame = none ∧ failed.satisfied failedFrame = none ∧ failedFrame.underWay = false ∧ failed.heldBySup failed.core.id = false ∧ failedFrame.watch = [] ∧ failedFrame.faults.length = 1)
    ∧ ((trapped.die 0).trapq = [(0, List.replicate 7 1)] ∧ Memory.wf trapped.mem = true ∧ trapped.readWord (spKey 1024 0xF0000) - trapped.readWord (spKey 1024 0xF0008) ≠ 1023 ∧ trapped.badGran = [] ∧ trapped.softGran = [])
    ∧ ((fullRing.die 0).trapq = [(0, List.replicate 7 1)] ∧ Memory.wf fullRing.mem = true ∧ fullRing.readWord (spKey 1024 0xF0000) - fullRing.readWord (spKey 1024 0xF0008) = 1023) := by
  decide +kernel

/-- A block of one AMO.add at the end of the scratchpad, checked and fired; its target is index 9, slot B. -/
def atomFrame : Frame :=
  { one (.amo c1 .add false true m0 0) [(0, .s 65528), (1, .s 5)] with
    fired := 1, effs := [(0, .atomic 0 (.here (spKey 0 65528)) (.amo .add) true false 5 .linear 65528)] }
def atomic : State := { base with core := { base.core with frame := some atomFrame }, mem := mwrite [] (spKey 0 65528) (bytesOf 8 (2 ^ 64 - 1)) }

/-- An atomic that releases waits, bound, while the task's store to endpoint 7 is not acknowledged. -/
theorem witness_BindingPerforms_waits :
    let i : Instr := .amo c1 .add false true (mm .sp .gang .rel) 0
    let fr : Frame := { atomFrame with words := [(encode i).getD 0] }
    let s : State := { unacked with core := { base.core with frame := some fr } }
    fr.bindReady = true ∧ fr.instr 0 = some i ∧ ((memfOf i).any fun x => x.ord.isRel && x.sc != .task) = true ∧ s.acksOf s.core.id = false := by decide +kernel

theorem witness_BindingPerforms :
    (atomic.core.st = .running ∧ atomFrame.performed = false ∧ atomFrame.faults = [] ∧ atomFrame.bindReady = true ∧ atomFrame.bound = false ∧ atomFrame.watch = [] ∧ atomic.guards = [] ∧ atomic.badGran = [] ∧ atomic.softGran = [] ∧ atomic.heldBySup 0 = false
      ∧ atomFrame.instr 0 = some (.amo c1 .add false true m0 0) ∧ atomic.core.view = [] ∧ atomic.migs = [] ∧ Memory.wf atomic.mem = true)
    ∧ Reach atomic .bindingPoint fun t => (t.readNat (spKey 0 65528) 8 == 4 && (t.core.frame.bind fun fr => fr.slot 9 .b) == some (.s 0xFFFFFFFFFFFFFFFF)) = true :=
  ⟨by decide +kernel, reach_of (by decide +kernel)⟩

/-- A block of one CONST, fired, whose leaf is of a kind; with effects. -/
def doneFrame (kind : BitVec 3) (effs : List (Nat × Effect)) : Frame :=
  { Frame.fresh 64 ((blockWords kind).getD 0 0) ((blockWords kind).getD 1 0) 0 0 [(blockWords kind).getD 4 0] with fired := 1, leaf := some 0, effs := effs }
def done (kind : BitVec 3) (bgt : BitVec 32) (effs : List (Nat × Effect)) : State :=
  { base with core := { base.core with frame := some (doneFrame kind effs), r := { Regs.zero with bgt := bgt } } }

def commitsB (s : State) (fr : Frame) : Bool :=
  s.core.st == .running && s.core.frame == some fr && fr.leaf.isSome && fr.allFired && fr.faults.isEmpty && !fr.holdsAtomic && !fr.bound && !fr.performed && !fr.issuing
  && !fr.toCheck && fr.watch.isEmpty && (s.guardFaults fr).isEmpty && s.acksOf s.core.id && !s.heldBySup s.core.id && !s.core.killed && !s.core.stepPend

theorem commits_of {s : State} {fr : Frame} (h : commitsB s fr = true) : Commits s fr := by
  simp only [commitsB, Bool.and_eq_true, Bool.not_eq_true', beq_iff_eq, List.isEmpty_iff] at h
  obtain ⟨⟨⟨⟨⟨⟨⟨⟨⟨⟨⟨⟨⟨⟨⟨h1, h2⟩, h3⟩, h4⟩, h5⟩, h6⟩, h7⟩, h8⟩, h9⟩, h10⟩, h11⟩, h12⟩, h13⟩, h14⟩, h15⟩, h16⟩ := h
  exact ⟨h1, h2, h3, h4, h5, h6, h7, h8, h9, h10, h11, h12, .inl h13, h14, h15, h16⟩

/-- The repeat block above, fired, with a count in L2. -/
def loopFrame : Frame := { emptyLoop with fired := 1, leaf := some 0 }
def looping (n : BitVec 32) : State := { base with core := { base.core with frame := some loopFrame, r := { Regs.zero with bgt := 7, l := [(2, n)] } } }

/-- The supervisor core of die 0 resumes task 0, which stands stopped. -/
def resumer : Frame :=
  { Frame.fresh 0 ((blockWords 5).getD 0 0) ((blockWords 5).getD 1 0) 0 0 [(encode (.tresume c0)).getD 0] with
    fired := 1, leaf := some 0, effs := [(0, .sys (.tresume 0 64))], checked := true }
def resuming : State :=
  { State.reset with core := { State.reset.core with frame := some resumer }, parked := [{ base.core with st := .stopped, stop := some [] }] }

/-- Each kind of leaf, a budget that runs out, and each pending effect of the statement. -/
theorem witness_BlockCommits :
    (∀ p ∈ [(done 0 1 [], doneFrame 0 []), (done 2 7 [], doneFrame 2 []), (done 3 7 [], doneFrame 3 []), (done 4 7 [], doneFrame 4 []), (done 4 1 [], doneFrame 4 []),
      (done 5 7 [(0, .write .g 127 (.s 9))], doneFrame 5 [(0, .write .g 127 (.s 9))]),
      (done 5 7 [(0, .store 0 .linear [{ key := spKey 0 0, val := 9 }] [0])], doneFrame 5 [(0, .store 0 .linear [{ key := spKey 0 0, val := 9 }] [0])]),
      (done 5 7 [(0, .ctr 0 .inc 31 1 none)], doneFrame 5 [(0, .ctr 0 .inc 31 1 none)]), (looping 2, loopFrame), (looping 1, loopFrame),
      (done 5 7 [(0, .cmd (wA 0x72 0 0 0 0 0 0 7 0 0 0) ⟨2, 0⟩ 0)], doneFrame 5 [(0, .cmd (wA 0x72 0 0 0 0 0 0 7 0 0 0) ⟨2, 0⟩ 0)]), (resuming, resumer)], Commits p.1 p.2)
    ∧ feedsArm (doneFrame 5 [(0, .cmd (wA 0x72 0 0 0 0 0 0 7 0 0 0) ⟨2, 0⟩ 0)]) 0 = false ∧ field (wA 0x72 0 0 0 0 0 0 7 0 0 0) 63 56 = 0x72
    ∧ Cells.wf (done 5 7 []).core.r.k = true ∧ hRp loopFrame.h0 = true
    ∧ 1024 ≤ resuming.core.id ∧ resuming.handle 0 0 = some 0 ∧ (resuming.coreAt 0).st = .stopped := by
  refine ⟨fun p hp => commits_of ?_, by decide +kernel⟩
  have h : ([(done 0 1 [], doneFrame 0 []), (done 2 7 [], doneFrame 2 []), (done 3 7 [], doneFrame 3 []), (done 4 7 [], doneFrame 4 []), (done 4 1 [], doneFrame 4 []),
      (done 5 7 [(0, .write .g 127 (.s 9))], doneFrame 5 [(0, .write .g 127 (.s 9))]),
      (done 5 7 [(0, .store 0 .linear [{ key := spKey 0 0, val := 9 }] [0])], doneFrame 5 [(0, .store 0 .linear [{ key := spKey 0 0, val := 9 }] [0])]),
      (done 5 7 [(0, .ctr 0 .inc 31 1 none)], doneFrame 5 [(0, .ctr 0 .inc 31 1 none)]), (looping 2, loopFrame), (looping 1, loopFrame),
      (done 5 7 [(0, .cmd (wA 0x72 0 0 0 0 0 0 7 0 0 0) ⟨2, 0⟩ 0)], doneFrame 5 [(0, .cmd (wA 0x72 0 0 0 0 0 0 7 0 0 0) ⟨2, 0⟩ 0)]), (resuming, resumer)]
      : List (State × Frame)).all (fun p => commitsB p.1 p.2) = true := by decide +kernel
  exact List.all_eq_true.mp h p hp

/-- R56: the count goes down and the block runs again, and at 0 it leaves by ZL. -/
theorem test_repeat_block : Reach (looping 2) .blockCommit fun t => (t.core.pc == 0 && cget t.core.r.l 2 == 1 && t.core.inRepeat) = true :=
  reach_of (by decide +kernel)
theorem test_repeat_exit : Reach (looping 1) .blockCommit fun t => (t.core.pc == 64 && cget t.core.r.l 2 == 0 && !t.core.inRepeat) = true :=
  reach_of (by decide +kernel)
theorem test_resume_commits : Reach resuming .blockCommit fun t => ((t.coreAt 0).st == .running && (t.coreAt 0).pc == 64 && (t.coreAt 0).stop == none) = true :=
  reach_of (by decide +kernel)

theorem test_commit_branch_and_budget : Reach (done 0 1 []) .blockCommit fun t =>
    (t.core.pc == 64 && t.core.st == .stopped && t.core.committed == 1 && t.core.r.bgt == 0) = true := reach_of (by decide +kernel)
theorem test_commit_write : Reach (done 5 7 [(0, .write .g 127 (.s 9))]) .blockCommit fun t =>
    (getG t.core.r 127 == 9 && t.core.pc == 128 && t.core.r.bgt == 6 && t.core.st == .running) = true := reach_of (by decide +kernel)

/-! ## Events of the current core and of its engines -/

def gang2 (cores : List Nat) : Gang :=
  { id := 2, launch := 1, queue := 0, part := 0, space := 1, desc := { l0 := 0, l5 := 16 + 8 * 512 }, gidx := 0, die := 0, cores := cores, since := 0, time := 0, stages := 0,
    request := none, area := [], target := [], due := 0 }

/-- The task of core 0 has ended, and it is its gang's only one. -/
def ended : State := { base with core := { base.core with st := .ended }, gangs := [gang2 [0]] }

theorem witness_CoreEvents :
    (let fr : Frame := { one (.ctrwait c1 0 .gang 31) [(0, .s 0)] with waiting := 1 }
     let s : State := { base with core := { base.core with frame := some fr } }
     s.core.st = .running ∧ s.core.frame = some fr ∧ fr.waiting.getLsbD 0 = true ∧ decode (fr.words.getD 0 0) = .ok (.ctrwait c1 0 .gang 31) ∧ 0 < fr.words.length
     ∧ firesB (.ctrwait c1 0 .gang 31) s fr { a := .s 0 } = true ∧ 0 ≤ (cget s.core.r.k 31 - (0 : BitVec 32)).toInt)
    ∧ (ended.core.st = .ended ∧ ended.core.e.cmds = [] ∧ ended.core.e.fired = [] ∧ ended.core.id < 1024 ∧ ended.core.task = some job ∧ ended.gangAt job.gang = some (gang2 [0])
      ∧ (gang2 [0]).ranks = [0] ∧ ended.queues = [] ∧ ended.saved = [] ∧ ended.core.killed = false ∧ ended.quietPort 0 = true)
    ∧ ({ unacked with core := ended.core }).quietPort 0 = false
    ∧ (let zero : Armed := { k := 0, th := 1, cmd := { word := wA 0x72 0 0 0 0 0 0 7 0 0 1, tk := ⟨2, 0⟩, svr := false }, upto := 10 }
       let coll : Armed := { k := 0, th := 1, cmd := { word := wA 0x87 0 0 0 0 0 0 0 0 0 1, tk := ⟨5, 0⟩, svr := false }, upto := 10 }
       zero.cmd.releases = false ∧ zero.cmd.op = 0x72 ∧ (withE { Eng.zero with fired := [zero] }).core.cmdOf ⟨2, 0⟩ = none ∧ coll.cmd.releases = true
       ∧ unacked.acksBelow 0 10 = false)
    ∧ ({ State.reset with core := { State.reset.core with st := .halted } }).core.st = .halted := by
  refine ⟨⟨rfl, rfl, by decide +kernel, reads_of (by decide +kernel), by decide +kernel, by decide +kernel, by decide +kernel⟩, by decide +kernel, by decide +kernel, by decide +kernel, rfl⟩

theorem test_retire_frees_core : Reach ended .taskRetire fun t => (t.core.st == .free && t.core.task == none && t.gangs == []) = true := reach_of (by decide +kernel)

/-- A command in its engine, started, with a pending ticket. -/
def cmd (w : Word) (t : Ticket) : Cmd := { word := w, tk := t, svr := false, started := true }
def engine (m : Cmd) : State := withE { Eng.zero with cmds := [m], tickets := [{ tk := m.tk, st := 0 }] }

def endsB (m : Cmd) (i : Instr) : Bool :=
  goes i (engine m) fun t => t.core.cmdOf m.tk == none && (match t.core.e.status m.tk with | some w => field w 63 62 != 0 | none => false)

/-- TD of 64 .n8 elements of the scratchpad from an offset. -/
def bytesTd (off : Nat) : Td := { w0 := 1#1 ++ 4#5 ++ 1#3 ++ 0#1 ++ 1#2 ++ 0#8 ++ 64#20 ++ 0#20 ++ 0#4, w1 := BitVec.ofNat 64 off }
/-- A byte copy of 64 bytes from offset 0 to the end of the footprint. -/
def mover : Cmd := { cmd (wA 0x6B 0 0 0 0 1 0 0 0 0 0) ⟨1, 0⟩ with tda := bytesTd 0, tdb := bytesTd 65472 }
/-- A heavy MMA and an MZERO that have not started; a COPY.ch on handle 15 that waits for its slot. -/
def heavy : Cmd := { cmd (wA 0x73 0 0 0 0 1 0 7 0 0 0) ⟨2, 0⟩ with started := false, tda := { w0 := 1#1 ++ 9#5 ++ 1#3 ++ 0#1 ++ 2#2 ++ 0#8 ++ 64#20 ++ 16#20 ++ 0#4 } }
def zeroing : Cmd := { cmd (wA 0x72 0 0 0 0 0 0 7 0 0 0) ⟨2, 0⟩ with started := false }
def slotted : Cmd := { cmd (wA 0x6B 1 0 0 0 1 15 0 0 0 0) ⟨1, 0⟩ with started := false, tda := bytesTd 0 }
def chanCore (p : BitVec 32) : State :=
  { engine slotted with core := { (engine slotted).core with
      r := { Regs.zero with ch := [(15, { own := true, pb := 3, cb := 1, orank := 0, och := 0, base := 0, size := 1, slots := 2, p := p, c := 0 })] } } }

theorem witness_CommandsRun :
    (let s := engine zeroing; s.core.cmdOf ⟨2, 0⟩ = some zeroing ∧ s.core.tilesFree zeroing = true ∧ zeroing.units zeroing.kDim = none)
    ∧ (let s := engine heavy; heavy.units heavy.kDim = some 2 ∧ heavy.leave = .no ∧ (s.core.e.cmds.filter fun x => x.tk == ⟨2, 0⟩) = [heavy] ∧ (s.die 0).leaveQ = [] ∧ s.grantedUnits 0 + 2 ≤ (s.die 0).dlim)
    ∧ (let s := engine { slotted with tda := {} }; s.core.firstOnChan { slotted with tda := {} } 15 = true ∧ windowIdx ({} : Td) = [] ∧ s.acksCmd s.core.id ⟨1, 0⟩ = true)
    ∧ (slotted.chan = some 15 ∧ windowIdx slotted.tda ≠ [] ∧ (chanCore 0).core.firstOnChan slotted 15 = true ∧ engineRole (chanCore 0).core 15 = some true ∧ (chanCore 2).core.cmdOf ⟨1, 0⟩ = some slotted)
    ∧ (let s := engine mover
       let to_ := (chunkIdx mover).map fun i => let (a, b, c) := destIdx mover.tdb i; ((elemPieces mover.tdb a b c).map Piece.addr).headD 0
       isBitCopy mover.tda mover.tdb = true ∧ tdFmt mover.tda = .n8 ∧ tdSp mover.tda = .sp ∧ tdSp mover.tdb = .sp ∧ s.guards = [] ∧ chunkIdx mover ≠ [] ∧ to_.Nodup
       ∧ (to_.all fun a => decide (a % 1 = 0 ∧ a + 1 ≤ s.core.footprint)) = true) := by decide +kernel

theorem test_commands_end : ([
    (cmd (wA 0x6B 0 0 0 0 1 0 0 0 0 0) ⟨1, 0⟩, .copyComplete ⟨1, 0⟩), (cmd (wA 0x72 0 0 0 0 0 0 7 0 0 0) ⟨2, 0⟩, .matrixCommandComplete ⟨2, 0⟩),
    (cmd (wA 0x93 0 0 0 0 0 0 0 0 0 0) ⟨3, 0⟩, .sigstrmComplete ⟨3, 0⟩), (cmd (wA 0x80 0 0 0 0 0 0 0 0 0 0) ⟨4, 0⟩, .routingCommandComplete ⟨4, 0⟩),
    (cmd (wA 0x81 0 0 0 0 0 0 0 0 0 0) ⟨4, 0⟩, .routingCommandComplete ⟨4, 0⟩), (cmd (wA 0x82 0 0 0 0 0 0 0 0 0 0) ⟨4, 0⟩, .routingCommandComplete ⟨4, 0⟩),
    (cmd (wA 0x83 0 0 0 0 0 0 0 0 0 0) ⟨4, 0⟩, .routingCommandComplete ⟨4, 0⟩), (cmd (wA 0x86 0 0 0 0 0 0 0 0 0 0) ⟨4, 0⟩, .routingCommandComplete ⟨4, 0⟩),
    (cmd (wA 0x89 0 0 0 0 0 0 0 0 0 0) ⟨4, 0⟩, .routingCommandComplete ⟨4, 0⟩), ({ cmd (wA 0x84 0 0 0 0 0 0 0 0 0 0) ⟨4, 0⟩ with outs := [0] }, .dspatComplete ⟨4, 0⟩),
    (cmd (wA 0x85 0 0 0 0 0 0 0 0 0 0) ⟨4, 0⟩, .cmbnComplete ⟨4, 0⟩), (cmd (wA 0x87 0 0 0 0 0 0 0 0 0 0) ⟨5, 0⟩, .collComplete ⟨5, 0⟩)]
    : List (Cmd × Instr)).all (fun p => endsB p.1 p.2) = true := by decide +kernel

theorem test_commands_start :
    (goes (.matrixCommandStart ⟨2, 0⟩) (engine heavy) fun t => t.core.cmdOf ⟨2, 0⟩ == some { heavy with leave := .asked }
      && (t.closeLeave 0).core.cmdOf ⟨2, 0⟩ == some { heavy with leave := .granted })
    && (goes (.matrixCommandStart ⟨2, 0⟩) (engine { heavy with leave := .granted }) fun t => t.core.cmdOf ⟨2, 0⟩ == some { heavy with leave := .granted, started := true })
    && (goes (.copySlotTake ⟨1, 0⟩) (chanCore 1) fun t => (t.core.cmdOf ⟨1, 0⟩).bind Cmd.slot == some 64)
    && (goes (.copySlotTake ⟨1, 0⟩) (chanCore 2) fun t => decide (t.core.cmdOf ⟨1, 0⟩ = some slotted)) = true := by decide +kernel

/-! ## Events of the scheduler -/

def tables : Memory := tablesOf 0x10001F

/-- A launch waits at the head of queue 0 of space 1. -/
def headEntry : Entry :=
  { id := 7, desc := { l0 := 5#64 <<< 39 }, st := .placing, placed := 0, live := 1, holdc := none, since := 0, ep := 5, groups := [], target := some 0, tried := false }
def queued : State :=
  { State.reset with mem := tables, cycle := 8192, queues := [{ num := 0, space := 1, entries := [headEntry] }], parts := [mappedPart, Part.absent, Part.absent, Part.absent] }

/-- A child of core 0 waits to enter queue 0. -/
def child : Child := { core := 0, tk := ⟨6, 0⟩, space := some 1, queue := 0, desc := { l3 := 32 }, holdc := none }
def birth (own : BitVec 16) : State :=
  { engine (cmd (wA 0x09 0 0 0 0 0 0 0 0 0 0) ⟨6, 0⟩) with childq := [child], queues := [{ num := 0, space := own, entries := [] }] }

theorem witness_LaunchEvents :
    ((birth 1).childq = [child] ∧ (birth 1).queueAt 0 = some { num := 0, space := 1, entries := [] } ∧ child.core ≠ 4096 ∧ child.core < 65536 ∧ (birth 1).acksCmd 0 ⟨6, 0⟩ = true ∧ (cmd (wA 0x09 0 0 0 0 0 0 0 0 0 0) ⟨6, 0⟩).pre = none ∧ ((birth 1).coreAt 0).cmdOf ⟨6, 0⟩ = some (cmd (wA 0x09 0 0 0 0 0 0 0 0 0 0) ⟨6, 0⟩)
      ∧ (birth 1).queueRefused ((birth 1).partOfQueue 0) child.space 0 = false ∧ (birth 2).queueRefused ((birth 2).partOfQueue 0) child.space 0 = true)
    ∧ (let cands := queued.allCands
       let c := cands.head?
       cands.length = 1 ∧ c.map Cand.key = some 7 ∧ (queued.fillFor 1 0).map Cand.key = some 7 ∧ (queued.fillFor 1 32).isNone = true
       ∧ ((fillTemplate 0 1 0 queued).2.map List.length = some 4) ∧ (match leafFor queued 0 1 0 0 with | (_, .ok (_, page)) => page == 65536 | _ => false) = true
       ∧ (fillTemplate 0 1 0 { queued with mem := [] }).2 = none
       ∧ c.map queued.candEp = some 7 ∧ (queued.entryOf 7).map (fun x => x.2.ep) = some 5
       ∧ (let late : State := { queued with cycle := 1048577 }
          c.map (fun c => decide ((late.part c.part).starve < late.cycle - c.since) && !late.hasReserve c.key && c.target == some 0 && Desc_.plc c.desc == 0) = some true ∧ late.allCands.length = 1
          ∧ (late.die 0).reserve = none)
       ∧ (let fresh : State := { queued with cycle := 1048577, queues := [{ num := 0, space := 1, entries := [{ headEntry with target := none }] }] }
          (fresh.allCands.any fun c => c.target.isNone && !(fresh.allowedDies c).isEmpty && fresh.starves c) = true)) := by
  decide +kernel

theorem test_child_refused : Reach (birth 2) (.childLaunchEntry ⟨6, 0⟩) fun t =>
    (t.childq.isEmpty && (t.core.e.status ⟨6, 0⟩).map (fun w => (field w 63 62, field w 55 48)) == some (2, 0x4C)) = true := reach_of (by decide +kernel)

theorem test_start_registers :
    (let t := base.startTask 5 { job with wid := 3, rank := 0, desc := { job.desc with l3 := 96, l4 := 4096 } } none
     (t.coreAt 5).st == .running && (t.coreAt 5).pc == 96 && getG (t.coreAt 5).r 1 == 4096 && getG (t.coreAt 5).r 2 == 3 && getG (t.coreAt 5).r 4 == 1 && (t.coreAt 5).r.bgt == 0xFFFFFFFF) = true := by
  decide +kernel

/-- A gang of two tasks on cores 0 and 1. -/
def pair : Gang := { gang2 [0, 1] with desc := { l0 := (1#64 <<< 55) ||| (1#64 <<< 52), l1 := 1, l2 := 1, l5 := 16 + 8 * 512 } }
/-- The gang of `base` alone, with a stage due and room for a context. -/
def watched (due : Nat) (request : Option Nat) : State :=
  { base with gangs := [{ gang2 [0] with due := due, request := request }], parts := [{ Part.reset with spaces := [0, 1], ctxa := 0x100000, ctxl := 0x10000 }, Part.absent, Part.absent, Part.absent] }
/-- Its task is quiet for a switch. -/
def quiet (target : List Nat) : State :=
  { base with core := { base.core with st := .quiet, task := some { job with desc := {} } }, gangs := [{ gang2 [0] with desc := {}, request := some 0, target := target }] }

theorem witness_GangEvents :
    (let r : LeaveReq := { core := 0, tk := ⟨2, 0⟩, units := 2, cycle := 0 }
     let s : State := { engine { heavy with leave := .asked } with cycle := 1, dies := [{ Die.reset with leaveQ := [r] }, Die.reset, Die.reset, Die.reset] }
     let q := (s.die 0).leaveQ.filter fun x => decide (x.cycle < s.cycle)
     (q.find? fun x => s.draining (s.coreAt x.core)) = none ∧ q.head? = some r ∧ (s.coreAt 0).cmdOf ⟨2, 0⟩ = some { heavy with leave := .asked }
     ∧ s.grantedUnits 0 + 2 ≤ (s.die 0).dlim)
    ∧ (let s := watched 1 none
       (s.gangs.map fun g => g.ranks) = [[0]] ∧ (s.part 0).ctxUnits ≠ 0 ∧ (reserveRuns (s.usedUnits 0) (s.part 0).ctxUnits [ceilDiv (fullLen (gang2 [0]).desc) 4096]).isSome = true
       ∧ (s.coreAt 0).hasTask = true ∧ (s.coreAt 0).preempt = none ∧ (s.coreAt 0).lastQp = false ∧ s.heldBySup 0 = false)
    ∧ reserveRuns [] (base.part 0).ctxUnits [ceilDiv (fullLen (gang2 [0]).desc) 4096] = none
    ∧ ((quiet []).gangReady { gang2 [0] with desc := {}, request := some 0 } = true ∧ (quiet []).gangAt 2 = some { gang2 [0] with desc := {}, request := some 0 })
    ∧ (let cores := (List.range 8).map fun i => 8 + i
       (quiet cores).gangReady { gang2 [0] with desc := {}, request := some 0, target := cores } = true ∧ ((quiet cores).coreAt 0).st ≠ .free ∧ (quiet cores).moveOk { gang2 [0] with desc := {}, request := some 0, target := cores } cores = true)
    ∧ (watched 1 (some 0)).gangReady { gang2 [0] with due := 1, request := some 0 } = false
    ∧ (quiet [9]).moveOk { gang2 [0] with desc := {}, request := some 0, target := [9] } [9] = false
    ∧ (let f : Forward := { core := 0, space := 1, wid := 0, to_ := 8, gang := 2, since := 0, num := 0 }
       let s : State := { base with cycle := 32768, forwards := [f] }
       (s.forwards.filter fun f => f.core == 0 && decide (f.since + 32768 ≤ s.cycle)) = [f])
    ∧ (let b : DBar := { bar := 448, home := 0, dbto := 1, members := [], arrivals := [], phase := 0, absent := [], retired := [], counted := 0, since := some 0, fired := false }
       let s : State := { State.reset with dbars := [b], cycle := 4096 }
       s.partOfEndp 0 = some 0 ∧ 4096 * b.dbto ≤ b.counted + (s.cycle - 0))
    ∧ (let s : State := { base with dbars := [{ dbar with members := [(0, 1, 0, 0), (7, 1, 0, 1)] }], cycle := 4096 }
       s.memberDie 0 (1, 0, 0) = some 0 ∧ s.partOfEndp 7 = none ∧ (s.allCores.all fun c => decide (c.id < 1024) || c.task.isNone) = true)
    ∧ base.partOfCore 0 < 4
    ∧ (let c : Core := { base.core with frame := some (one (.vjoin c0 0) []), preempt := some 0, stopNow := some true }
       c.frame.isSome = true ∧ c.mustCommit = false ∧ base.heldBySup 0 = false ∧ ({ c with frame := none }).frame.isSome = false) := by
  decide +kernel

theorem test_kill_marks_tasks : Reach (watched 2 none) (.watchdogKill 2) fun t => (t.core.killed && (t.reports.getLast?.map fun r => (r.code, r.detail)) == some (6, 2)) = true :=
  reach_of (by decide +kernel)

/-- A block of an SC atomic announced in window 0. -/
def announced (cycle : Nat) : State := { base with cycle := cycle, core := { base.core with frame := some { one (.vjoin c0 0) [] with announced := some 0, bound := true } } }

theorem witness_GangEvents_scWindow :
    (announced 0).core.frame = some { one (.vjoin c0 0) [] with announced := some 0, bound := true } ∧ (announced 0).acksOf 0 = true ∧ ((announced 0).parked.all fun c => c.frame.isNone) = true := by
  decide +kernel

/-! ## Packets -/

/-- A packet with tag 5 between two agents of endpoint 0, and one from endpoint 7 to endpoint 0, delivered at its only hop. -/
def own (space : BitVec 16) (b : Body) : Packet :=
  { ph0 := ph0Of (classOf b) 0 0 0 0 space false false (flitsOf b), ph1 := 0, ph2 := 0, ph3 := 5#64 <<< 32, ph4 := b.ph4, ph5 := b.ph5, ph6 := 0, ph7 := 0, flits := flitsOf b, body := b }
def far (rel : Bool) (rseq : Nat) (b : Body) : Packet :=
  { ph0 := ph0Of (classOf b) 7 0 0 1 1 rel false (flitsOf b), ph1 := 0, ph2 := 1, ph3 := BitVec.ofNat 64 (5 * 2 ^ 32 + rseq), ph4 := b.ph4, ph5 := b.ph5, ph6 := 0, ph7 := 0, flits := flitsOf b, body := b }
def carrying (s : State) (p : Packet) : State := { s with port := { s.port with net := [p] } }

theorem alone_first (s : State) (p : Packet) (pn : Nat) : (carrying s p).ownEarlier pn p = false := by
  have h : ((carrying s p).port.net.takeWhile fun q => q != p) = [] := by simp [carrying]
  unfold State.ownEarlier
  simp only [h, List.filter_nil, List.any_nil, Bool.and_false, Bool.false_or]
  split <;> rfl

theorem reaches_own (s : State) (b : Body) (space : BitVec 16) (h1 : s.bootFail = none) (h2 : s.partOfEndp 0 = some 0)
    (h3 : pkDst (own space b) = 0 ∧ pkSrc (own space b) = 0 ∧ pkRel (own space b) = false) : (carrying s (own space b)).Reaches (own space b) 0 := by
  obtain ⟨hd, hs, hr⟩ := h3
  refine ⟨h1, ?_, hr, Or.inl ⟨hs.trans hd.symm, List.mem_singleton.mpr rfl, alone_first _ _ _⟩⟩
  rw [hd]
  exact h2

/-- Entry 63 gives space 0 the one page of frame 16 for reads and writes of every space of endpoint 0. -/
def door63 : Ingress := { sep := 0, ssp := 0xFFFF, lsp := 0, frame := 16, count := 1, r := true, w := true }
def gated : State := { base with parts := [{ Part.reset with ingress := [(63, door63)] }, Part.absent, Part.absent, Part.absent] }

/-- The last eight bytes of the page, for a load, a store, an atomic and a CAS; then a packet that no entry admits, a reply and a refusal that answer one packet, and
a malformed, a repeated and an early packet. -/
theorem witness_MemoryPackets :
    (∀ b ∈ [Body.memReq .load 0x10FFF8 8 [], .memReq .check 0x10FFF8 8 [], .memReq .store 0x10FFF8 8 (bytesOf 8 7), .memReq (.storeBits (List.replicate 8 15)) 0x10FFF8 8 (bytesOf 8 7), .memReq (.amo .add true) 0x10FFF8 8 (bytesOf 8 7), .memReq (.cas true) 0x10FFF8 8 (bytesOf 16 7)],
      (carrying gated (own 0xFFFF b)).Reaches (own 0xFFFF b) 0 ∧ (carrying State.reset (own 0xFFFF b)).Reaches (own 0xFFFF b) 0
      ∧ door63.ssp = (if Config.isOwner (pkDst (own 0xFFFF b)) (pkSrc (own 0xFFFF b)) then 0xFFFF else pkSpace (own 0xFFFF b)) ∧ door63.sep = pkSrc (own 0xFFFF b))
    ∧ ((gated.part 0).ingress = [(63, door63)] ∧ door63.frame * 65536 ≤ 0x10FFF8 ∧ 0x10FFF8 + 8 ≤ (door63.frame + door63.count) * 65536 ∧ gated.localBytes 0 0x10FFF8 8 = true
      ∧ (State.reset.part 0).ingress = [])
    ∧ (let p := far false 0 (.reply 9 0 [] false); packetOk p = true ∧ pkSrc p = 7 ∧ pkDst p = 0 ∧ (State.reset.partOfEndp 0).isSome = true)
    ∧ (let p := far false 0 (.refusal 9 (.nak 3)); packetOk p = true ∧ State.reset.senderGone (.memReq .store 0 1 [0]) = false ∧ packetOk (far false 0 (.refusal 9 (.reject 5))) = true ∧ needsDetail (.memReq (.amo .add true) 0 8 []) = false ∧ State.reset.senderGone (.ret 0 0 [] 0 1 0 ⟨4, 0⟩) = true)
    ∧ (let p := far false 1 (.memReq .load 0 8 []); packetOk p = false ∧ pkSrc p ≠ pkDst p)
    ∧ (let p := far true 1 (.memReq .load 0 8 []); packetOk p = true ∧ pkRel p = true ∧ pkRseq p = 1 ∧ (pkRseq p).msb = false ∧ lookup (pairOf p, pkTag p) State.reset.port.performed = none) := by
  refine ⟨fun b hb => ?_, by decide +kernel, by decide +kernel, by decide +kernel, by decide +kernel, by decide +kernel⟩
  have hs : ∀ b ∈ [Body.memReq .load 0x10FFF8 8 [], .memReq .check 0x10FFF8 8 [], .memReq .store 0x10FFF8 8 (bytesOf 8 7), .memReq (.storeBits (List.replicate 8 15)) 0x10FFF8 8 (bytesOf 8 7), .memReq (.amo .add true) 0x10FFF8 8 (bytesOf 8 7), .memReq (.cas true) 0x10FFF8 8 (bytesOf 16 7)],
      pkDst (own 0xFFFF b) = 0 ∧ pkSrc (own 0xFFFF b) = 0 ∧ pkRel (own 0xFFFF b) = false ∧ pkSpace (own 0xFFFF b) = 0xFFFF := by decide +kernel
  obtain ⟨h1, h2, h3, h4⟩ := hs b hb
  refine ⟨reaches_own _ _ _ rfl (by decide +kernel) ⟨h1, h2, h3⟩, reaches_own _ _ _ rfl (by decide +kernel) ⟨h1, h2, h3⟩, ?_, h2.symm⟩
  rw [h4, ite_self]
  rfl

theorem test_reply_answers : (let p := far false 0 (.reply 9 0 [] false)
    goes (.reply p) { State.reset with port := { State.reset.port with unacked := [{ src := 0, dst := 7, tag := 9, num := 9, tk := none, pkt := p, sent := 0, resends := 0, held := false, core := 0 }] } } fun t => t.port.unacked.isEmpty) = true := by
  decide +kernel

/-- A launch descriptor of one task: one field of width 1. -/
def launchWords : List Word := [0xA400000000000000 ||| (1#64 <<< 55) ||| (7#64 <<< 49), 1, 0, 32, 0, 0, 0, 0]
/-- Queue 0 of space 1 is empty, or full; core 0 runs the task that doorbell entry 4095 names. -/
def belled (entries : List Entry) : State :=
  { base with queues := [{ num := 0, space := 1, entries := entries }], gangs := [gang2 [0]],
              parts := [{ Part.reset with spaces := [0, 1], doors := [(4095, { sep := 0, ssp := 1, lsp := 1, wid := 0, k := 31 })] }, Part.absent, Part.absent, Part.absent] }
def haltedPart (space : BitVec 16) : Part := { Part.reset with spaces := [0, 1, 2], hlt := [space] }

theorem witness_ControlPackets :
    (∀ b ∈ [Body.launch 0 launchWords, .launch 0 [], .doorbell 1 4095, .doorbell 1 4096, .arrival 448 1, .arrival 448 2, .phase 448 1 3, .absence 448 1 true, .retired 448 0 1, .expired 448 0],
      (carrying (belled []) (own 1 b)).Reaches (own 1 b) 0)
    ∧ (descErr ((belled []).part 0).dies (Desc.ofWords launchWords) = none ∧ (descErr ((belled []).part 0).dies (Desc.ofWords [])).isSome = true ∧ (belled []).partOfQueue 0 = 0
      ∧ pkSpace (own 1 (.launch 0 launchWords)) = 1 ∧ ((belled []).queueAt 0).isSome = true
      ∧ (((belled (List.replicate 64 headEntry)).queueAt 0).map fun q => q.entries.length) = some 64 ∧ ((belled []).part 0).hlt = [] ∧ (1 : BitVec 16) ∉ ((belled []).part 0).hlt ∧ (2 : BitVec 16) ∈ (haltedPart 2).hlt)
    ∧ (lookup 4095 ((belled []).part 0).doors = some { sep := 0, ssp := 1, lsp := 1, wid := 0, k := 31 } ∧ (belled []).doorTask 0 { sep := 0, ssp := 1, lsp := 1, wid := 0, k := 31 } = some (some 0)
      ∧ Cells.wf ((belled []).coreAt 0).r.k = true)
    ∧ (dbar.home = pkDst (own 1 (.arrival 448 1)) ∧ dbar.members.length ≤ dbar.arrivals.length + 1 ∧ dbar.arrivals.length < dbar.members.length
      ∧ dbar.members[0]? = some (0, (1, 0, 0)) ∧ (belled []).memberDie 0 (1, 0, 0) = some 0 ∧ dbar.home = pkSrc (own 1 (.expired 448 0))) := by
  refine ⟨fun b hb => ?_, by decide +kernel, by decide +kernel, by decide +kernel⟩
  have hs : ∀ b ∈ [Body.launch 0 launchWords, .launch 0 [], .doorbell 1 4095, .doorbell 1 4096, .arrival 448 1, .arrival 448 2, .phase 448 1 3, .absence 448 1 true, .retired 448 0 1, .expired 448 0],
      pkDst (own 1 b) = 0 ∧ pkSrc (own 1 b) = 0 ∧ pkRel (own 1 b) = false := by decide +kernel
  exact reaches_own _ _ _ rfl (by decide +kernel) (hs b hb)

theorem test_doorbell_adds : (goes (.doorbell (own 1 (.doorbell 5 4095))) (carrying (belled []) (own 1 (.doorbell 5 4095))) fun t => cget t.core.r.k 31 == (5 : BitVec 32)) = true := by decide +kernel
theorem test_arrival_completes : (let p := own 1 (.arrival 448 1)
    goes (.domainBarrierArrival p) (carrying { belled [] with dbars := [dbar] } p) fun t => (t.dbars.map fun b => (b.phase, b.arrivals)) == [(1, [])]) = true := by decide +kernel

/-- A pool of core 0 for `n` sources, in a state, with header rows in the scratchpad. -/
def pool (n : Nat) (st : PoolSt) (grants : List (Nat × Nat × Nat × Nat)) : Pool :=
  { space := 1, serial := 9, core := 0, tk := ⟨4, 0⟩, svr := false, area := bytesTd 0,
    header := { w0 := 1#1 ++ 6#5 ++ 1#3 ++ 0#1 ++ 1#2 ++ 0#8 ++ 64#20 ++ 0#20 ++ 0#4, w1 := 4096 }, e := 0, k := 1, kx := 0, nsrc := n, sel := false, policy := {}, grantTd := {}, st := st, why := 0,
    bound := [], reqs := [], grants := grants, markers := [], rows := [], some_ := [] }
/-- The BPERM.open whose pool it is. -/
def opening : Cmd := cmd (wA 0x83 0 0 0 0 0 0 0 0 0 0) ⟨4, 0⟩
def pooled (x : Pool) : State := { engine opening with gangs := [gang2 [0]], dies := [{ Die.reset with pools := [x] }, Die.reset, Die.reset, Die.reset] }
/-- Commands of core 0 that wait for packets: a request, a dispatch and a collective. -/
def asking : Cmd := { cmd (wA 0x83 0 0 0 0 0 0 0 0 0 0) ⟨4, 0⟩ with pend := [(0, 0)] }
def dispatching : Cmd := { cmd (wA 0x84 0 0 0 0 0 0 0 0 0 0) ⟨4, 0⟩ with sent := [0], outs := [0], pend := [(0, 0)] }
def collecting : Cmd := cmd (wA 0x87 0 0 0 0 0 0 0 0 0 0) ⟨5, 0⟩

def foundB (s : State) (hit : Core → Cmd → Bool) (id : Nat) (m : Cmd) : Bool := match s.findCmd 0 1 hit with | .at_ i k => i == id && decide (k = m) | _ => false

theorem witness_RoutingPackets :
    (∀ b ∈ [Body.poolReq 9 0 [] (savedId 2 0) ⟨4, 0⟩, .row 9 0 0 0 .n8 [] [] [] 0 1 (savedId 2 0) ⟨4, 0⟩, .marker 9 0 0 (savedId 2 0) ⟨4, 0⟩, .poolGrant 9 0 [] (savedId 2 0) ⟨4, 0⟩, .ret 0 0 [] 0 1 (savedId 2 0) ⟨4, 0⟩,
        .retMarker 0 0 (savedId 2 0) ⟨4, 0⟩, .chunk 0 1 0 (collecting.agree []) (tdFmt collecting.tda) 0 [] [(2, [])] (savedId 2 0) ⟨5, 0⟩],
      (carrying (pooled (pool 1 .opened [])) (own 1 b)).Reaches (own 1 b) 0 ∧ (carrying (pooled (pool 1 .opened [])) (own 1 b)).localSpace 0 (own 1 b) = some 1 ∧ pkDie (own 1 b) = 0 ∧ pkSvr (own 1 b) = false)
    ∧ ((pooled (pool 1 .opened [])).poolAt 0 1 9 = some (pool 1 .opened []) ∧ ((pooled (pool 1 .opened [])).coreAt (pool 1 .opened []).core).st ≠ .quiet
      ∧ (pool 1 .opened []).nsrc ≤ (pool 1 .opened []).reqs.length + 1 ∧ (pool 2 .opened []).reqs.length + 1 < (pool 2 .opened []).nsrc
      ∧ ((pooled (pool 1 .opened [])).coreAt 0).cmdOf ⟨4, 0⟩ = some opening ∧ (pooled (pool 1 .opened [])).halted 0 1 = false
      ∧ ({ pooled (pool 1 .opened []) with parts := [{ Part.reset with spaces := [0, 1], hlt := [1] }, Part.absent, Part.absent, Part.absent] }).halted 0 1 = true
      ∧ (pooled (pool 1 .opened [])).acksCmd 0 ⟨4, 0⟩ = true
      ∧ (let x := { pool 1 .opened [] with reqs := insertReq (0, [], savedId 2 0, ⟨4, 0⟩) [] }
         match (pooled (pool 1 .opened [])).grantsOf ((pooled (pool 1 .opened [])).coreAt 0) opening x with | (_, .ok _) => true | _ => false) = true)
    ∧ (let x := pool 1 .granted [(0, 0, 0, 1)]
       tdFmt x.area = .n8 ∧ (1 ≤ (x.some_.filter fun r => r.1 == 0 && r.2.1 == 0).length + 1) ∧ ¬(2 ≤ (x.some_.filter fun r => r.1 == 0 && r.2.1 == 0).length + 1)
       ∧ (match (pooled x).writeBerth ((pooled x).coreAt 0) opening x 0 0 [] [] (x.headerWords 0 0 0 []) with | (_, .ok _) => true | _ => false) = true)
    ∧ (foundB (engine asking) (fun c y => c.key == savedId 2 0 && y.tk == ⟨4, 0⟩ && y.op == 0x83) 0 asking = true ∧ (0, 0) ∈ asking.pend)
    ∧ (foundB (engine dispatching) (fun _ y => y.op == 0x84 && rSerial y.w1 == 0) 0 dispatching = true
      ∧ 0 ∈ dispatching.sent ∧ 1 ∉ dispatching.sent ∧ dispatching.parts = [] ∧ (let p : Share := { src := 0, off := 0, items := [] }
         joinParts 0 1 [p] = some [] ∧ joinParts 0 2 [p] = none)
      ∧ (match (engine dispatching).keepReturn (engine dispatching).core dispatching 0 [] with | (_, .ok _) => true | _ => false) = true)
    ∧ foundB (engine collecting) (fun _ y => y.op == 0x87 && y.started && cSer y.w1 == 0 && cRank y.w0 == cRank collecting.w0) 0 collecting = true := by
  refine ⟨fun b hb => ?_, by decide +kernel, by decide +kernel, by decide +kernel, by decide +kernel, by decide +kernel⟩
  have hs : ∀ b ∈ [Body.poolReq 9 0 [] (savedId 2 0) ⟨4, 0⟩, .row 9 0 0 0 .n8 [] [] [] 0 1 (savedId 2 0) ⟨4, 0⟩, .marker 9 0 0 (savedId 2 0) ⟨4, 0⟩, .poolGrant 9 0 [] (savedId 2 0) ⟨4, 0⟩,
        .ret 0 0 [] 0 1 (savedId 2 0) ⟨4, 0⟩, .retMarker 0 0 (savedId 2 0) ⟨4, 0⟩, .chunk 0 1 0 (collecting.agree []) (tdFmt collecting.tda) 0 [] [(2, [])] (savedId 2 0) ⟨5, 0⟩],
      (pkDst (own 1 b) = 0 ∧ pkSrc (own 1 b) = 0 ∧ pkRel (own 1 b) = false) ∧ pkSpace (own 1 b) = 1 ∧ pkDie (own 1 b) = 0 ∧ pkSvr (own 1 b) = false := by decide +kernel
  obtain ⟨h1, h2, h3⟩ := hs b hb
  refine ⟨reaches_own _ _ _ rfl (by decide +kernel) h1, ?_, h3⟩
  rw [State.localSpace, if_pos (h1.2.1.trans h1.1.symm), h2]

/-! ## The harbour controller -/

/-- Space 2 is halted in partition 0; no queue exists. -/
def haltedSpace : State := { State.reset with parts := [{ Part.reset with spaces := [0, 1, 2], hlt := [2] }, Part.absent, Part.absent, Part.absent] }

theorem witness_HostCommands :
    (haltedSpace.parts.length = 4 ∧ haltedSpace.dies.length = 4 ∧ haltedSpace.bootFail = none ∧ queued.softGran = [])
    ∧ ((haltedSpace.part 0).dies.getLsbD 3 = true ∧ haltedSpace.queueAt 1023 = none ∧ (1 : BitVec 16) ∈ (haltedSpace.part 0).spaces)
    ∧ ((birth 1).queueAt 0 = some { num := 0, space := 1, entries := [] } ∧ (birth 1).partOfQueue 0 = 0)
    ∧ ((2 : BitVec 16) ∈ (haltedSpace.part 0).hlt ∧ (1 : BitVec 16) ∉ (haltedSpace.part 0).hlt)
    ∧ ((256 ≤ 256 ∧ 256 ≤ (haltedSpace.part 0).starve) ∧ (haltedSpace.part 0).agei ≤ 4096)
    ∧ (let w0 : Word := 0x8000000000000003
       field w0 62 57 = 0 ∧ field w0 15 5 = 0 ∧ field w0 4 2 = 0 ∧ field (63 : Word) 55 12 = 0 ∧ field (63 : Word) 11 0 < 64 ∧ 64 ≤ field (64 : Word) 11 0)
    ∧ (match walk queued 0 1 0 0 with
       | .ok (leaf, 0, key) => decide (key = 0x5000 ∧ field leaf 7 6 = 0 ∧ field leaf 12 11 = 0 ∧ field leaf 39 16 = 16)
       | _ => false) = true
    ∧ (match walk queued 0 1 65536 65536 with | .error _ => true | _ => false) = true
    ∧ (hbmDie (16 * 65536)).isSome = true ∧ hbmDie (0x200000 * 65536) = some 1 ∧ hbmDie (0x200000 * 65536 + 65535) = some 1 ∧ (queued.part 0).dies.getLsbD 1 = true
    ∧ queued.migs = [] ∧ queued.badGran = [] ∧ Memory.wf tables = true := by decide +kernel

theorem test_migration_marks_leaf : (goes (.migratePage 0 1 0 0x200000) queued fun t => field (t.readWord 0x5000) 12 11 == 1 && field (t.readWord 0x5000) 39 16 == 16 && t.migs.length == 1) = true := by
  decide +kernel

/-- A store to endpoint 7 that has waited since cycle 0, sent again `n` times. -/
def waitingOut (n : Nat) : Out := { src := 0, dst := 7, tag := 9, num := 9, tk := none, pkt := far false 0 (.memReq .store 64 1 [1]), sent := 0, resends := n, held := false, core := 0 }
def moving (switched : Bool) : State :=
  { queued with migs := [{ part := 0, space := 1, va := 0, leaf := 0x5000, old := 16, new := 0x200000, copied := 0, switched := switched }] }

theorem witness_HarbourTime :
    State.reset.dies.length = 4 ∧ (State.reset.frames ≤ State.reset.cycle ∧ State.reset.bootFail = none ∧ State.reset.frozen = false ∧ (State.reset.parts.all fun x => x.hostq.isEmpty && x.pending.isEmpty) = true
      ∧ (State.reset.dies.all fun x => x.ring.isEmpty && x.pending.isEmpty) = true ∧ State.reset.port.early = [])
    ∧ (let s : State := { State.reset with cycle := 65536, port := { Port.reset with unacked := [waitingOut 6] } }
       (waitingOut 6).sent + (s.part ((s.partOfEndp 0).getD 0)).eto ≤ s.cycle ∧ (waitingOut 6).resends < 7 ∧ 7 ≤ (waitingOut 7).resends)
    ∧ State.reset.port.links.getLsbD 15 = true ∧ 16 ≤ (lookup 15 [(15, 16)]).getD 0 ∧ (lookup 15 State.reset.port.replays).getD 0 < 16 ∧ (waitingOut 7).done = none ∧ ({ State.reset.port with links := 0 } : Port).links.getLsbD 15 = false
    ∧ dieOfKey (0x300000 * 32) < 4 ∧ (moving true).stale 4096 (fun q x => q == 0 && x == 1) = false ∧ { moving true with port := unacked.port }.stale 4096 (fun q _ => q == 0) = true ∧ Memory.wf (moving true).mem = true
    ∧ ([] : List Byte).length ≤ 0x100000 ∧ (State.reset.part 0).dies ≠ 0 ∧ State.reset.parts.length = 4 ∧ State.reset.partOfDie (dieOfCore State.reset.core.id) = 0 := by decide +kernel

theorem test_migration_done : (goes (.migrationDone 0 1 0) (moving true) fun t => t.migs.isEmpty && field (t.readWord 0x5000) 12 11 == 0 && field (t.readWord 0x5000) 39 16 == 0x200000) = true := by decide +kernel
theorem test_last_resend_reports : (goes (.packetResend 7 9) { State.reset with cycle := 65536, port := { Port.reset with unacked := [waitingOut 7] } } fun t =>
    t.port.unacked.isEmpty && (t.reports.map fun r => (r.code, r.addr)) == [(8, 64)]) = true := by decide +kernel

/-! ## Invariants -/

theorem witness_MemoryWfKept : Memory.wf State.reset.mem = true ∧ (match step (State.reset.withFetchWord 64 (wI 0x05 0 0 (tg 9 0) 0 7).toNat) with | .next _ => true | _ => false) = true := by
  decide +kernel

/-! ## Results of single firings, calculated by hand from R157 to R233 -/

/-- The token that the instruction sends to slot B of index 9. -/
def result (s : State) (i : Instr) (toks : List Tok) : Option Tok :=
  match exec i (put s i ((List.range toks.length).zip toks)) with
  | .next t => t.core.frame.bind fun fr => fr.slot 9 .b
  | _ => none

def scalar (i : Instr) (toks : List Tok) (w : Word) : Bool := result base i toks == some (.s w)

/-- A 32-bit result is extended by its form; DIV truncates toward zero and the remainder has the dividend's sign; the division corners of R176. -/
theorem test_int_results :
    (scalar (.add c1 ⟨false, false⟩ false none) [.s 0x7FFFFFFF, .s 1] 0xFFFFFFFF80000000 && scalar (.add c1 ⟨false, true⟩ false none) [.s 0x7FFFFFFF, .s 1] 0x80000000
    && scalar (.div c1 ⟨true, false⟩ false none) [.s (-7), .s 2] (-3) && scalar (.div c1 ⟨true, false⟩ true none) [.s (-7), .s 2] (-1)
    && scalar (.div c1 ⟨false, false⟩ false none) [.s 0x80000000, .s (-1)] 0xFFFFFFFF80000000 && scalar (.div c1 ⟨true, true⟩ false none) [.s 5, .s 0] (-1)
    && scalar (.mul c1 ⟨true, false⟩ true none) [.s (-1), .s 2] (-1) && scalar (.mul c1 ⟨true, true⟩ true none) [.s (-1), .s 2] 1
    && scalar (.shift c1 false .sra none) [.s 0x80000000, .s 31] (-1) && scalar (.shift c1 false .shr none) [.s 0x80000000, .s 32] 0xFFFFFFFF80000000
    && scalar (.bitf c1 true .extz none) [.s 0xABCD, .s (4 + 64 * 8)] 0xBC && scalar (.bitf c1 true .exts none) [.s 0xABCD, .s (4 + 64 * 8)] 0xFFFFFFFFFFFFFFBC
    && scalar (.bitf c1 false .clz none) [.s 1] 31 && scalar (.addr c1 3 0x1FFF) [.s 100, .s 2] 115) = true := by decide +kernel

/-- 1.5 + 2.25 = 3.75 in binary32; 1/3 rounds to 0x3EAAAAAB; −0 equals +0; 2.5 rounds to even 2; −1 as binary16. -/
theorem test_fp_results :
    (scalar (.fadd c1 .f32) [.s 0x3FC00000, .s 0x40100000] 0x40700000 && scalar (.fdiv c1 .f32) [.s 0x3F800000, .s 0x40400000] 0x3EAAAAAB
    && scalar (.fcmp c1 .f32 .eq) [.s 0x80000000, .s 0] 1 && scalar (.frint c1 .f32 .rne) [.s 0x40200000] 0x40000000 && scalar (.fsqrt c1 .f64) [.s 0x4010000000000000] 0x4000000000000000
    && scalar (.fcvt c1 .f16 true .i64) [.s (-1)] 0xBC00 && scalar (.fclass c1 .f32) [.s 0x80000000] 8) = true := by decide +kernel

/-- A sum of 16-bit lanes wraps in its lane; a lane null of A is one of the result. -/
theorem test_vector_results :
    (result base (.viarith c1 .n16 .add none) [.v 0x1FFFF (BitVec.allOnes 128), .v 0x10001 (BitVec.allOnes 128)] == some (.v 0x20000 (BitVec.allOnes 128))
    && (match result base (.viarith c1 .n16 .add (some 1)) [.v 0x10001 2] with | some (.v _ ok) => ok == 2 | _ => false)
    && scalar (.vred c1 .i16 .add) [.v 0x1FFFF (BitVec.allOnes 128)] 0
    && scalar (.maskop c1 .i32 .mpopc) [.m 0x33] 2) = true := by decide +kernel

/-- A load sign-extends; an odd address faults with Alignment and sends nothing. -/
theorem test_load_results :
    (let s : State := { base with mem := mwrite [] (spKey 0 8) [0xFE, 0xFF] }
     result s (.ld c1 .i16 m0 4) [.s 4] == some (.s (-2)) && result s (.ld c1 .i16 m0 0) [.s 9] == none) = true := by decide +kernel

/-- DCMAP with site 20 of group 1 disabled and site 0 of every other: site 20 of group 2 is the twentieth enabled one, and site 21 of group 1 the twenty-first (R353). -/
theorem test_core_of_site : coreOfSite 0x500 2 20 = some 83 ∧ coreOfSite 0x500 1 21 = some 52 ∧ coreOfSite 0x500 1 20 = none := by decide +kernel

end Sys2Proof.Tests
end

section
/-!
SUPPORT: what the lanes of a packed vector and the bytes of a number are (R3, R64, R194).
-/
namespace Sys2Proof.Machine

/-! ## Bytes -/

theorem ofBytes_testBit : (l : List Byte) → (i j : Nat) → j < 8 → (ofBytes l).testBit (8 * i + j) = (l.getD i 0).getLsbD j
  | [], i, j, _ => by simp [ofBytes]
  | b :: l, i, j, hj => by
    have hb : b.toNat < 2 ^ 8 := b.isLt
    rw [ofBytes, Nat.add_comm, show (256 : Nat) = 2 ^ 8 from rfl, Nat.testBit_two_pow_mul_add _ hb]
    cases i with
    | zero => simp [hj, BitVec.getLsbD]
    | succ i =>
      rw [if_neg (by omega), show 8 * (i + 1) + j - 8 = 8 * i + j by omega, ofBytes_testBit l i j hj]
      rfl

theorem ofBytes_lt : (l : List Byte) → ofBytes l < 2 ^ (8 * l.length)
  | [] => by simp [ofBytes]
  | b :: l => by
    have hb : b.toNat < 2 ^ 8 := b.isLt
    have hl := ofBytes_lt l
    rw [ofBytes, List.length_cons, Nat.mul_succ, Nat.pow_add]
    omega

@[simp] theorem mread_length (m : Memory) (k n : Nat) : (mread m k n).length = n := by simp [mread]

theorem ofBytes_mread_lt (m : Memory) (k n : Nat) : ofBytes (mread m k n) < 2 ^ (8 * n) := by
  simpa using ofBytes_lt (mread m k n)

/-! ## Lanes -/

theorem Ty.isLT_width {t : Ty} (h : t.isLT = true) : t.width = 16 ∨ t.width = 32 ∨ t.width = 64 := by
  cases t <;> simp [Ty.isLT, Ty.isFL, Ty.isIL] at h <;> decide

theorem packNat_testBit {w i : Nat} (hi : i < w) : (l : List Nat) → (j : Nat) →
    (packNat w l).testBit (w * j + i) = (l.getD j 0).testBit i
  | [], j => by simp [packNat]
  | x :: l, j => by
    have hx : x % 2 ^ w < 2 ^ w := Nat.mod_lt _ (Nat.two_pow_pos w)
    rw [packNat, Nat.add_comm, Nat.testBit_two_pow_mul_add _ hx]
    cases j with
    | zero => simp [hi]
    | succ j =>
      have hlow : w ≤ w * (j + 1) := Nat.le_mul_of_pos_right w (Nat.succ_pos j)
      rw [if_neg (by omega), show w * (j + 1) + i - w = w * j + i by rw [Nat.mul_succ]; omega, packNat_testBit hi l j]
      rfl

/-- A lane of a packed vector, modulo 2^w. -/
theorem laneNat_packNat {w j : Nat} (l : List Nat) (hj : w * (j + 1) ≤ 2048) :
    laneNat w (BitVec.ofNat 2048 (packNat w l)) j = l.getD j 0 % 2 ^ w := by
  refine Nat.eq_of_testBit_eq fun i => ?_
  simp only [laneNat, Nat.testBit_mod_two_pow, BitVec.toNat_ushiftRight, Nat.testBit_shiftRight, BitVec.toNat_ofNat]
  by_cases hi : i < w
  · have hin : w * j + i < 2048 := by rw [Nat.mul_succ] at hj; omega
    simp only [hi, hin, decide_true, Bool.true_and, packNat_testBit hi]
  · simp [hi]

/-- The lowest granule of a lane tells whether the lane is valid. -/
theorem laneOk_packMask {w j : Nat} (l : List Bool) (hw : 16 ≤ w) (hj : w / 16 * (j + 1) ≤ 128) :
    laneOk w (packMask w l) j = l.getD j false := by
  have hg : 0 < w / 16 := by omega
  have hin : w / 16 * j + 0 < 128 := by rw [Nat.mul_succ] at hj; omega
  have hbit := packNat_testBit hg (l.map fun b => if b then 2 ^ (w / 16) - 1 else 0) j
  simp only [laneOk, packMask, BitVec.getLsbD_ofNat, Nat.add_zero] at hin hbit ⊢
  simp only [hin, decide_true, Bool.true_and, hbit, List.getD_eq_getElem?_getD, List.getElem?_map]
  cases l[j]? with
  | none => simp
  | some b => cases b <;> simp [hg]

/-- A lane of a packed vector is the one packed at its place. -/
theorem laneOf_packLanes {t : Ty} (ht : t.isLT = true) (l : List (Option Nat)) {j : Nat} (hj : j < laneCount t.width) :
    laneOf t.width (packLanes t.width l) j = (l.getD j none).map (· % 2 ^ t.width) := by
  obtain ⟨hw, hv, hm⟩ : 16 ≤ t.width ∧ t.width * (j + 1) ≤ 2048 ∧ t.width / 16 * (j + 1) ≤ 128 := by
    rcases Ty.isLT_width ht with h | h | h <;> rw [h] at hj ⊢ <;> simp only [laneCount] at hj <;> omega
  simp only [laneOf, packLanes, tokValid, tokVec, laneOk_packMask _ hw hm, laneNat_packNat _ hv,
    List.getD_eq_getElem?_getD, List.getElem?_map]
  cases l[j]? with
  | none => rfl
  | some x => cases x <;> rfl

end Sys2Proof.Machine
end

section
/-!
SUPPORT: what a load of the current core reads when nothing stands in its way (R52, R97 to R124, R218, R371 to R377).
-/
namespace Sys2Proof.Machine

/-! ## The lines kept for loads of lower LSID (R118) -/

@[simp] theorem State.snapped_mem (s : State) (l : List Snap) : (s.snapped l).mem = s.mem := rfl
@[simp] theorem State.snapped_frame (s : State) (l : List Snap) :
    (s.snapped l).core.frame = s.core.frame.map fun f => { f with snaps := l } := rfl

theorem State.snapped_snaps {s : State} {fr : Frame} (h : s.core.frame = some fr) : s.snapped fr.snaps = s := by
  rcases s with ⟨⟨⟩⟩
  cases h
  rfl

theorem State.snapped_keep (s : State) (l : List Snap) (x : Snap) :
    ((s.snapped l).onFrame fun f => { f with snaps := x :: f.snaps }) = s.snapped (x :: l) := by
  simp only [State.snapped, State.onFrame, Option.map_map]
  rfl

/-! ## Where an access leads -/

theorem State.guarded_nil {s : State} (h : s.guards = []) (space : BitVec 16) (key size : Nat) : s.guarded space key size = false := by
  simp [State.guarded, h]

theorem State.bad_nil {s : State} (h : s.badGran = []) (k n : Nat) : s.bad k n = false := by
  simp [State.bad, h]

theorem State.corrected_nil {s : State} (h : s.softGran = []) (k n : Nat) : s.corrected k n = s := by
  simp [State.corrected, h]

theorem State.noted_nil {s : State} (hb : s.badGran = []) (hs : s.softGran = []) (k n : Nat) (space : BitVec 16) (who : Nat) :
    s.noted k n space who = s := by
  simp [State.noted, State.corrected_nil hs, hb]

/-- An aligned address inside an on-chip space leads where R99 to R105 say, and nothing changes. -/
theorem resolveIn_onChip {s : State} {spc : Space} {a n : Nat} (hspc : spc ≠ .gl) (hg : s.guards = []) (h : OnChip s spc n [a])
    (memo : Memo) (k : AccKind) (st32 : Bool) :
    resolveIn s memo s.core spc a n n k st32 = (s, memo, .ok (.here (onChip s spc a).1, (onChip s spc a).2)) := by
  obtain ⟨hal, hin⟩ := h a (List.mem_singleton_self a)
  cases spc with
  | gl => exact absurd rfl hspc
  | sp => simp_all [resolveIn, State.guarded_nil hg, onChip]
  | sw => simp_all [resolveIn, State.guarded_nil hg, onChip]
  | sb => simp_all [resolveIn, State.guarded_nil hg, onChip]
  | nb =>
    obtain ⟨hhi, hsup, hrank, hoff⟩ := hin
    have hr : a / 2 ^ 20 % 64 = a / 2 ^ 20 := Nat.mod_eq_of_lt (by omega)
    have hz : a / 2 ^ 26 = 0 := Nat.div_eq_of_lt hhi
    simp only [resolveIn, hal, hsup, hz, hr, Nat.not_le.2 hrank, Nat.not_lt.2 hoff, State.guarded_nil hg, onChip,
      ne_eq, not_true_eq_false, Bool.false_eq_true, if_false]

/-- The pieces of an access inside an on-chip space lead where R99 to R105 say, and nothing changes. -/
theorem resolveOnce_onChip {s : State} {spc : Space} {n : Nat} (hspc : spc ≠ .gl) (hg : s.guards = []) (k : AccKind) (st32 : Bool)
    (memo : Memo) : (ps : List Piece) → (∀ p ∈ ps, p.size = n ∧ OnChip s spc n [p.addr]) →
    resolveOnce s.core spc k st32 ps memo s
      = (s, memo, ps.map fun p => .ok (.here (onChip s spc p.addr).1, (onChip s spc p.addr).2))
  | [], _ => rfl
  | p :: ps, h => by
    obtain ⟨hsize, hin⟩ := h p List.mem_cons_self
    have hrest := resolveOnce_onChip hspc hg k st32 memo ps fun q hq => h q (List.mem_cons_of_mem _ hq)
    rw [resolveOnce, hsize, resolveIn_onChip hspc hg hin]
    simp only [hrest, List.map_cons]

theorem resolveAll_onChip {s : State} {spc : Space} {n : Nat} {ps : List Piece} (hspc : spc ≠ .gl) (hg : s.guards = [])
    (k : AccKind) (st32 : Bool) (h : ∀ p ∈ ps, p.size = n ∧ OnChip s spc n [p.addr]) :
    resolveAll s.core spc k st32 ps s = (s, ps.map fun p => .ok (.here (onChip s spc p.addr).1, (onChip s spc p.addr).2)) := by
  rw [resolveAll, resolveOnce_onChip hspc hg k st32 [] ps h]

/-- No fault where every piece leads somewhere. -/
theorem lowestErr_map_ok {α β : Type} (g : α → β) : (l : List α) → lowestErr (l.map fun x => Except.ok (g x)) = none
  | [] => rfl
  | _ :: l => lowestErr_map_ok g l

/-! ## What a quiet load sees -/

theorem Quiet.of_snapped {s : State} {fr : Frame} (q : Quiet s fr) (l : List Snap) : Quiet (s.snapped l) fr :=
  ⟨q.guards, q.bad, q.soft, q.views, q.effs, q.prior, q.snaps⟩

theorem Quiet.pendingBelow {s : State} {fr : Frame} (q : Quiet s fr) (lsid : Nat) : pendingBelow fr lsid = [] := by
  simp [Machine.pendingBelow, q.effs, q.prior]

theorem Quiet.fenced {s : State} {fr : Frame} (q : Quiet s fr) (lsid : Nat) : fr.fenced lsid = false := by
  simp [Frame.fenced, q.effs]

/-- The byte that the L1 line of a load, if there is one, or else the home gives. -/
def lineByte (m : Memory) (line : Option L1Line) (k : Nat) : Byte :=
  match line with
  | some x => (x.data >>> (8 * (k % 128))).setWidth 8
  | none => cget (w := 8) m k

/-- A quiet load whose line, if it has one, agrees with memory sees what memory holds; the line is kept for loads of lower LSID. -/
theorem loadPiece_quiet {s u : State} {fr : Frame} {gl : Bool} {view : View} {key n : Nat} {line : Option L1Line} (q : Quiet u fr)
    (hl : s.lineFor gl key = (u, line)) (hb : ∀ i < n, lineByte u.mem line (key + i) = cget (w := 8) u.mem (key + i)) (lsid : Nat) :
    ∃ x : Snap, s.loadPiece gl view fr (some lsid) [] key n
      = (if fr.loadsLeft fr.cur lsid then u.onFrame fun f => { f with snaps := x :: f.snaps } else u,
         { raw := mread u.mem key n, base := mread u.mem key n, got := mread u.mem key n }) := by
  have hread : ((List.range n).map fun i => lineByte u.mem line (key + i)) = mread u.mem key n :=
    List.map_congr_left fun i hi => hb i (List.mem_range.1 hi)
  have hs : (if line.isSome then u else u.corrected key n) = u := by rw [State.corrected_nil q.soft, ite_self]
  unfold State.loadPiece
  simp only [Option.isSome_some, Option.getD_some, Bool.true_and, q.effs, List.any_nil, hl, hs, q.views, List.isEmpty_nil,
    Bool.or_true, if_true, snapFor, q.snaps, List.foldl_nil, List.append_nil, Nat.mul_add_mod_self_right, hideStores, looseBelow,
    List.filter_nil, List.flatMap_nil, List.map_map, under, Prod.mk.injEq, Seen.mk.injEq, and_self, exists_and_right]
  refine ⟨⟨_, rfl⟩, ?_⟩
  rw [← hread]
  cases line <;> rfl

/-- A quiet load of one piece that leads to a byte of this package, with its line filled, gives the bytes of memory; nothing changes but the
lines kept for loads of lower LSID. -/
theorem readOne_quiet {s u : State} {fr : Frame} {spc : Space} {x : Placed} {key : Nat} {line : Option L1Line} {l : List Snap}
    (q : Quiet u fr) (hx : x.2.1 = .here key) (hl : s.lineFor (spc == .gl) key = (u.snapped l, line))
    (hb : ∀ i < x.1.1.size, lineByte u.mem line (key + i) = cget (w := 8) u.mem (key + i)) (lsid : Nat)
    (a : Option (Option (BitVec 8 × List Byte))) :
    ∃ l', s.readOne spc fr lsid false [] x a = (u.snapped l', mread u.mem key x.1.1.size)
      ∧ (fr.loadsLeft fr.cur lsid = false → l' = l) := by
  obtain ⟨y, hy⟩ := loadPiece_quiet (view := x.2.2) (q.of_snapped l) hl hb lsid
  have hone : s.readOne spc fr lsid false [] x a
      = (if fr.loadsLeft fr.cur lsid then u.snapped (y :: l) else u.snapped l, mread u.mem key x.1.1.size) := by
    simp only [State.readOne, hx, hy, State.guessed, q.fenced, Bool.false_and, Bool.and_false, Bool.or_false, Bool.false_eq_true,
      if_false, State.snapped_keep, State.snapped_mem]
  rw [hone]
  cases fr.loadsLeft fr.cur lsid with
  | true => exact ⟨y :: l, rfl, fun h => nomatch h⟩
  | false => exact ⟨l, rfl, fun _ => rfl⟩

/-- On chip no line of the L1 serves a load. -/
theorem readOne_onChip {s : State} {fr : Frame} {spc : Space} {x : Placed} {key : Nat} (q : Quiet s fr) (hspc : spc ≠ .gl)
    (hx : x.2.1 = .here key) (lsid : Nat) (l : List Snap) :
    ∃ l', (s.snapped l).readOne spc fr lsid false [] x none = (s.snapped l', mread s.mem key x.1.1.size)
      ∧ (fr.loadsLeft fr.cur lsid = false → l' = l) :=
  readOne_quiet (line := none) q hx (by simp [State.lineFor, hspc]) (fun _ _ => rfl) lsid none

/-- The pieces of an access that lead to bytes of this package, each with its place. -/
def placedAt (key : Piece → Nat) (view : Piece → View) (ps : List Piece) : List Placed :=
  ps.zipIdx.map fun x => (x, (.here (key x.1), view x.1))

theorem placedAt_here {key : Piece → Nat} {view : Piece → View} {ps : List Piece} {x : Placed} (h : x ∈ placedAt key view ps) :
    x.2.1 = .here (key x.1.1) := by
  obtain ⟨y, -, rfl⟩ := List.mem_map.1 h
  rfl

theorem map_placedAt {α : Type} (key : Piece → Nat) (view : Piece → View) (ps : List Piece) (f : Piece → α) :
    ((placedAt key view ps).map fun x => f x.1.1) = ps.map f :=
  calc ((placedAt key view ps).map fun x => f x.1.1)
    _ = (ps.zipIdx.map Prod.fst).map f := by rw [placedAt, List.map_map, List.map_map]; rfl
    _ = ps.map f := by rw [List.zipIdx_map_fst]

/-- One step of the fold that reads the pieces of a load in order. -/
def readStep (spc : Space) (fr : Frame) (lsid : Nat) (r : State × List (List Byte)) (x : Placed) : State × List (List Byte) :=
  ((r.1.readOne spc fr lsid false [] x none).1, r.2 ++ [(r.1.readOne spc fr lsid false [] x none).2])

/-- The fold of a quiet on-chip load over its pieces gives the bytes of memory. -/
theorem foldl_readStep_onChip {s : State} {fr : Frame} {spc : Space} {key : Piece → Nat} (q : Quiet s fr) (hspc : spc ≠ .gl)
    (lsid : Nat) : (all : List Placed) → (∀ x ∈ all, x.2.1 = .here (key x.1.1)) → (l : List Snap) → (bs : List (List Byte)) →
    ∃ l', all.foldl (readStep spc fr lsid) (s.snapped l, bs)
        = (s.snapped l', bs ++ all.map fun x => mread s.mem (key x.1.1) x.1.1.size)
      ∧ (fr.loadsLeft fr.cur lsid = false → l' = l)
  | [], _, l, bs => ⟨l, by simp, fun _ => rfl⟩
  | x :: all, h, l, bs => by
    obtain ⟨l₁, hone, hkeep₁⟩ := readOne_onChip q hspc (h x List.mem_cons_self) lsid l
    obtain ⟨l₂, hrest, hkeep₂⟩ := foldl_readStep_onChip q hspc lsid all (fun y hy => h y (List.mem_cons_of_mem _ hy)) l₁
      (bs ++ [mread s.mem (key x.1.1) x.1.1.size])
    refine ⟨l₂, ?_, fun hn => (hkeep₂ hn).trans (hkeep₁ hn)⟩
    rw [List.foldl_cons, readStep, hone, hrest]
    simp

theorem zip_eq_placedAt (key : Piece → Nat) (view : Piece → View) (ps : List Piece) :
    ps.zipIdx.zip (ps.map fun p => (Phys.here (key p), view p)) = placedAt key view ps := by
  have hmap : (ps.map fun p => (Phys.here (key p), view p)) = ps.zipIdx.map fun x => (Phys.here (key x.1), view x.1) :=
    calc (ps.map fun p => (Phys.here (key p), view p))
      _ = (ps.zipIdx.map Prod.fst).map fun p => (Phys.here (key p), view p) := by rw [List.zipIdx_map_fst]
      _ = ps.zipIdx.map fun x => (Phys.here (key x.1), view x.1) := by rw [List.map_map]; rfl
  rw [hmap, ← List.map_prod_left_eq_zip, placedAt]

/-- What is left of pieces none of which faults. -/
theorem filterMap_map_ok {α β : Type} {f : Except XErr β → Option β} (hf : ∀ x, f (.ok x) = some x) (g : α → β) (l : List α) :
    (l.map fun a => Except.ok (g a)).filterMap f = l.map g := by
  rw [List.filterMap_map, show (f ∘ fun a => Except.ok (g a)) = some ∘ g from funext fun a => hf (g a), List.filterMap_eq_map]

/-- Pieces of this package ask no other endpoint. -/
theorem askAll_here (idx : Nat) (all : List Placed) (s : State) : (l : List Placed) → (∀ x ∈ l, ∃ k, x.2.1 = .here k) →
    askAll idx all l s = s
  | [], _ => rfl
  | ((_, _), .here _, _) :: l, h => askAll_here idx all s l fun x hx => h x (List.mem_cons_of_mem _ hx)
  | ((_, _), .remote _ _, _) :: _, h => by simpa using h _ List.mem_cons_self
  | ((_, _), .door _ _, _) :: _, h => by simpa using h _ List.mem_cons_self

/-- A load that comes after no instruction still to fire, whose pieces lead to good bytes of this package, reads them in order. -/
theorem readPlaced_here {s : State} {fr : Frame} {lsid : BitVec 5} (hf : s.core.frame = some fr) (q : Quiet s fr)
    (hu : Unbarred fr lsid) (spc : Space) (key : Piece → Nat) (view : Piece → View) (ps : List Piece) :
    s.readPlaced lsid.toNat spc false ps (ps.map fun p => .ok (.here (key p), view p))
      = (((placedAt key view ps).foldl (readStep spc fr lsid.toNat) (s, [])).1,
         .bytes ((placedAt key view ps).foldl (readStep spc fr lsid.toNat) (s, [])).2) := by
  have hhere : ∀ x ∈ placedAt key view ps, ∃ k, x.2.1 = .here k := fun x hx => ⟨_, placedAt_here hx⟩
  unfold Unbarred at hu
  unfold State.readPlaced
  simp only [lowestErr_map_ok, hf, hu, q.pendingBelow, q.prior, filterMap_map_ok, implies_true, zip_eq_placedAt]
  generalize placedAt key view ps = all at hhere
  have hask : askAll fr.cur all all s = s := askAll_here _ _ _ _ hhere
  have hans : all.map (s.replyTo fr.cur all) = all.map fun _ => none :=
    List.map_congr_left fun x hx => by obtain ⟨k, hk⟩ := hhere x hx; simp only [State.replyTo, hk]
  have herr : (all.map fun x => s.readErr x none) = all.map fun _ => .ok () :=
    List.map_congr_left fun x hx => by
      obtain ⟨k, hk⟩ := hhere x hx
      simp only [State.readErr, hk, State.bad_nil q.bad, Bool.false_eq_true, if_false]
  rw [if_neg, if_neg]
  · simp only [hask, hans, ← List.map_prod_left_eq_zip, List.map_map, Function.comp_def, herr, lowestErr_map_ok, List.foldl_map,
      List.map_nil, Bool.false_and, Bool.false_eq_true, if_false]
    rfl
  · simp [hask, hans]
  · simp only [List.isEmpty_nil, Bool.not_true, Bool.false_and, Bool.false_or, Bool.and_eq_true, List.any_eq_true]
    rintro ⟨-, ⟨x, hx, hfar⟩, -⟩
    obtain ⟨k, hk⟩ := hhere x hx
    simp [hk] at hfar

/-- A load of which no piece faults waits for the instructions that it comes after, unless it goes early. -/
theorem readPlaced_waits {s : State} {fr : Frame} {lsid : BitVec 5} (hf : s.core.frame = some fr) (hu : ¬Unbarred fr lsid)
    (hearly : fr.goesEarly fr.cur lsid.toNat = false) (spc : Space) (acq : Bool) {ps : List Piece} (hps : ps ≠ [])
    {rs : List (Except XErr (Phys × View))} (hrs : lowestErr rs = none) :
    s.readPlaced lsid.toNat spc acq ps rs = (s, .wait) := by
  unfold Unbarred at hu
  simp [State.readPlaced, hrs, hf, hu, hearly, hps]

/-- A load of no piece reads nothing, and waits for nothing. -/
theorem readPieces_nil {s : State} {fr : Frame} (hf : s.core.frame = some fr) (lsid : Nat) (spc : Space) :
    s.readPieces lsid spc false [] = (s, .bytes []) := by
  simp [State.readPieces, State.readPlaced, resolveAll, resolveOnce, lowestErr, askAll, hf]

/-- A quiet load inside an on-chip space gives the bytes of memory. -/
theorem readPieces_onChip {s : State} {fr : Frame} {lsid : BitVec 5} {spc : Space} {n : Nat} {ps : List Piece}
    (hf : s.core.frame = some fr) (q : Quiet s fr) (hspc : spc ≠ .gl) (hu : Unbarred fr lsid)
    (hin : ∀ p ∈ ps, p.size = n ∧ OnChip s spc n [p.addr]) :
    ∃ l, s.readPieces lsid.toNat spc false ps = (s.snapped l, .bytes (ps.map fun p => mread s.mem (onChip s spc p.addr).1 p.size))
      ∧ (fr.loadsLeft fr.cur lsid.toNat = false → l = fr.snaps) := by
  obtain ⟨l, hfold, hkeep⟩ := foldl_readStep_onChip (key := fun p => (onChip s spc p.addr).1) q hspc lsid.toNat
    (placedAt (fun p => (onChip s spc p.addr).1) (fun p => (onChip s spc p.addr).2) ps) (fun _ => placedAt_here) fr.snaps []
  rw [State.snapped_snaps hf, List.nil_append, map_placedAt _ _ _ fun p => mread s.mem (onChip s spc p.addr).1 p.size] at hfold
  refine ⟨l, ?_, hkeep⟩
  rw [State.readPieces, resolveAll_onChip hspc q.guards .load false hin]
  dsimp only
  rw [readPlaced_here hf q hu, hfold]

theorem readPieces_waits_onChip {s : State} {fr : Frame} {lsid : BitVec 5} {spc : Space} {n : Nat} {ps : List Piece}
    (hf : s.core.frame = some fr) (hg : s.guards = []) (hspc : spc ≠ .gl) (hu : ¬Unbarred fr lsid)
    (hearly : fr.goesEarly fr.cur lsid.toNat = false) (hps : ps ≠ []) (hin : ∀ p ∈ ps, p.size = n ∧ OnChip s spc n [p.addr]) :
    s.readPieces lsid.toNat spc false ps = (s, .wait) := by
  rw [State.readPieces, resolveAll_onChip hspc hg .load false hin]
  exact readPlaced_waits hf hu hearly spc false hps (lowestErr_map_ok _ ps)

/-! ## The firing of a load -/

/-- A load as it fires: with a result of which `P` holds, or, behind an instruction of lower LSID that it comes after, not yet (R52, log 15). -/
def LoadsOrWaits (s : State) (fr : Frame) (i : Instr) (lsid : BitVec 5) (P : Tok → Prop) : Prop :=
  (Unbarred fr lsid → Loads s fr i lsid P)
  ∧ (¬Unbarred fr lsid → fr.goesEarly fr.cur lsid.toNat = false → exec i s = .next (s.waitsAt i))

theorem acquires_rlx {m : MemF} (h : m.ord = .rlx) : acquires m = false := by simp [acquires, h, Ord.isAcq]

/-- A load that has its bytes completes with the token that they make, in the state that the reading leaves. -/
theorem fireLoad_bytes {i : Instr} {s u : State} {fr : Frame} {x : In} {m : MemF} {pieces : In → List Piece}
    {out : In → List (List Byte) → Tok × Flags} {l : List (List Byte)} (h : Fires i s fr x)
    (hr : s.readPieces m.lsid.toNat m.sp (acquires m) (pieces x) = (u, .bytes l)) (hfl : (out x l).2 = 0) :
    fireLoad i s m pieces out
      = .next ((u.markUnits (unitBits s.core.r i)).onFrame fun f => f.complete fr.cur (targetsOf i) (out x l).1 0 []) := by
  rw [fireLoad, fireWith_fires h, hr]
  dsimp only
  rw [hfl, settle_done (by simp)]

theorem fireLoad_waits {i : Instr} {s : State} {fr : Frame} {x : In} {m : MemF} {pieces : In → List Piece}
    {out : In → List (List Byte) → Tok × Flags} (h : Fires i s fr x)
    (hr : s.readPieces m.lsid.toNat m.sp (acquires m) (pieces x) = (s, .wait)) :
    fireLoad i s m pieces out = .next (s.waitsAt i) := by
  rw [fireLoad, fireWith_fires h, hr, State.waitsAt]
  exact congrArg _ (State.onFrame_congr (fr := fr) (by simp [h.frame]) rfl)

/-- A quiet load of pieces inside an on-chip space. -/
theorem loadsOrWaits_onChip {i : Instr} {s : State} {fr : Frame} {x : In} {m : MemF} {pieces : In → List Piece}
    {out : In → List (List Byte) → Tok × Flags} {n : Nat} (hexec : exec i s = fireLoad i s m pieces out) (h : Fires i s fr x)
    (q : Quiet s fr) (hord : m.ord = .rlx) (hspc : m.sp ≠ .gl) (hps : pieces x ≠ [])
    (hin : ∀ p ∈ pieces x, p.size = n ∧ OnChip s m.sp n [p.addr]) (hfl : ∀ l, (out x l).2 = 0) :
    LoadsOrWaits s fr i m.lsid fun tok =>
      tok = (out x ((pieces x).map fun p => mread s.mem (onChip s m.sp p.addr).1 p.size)).1 := by
  constructor
  · intro hu
    obtain ⟨l, hread, hkeep⟩ := readPieces_onChip h.frame q hspc hu hin
    rw [← acquires_rlx hord] at hread
    refine ⟨_, 0, l, ?_, rfl, hkeep⟩
    rw [hexec, fireLoad_bytes h hread (hfl _), State.firedWith]
    exact congrArg _ (State.onFrame_congr (fr := { fr with snaps := l }) (by simp [h.frame]) rfl)
  · intro hu hearly
    have hread := readPieces_waits_onChip h.frame q.guards hspc hu hearly hps hin
    rw [← acquires_rlx hord] at hread
    rw [hexec, fireLoad_waits h hread]

theorem LoadsOrWaits.imp {s : State} {fr : Frame} {i : Instr} {lsid : BitVec 5} {P Q : Tok → Prop} (h : LoadsOrWaits s fr i lsid P)
    (hPQ : ∀ tok, P tok → Q tok) : LoadsOrWaits s fr i lsid Q :=
  ⟨fun hu => let ⟨tok, fl, l, hexec, hP, hkeep⟩ := h.1 hu; ⟨tok, fl, l, hexec, hPQ tok hP, hkeep⟩, h.2⟩

end Sys2Proof.Machine
end

section
/-!
SUPPORT: LD, VLD, VLDS and VGATH of the on-chip spaces (R219 to R222).
-/
namespace Sys2Proof.Machine

/-! ## LD -/

theorem sext_ofNat {w : Nat} (hw : w ≤ 64) (p : Nat) : sext w (BitVec.ofNat 64 p) = (BitVec.ofNat w p).signExtend 64 := by
  rw [sext, BitVec.setWidth_ofNat_of_le hw]

theorem Ty.width_le {t : Ty} : t.width ≤ 64 := by cases t <;> decide

theorem loadWord_eq (t : Ty) (bs : List Byte) :
    loadWord t bs = if t.isSigned then (BitVec.ofNat t.width (ofBytes bs)).signExtend 64 else BitVec.ofNat 64 (ofBytes bs) := by
  rw [loadWord, sext_ofNat Ty.width_le]

theorem exec_ld (c : Ctl) (t : Ty) (m : MemF) (disp : BitVec 20) (s : State) : exec (.ld c t m disp) s = fireLoad (.ld c t m disp) s m
    (fun x => [{ addr := effAddr (tokWord x.a) disp, size := t.width / 8 }]) fun _ l => (.s (loadWord t (l.headD [])), 0) := rfl

/-- LD of an on-chip space (R219). -/
theorem ld_onChip {c : Ctl} {t : Ty} {m : MemF} {disp : BitVec 20} {s : State} {fr : Frame} {x : In}
    (h : Fires (.ld c t m disp) s fr x) (q : Quiet s fr) (hord : m.ord = .rlx) (hspc : m.sp ≠ .gl)
    (hin : OnChip s m.sp (t.width / 8) [effAddr (tokWord x.a) disp]) :
    LoadsOrWaits s fr (.ld c t m disp) m.lsid fun tok =>
      tok = .s (loadWord t (mread s.mem (onChip s m.sp (effAddr (tokWord x.a) disp)).1 (t.width / 8))) :=
  loadsOrWaits_onChip (exec_ld c t m disp s) h q hord hspc (by simp)
    (fun p hp => by obtain rfl := List.mem_singleton.1 hp; exact ⟨rfl, hin⟩) fun _ => rfl

/-! ## Lanes -/

/-- The lanes that an access takes, of those that the lane mask and a further condition allow. -/
def lanesTaken (w : Nat) (lm : Mask) (ok : Nat → Bool) : List Nat := (List.range (laneCount w)).filter fun j => laneOk w lm j && ok j

/-- The same, each with its address. -/
def addrsTaken (w : Nat) (lm : Mask) (ok : Nat → Bool) (addr : Nat → Nat) : List (Nat × Nat) :=
  (lanesTaken w lm ok).map fun j => (j, addr j)

theorem laneAddrs_and (w : Nat) (lm : Mask) (ok : Nat → Bool) (addr : Nat → Nat) :
    laneAddrs w (fun j => laneOk w lm j && ok j) addr = addrsTaken w lm ok addr := rfl

theorem laneAddrs_mask (w : Nat) (lm : Mask) (addr : Nat → Nat) :
    laneAddrs w (laneOk w lm) addr = addrsTaken w lm (fun _ => true) addr := by
  simp only [laneAddrs, addrsTaken, lanesTaken, Bool.and_true]

theorem addrsTaken_congr {w : Nat} {lm : Mask} {ok : Nat → Bool} {addr addr' : Nat → Nat} (h : ∀ j, ok j = true → addr j = addr' j) :
    addrsTaken w lm ok addr = addrsTaken w lm ok addr' :=
  List.map_congr_left fun j hj => by
    have hok : ok j = true := (Bool.and_eq_true_iff.1 (List.mem_filter.1 hj).2).2
    rw [h j hok]

theorem addrsTaken_nil {w : Nat} {lm : Mask} (h : ∀ j, laneOk w lm j = false) (ok : Nat → Bool) (addr : Nat → Nat) :
    addrsTaken w lm ok addr = [] := by
  simp [addrsTaken, lanesTaken, h]

theorem find?_lanesTaken {w j : Nat} (lm : Mask) (ok : Nat → Bool) (hj : j < laneCount w) :
    ((lanesTaken w lm ok).find? fun k => k == j) = if laneOk w lm j && ok j then some j else none := by
  rw [lanesTaken, List.find?_filter]
  split
  case isTrue h =>
    exact List.find?_range_eq_some.2 ⟨by simpa using h, List.mem_range.2 hj, fun k hk => by simp [Nat.ne_of_lt hk]⟩
  case isFalse h =>
    refine List.find?_range_eq_none.2 fun k _ => ?_
    by_cases hk : k = j
    · subst hk; simp only [h, Bool.false_eq_true, false_and, decide_false, Bool.not_false]
    · simp [hk]

/-- The lanes of a loaded vector are those whose bytes have been read. -/
theorem lanesAre_loadedVec {t : Ty} (ht : t.isLT = true) (lm : Mask) (ok : Nat → Bool) (addr : Nat → Nat) {rd : Piece → List Byte}
    (hrd : ∀ a, ofBytes (rd { addr := a, size := t.width / 8 }) < 2 ^ t.width) :
    LanesAre t.width lm
      (loadedVec t.width (addrsTaken t.width lm ok addr) ((lanePieces t.width (addrsTaken t.width lm ok addr)).map rd))
      fun j => if ok j then some (ofBytes (rd { addr := addr j, size := t.width / 8 })) else none := by
  refine ⟨⟨_, _, rfl⟩, fun j hj => ?_⟩
  rw [loadedVec, laneOf_packLanes ht _ hj]
  simp only [addrsTaken, lanePieces, List.map_map, Function.comp_def, List.zip_map', List.getD_eq_getElem?_getD, List.getElem?_map,
    List.getElem?_range hj, Option.map_some, Option.getD_some, List.find?_map, find?_lanesTaken lm ok hj]
  cases laneOk t.width lm j <;> cases ok j <;> simp [Nat.mod_eq_of_lt (hrd _)]

/-- Where no lane has been read every lane is a null. -/
theorem lanesAre_loadedVec_nil {t : Ty} (ht : t.isLT = true) (lm : Mask) (bs : List (List Byte)) :
    LanesAre t.width lm (loadedVec t.width [] bs) fun _ => none := by
  refine ⟨⟨_, _, rfl⟩, fun j hj => ?_⟩
  rw [loadedVec, laneOf_packLanes ht _ hj]
  simp [hj]

/-- Lanes that read the same bytes read them once, and each gets them (R222). -/
theorem spread_oncePieces (w : Nat) (l : List (Nat × Nat)) (rd : Piece → List Byte) :
    spread w l ((oncePieces w l).map rd) = (lanePieces w l).map rd := by
  refine List.map_congr_left fun p hp => ?_
  have hmem : p ∈ oncePieces w l := List.mem_eraseDups.2 hp
  rw [← List.map_prod_left_eq_zip, List.find?_map]
  cases hf : (oncePieces w l).find? ((fun x : Piece × List Byte => x.1 == p) ∘ fun x => (x, rd x)) with
  | none => simpa using List.find?_eq_none.1 hf p hmem
  | some y =>
    have hy : y = p := by simpa using List.find?_some hf
    rw [hy]
    rfl

/-! ## Vector loads -/

/-- A vector load of an on-chip space: lane j gives the element at its address (R220, R221), be the pieces those of the lanes or, where
lanes read the same bytes, those bytes once (R222). -/
theorem lanes_onChip {t : Ty} {ok : Nat → Bool} {addr : Nat → Nat} {i : Instr} {s : State} {fr : Frame} {x : In} {m : MemF}
    {pieces : In → List Piece} {out : In → List (List Byte) → Tok × Flags} (hexec : exec i s = fireLoad i s m pieces out)
    (h : Fires i s fr x) (q : Quiet s fr) (hord : m.ord = .rlx) (ht : t.isLT = true) (hspc : m.sp ≠ .gl)
    (hpieces : ∀ p, p ∈ pieces x ↔ p ∈ lanePieces t.width (addrsTaken t.width x.lm ok addr)) (hfl : ∀ l, (out x l).2 = 0)
    (hout : ∀ rd : Piece → List Byte, (out x ((pieces x).map rd)).1
      = loadedVec t.width (addrsTaken t.width x.lm ok addr) ((lanePieces t.width (addrsTaken t.width x.lm ok addr)).map rd))
    (hne : lanesTaken t.width x.lm ok ≠ []) (hin : OnChip s m.sp (t.width / 8) ((lanesTaken t.width x.lm ok).map addr)) :
    LoadsOrWaits s fr i m.lsid fun tok => LanesAre t.width x.lm tok fun j =>
      if ok j then some (ofBytes (mread s.mem (onChip s m.sp (addr j)).1 (t.width / 8))) else none := by
  have hps : pieces x ≠ [] := by
    obtain ⟨j, hj⟩ := List.exists_mem_of_ne_nil _ hne
    have hp : ({ addr := addr j, size := t.width / 8 } : Piece) ∈ pieces x :=
      (hpieces _).2 (List.mem_map_of_mem (List.mem_map_of_mem hj))
    exact List.ne_nil_of_mem hp
  have hplaced : ∀ p ∈ pieces x, p.size = t.width / 8 ∧ OnChip s m.sp (t.width / 8) [p.addr] := by
    intro p hp
    obtain ⟨y, hy, rfl⟩ := List.mem_map.1 ((hpieces p).1 hp)
    obtain ⟨j, hj, rfl⟩ := List.mem_map.1 hy
    refine ⟨rfl, fun a ha => hin a ?_⟩
    rw [List.mem_singleton.1 ha]
    exact List.mem_map_of_mem hj
  refine (loadsOrWaits_onChip hexec h q hord hspc hps hplaced hfl).imp fun tok htok => ?_
  rw [htok, hout]
  refine lanesAre_loadedVec ht x.lm ok addr fun a => ?_
  have hw : 8 * (t.width / 8) = t.width := by rcases Ty.isLT_width ht with hw | hw | hw <;> rw [hw]
  simpa only [hw] using ofBytes_mread_lt s.mem (onChip s m.sp a).1 (t.width / 8)

/-! ## What the vector loads take (R220 to R222) -/

theorem laneOf_isSome (w : Nat) (tok : Tok) : (fun j => (laneOf w tok j).isSome) = laneOk w (tokValid tok) := by
  funext j
  cases h : laneOk w (tokValid tok) j <;> simp [laneOf, h]

theorem toSigned_eq (n x : Nat) : toSigned n x = (BitVec.ofNat n x).toInt := by
  simp [toSigned, BitVec.toInt_eq_toNat_cond]

/-- Where a lane of a gather leads: the base plus its offset, a signed number of elements (R221). -/
def gathered (w base : Nat) (off : Tok) (j : Nat) : Nat :=
  (((base : Int) + (BitVec.ofNat w ((laneOf w off j).getD 0)).toInt * (w / 8 : Nat)) % (2 ^ 64 : Nat)).toNat

theorem indexed_eq_gathered {w base j : Nat} {off : Tok} (h : (laneOf w off j).isSome = true) :
    indexed w base off j = gathered w base off j := by
  have hlane : (laneOf w off j).getD 0 = laneNat w (tokVec off) j := by
    rw [laneOf] at h ⊢
    split at h
    · simp [*]
    · cases h
  rw [indexed, wrap, toSigned_eq, gathered, hlane]

section
variable (c : Ctl) (t : Ty) (m : MemF) (disp : BitVec 20) (s : State)

theorem exec_vld : exec (.vld c t m disp) s = fireLoad (.vld c t m disp) s m
    (fun x => lanePieces t.width (addrsTaken t.width x.lm (fun _ => true) (contig t.width (effAddr (tokWord x.a) disp))))
    fun x l => (loadedVec t.width (addrsTaken t.width x.lm (fun _ => true) (contig t.width (effAddr (tokWord x.a) disp))) l, 0) := by
  simp only [← laneAddrs_mask]
  rfl

theorem exec_vlds : exec (.vlds c t m disp) s = fireLoad (.vlds c t m disp) s m
    (fun x => oncePieces t.width
      (addrsTaken t.width x.lm (fun _ => true) (strided (effAddr (tokWord x.a) disp) (tokWord x.b))))
    fun x l =>
      let lanes := addrsTaken t.width x.lm (fun _ => true) (strided (effAddr (tokWord x.a) disp) (tokWord x.b))
      (loadedVec t.width lanes (spread t.width lanes l), 0) := by
  simp only [← laneAddrs_mask]
  rfl

theorem exec_vgath : exec (.vgath c t m disp) s = fireLoad (.vgath c t m disp) s m
    (fun x => oncePieces t.width (addrsTaken t.width x.lm (fun j => (laneOf t.width x.b j).isSome)
      (gathered t.width (effAddr (tokWord x.a) disp) x.b)))
    fun x l =>
      let lanes := addrsTaken t.width x.lm (fun j => (laneOf t.width x.b j).isSome) (gathered t.width (effAddr (tokWord x.a) disp) x.b)
      (loadedVec t.width lanes (spread t.width lanes l), 0) := by
  have hlanes (x : In) : laneAddrs t.width (fun j => laneOk t.width x.lm j && laneOk t.width (tokValid x.b) j)
        (indexed t.width (effAddr (tokWord x.a) disp) x.b)
      = addrsTaken t.width x.lm (fun j => (laneOf t.width x.b j).isSome) (gathered t.width (effAddr (tokWord x.a) disp) x.b) := by
    rw [laneAddrs_and, ← laneOf_isSome]
    exact addrsTaken_congr fun _ hj => indexed_eq_gathered hj
  simp only [← hlanes]
  rfl

end

/-- A vector load with no lane to take reads nothing, whatever its space, and gives lane nulls alone. -/
theorem fireLoad_noLane {t : Ty} {i : Instr} {s : State} {fr : Frame} {x : In} {m : MemF} {pieces : In → List Piece}
    {out : In → List (List Byte) → Tok × Flags} {bs : List (List Byte)} (hexec : exec i s = fireLoad i s m pieces out)
    (h : Fires i s fr x) (hord : m.ord = .rlx) (ht : t.isLT = true) (hps : pieces x = [])
    (hout : out x [] = (loadedVec t.width [] bs, 0)) :
    Gives s i fun tok => LanesAre t.width x.lm tok fun _ => none := by
  have hread : s.readPieces m.lsid.toNat m.sp (acquires m) (pieces x) = (s, .bytes []) := by
    rw [acquires_rlx hord, hps, readPieces_nil h.frame]
  refine ⟨loadedVec t.width [] bs, 0, ?_, lanesAre_loadedVec_nil ht x.lm bs⟩
  rw [hexec, fireLoad_bytes h hread (by rw [hout]), hout, State.firedWith]
  exact congrArg _ (State.onFrame_congr (fr := fr) (by simp [h.frame]) rfl)

end Sys2Proof.Machine
end

section
/-!
SUPPORT: a mapped global page: the walk that ends at its leaf, and a load through it (R97, R107, R371 to R376).
-/
namespace Sys2Proof.Machine

/-! ## Caches -/

/-- A state with other caches and another record of units. -/
def State.recached (s : State) (tlb : List Tlb) (l1 : List L1Line) (units : BitVec 12) : State :=
  { s with tlb := tlb, core := { s.core with l1 := l1, units := units } }

@[simp] theorem State.recached_guards (s : State) (tlb : List Tlb) (l1 : List L1Line) (units : BitVec 12) :
    (s.recached tlb l1 units).guards = s.guards := rfl

/-- A load that has changed caches, kept lines, the record of units and its frame has changed nothing that a program sees. -/
theorem State.seenSame_recached (s : State) (tlb : List Tlb) (l1 : List L1Line) (units u : BitVec 12) (l : List Snap) (g : Frame → Frame) :
    s.SeenSame ((((s.recached tlb l1 units).snapped l).markUnits u).onFrame g) := by
  simp only [State.SeenSame, State.recached, State.snapped, State.markUnits, State.onFrame, and_self]

theorem Quiet.of_recached {s : State} {fr : Frame} (q : Quiet s fr) (tlb : List Tlb) (l1 : List L1Line) (units : BitVec 12) :
    Quiet (s.recached tlb l1 units) fr :=
  ⟨q.guards, q.bad, q.soft, q.views, q.effs, q.prior, q.snaps⟩

/-! ## The walk -/

theorem State.entryKey_eq {s : State} (h : s.migs = []) (level va table : Nat) : s.entryKey level va table = table + 8 * vaIndex level va := by
  simp [State.entryKey, migKey, h]

theorem State.served_eq {s : State} (h : s.tlb = []) (p : Nat) (space : BitVec 16) (level va k : Nat) :
    s.served p space level va k = [s.readWord k] := by
  simp [State.served, h]

section
variable {s : State} {p : Nat} {space : BitVec 16} {va : Nat} {addr : Word} {table n : Nat}

/-- One step of the recursion, for which Lean makes no equation: `State.ways._f` is its body, which takes the ways of the level below. -/
theorem State.ways_step_succ : ∃ r, s.ways p space va addr table (n + 1)
    = State.ways._f s p space va addr (n + 1) ⟨fun t => s.ways p space va addr t n, r⟩ table := by
  refine ⟨(Nat.brecOn.go (motive := fun _ => Nat → List Way) n (State.ways._f s p space va addr)).2, ?_⟩
  delta State.ways
  rfl

theorem State.ways_step : ∃ r, s.ways p space va addr table n = State.ways._f s p space va addr n r table := by
  cases n with
  | zero =>
    refine ⟨PUnit.unit, ?_⟩
    delta State.ways
    rfl
  | succ n =>
    obtain ⟨r, hr⟩ := State.ways_step_succ (s := s) (p := p) (space := space) (va := va) (addr := addr) (table := table) (n := n)
    exact ⟨_, hr⟩

/-- The way from a place where only one entry may serve, and that one is a leaf. -/
theorem State.ways_leaf {e : Word} (hbad : s.bad (s.entryKey n va table) 8 = false)
    (hserved : s.served p space n va (s.entryKey n va table) = [e])
    (he : enter (s.part p).dies (s.part p).endp addr n e = .leaf e) :
    s.ways p space va addr table n = [{ through := [(n, e)], fin := .inl (e, n) }] := by
  obtain ⟨r, hr⟩ := State.ways_step (s := s) (p := p) (space := space) (va := va) (addr := addr) (table := table) (n := n)
  rw [hr]
  simp only [State.ways._f, hbad, hserved, he, Bool.false_eq_true, if_false, List.flatMap_cons, List.flatMap_nil, List.append_nil]

/-- The ways from a place where only one entry may serve, and that one points to a table: those from that table on. -/
theorem State.ways_table {e : Word} {next : Nat} (hbad : s.bad (s.entryKey (n + 1) va table) 8 = false)
    (hserved : s.served p space (n + 1) va (s.entryKey (n + 1) va table) = [e])
    (he : enter (s.part p).dies (s.part p).endp addr (n + 1) e = .table next) :
    s.ways p space va addr table (n + 1)
      = (s.ways p space va addr next n).map fun w => { w with through := (n + 1, e) :: w.through } := by
  obtain ⟨r, hr⟩ := State.ways_step_succ (s := s) (p := p) (space := space) (va := va) (addr := addr) (table := table) (n := n)
  rw [hr]
  simp only [State.ways._f, hbad, hserved, he, Bool.false_eq_true, if_false, List.flatMap_cons, List.flatMap_nil, List.append_nil]

end

/-- Without cached entries, moving pages or check-bit errors the only way is the walk of the tables as they stand. -/
theorem WalkMeets.ways {s : State} {p va table level l : Nat} {e : Word} (space : BitVec 16) (addr : Word)
    (htlb : s.tlb = []) (hmigs : s.migs = []) (hbad : s.badGran = []) (hw : WalkMeets s (s.part p).dies va table level e l)
    (hvalid : e.getLsbD 0 = true) (hleaf : e.getLsbD 1 = true) (hgood : badLeaf (s.part p).dies (s.part p).endp l e = false) :
    ∃ through, s.ways p space va addr table level = [{ through := through, fin := .inl (e, l) }] := by
  induction hw with
  | here table level =>
    have he : enter (s.part p).dies (s.part p).endp addr level (s.readWord (s.entryKey level va table))
        = .leaf (s.readWord (table + 8 * vaIndex level va)) := by
      simp only [State.entryKey_eq hmigs, enter, bitAt, hvalid, hleaf, hgood, Bool.not_true, Bool.false_eq_true, if_false, if_true]
    rw [State.entryKey_eq hmigs] at he
    exact ⟨_, State.ways_leaf (State.bad_nil hbad _ _) (by rw [State.served_eq htlb, State.entryKey_eq hmigs]) he⟩
  | next table level e l hv hp hb _ ih =>
    obtain ⟨through, hrest⟩ := ih hvalid hleaf hgood
    have he : enter (s.part p).dies (s.part p).endp addr (level + 1) (s.readWord (s.entryKey (level + 1) va table))
        = .table (field (s.readWord (table + 8 * vaIndex (level + 1) va)) 39 8 * 256) := by
      simp only [State.entryKey_eq hmigs, enter, bitAt, hv, hp, hb, Bool.not_true, Bool.false_eq_true, if_false]
    rw [State.ways_table (State.bad_nil hbad _ _) (State.served_eq htlb ..) he, hrest]
    exact ⟨_, rfl⟩

theorem State.walkCorrected_nil {s : State} (h : s.softGran = []) (q p : Nat) (space : BitVec 16) (va : Nat) (addr : Word) (table : Nat) :
    s.walkCorrected q p space va addr table = s := by
  simp [State.walkCorrected, h]

/-- The leaf of a mapped page serves the access; the entries on the way are cached. -/
theorem Mapped.leafFor {s : State} {va n level : Nat} {leaf : Word} (h : Mapped s va n leaf level) (addr : Word) :
    ∃ tlb, leafFor s (s.partOfCore s.core.id) s.core.space va addr
      = (s.recached tlb s.core.l1 s.core.units, .ok (leaf, pageSize level)) := by
  obtain ⟨through, hways⟩ := h.walk.ways s.core.space addr h.tlb h.migs h.bad h.valid h.isLeaf h.good
  unfold Machine.leafFor
  simp only [h.root, Bool.not_true, Bool.false_eq_true, if_false, State.walkCorrected_nil h.soft, hways, h.tlb, List.filter_nil,
    List.map_nil, List.append_nil, distinctEnds, State.choose]
  exact ⟨_, rfl⟩

theorem State.usesUnit_recached (s : State) (tlb : List Tlb) (l1 : List L1Line) (units u : BitVec 12) :
    (s.recached tlb l1 units).usesUnit s.core.id u = s.recached tlb l1 (units ||| u) :=
  State.onCore_self (s := s.recached tlb l1 units) rfl rfl

/-- An access that the leaf of a mapped page of TYPE 00 allows leads into the leaf's frame; only caches and the record of units change. -/
theorem Mapped.resolveIn {s : State} {va n level : Nat} {leaf : Word} {k : AccKind} {st32 : Bool} (h : Mapped s va n leaf level)
    (hg : s.guards = []) (hty : field leaf 7 6 = 0) (hright : rightsOk leaf k st32 = true) :
    ∃ tlb units memo, resolveIn s [] s.core .gl va n n k st32
      = (s.recached tlb s.core.l1 units, memo, .ok (.here (frameAddr leaf level va), .other)) := by
  obtain ⟨tlb, hleaf⟩ := h.leafFor (BitVec.ofNat 64 va)
  have hkey : migKey (s.recached tlb s.core.l1 s.core.units).migs (field leaf 39 16 * 65536 + va % pageSize level)
      = frameAddr leaf level va := by
    show migKey s.migs _ = _
    simp [migKey, h.migs, frameAddr]
  have htr : ∃ memo, translateIn s [] (s.partOfCore s.core.id) s.core.space va n k st32
      = (s.recached tlb s.core.l1 s.core.units, memo, .ok (.here (frameAddr leaf level va), field leaf 10 8 != 0)) := by
    simp only [translateIn, Nat.not_lt.2 h.inside, if_false, leafOnce, List.find?_nil, hleaf, hright, Bool.not_true, Bool.false_eq_true,
      hty, hkey]
    exact ⟨_, rfl⟩
  obtain ⟨memo, htr⟩ := htr
  simp only [Machine.resolveIn, h.aligned, ne_eq, not_true_eq_false, if_false, htr]
  cases field leaf 10 8 != 0 with
  | true =>
    refine ⟨tlb, s.core.units ||| 0x800, memo, ?_⟩
    simp only [if_true, State.usesUnit_recached, State.guarded_nil ((State.recached_guards ..).trans hg), Bool.false_eq_true, if_false]
  | false =>
    refine ⟨tlb, s.core.units, memo, ?_⟩
    simp only [State.guarded_nil ((State.recached_guards ..).trans hg), Bool.false_eq_true, if_false]

/-! ## The L1 line -/

theorem setWidth_ofBytes {w i : Nat} (l : List Byte) (hi : 8 * i + 8 ≤ w) :
    (BitVec.ofNat w (ofBytes l) >>> (8 * i)).setWidth 8 = l.getD i 0 := by
  refine BitVec.eq_of_getLsbD_eq fun j hj => ?_
  have hw : 8 * i + j < w := by omega
  simp only [BitVec.getLsbD_setWidth, BitVec.getLsbD_ushiftRight, BitVec.getLsbD_ofNat, hj, hw, decide_true, Bool.true_and,
    ofBytes_testBit l i j hj]

/-- A line filled for a load gives what memory holds. -/
theorem lineByte_fill {s : State} {key k fill : Nat} (hk : k / 128 = key / 128) :
    lineByte s.mem (some { line := key / 128, data := s.lineData key, fill := fill }) k = cget (w := 8) s.mem k := by
  have hi : k % 128 < 128 := Nat.mod_lt _ (by decide)
  have hk' : key / 128 * 128 + k % 128 = k := by omega
  simp only [lineByte, State.lineData, State.readNat]
  rw [setWidth_ofBytes _ (by omega)]
  simp [mread, hi, hk']

/-- An empty L1 serves a load of a global page with a line that agrees with memory. -/
theorem lineFor_fill {s : State} (hbad : s.badGran = []) (hsoft : s.softGran = []) (hl1 : s.core.l1 = []) (key : Nat) :
    ∃ l1 line, s.lineFor true key = (s.recached s.tlb l1 s.core.units, line)
      ∧ ∀ k, k / 128 = key / 128 → lineByte s.mem line k = cget (w := 8) s.mem k := by
  cases hd : (hbmDie key).isSome with
  | true =>
    simp only [State.lineFor, hd, Bool.and_true, if_true, hl1, List.find?_nil, List.filter_nil, State.noted_nil hbad hsoft]
    exact ⟨_, _, rfl, fun k hk => lineByte_fill hk⟩
  | false =>
    simp only [State.lineFor, hd, Bool.and_false, Bool.false_eq_true, if_false]
    exact ⟨_, _, rfl, fun k _ => rfl⟩

/-- A piece that divides the line lies in one line. -/
theorem same_line {n a i : Nat} (hn : n ∣ 128) (ha : a % n = 0) (hi : i < n) : (a + i) / 128 = a / 128 := by
  obtain ⟨m, hm⟩ := hn
  obtain ⟨q, rfl⟩ := Nat.dvd_of_mod_eq_zero ha
  rw [hm, ← Nat.div_div_eq_div_mul, ← Nat.div_div_eq_div_mul, Nat.mul_add_div (by omega), Nat.div_eq_of_lt hi, Nat.add_zero,
    Nat.mul_div_cancel_left _ (by omega)]

/-- The frame of a leaf and its pages are aligned to the pieces of a line. -/
theorem frameAddr_mod {n : Nat} (hn : n ∣ 128) (leaf : Word) (level va : Nat) : frameAddr leaf level va % n = va % n := by
  have hframe : n ∣ 65536 := Nat.dvd_trans hn ⟨512, rfl⟩
  have hpage : n ∣ pageSize level := by
    refine Nat.dvd_trans hframe ?_
    unfold pageSize
    split
    · exact ⟨1, rfl⟩
    · exact ⟨32, rfl⟩
    · exact ⟨16384, rfl⟩
  rw [frameAddr, Nat.add_mod, Nat.mod_eq_zero_of_dvd (Nat.dvd_mul_left_of_dvd hframe _), Nat.zero_add, Nat.mod_mod, Nat.mod_mod_of_dvd _ hpage]

/-! ## A load through a mapped page -/

/-- A quiet load of a mapped page of TYPE 00 through an empty L1 gives the bytes of the leaf's frame. -/
theorem Mapped.readPieces {s : State} {fr : Frame} {lsid : BitVec 5} {va n level : Nat} {leaf : Word} (h : Mapped s va n leaf level)
    (hf : s.core.frame = some fr) (q : Quiet s fr) (hu : Unbarred fr lsid) (hn : n ∣ 128) (hl1 : s.core.l1 = [])
    (hty : field leaf 7 6 = 0) (hread : leaf.getLsbD 2 = true) :
    ∃ tlb l1 units l, s.readPieces lsid.toNat .gl false [{ addr := va, size := n }]
      = ((s.recached tlb l1 units).snapped l, .bytes [mread s.mem (frameAddr leaf level va) n]) := by
  obtain ⟨tlb, units, memo, hres⟩ := h.resolveIn (k := .load) (st32 := false) q.guards hty (by simp [rightsOk, hty, bitAt, hread])
  obtain ⟨l1, line, hline, hbyte⟩ := lineFor_fill (s := s.recached tlb s.core.l1 units) q.bad q.soft hl1 (frameAddr leaf level va)
  have hframe : (s.recached tlb l1 units).core.frame = some fr := hf
  have hline' : (s.recached tlb s.core.l1 units).lineFor (Space.gl == .gl) (frameAddr leaf level va)
      = ((s.recached tlb l1 units).snapped fr.snaps, line) := by rw [State.snapped_snaps hframe]; exact hline
  obtain ⟨l, hone, -⟩ := readOne_quiet (x := (({ addr := va, size := n }, 0), (.here (frameAddr leaf level va), .other)))
    (q.of_recached tlb l1 units) rfl hline'
    (fun i hi => hbyte _ (same_line hn (by rw [frameAddr_mod hn, h.aligned]) hi)) lsid.toNat none
  have hplaced := readPlaced_here (s := s.recached tlb s.core.l1 units) hf (q.of_recached _ _ _) hu .gl
    (fun _ => frameAddr leaf level va) (fun _ => .other) [{ addr := va, size := n }]
  refine ⟨tlb, l1, units, l, ?_⟩
  simp only [State.readPieces, resolveAll, resolveOnce, hres]
  refine hplaced.trans ?_
  simp only [placedAt, List.zipIdx_cons, List.zipIdx_nil, List.map_cons, List.map_nil, List.foldl_cons, List.foldl_nil, readStep, hone]
  rfl

theorem Ty.isST_size {t : Ty} (h : t.isST = true) : t.width / 8 ∣ 128 := by
  cases t <;> simp [Ty.isST, Ty.isInt, Ty.isFL] at h <;> decide

/-- LD of a mapped page of TYPE 00 (R219, R371, R375). -/
theorem ld_mapped {c : Ctl} {t : Ty} {m : MemF} {disp : BitVec 20} {s : State} {fr : Frame} {x : In} {leaf : Word} {level : Nat}
    (h : Fires (.ld c t m disp) s fr x) (q : Quiet s fr) (hord : m.ord = .rlx) (ht : t.isST = true) (hsp : m.sp = .gl)
    (hmap : Mapped s (effAddr (tokWord x.a) disp) (t.width / 8) leaf level) (hl1 : s.core.l1 = []) (hty : field leaf 7 6 = 0)
    (hread : leaf.getLsbD 2 = true) (hu : Unbarred fr m.lsid) :
    ∃ u snaps, exec (.ld c t m disp) s = .next u ∧ s.SeenSame u
      ∧ u.core.frame = some ({ fr with snaps := snaps }.complete fr.cur (targetsOf (.ld c t m disp))
          (.s (loadWord t (mread s.mem (frameAddr leaf level (effAddr (tokWord x.a) disp)) (t.width / 8)))) 0 []) := by
  obtain ⟨tlb, l1, units, l, hbytes⟩ := hmap.readPieces h.frame q hu (Ty.isST_size ht) hl1 hty hread
  rw [← acquires_rlx hord, ← hsp] at hbytes
  refine ⟨_, l, (exec_ld c t m disp s).trans (fireLoad_bytes h hbytes rfl), ?_, ?_⟩
  · exact s.seenSame_recached tlb l1 units _ l _
  · simp [State.recached, State.onFrame, State.snapped, h.frame]

end Sys2Proof.Machine
end

section
/-!
PROOFS: the statement about loads.
-/
namespace Sys2Proof.Machine

/-- Settles O29: on-chip loads by the fold over their pieces, LD of a mapped page by the walk of its tables. -/
theorem loadsFire : Obligations.LoadsFire := by
  unfold Obligations.LoadsFire
  intro c t m disp s fr x hord q
  refine ⟨fun h ht hspc hin => ?_, fun h ht hspc hne hin => ?_, fun h ht hspc hne hin => ?_, fun h ht hspc hne hin => ?_, ?_, ?_⟩
  · have hload := ld_onChip h q hord hspc hin
    simp only [loadWord_eq] at hload
    exact hload
  · exact lanes_onChip (exec_vld c t m disp s) h q hord ht hspc (fun _ => Iff.rfl) (fun _ => rfl) (fun _ => rfl) hne hin
  · exact lanes_onChip (exec_vlds c t m disp s) h q hord ht hspc (fun _ => List.mem_eraseDups) (fun _ => rfl)
      (fun _ => congrArg (loadedVec _ _) (spread_oncePieces ..)) hne hin
  · exact lanes_onChip (exec_vgath c t m disp s) h q hord ht hspc (fun _ => List.mem_eraseDups) (fun _ => rfl)
      (fun _ => congrArg (loadedVec _ _) (spread_oncePieces ..)) hne hin
  · rintro i (rfl | rfl) h ht hlm
    · exact fireLoad_noLane (exec_vld c t m disp s) h hord ht (by rw [addrsTaken_nil hlm]; rfl) (by rw [addrsTaken_nil hlm])
    · exact fireLoad_noLane (exec_vlds c t m disp s) h hord ht (by rw [addrsTaken_nil hlm]; rfl) (by rw [addrsTaken_nil hlm])
  · intro leaf level h ht hsp hmap hl1 hty hread hu
    have hload := ld_mapped h q hord ht hsp hmap hl1 hty hread hu
    simp only [loadWord_eq] at hload
    exact hload

end Sys2Proof.Machine
end

section
/-!
SUPPORT: the system instructions as they fire, and the words that a core refuses whatever their operands (R16, R154, R306 to R317).
-/
namespace Sys2Proof.Machine

/-! ## Faults -/

/-- A fault that is not of uncorrectable data is recorded in the frame, and nothing else happens (R60, R383). -/
theorem settle_fault {cause : BitVec 8} (hc : cause ≠ 0x08) (s : State) (i : Instr) (idx : Nat) (addr : Word) :
    s.settle i idx (.fault { cause := cause, addr := addr }) = s.faultedWith i cause addr := by
  simp only [State.settle, State.uncorr, hc, if_false]
  rfl

theorem fireWith_fault {i : Instr} {s : State} {fr : Frame} {x : In} {f : State → In → State × Fired} {cause : BitVec 8} {addr : Word}
    (h : Fires i s fr x) (hf : f s x = (s, .fault { cause := cause, addr := addr })) (hc : cause ≠ 0x08) :
    fireWith i s f = .next ((s.markUnits (unitBits s.core.r i)).faultedWith i cause addr) := by
  rw [fireWith_fires h, hf]
  exact congrArg _ (settle_fault hc ..)

/-! ## What each word is (R309 to R317) -/

section
variable (c : Ctl) (s : State)

@[simp] theorem exec_psrRead (n : BitVec 13) : exec (.psrRead c n) s = execPsrRead c n s := rfl
@[simp] theorem exec_psrWrite (n : BitVec 13) : exec (.psrWrite c n) s = firePsr (.psrWrite c n) n s := rfl
@[simp] theorem exec_spctlWrite : exec (.spctlWrite c) s = firePsr (.spctlWrite c) 0x013 s := rfl
@[simp] theorem exec_spholdWrite : exec (.spholdWrite c) s = firePsr (.spholdWrite c) 0x012 s := rfl
@[simp] theorem exec_spptWrite : exec (.spptWrite c) s = firePsr (.spptWrite c) 0x011 s := rfl
@[simp] theorem exec_qwdWrite : exec (.qwdWrite c) s = firePsr (.qwdWrite c) 0x022 s := rfl
@[simp] theorem exec_contextAreaWrite (len : Bool) :
    exec (.contextAreaWrite c len) s = firePsr (.contextAreaWrite c len) (if len then 0x051 else 0x050) s := rfl
@[simp] theorem exec_dbgctlWrite : exec (.dbgctlWrite c) s = firePsr (.dbgctlWrite c) 0x040 s := rfl
@[simp] theorem exec_tresume : exec (.tresume c) s = fireSys (.tresume c) s fun x => .tresume (aNat x) (tokWord x.b) := rfl
@[simp] theorem exec_tresumeSame : exec (.tresumeSame c) s = fireSys (.tresumeSame c) s fun x => .tresumeSame (aNat x) := rfl
@[simp] theorem exec_tlbinvAll : exec (.tlbinvAll c) s = fireSys (.tlbinvAll c) s fun _ => .tlbAll := rfl
@[simp] theorem exec_tlbinvPage : exec (.tlbinvPage c) s = fireSys (.tlbinvPage c) s fun x => .tlbPage (tokWord x.a) := rfl
@[simp] theorem exec_tlbinvSpace : exec (.tlbinvSpace c) s = fireSys (.tlbinvSpace c) s fun x => .tlbSpace (tokWord x.a) := rfl
@[simp] theorem exec_ctxopSave : exec (.ctxopSave c) s = fireSys (.ctxopSave c) s fun x => .save (aNat x) (tokWord x.b) := rfl
@[simp] theorem exec_ctxopRestore :
    exec (.ctxopRestore c) s = fireSys (.ctxopRestore c) s fun x => .restore (aNat x) (tokWord x.b) := rfl
@[simp] theorem exec_ctxopKill : exec (.ctxopKill c) s = fireSys (.ctxopKill c) s fun x => .kill (aNat x) := rfl
@[simp] theorem exec_glaunch (o : CmdOpt) :
    exec (.glaunch c o) s = fireCommand (.glaunch c o) s fun _ x => descAddr (tokWord x.a) := rfl
@[simp] theorem exec_budgetSet : exec (.budgetSet c) s = fireSys (.budgetSet c) s fun x => .budgetSet (aNat x) (tokWord x.b) := rfl
@[simp] theorem exec_budgetAdd : exec (.budgetAdd c) s = fireSys (.budgetAdd c) s fun x => .budgetAdd (aNat x) (tokWord x.b) := rfl
@[simp] theorem exec_halt : exec (.halt c) s = fireSys (.halt c) s fun _ => .halt := rfl
@[simp] theorem exec_dbgStep : exec (.dbgStep c) s = fireSys (.dbgStep c) s fun x => .step (aNat x) := rfl
@[simp] theorem exec_dbgBrk : exec (.dbgBrk c) s = fireSys (.dbgBrk c) s fun x => .brk (aNat x) (tokWord x.b) := rfl
@[simp] theorem exec_dbgClrbrk : exec (.dbgClrbrk c) s = fireSys (.dbgClrbrk c) s fun x => .clrbrk (aNat x) := rfl
@[simp] theorem exec_cacheL1inv : exec (.cacheL1inv c) s = fireSys (.cacheL1inv c) s fun x => .l1inv (aNat x) := rfl
@[simp] theorem exec_cacheIcinv : exec (.cacheIcinv c) s = fireSys (.cacheIcinv c) s fun x => .icinv (aNat x) := rfl
@[simp] theorem exec_cacheL2wb : exec (.cacheL2wb c) s = fireSys (.cacheL2wb c) s fun x => .l2wb (tokWord x.a) := rfl

end

/-! ## On a supervisor core (R308, R309, R346) -/

/-- The registers of R346. -/
def listedPsrs : List (BitVec 13) :=
  [0x000, 0x001, 0x002, 0x003, 0x010, 0x011, 0x012, 0x013, 0x020, 0x021, 0x022, 0x030, 0x031, 0x040, 0x050, 0x051]

theorem psrRead_isSome {s : State} {d : Nat} {n : BitVec 13} : (psrRead s d n.toNat).isSome = true ↔ n ∈ listedPsrs := by
  simp only [listedPsrs, List.mem_cons, List.not_mem_nil, or_false, ← BitVec.toNat_inj]
  unfold psrRead
  dsimp only
  split <;> simp_all

section
variable {i : Instr} {s : State} {fr : Frame} {x : In} {n : BitVec 13}

theorem sys_leaves {op : In → SysOp} (hexec : exec i s = fireSys i s op) (h : Fires i s fr x) :
    exec i s = .next (s.firedWith i .null 0 [.sys (op x)]) :=
  hexec.trans (fireWith_done h rfl (by simp))

theorem psr_leaves (hexec : exec i s = firePsr i n s) (hn : n ∈ listedPsrs) (h : Fires i s fr x) :
    exec i s = .next (s.firedWith i .null 0 [.sys (.psr n (tokWord x.a))]) := by
  obtain ⟨w, hw⟩ := Option.isSome_iff_exists.1 (psrRead_isSome (s := s) (d := myDie s).2 hn)
  exact hexec.trans (fireWith_done h (by simp only [hw]) (by simp))

theorem psr_unlisted (hexec : exec i s = firePsr i n s) (hn : n ∉ listedPsrs) (h : Fires i s fr x) :
    exec i s = .next ((s.markUnits (unitBits s.core.r i)).faultedWith i cIllegal 0) := by
  have hw : psrRead s (myDie s) n.toNat = none := Option.not_isSome_iff_eq_none.1 (mt psrRead_isSome.1 hn)
  exact hexec.trans (fireWith_fault h (by simp only [hw]) (by decide))

end

/-! ## Refusals -/

theorem refusedHere_privilege {k : Core} {i : Instr} (hi : isSystem i = true) (hk : k.id < 1024) : refusedHere k i = some cPriv := by
  have hsup : isSup k.id = false := decide_eq_false (by omega)
  simp [refusedHere, hi, hsup]

theorem refusedHere_absent {k : Core} {i : Instr} (hi : notOnSupervisor i = true) (hk : 1024 ≤ k.id) :
    refusedHere k i = some cIllegal := by
  have hsup : isSup k.id = true := decide_eq_true hk
  simp [refusedHere, hi, hsup]

/-- Each slot that the instruction at the current index takes holds a token that is no null (R48, R49). -/
def Filled (fr : Frame) (i : Instr) : Prop :=
  ∀ sl ∈ [Slot.a, Slot.b, Slot.c], needOf i sl ≠ .no → ∃ t, fr.slot fr.cur sl = some t ∧ t ≠ .null

section
variable {i : Instr} {fr : Frame}

theorem Filled.slot (h : Filled fr i) {sl : Slot} (hsl : sl ∈ [Slot.a, Slot.b, Slot.c]) :
    slotReady fr fr.cur (needOf i sl) sl = true ∧ (needOf i sl != .no && (fr.slot fr.cur sl).getD .null == .null) = false := by
  by_cases hn : needOf i sl = .no
  · simp [slotReady, hn]
  · obtain ⟨t, ht, hnull⟩ := h sl hsl hn
    simp [slotReady, ht, hnull]

theorem Filled.dataReady (h : Filled fr i) : dataReady fr fr.cur i = true := by
  have ha := (h.slot (sl := .a) (by simp)).1
  have hb := (h.slot (sl := .b) (by simp)).1
  have hc := (h.slot (sl := .c) (by simp)).1
  simp only [needOf] at ha hb hc
  simp [Machine.dataReady, ha, hb, hc]

theorem Filled.hasNull (h : Filled fr i) (lm : Mask) : hasNull i (inputs fr fr.cur lm) = false := by
  have ha := (h.slot (sl := .a) (by simp)).2
  have hb := (h.slot (sl := .b) (by simp)).2
  have hc := (h.slot (sl := .c) (by simp)).2
  simp only [needOf] at ha hb hc
  simp only [Machine.hasNull, inputs, ha, hb, hc, Bool.or_self, Bool.and_false]

/-- A selected instruction that its core refuses faults before it has a meaning (R16, R154). -/
theorem fireWith_refused {c : Ctl} {lm : Mask} {s : State} {cause : BitVec 8} (hctl : ctlOf i = some c) (hfr : s.core.frame = some fr)
    (hun : fr.fired.getLsbD fr.cur = false) (hsel : Selects c (fr.slot fr.cur .p) lm) (hfill : Filled fr i)
    (href : refusedHere s.core i = some cause) (hcause : cause ≠ 0x08) (f : State → In → State × Fired) :
    fireWith i s f = .next (s.faultedWith i cause 0) := by
  unfold fireWith
  rw [hfr, hctl]
  dsimp only
  rw [hun, selectP_on hsel]
  simp only [Bool.false_eq_true, if_false, hfill.dataReady, Bool.not_true, hfill.hasNull, href, settle_fault hcause]

end

/-! ## Which words are firings -/

/-- The outcome is that of a firing of `i` with some meaning. -/
def IsFiring (i : Instr) (s : State) (o : Host.Outcome State Fault Refusal) : Prop := ∃ f, o = fireWith i s f

@[simp] theorem isFiring_fireWith (i : Instr) (s : State) (f : State → In → State × Fired) : IsFiring i s (fireWith i s f) := ⟨f, rfl⟩

/-- A COLLW on a core that holds a frame fires, whether its status word makes it trap or not (R264). -/
theorem isFiring_fireCollw {s : State} {fr : Frame} (hfr : s.core.frame = some fr) (i : Instr) (test : Bool) :
    IsFiring i s (fireCollw i test s) := by
  simp only [fireCollw, hfr, fireTicket]
  split
  · exact isFiring_fireWith ..
  · exact isFiring_fireWith ..

theorem isFiring_of_isSystem {i : Instr} (hi : isSystem i = true) (s : State) : IsFiring i s (exec i s) := by
  fun_cases isSystem i
  -- the words of no system major
  case case27 => simp_all [isSystem]
  all_goals simp [execPsrRead, firePsr, fireSys, fireCommand]

theorem isFiring_of_notOnSupervisor {i : Instr} (hi : notOnSupervisor i = true) {s : State} {fr : Frame}
    (hfr : s.core.frame = some fr) : IsFiring i s (exec i s) := by
  fun_cases notOnSupervisor i
  -- the words that supervisor cores have
  case case44 => simp_all [notOnSupervisor]
  all_goals simp only [exec, execSpawn, execBarInit, execBarArrive, execBarWait, execBarSync, execMzero, execMma, execMmag, execGmma,
    execMlda, execMsta, execMwait, execMwaitTest, execRgrp, execRtopk, execRbin, execBpermRequest, execBpermOpen, execDspat, execCmbn,
    execBrel, execExpld, execCollAr, execCollRs, execCollAg, execCollA2a, execCollBc, execCollOp, execCollw, execCollwTest, execSigcfg,
    execSigid, execSigstep, execSigstrm, execSigjoin, execSiglog, execSigexp, execSiginv, execSigscl, execSigmovCv, execSigmovVc,
    execSigmovSs, execSigmovSl, fireRoute, fireCommand, fireTicket, isFiring_fireCollw hfr, isFiring_fireWith]

end Sys2Proof.Machine
end

section
/-!
PROOFS: the statement about system instructions.
-/
namespace Sys2Proof.Machine

/-- Settles O44: the operation of each word by its firing, the refusals by the checks that precede every meaning. -/
theorem systemInstructions : Obligations.SystemInstructions := by
  unfold Obligations.SystemInstructions
  refine ⟨fun c s fr x => ?_, fun i c lm s fr hctl hfr hun hsel hfill => ⟨fun hi hid => ?_, fun hi hid => ?_⟩⟩
  · refine ⟨fun n => ⟨psr_leaves (exec_psrWrite ..), psr_unlisted (exec_psrWrite ..)⟩, psr_leaves (exec_spctlWrite ..) (by decide),
      psr_leaves (exec_spholdWrite ..) (by decide), psr_leaves (exec_spptWrite ..) (by decide),
      psr_leaves (exec_qwdWrite ..) (by decide), psr_leaves (exec_contextAreaWrite ..) (by decide),
      psr_leaves (exec_contextAreaWrite ..) (by decide), psr_leaves (exec_dbgctlWrite ..) (by decide), sys_leaves (exec_tresume ..),
      sys_leaves (exec_tresumeSame ..), sys_leaves (exec_tlbinvAll ..), sys_leaves (exec_tlbinvPage ..),
      sys_leaves (exec_tlbinvSpace ..), sys_leaves (exec_ctxopSave ..), sys_leaves (exec_ctxopRestore ..),
      sys_leaves (exec_ctxopKill ..), sys_leaves (exec_budgetSet ..), sys_leaves (exec_budgetAdd ..), sys_leaves (exec_halt ..),
      sys_leaves (exec_dbgStep ..), sys_leaves (exec_dbgBrk ..), sys_leaves (exec_dbgClrbrk ..), sys_leaves (exec_cacheL1inv ..),
      sys_leaves (exec_cacheIcinv ..), sys_leaves (exec_cacheL2wb ..)⟩
  · obtain ⟨f, hf⟩ := isFiring_of_isSystem hi s
    rw [hf]
    exact fireWith_refused hctl hfr hun hsel hfill (refusedHere_privilege hi hid) (by decide) f
  · obtain ⟨f, hf⟩ := isFiring_of_notOnSupervisor hi hfr
    rw [hf]
    exact fireWith_refused hctl hfr hun hsel hfill (refusedHere_absent hi hid) (by decide) f

end Sys2Proof.Machine
end

section
/-!
SUPPORT: the scalar accesses that fault: where no piece leads anywhere, and what the instruction records (R60, R97 to R100, R371 to R375).
-/
namespace Sys2Proof.Machine

/-! ## Outside an on-chip space (R99, R100, R105) -/

/-- An address that is no multiple of its size leads nowhere, whatever its space: Alignment comes before every other fault (R100, log 10). -/
theorem resolveIn_misaligned {va n : Nat} (hal : va % n ≠ 0) (s : State) (memo : Memo) (spc : Space) (size : Nat) (k : AccKind) (st32 : Bool) :
    resolveIn s memo s.core spc va size n k st32 = (s, memo, .error { cause := cAlign, addr := BitVec.ofNat 64 va }) := by
  simp only [resolveIn, hal, ne_eq, not_false_eq_true, if_true]

section
variable {va n : Nat} (hal : va % n = 0) (s : State) (memo : Memo) (k : AccKind) (st32 : Bool)
include hal

theorem resolveIn_outsideFootprint {spc : Space} (hspc : spc = .sp ∨ spc = .sw) (hout : s.core.footprint < va + n) :
    resolveIn s memo s.core spc va n n k st32 = (s, memo, .error { cause := cBounds, addr := BitVec.ofNat 64 va }) := by
  rcases hspc with rfl | rfl <;>
    simp only [resolveIn, hal, Nat.not_le.2 hout, ne_eq, not_true_eq_false, if_false]

theorem resolveIn_outsideWindow (hout : ((s.die (dieOfCore s.core.id)).window s.core.space).2 < va + n) :
    resolveIn s memo s.core .sb va n n k st32 = (s, memo, .error { cause := cBounds, addr := BitVec.ofNat 64 va }) := by
  simp only [resolveIn, hal, Nat.not_le.2 hout, ne_eq, not_true_eq_false, if_false]

theorem resolveIn_beyondRanks (hsup : isSup s.core.id = false) (hhi : 2 ^ 26 ≤ va) :
    resolveIn s memo s.core .nb va n n k st32 = (s, memo, .error { cause := cBounds, addr := BitVec.ofNat 64 va }) := by
  have hz : va / 2 ^ 26 ≠ 0 := Nat.pos_iff_ne_zero.1 (Nat.div_pos hhi (Nat.two_pow_pos 26))
  simp only [resolveIn, hal, hsup, hz, ne_eq, not_true_eq_false, not_false_eq_true, Bool.false_eq_true, if_false, if_true]

/-- With no high bits an address of .nb names a rank; the gang may lack it. -/
theorem resolveIn_noMember (hsup : isSup s.core.id = false) (hhi : va < 2 ^ 26) (hrank : s.core.gsize ≤ va / 2 ^ 20) :
    resolveIn s memo s.core .nb va n n k st32 = (s, memo, .error { cause := cIllegal, addr := BitVec.ofNat 64 va }) := by
  have hz : va / 2 ^ 26 = 0 := Nat.div_eq_of_lt hhi
  have hr : va / 2 ^ 20 % 64 = va / 2 ^ 20 := Nat.mod_eq_of_lt (by omega)
  simp only [resolveIn, hal, hsup, hz, hr, hrank, ne_eq, not_true_eq_false, Bool.false_eq_true, if_false, if_true]

theorem resolveIn_outsideMember (hsup : isSup s.core.id = false) (hhi : va < 2 ^ 26) (hrank : va / 2 ^ 20 < s.core.gsize)
    (hout : s.core.footprint < va % 2 ^ 20 + n) :
    resolveIn s memo s.core .nb va n n k st32 = (s, memo, .error { cause := cBounds, addr := BitVec.ofNat 64 va }) := by
  have hz : va / 2 ^ 26 = 0 := Nat.div_eq_of_lt hhi
  have hr : va / 2 ^ 20 % 64 = va / 2 ^ 20 := Nat.mod_eq_of_lt (by omega)
  simp only [resolveIn, hal, hsup, hz, hr, Nat.not_le.2 hrank, hout, ne_eq, not_true_eq_false, Bool.false_eq_true, if_false, if_true]

/-! ## A global address that leads nowhere (R97, R371 to R375) -/

theorem resolveIn_beyondGlobal (hout : 2 ^ 57 < va + n) :
    resolveIn s memo s.core .gl va n n k st32 = (s, memo, .error { cause := cNotPresent, addr := BitVec.ofNat 64 va }) := by
  simp only [resolveIn, hal, translateIn, hout, ne_eq, not_true_eq_false, if_false, if_true]

/-- An address for which the walk finds no leaf gives the fault of the walk. -/
theorem resolveIn_noLeaf {u : State} {e : XErr} (hin : va + n ≤ 2 ^ 57)
    (hleaf : leafFor s (s.partOfCore s.core.id) s.core.space va (BitVec.ofNat 64 va) = (u, .error e)) :
    ∃ memo, resolveIn s [] s.core .gl va n n k st32 = (u, memo, .error e) := by
  simp only [resolveIn, hal, translateIn, Nat.not_lt.2 hin, leafOnce, hleaf, List.find?_nil, ne_eq, not_true_eq_false, if_false]
  exact ⟨_, rfl⟩

end

/-- A mapped page whose leaf does not allow the access: Access Rights, with REM for a page of another endpoint (R375, R379). -/
theorem Mapped.resolveIn_noRights {s : State} {va n level : Nat} {leaf : Word} {k : AccKind} {st32 : Bool} (h : Mapped s va n leaf level)
    (hright : rightsOk leaf k st32 = false) :
    ∃ tlb memo, Machine.resolveIn s [] s.core .gl va n n k st32 = (s.recached tlb s.core.l1 s.core.units, memo,
      .error { cause := cRights, addr := BitVec.ofNat 64 va, rem := field leaf 7 6 == 1 }) := by
  obtain ⟨tlb, hleaf⟩ := h.leafFor (BitVec.ofNat 64 va)
  simp only [Machine.resolveIn, h.aligned, translateIn, Nat.not_lt.2 h.inside, leafOnce, List.find?_nil, hleaf, hright, Bool.not_false,
    ne_eq, not_true_eq_false, if_false, if_true]
  exact ⟨_, _, rfl⟩

theorem rightsOk_load {leaf : Word} (h : leaf.getLsbD 2 = false ∨ field leaf 7 6 = 2) : rightsOk leaf .load false = false := by
  unfold rightsOk
  split
  next => rfl
  next hty => exact h.resolve_right hty

theorem rightsOk_store {leaf : Word} {st32 : Bool} (h : leaf.getLsbD 3 = false ∨ field leaf 7 6 = 2 ∧ st32 = false) :
    rightsOk leaf .store st32 = false := by
  rcases h with hw | ⟨hty, rfl⟩
  · unfold rightsOk
    split <;> simp only [bitAt, hw, Bool.and_false]
  · simp [rightsOk, hty]

/-! ## A walk that ends at no leaf (R371 to R374) -/

theorem enter_invalid {e : Word} (h : e.getLsbD 0 = false) (dies : BitVec 4) (own : BitVec 9) (addr : Word) (level : Nat) :
    enter dies own addr level e = .bad { cause := cNotPresent, addr := addr } := by
  simp only [enter, bitAt, h, Bool.not_false, if_true]

/-- A valid entry that is a malformed leaf or a malformed pointer ends the walk with MAL (R372 to R374, log 19, log 88). -/
theorem enter_malformed {dies : BitVec 4} {own : BitVec 9} {level : Nat} {e : Word} (hv : e.getLsbD 0 = true)
    (hbad : (if e.getLsbD 1 then badLeaf dies own level e else badPointer dies level e) = true) (addr : Word) :
    enter dies own addr level e = .bad { cause := cNotPresent, addr := addr, mal := true } := by
  cases hp : e.getLsbD 1 <;> simp_all [enter, bitAt]

/-- The way from a place where only one entry may serve, and that one ends the walk. -/
theorem State.ways_bad {s : State} {p n va table : Nat} {space : BitVec 16} {addr e : Word} {x : XErr}
    (hbad : s.bad (s.entryKey n va table) 8 = false)
    (hserved : s.served p space n va (s.entryKey n va table) = [e])
    (he : enter (s.part p).dies (s.part p).endp addr n e = .bad x) :
    s.ways p space va addr table n = [{ through := [], fin := .inr x }] := by
  obtain ⟨r, hr⟩ := State.ways_step (s := s) (p := p) (space := space) (va := va) (addr := addr) (table := table) (n := n)
  rw [hr]
  simp only [State.ways._f, hbad, hserved, he, Bool.false_eq_true, if_false, List.flatMap_cons, List.flatMap_nil, List.append_nil]

/-- Nothing but the tables as they stand takes part in a translation: no entry is cached, no page moves, and no check-bit error lies anywhere. -/
structure Uncached (s : State) : Prop where
  tlb : s.tlb = []
  migs : s.migs = []
  bad : s.badGran = []
  soft : s.softGran = []

/-- The only way is the walk of the tables as they stand, and it ends with the fault of the entry that it meets. -/
theorem WalkMeets.ways_bad {s : State} {p va table level l : Nat} {e : Word} {space : BitVec 16} {addr : Word} {x : XErr} (hs : Uncached s)
    (hw : WalkMeets s (s.part p).dies va table level e l) (he : enter (s.part p).dies (s.part p).endp addr l e = .bad x) :
    ∃ through, s.ways p space va addr table level = [{ through := through, fin := .inr x }] := by
  induction hw with
  | here table level =>
    exact ⟨_, State.ways_bad (State.bad_nil hs.bad _ _) (by rw [State.served_eq hs.tlb, State.entryKey_eq hs.migs]) he⟩
  | next table level e l hv hp hb _ ih =>
    obtain ⟨through, hrest⟩ := ih he
    have htable : enter (s.part p).dies (s.part p).endp addr (level + 1) (s.readWord (s.entryKey (level + 1) va table))
        = .table (field (s.readWord (table + 8 * vaIndex (level + 1) va)) 39 8 * 256) := by
      simp only [State.entryKey_eq hs.migs, enter, bitAt, hv, hp, hb, Bool.not_true, Bool.false_eq_true, if_false]
    rw [State.ways_table (State.bad_nil hs.bad _ _) (State.served_eq hs.tlb ..) htable, hrest]
    exact ⟨_, rfl⟩

/-- A root table that lies on no die of the partition is malformed (R351, R374). -/
theorem Uncached.leafFor_noRoot {s : State} (hs : Uncached s) {p : Nat} {space : BitVec 16} (hroot : (s.part p).rootOk space = false)
    (va : Nat) (addr : Word) :
    leafFor s p space va addr
      = (s.recached [] s.core.l1 s.core.units, .error { cause := cNotPresent, addr := addr, mal := true }) := by
  simp only [leafFor, hroot, hs.tlb, Bool.not_false, if_true, List.filter_nil, List.map_nil, List.append_nil, distinctEnds, State.choose,
    List.foldl_nil]
  rfl

/-- A walk that ends in a fault gives that fault; the entries on the way are cached. -/
theorem Uncached.leafFor_bad {s : State} (hs : Uncached s) {p va l : Nat} {space : BitVec 16} {addr e : Word} {x : XErr}
    (hroot : (s.part p).rootOk space = true)
    (hw : WalkMeets s (s.part p).dies va (field ((s.part p).root space) 39 12 * 4096) 4 e l)
    (he : enter (s.part p).dies (s.part p).endp addr l e = .bad x) :
    ∃ tlb, leafFor s p space va addr = (s.recached tlb s.core.l1 s.core.units, .error x) := by
  obtain ⟨through, hways⟩ := hw.ways_bad (space := space) hs he
  simp only [leafFor, hroot, Bool.not_true, Bool.false_eq_true, if_false, State.walkCorrected_nil hs.soft, hways, hs.tlb, List.filter_nil,
    List.map_nil, List.append_nil, distinctEnds, State.choose]
  exact ⟨_, rfl⟩

/-! ## The firing of LD and ST -/

/-- LD or ST (R219). -/
def scalarAccess (store : Bool) (c : Ctl) (t : Ty) (m : MemF) (disp : BitVec 20) : Instr := if store then .st c t m disp else .ld c t m disp

/-- What it does to its bytes (R375). -/
def scalarKind (store : Bool) : AccKind := if store then .store else .load

theorem exec_st (c : Ctl) (t : Ty) (m : MemF) (disp : BitVec 20) (s : State) : exec (.st c t m disp) s
    = fireStore (.st c t m disp) s m (isSt32 t) fun x =>
        [({ addr := effAddr (tokWord x.a) disp, size := t.width / 8 }, wholeBytes (t.width / 8) (tokWord x.b).toNat)] := rfl

theorem resolveAll_single {s u : State} {memo : Memo} {spc : Space} {p : Piece} {k : AccKind} {st32 : Bool}
    {r : Except XErr (Phys × View)} (hr : resolveIn s [] s.core spc p.addr p.size p.size k st32 = (u, memo, r)) :
    resolveAll s.core spc k st32 [p] s = (u, [r]) := by
  simp only [resolveAll, resolveOnce, hr]

/-- A fault that is not of uncorrectable data is recorded in the frame with all that the trap record says of it (R60, R379, R383). -/
theorem settle_recordsFault {e : XErr} (he : e.cause ≠ 0x08) (s : State) (i : Instr) (idx : Nat) :
    s.settle i idx (.fault e) = s.onFrame fun fr => fr.recordFault i e := by
  simp only [State.settle, State.uncorr, he, if_false]

theorem fireLoad_fault {i : Instr} {s u : State} {fr : Frame} {x : In} {m : MemF} {pieces : In → List Piece}
    {out : In → List (List Byte) → Tok × Flags} {e : XErr} (h : Fires i s fr x)
    (hr : s.readPieces m.lsid.toNat m.sp (acquires m) (pieces x) = (u, .err e)) (he : e.cause ≠ 0x08) :
    fireLoad i s m pieces out = .next ((u.markUnits (unitBits s.core.r i)).onFrame fun f => f.recordFault i e) := by
  rw [fireLoad, fireWith_fires h, hr]
  exact congrArg _ (settle_recordsFault he ..)

theorem fireStore_fault {i : Instr} {s u : State} {fr : Frame} {x : In} {m : MemF} {st32 : Bool}
    {pieces : In → List (Piece × List (Byte × Byte))} {e : XErr} (h : Fires i s fr x)
    (hr : s.storePieces m.lsid.toNat m.sp m.ord.isRel st32 (pieces x) = (u, .error e)) (he : e.cause ≠ 0x08) :
    fireStore i s m st32 pieces = .next ((u.markUnits (unitBits s.core.r i)).onFrame fun f => f.recordFault i e) := by
  rw [fireStore, fireWith_fires h, hr]
  exact congrArg _ (settle_recordsFault he ..)

theorem readPieces_single_fault {s u : State} {memo : Memo} {spc : Space} {p : Piece} {e : XErr}
    (hr : resolveIn s [] s.core spc p.addr p.size p.size .load false = (u, memo, .error e)) (lsid : Nat) (acq : Bool) :
    s.readPieces lsid spc acq [p] = (u, .err e) := by
  rw [State.readPieces, resolveAll_single hr]
  rfl

theorem storePieces_single_fault {s u : State} {memo : Memo} {spc : Space} {st32 : Bool} {p : Piece} {e : XErr}
    (hr : resolveIn s [] s.core spc p.addr p.size p.size .store st32 = (u, memo, .error e)) (lsid : Nat) (rel : Bool)
    (bs : List (Byte × Byte)) : s.storePieces lsid spc rel st32 [(p, bs)] = (u, .error e) := by
  rw [State.storePieces, List.map_singleton, resolveAll_single hr]
  rfl

/-- LD and ST whose address leads nowhere record its fault, in the state that the translation leaves. -/
theorem exec_scalarAccess_fault {store : Bool} {c : Ctl} {t : Ty} {m : MemF} {disp : BitVec 20} {s u : State} {fr : Frame} {x : In}
    {memo : Memo} {e : XErr} (h : Fires (scalarAccess store c t m disp) s fr x)
    (hr : resolveIn s [] s.core m.sp (effAddr (tokWord x.a) disp) (t.width / 8) (t.width / 8) (scalarKind store) (store && isSt32 t)
      = (u, memo, .error e)) (he : e.cause ≠ 0x08) :
    exec (scalarAccess store c t m disp) s
      = .next ((u.markUnits 0).onFrame fun fr => fr.recordFault (scalarAccess store c t m disp) e) := by
  cases store with
  | false => exact (exec_ld c t m disp s).trans (fireLoad_fault h (readPieces_single_fault hr ..) he)
  | true => exact (exec_st c t m disp s).trans (fireStore_fault h (storePieces_single_fault hr ..) he)

/-- The same where the translation has changed caches alone: nothing that a program sees changes but the frame. -/
theorem exec_scalarAccess_miss {store : Bool} {c : Ctl} {t : Ty} {m : MemF} {disp : BitVec 20} {s : State} {fr : Frame} {x : In}
    {tlb : List Tlb} {l1 : List L1Line} {units : BitVec 12} {memo : Memo} {e : XErr} (h : Fires (scalarAccess store c t m disp) s fr x)
    (hr : resolveIn s [] s.core m.sp (effAddr (tokWord x.a) disp) (t.width / 8) (t.width / 8) (scalarKind store) (store && isSt32 t)
      = (s.recached tlb l1 units, memo, .error e)) (he : e.cause ≠ 0x08) :
    ∃ u, exec (scalarAccess store c t m disp) s = .next u ∧ s.SeenSame u
      ∧ u.core.frame = some (fr.recordFault (scalarAccess store c t m disp) e) := by
  have hframe : (s.recached tlb l1 units).core.frame = some fr := h.frame
  refine ⟨_, exec_scalarAccess_fault h hr he, ?_, by simp [hframe]⟩
  rw [← State.snapped_snaps hframe]
  exact s.seenSame_recached ..

end Sys2Proof.Machine
end

section
/-!
PROOFS: the statement about the faults of scalar accesses.
-/
namespace Sys2Proof.Machine

/-- Settles O31: where the address leads in its space, clause by clause, and the record that LD and ST make of a fault there. -/
theorem accessFaults : Obligations.AccessFaults := by
  unfold Obligations.AccessFaults
  intro c t m disp store s fr x i _ h a va n off fails misses p root
  have haddr : BitVec.ofNat 64 va = a := BitVec.ofNat_toNat ..
  have hfails {cause : BitVec 8} (hc : cause ≠ 0x08) (hr : resolveIn s [] s.core m.sp va n n (scalarKind store) (store && isSt32 t)
      = (s, [], .error { cause := cause, addr := BitVec.ofNat 64 va })) : fails cause := by
    rw [haddr] at hr
    exact exec_scalarAccess_fault h hr hc
  have hmisses (hal : va % n = 0) (hsp : m.sp = .gl) (hin : va + n ≤ 2 ^ 57) {tlb : List Tlb} {mal : Bool}
      (hleaf : leafFor s (s.partOfCore s.core.id) s.core.space va (BitVec.ofNat 64 va)
        = (s.recached tlb s.core.l1 s.core.units, .error { cause := cNotPresent, addr := BitVec.ofNat 64 va, mal := mal })) :
      misses cNotPresent mal false := by
    obtain ⟨memo, hr⟩ := resolveIn_noLeaf hal s (scalarKind store) (store && isSt32 t) hin hleaf
    rw [haddr, ← hsp] at hr
    exact exec_scalarAccess_miss h hr (by decide : cNotPresent ≠ 0x08)
  refine ⟨fun hal => hfails (by decide) (resolveIn_misaligned hal ..), fun hal => ⟨fun hsp hout => ?_, fun hsp hout => ?_,
    fun hsp hsup => ⟨fun hhi => ?_, fun hhi hrank => ?_, fun hhi hrank hout => ?_⟩, fun hsp hout => ?_,
    fun hsp hin htlb hbad hsoft hmigs => ⟨fun hroot => ?_, fun e level hroot hwalk => ⟨fun hv => ?_, fun hv hmal => ?_,
      fun hv hleaf hgood hright => ?_⟩⟩⟩⟩
  · exact hfails (by decide) (resolveIn_outsideFootprint hal s _ _ _ hsp hout)
  · exact hfails (by decide) (hsp ▸ resolveIn_outsideWindow hal s _ _ _ hout)
  · exact hfails (by decide) (hsp ▸ resolveIn_beyondRanks hal s _ _ _ hsup hhi)
  · exact hfails (by decide) (hsp ▸ resolveIn_noMember hal s _ _ _ hsup hhi hrank)
  · exact hfails (by decide) (hsp ▸ resolveIn_outsideMember hal s _ _ _ hsup hhi hrank hout)
  · exact hfails (by decide) (hsp ▸ resolveIn_beyondGlobal hal s _ _ _ hout)
  · exact hmisses hal hsp hin (Uncached.leafFor_noRoot ⟨htlb, hmigs, hbad, hsoft⟩ hroot ..)
  · obtain ⟨tlb, hmiss⟩ := Uncached.leafFor_bad ⟨htlb, hmigs, hbad, hsoft⟩ hroot hwalk (enter_invalid hv ..)
    exact hmisses hal hsp hin hmiss
  · obtain ⟨tlb, hmiss⟩ := Uncached.leafFor_bad ⟨htlb, hmigs, hbad, hsoft⟩ hroot hwalk (enter_malformed hv hmal _)
    exact hmisses hal hsp hin hmiss
  · have hmap : Mapped s va n e level := ⟨hal, hin, htlb, hmigs, hbad, hsoft, hroot, hwalk, hv, hleaf, hgood⟩
    have hdenied : rightsOk e (scalarKind store) (store && isSt32 t) = false := by
      cases store with
      | false => exact rightsOk_load hright
      | true => exact rightsOk_store (hright.imp_right fun ⟨hty, h32, hn32⟩ => ⟨hty, by simp [isSt32, h32, hn32]⟩)
    obtain ⟨tlb, memo, hr⟩ := hmap.resolveIn_noRights hdenied
    rw [haddr, ← hsp] at hr
    exact exec_scalarAccess_miss h hr (by decide : cRights ≠ 0x08)

end Sys2Proof.Machine
end
